-- ==== Sys2Proof/Word.lean ====
section
/-! DEFINITION. The word types of the Cerong: bytes, 64-bit words, and the numbers that name registers (R7, R24, R27). -/

namespace Sys2Proof

/-- One byte. -/
abbrev Byte := BitVec 8

/-- One 64-bit word: a scalar register, a control register, an effective address. -/
abbrev W64 := BitVec 64

/-- A scalar or vector register number, 0 to 63 (R27). -/
abbrev Reg := BitVec 6

/-- A mask or predicate register number, 0 to 7 (R27). -/
abbrev PReg := BitVec 3

/-- A program counter, 56 bits (R25, R54). -/
abbrev PC := BitVec 56

end Sys2Proof
end

