-- ==== Sys2Proof/Syntax.lean ====
section
/-! DEFINITION. The instruction set: one constructor of `Instr` per row of spec/opcode_table.json. The 209 instructions
carry their decoded fields (R24 to R31); the 81 other rows are the steps of the part that are no instruction, and carry the
data of the step. -/

namespace Sys2Proof

/-- Guard and hints (R28, R29): what every instruction carries. -/
structure Ctl where
  /-- The guard predicate G. -/
  g : PReg := 0
  /-- GN: the guard is negated. -/
  gn : Bool := false
  yld : Bool := false
  hold : Bool := false
  stall : BitVec 3 := 0
  deriving DecidableEq, Repr, Inhabited

/-- Rounding mode fields: RM of the prefix (R30) and SUB[2:0] of scalar FP (R109). -/
inductive RMode where
  | dyn | rne | rtz | rdn | rup | rmm | sr
  deriving DecidableEq, Repr, Inhabited

/-- A prefix whose reserved bits are zero and whose RM is not 111 (R30, R31). -/
structure Pfx where
  msk : PReg := 0
  rm : RMode := .dyn
  e : Reg := 0
  zp : Bool := false
  ev : Bool := false
  deriving DecidableEq, Repr, Inhabited

/-- Access sizes `.b .h .w .d` (R134, R218). -/
inductive Size where
  | b | h | w | d
  deriving DecidableEq, Repr, Inhabited

/-- Conditions of `cmp` (R107). -/
inductive Cmp where
  | eq | ne | lt | ge | ltu | geu
  deriving DecidableEq, Repr, Inhabited

/-- Conditions of `fcmp` and `vfcmp` (R111). -/
inductive FCmp where
  | eq | lt | le | un | ne
  deriving DecidableEq, Repr, Inhabited

/-- Conditions of `vcmp` (R138). -/
inductive VCmp where
  | eq | ne | lt | ge
  deriving DecidableEq, Repr, Inhabited

/-- Kinds of `fcvt.s` (R112). -/
inductive CvtS where
  | fl | flu | tl | tlu | tw | twu | fo | fbf | tbf | fh | th
  deriving DecidableEq, Repr, Inhabited

/-- Kinds of `fcvt.d` (R112). -/
inductive CvtD where
  | fl | flu | tl | tlu | tw | twu | fo
  deriving DecidableEq, Repr, Inhabited

/-- Sign operations of `fsgn` and `vfsgn` (R113). -/
inductive Sgn where
  | cp | neg | xor
  deriving DecidableEq, Repr, Inhabited

/-- Atomic operations (R220). -/
inductive AmoOp where
  | add | swap | and | or | xor | min | max | maxu
  deriving DecidableEq, Repr, Inhabited

/-- Scopes (R219). -/
inductive Scope where
  | core | pav | die | pkg | sys
  deriving DecidableEq, Repr, Inhabited

/-- Kinds of a fence (R223). -/
inductive FenceKind where
  | acq | rel | full
  deriving DecidableEq, Repr, Inhabited

/-- Kinds of `tlbinv` (R262). -/
inductive TlbKind where
  | page | range | all
  deriving DecidableEq, Repr, Inhabited

/-- Widths of vector memory elements (R225). -/
inductive VW where
  | b | h | w | d | n | l6
  deriving DecidableEq, Repr, Inhabited

/-- Tie policies of the witness reductions (R190). -/
inductive Tie where
  | first | last | split
  deriving DecidableEq, Repr, Inhabited

/-- Reaches of `vsettle` (R169). -/
inductive Reach where
  | all | g1 | g2 | g4 | g8
  deriving DecidableEq, Repr, Inhabited

/-- Presence states (R62). -/
inductive Presence where
  | pres | pend | flt | pois
  deriving DecidableEq, Repr, Inhabited

/-- Operands `hopnd` can name (R165). -/
inductive Opnd where
  | a | b | c | sa | sb | p | pc
  deriving DecidableEq, Repr, Inhabited

/-- Kinds of `tginv` (R236). -/
inductive TgKind where
  | entry | key | all
  deriving DecidableEq, Repr, Inhabited

/-- A core site (R40). -/
structure Site where
  chip : BitVec 10 := 0
  die : BitVec 3 := 0
  pav : BitVec 2 := 0
  row : BitVec 4 := 0
  col : BitVec 4 := 0
  deriving DecidableEq, Repr, Inhabited

/-- The three pipes (R272). -/
inductive Pipe where
  | a | m | x
  deriving DecidableEq, Repr, Inhabited

/-- A task as the host names it: the thread that holds it, or the save slot that does (R280, R344). -/
inductive ThreadName where
  | live (core thr : Nat)
  | saved (part slot : Nat)
  deriving DecidableEq, Repr, Inhabited

/-- A reservation request on its way (R325): the sender, its fabric partition identifier, and the command's number there. -/
structure ResReq where
  src : Site
  fabric : Nat
  id : Nat
  dst : Site
  zone : BitVec 4
  deriving DecidableEq, Repr, Inhabited

/-- The answer to a reservation request (R325): the slot granted, or the reason of R322. -/
structure ResAns where
  dst : Site
  id : Nat
  granted : Bool
  value : Nat
  deriving DecidableEq, Repr, Inhabited

/-- A put or a forward on its way (R326, R331): bytes, and which of its 8-byte granules are poisoned. -/
structure Land where
  src : Site
  fabric : Nat
  id : Nat
  dst : Site
  zone : BitVec 4
  slot : BitVec 6
  bytes : List Byte
  pois : List Nat
  deriving DecidableEq, Repr, Inhabited

/-- The acknowledgement of a put or forward (R326); cause 0 is success, otherwise the cause of R319. -/
structure Ack where
  dst : Site
  id : Nat
  cause : Nat
  deriving DecidableEq, Repr, Inhabited

/-- A bid on its way to the home dispatcher (R301). -/
structure Bid where
  pav : Nat
  serial : Nat
  core : Nat
  cost : Nat
  deriving DecidableEq, Repr, Inhabited

/-- A gang message (R304, R305): the gang, the chip and the member it is for, and the member it is from; for an abort after a
commit, the member that is missing. -/
structure GangMsg where
  gang : Nat
  chip : Nat
  toIdx : Nat
  fromIdx : Nat
  /-- An abort of a member that has raised the gang-member-lost fault (R305). -/
  lost : Bool := false
  deriving DecidableEq, Repr, Inhabited

/-- What patrol scrub meets at a line (R213). -/
inductive PatrolFind where
  | clean | corrected | uncorrectable
  deriving DecidableEq, Repr, Inhabited

/-- A patrol scrub request: what it meets, and the partition before whose tasks of launch priority 3 it went (R214, R362). -/
structure PatrolRead where
  find : PatrolFind := .clean
  part : Option Nat := none
  deriving DecidableEq, Repr, Inhabited

/-- Kinds of a breakpoint (R373). -/
inductive BrkKind where
  | off | pc | data | cmd
  deriving DecidableEq, Repr, Inhabited

/-- One breakpoint: a kind, a match value with its mask, the push PC of a command, and the context filter over the WHO bits
(R373). -/
structure Brk where
  kind : BrkKind := .off
  val : W64 := 0
  mask : W64 := 0
  aux : W64 := 0
  who : BitVec 26 := 0
  whoMask : BitVec 26 := 0
  deriving DecidableEq, Repr, Inhabited

/-- Energy weights of the configuration record, nJ with 24 fraction bits (R338, R362). -/
structure Weights where
  issue : Nat := 0
  groupA : Nat := 0
  groupM : Nat := 0
  groupX : Nat := 0
  plane8 : Nat := 0
  plane32 : Nat := 0
  plane64 : Nat := 0
  plane128 : Nat := 0
  sram : Nat := 0
  hbmLine : Nat := 0
  flit : Nat := 0
  island : Nat := 0
  stack : Nat := 0
  deriving DecidableEq, Repr, Inhabited

/-- An error that strikes a core's storage or lanes (R63, R155, R202, R208, R349); what it strikes is the environment's. -/
inductive Upset where
  /-- Corrected on a read, in a memory of the core (R202). -/
  | corrected
  /-- Corrected on a demand read of HBM or of a memory-side cache (R202, R354). -/
  | packageCorrected
  /-- An instruction cache word, by its address, or the latched planes, with a parity error (R202). -/
  | icache (addr : Nat)
  | planes
  /-- An uncorrectable error in a 32-bit storage word of a task thread's register (R63). -/
  | word (thr : Nat) (reg : BitVec 6) (word : Nat)
  /-- In a hole record or in a parent's fill value (R155). -/
  | record (id : Nat)
  /-- In an 8-byte word of the scratchpad or the tile store, or a 64-byte line of HBM (R208). -/
  | scratchpad (word : Nat)
  | tile (word : Nat)
  | line (line : Nat)
  /-- The next instruction of verify mode meets a mismatch at an element group, and again when it is executed again (R349). -/
  | mismatch (group : Nat) (again : Bool)
  deriving DecidableEq, Repr, Inhabited

/-- The signed configuration record (R338): per pavilion (4 * die + pavilion) the enabled and defect maps, per core
(144 * pavilion + site) the feature mask, and the energy weights. -/
structure ConfigRecord where
  enabled : List (Nat × BitVec 144) := []
  defect : List (Nat × BitVec 144) := []
  feat : List (Nat × BitVec 16) := []
  weights : Weights := {}
  deriving DecidableEq, Repr, Inhabited

/-- What the Lodge finds when the package is powered (R375): firmware images (blocks 2 to 5) and the installed record, and whether
the signatures of each verify. -/
structure StartInput where
  images : List (List Byte) := []
  signed : Bool := true
  record : ConfigRecord := {}
  recordSigned : Bool := true
  deriving DecidableEq, Repr, Inhabited

/-- Writes to management registers that have no row of their own (R280, R293, R332, R338, R362, R365, R373, R380). -/
inductive MgmtWrite where
  | saveBase (part : Nat) (val : W64)
  | saveCnt (part : Nat) (val : W64)
  | queueCtl (part queue : Nat) (enable : Bool) (prio : Nat)
  | lshare (part : Nat) (val : W64)
  | breakpoint (part idx : Nat) (b : Brk)
  | trctl (part : Nat) (val : W64)
  | trbase (part : Nat) (val : W64)
  | trsize (part : Nat) (val : W64)
  | trrd (part : Nat) (val : W64)
  | clearTrlost (part : Nat)
  | clearEnergy (part : Nat)
  | clearQueueEnergy (part queue : Nat)
  | installRecord (r : ConfigRecord) (signed : Bool)
  | installImages (images : List (List Byte)) (signed : Bool)
  | linkIde (on : Bool)
  deriving DecidableEq, Repr, Inhabited

/-- Fabric settings (R384). -/
inductive FabricWrite where
  | chip (id : Nat)
  | route (chip : Nat) (links : BitVec 18)
  | partId (part ident : Nat)
  deriving DecidableEq, Repr, Inhabited

/-- How a host-window access completes (R224): data, data with EP set, or a completion status other than success. -/
inductive Completion where
  | data (bytes : List Byte)
  | poisoned
  | error (status : Nat)
  deriving DecidableEq, Repr, Inhabited

/-- What MEMORY_ACCESS_PERFORMED tells of a context's host-window accesses (R224, R238): the completion of the read or atomic that it
waits for, or that its oldest posted store has performed or failed. -/
inductive Report where
  | completion (q : Completion)
  | stored
  | storeFailed
  deriving DecidableEq, Repr, Inhabited

/-- A host access through BAR 4 (R222, R379, R380): a read, a write, or an AtomicOp of 4 or 8 bytes. -/
inductive HostOp where
  | read
  | write (bytes : List Byte)
  | fetchAdd (v : W64)
  | swap (v : W64)
  | cas (old new : W64)
  deriving DecidableEq, Repr, Inhabited

/-- The instruction set and the other steps of the opcode table. -/
inductive Instr where
  -- Scalar integer (06 R105 to R107)
  | add (c : Ctl) (d : Reg) (a : Reg) (b : Reg)
  | sub (c : Ctl) (d : Reg) (a : Reg) (b : Reg)
  | addi (c : Ctl) (d : Reg) (a : Reg) (imm : BitVec 56)
  | mul (c : Ctl) (d : Reg) (a : Reg) (b : Reg)
  | mulh (c : Ctl) (d : Reg) (a : Reg) (b : Reg)
  | mulhu (c : Ctl) (d : Reg) (a : Reg) (b : Reg)
  | div (c : Ctl) (d : Reg) (a : Reg) (b : Reg)
  | divu (c : Ctl) (d : Reg) (a : Reg) (b : Reg)
  | rem (c : Ctl) (d : Reg) (a : Reg) (b : Reg)
  | remu (c : Ctl) (d : Reg) (a : Reg) (b : Reg)
  | and (c : Ctl) (d : Reg) (a : Reg) (b : Reg)
  | or (c : Ctl) (d : Reg) (a : Reg) (b : Reg)
  | xor (c : Ctl) (d : Reg) (a : Reg) (b : Reg)
  | andi (c : Ctl) (d : Reg) (a : Reg) (imm : BitVec 56)
  | ori (c : Ctl) (d : Reg) (a : Reg) (imm : BitVec 56)
  | xori (c : Ctl) (d : Reg) (a : Reg) (imm : BitVec 56)
  | shl (c : Ctl) (d : Reg) (a : Reg) (b : Reg)
  | shr (c : Ctl) (d : Reg) (a : Reg) (b : Reg)
  | sra (c : Ctl) (d : Reg) (a : Reg) (b : Reg)
  | shli (c : Ctl) (d : Reg) (a : Reg) (imm : BitVec 6)
  | shri (c : Ctl) (d : Reg) (a : Reg) (imm : BitVec 6)
  | srai (c : Ctl) (d : Reg) (a : Reg) (imm : BitVec 6)
  | rot (c : Ctl) (d : Reg) (a : Reg) (b : Reg)
  | min (c : Ctl) (d : Reg) (a : Reg) (b : Reg)
  | max (c : Ctl) (d : Reg) (a : Reg) (b : Reg)
  | minu (c : Ctl) (d : Reg) (a : Reg) (b : Reg)
  | maxu (c : Ctl) (d : Reg) (a : Reg) (b : Reg)
  | clz (c : Ctl) (d : Reg) (a : Reg)
  | ctz (c : Ctl) (d : Reg) (a : Reg)
  | popc (c : Ctl) (d : Reg) (a : Reg)
  | movi (c : Ctl) (d : Reg) (imm : BitVec 56)
  | sel (c : Ctl) (d : Reg) (a : Reg) (b : Reg) (rc : PReg)
  | cmp (c : Ctl) (d : PReg) (a : Reg) (b : Reg) (k : Cmp)
  -- Scalar floating point (06 R108 to R114)
  | faddS (c : Ctl) (d : Reg) (a : Reg) (b : Reg) (rm : RMode)
  | faddD (c : Ctl) (d : Reg) (a : Reg) (b : Reg) (rm : RMode)
  | fsubS (c : Ctl) (d : Reg) (a : Reg) (b : Reg) (rm : RMode)
  | fsubD (c : Ctl) (d : Reg) (a : Reg) (b : Reg) (rm : RMode)
  | fmulS (c : Ctl) (d : Reg) (a : Reg) (b : Reg) (rm : RMode)
  | fmulD (c : Ctl) (d : Reg) (a : Reg) (b : Reg) (rm : RMode)
  | ffmaS (c : Ctl) (d : Reg) (a : Reg) (b : Reg) (rc : Reg) (rm : RMode)
  | ffmaD (c : Ctl) (d : Reg) (a : Reg) (b : Reg) (rc : Reg) (rm : RMode)
  | fdivS (c : Ctl) (d : Reg) (a : Reg) (b : Reg) (rm : RMode)
  | fdivD (c : Ctl) (d : Reg) (a : Reg) (b : Reg) (rm : RMode)
  | fsqrtS (c : Ctl) (d : Reg) (a : Reg) (rm : RMode)
  | fsqrtD (c : Ctl) (d : Reg) (a : Reg) (rm : RMode)
  | fminS (c : Ctl) (d : Reg) (a : Reg) (b : Reg)
  | fminD (c : Ctl) (d : Reg) (a : Reg) (b : Reg)
  | fmaxS (c : Ctl) (d : Reg) (a : Reg) (b : Reg)
  | fmaxD (c : Ctl) (d : Reg) (a : Reg) (b : Reg)
  | fcmpS (c : Ctl) (d : PReg) (a : Reg) (b : Reg) (k : FCmp)
  | fcmpD (c : Ctl) (d : PReg) (a : Reg) (b : Reg) (k : FCmp)
  | fcvtS (c : Ctl) (d : Reg) (a : Reg) (k : CvtS) (rm : RMode)
  | fcvtD (c : Ctl) (d : Reg) (a : Reg) (k : CvtD) (rm : RMode)
  | fclassS (c : Ctl) (d : Reg) (a : Reg)
  | fclassD (c : Ctl) (d : Reg) (a : Reg)
  | fsgnS (c : Ctl) (d : Reg) (a : Reg) (b : Reg) (k : Sgn)
  | fsgnD (c : Ctl) (d : Reg) (a : Reg) (b : Reg) (k : Sgn)
  -- Control and predicates (06 R115 to R123)
  | pand (c : Ctl) (d : PReg) (a : PReg) (b : PReg)
  | por (c : Ctl) (d : PReg) (a : PReg) (b : PReg)
  | pxor (c : Ctl) (d : PReg) (a : PReg) (b : PReg)
  | pnot (c : Ctl) (d : PReg) (a : PReg)
  | pmov (c : Ctl) (d : PReg) (a : PReg)
  | br (c : Ctl) (tgt : BitVec 56)
  | jmp (c : Ctl) (a : Reg) (tgt : BitVec 56)
  | call (c : Ctl) (d : Reg) (tgt : BitVec 56)
  | ret (c : Ctl) (a : Reg)
  | lnest (c : Ctl) (d : Reg) (a : Reg) (imm : BitVec 8)
  | lninc (c : Ctl) (d : Reg) (a : Reg) (k : BitVec 2)
  | yield (c : Ctl)
  | nop (c : Ctl)
  | trap (c : Ctl) (imm : BitVec 16)
  | svc (c : Ctl) (imm : BitVec 16)
  | eret (c : Ctl)
  -- Scalar memory, atomics, fences, barriers (12 R216 to R234)
  | ld (c : Ctl) (d : Reg) (a : Reg) (k : Size) (sx : Bool) (off : BitVec 48)
  | st (c : Ctl) (d : Reg) (a : Reg) (k : Size) (off : BitVec 48)
  | amo (c : Ctl) (d : Reg) (a : Reg) (b : Reg) (o : AmoOp) (dbl : Bool) (ord : BitVec 4) (off : BitVec 48)
  | cas (c : Ctl) (d : Reg) (a : Reg) (b : Reg) (dbl : Bool) (ord : BitVec 4) (off : BitVec 48)
  | fence (c : Ctl) (sc : Scope) (k : FenceKind)
  | barinit (c : Ctl) (d : Reg) (a : Reg) (off : BitVec 48)
  | bararr (c : Ctl) (d : Reg) (a : Reg) (off : BitVec 48)
  | barwait (c : Ctl) (d : Reg) (a : Reg) (off : BitVec 48)
  | barfree (c : Ctl) (a : Reg) (off : BitVec 48)
  | sigst (c : Ctl) (d : Reg) (a : Reg) (sc : Scope) (off : BitVec 48)
  -- System (06 R124, R125; 14 R262)
  | csrr (c : Ctl) (d : Reg) (imm : BitVec 12)
  | csrw (c : Ctl) (a : Reg) (imm : BitVec 12)
  | csrs (c : Ctl) (a : Reg) (imm : BitVec 12)
  | csrc (c : Ctl) (a : Reg) (imm : BitVec 12)
  | tlbinv (c : Ctl) (a : Reg) (b : Reg) (k : TlbKind)
  | icinv (c : Ctl) (a : Reg) (b : Reg) (t : Bool)
  -- Vector configuration, spill and fill (07 R133 to R135)
  | setvl (c : Ctl) (d : Reg) (a : Reg) (b : Reg)
  | setvli (c : Ctl) (d : Reg) (imm : BitVec 56)
  | vlq (c : Ctl) (d : Reg) (k : Size)
  | vspill (c : Ctl) (d : Reg) (a : Reg) (k : Size) (off : BitVec 48)
  | vfill (c : Ctl) (d : Reg) (a : Reg) (k : Size) (off : BitVec 48)
  -- Vector integer (07 R136 to R140)
  | vadd (c : Ctl) (x : Option Pfx) (d : Reg) (a : Reg) (b : Reg) (f : Reg)
  | vsub (c : Ctl) (x : Option Pfx) (d : Reg) (a : Reg) (b : Reg) (f : Reg)
  | vmul (c : Ctl) (x : Option Pfx) (d : Reg) (a : Reg) (b : Reg) (f : Reg)
  | vmulh (c : Ctl) (x : Option Pfx) (d : Reg) (a : Reg) (b : Reg) (f : Reg)
  | vdiv (c : Ctl) (x : Option Pfx) (d : Reg) (a : Reg) (b : Reg) (f : Reg)
  | vrem (c : Ctl) (x : Option Pfx) (d : Reg) (a : Reg) (b : Reg) (f : Reg)
  | vmin (c : Ctl) (x : Option Pfx) (d : Reg) (a : Reg) (b : Reg) (f : Reg)
  | vmax (c : Ctl) (x : Option Pfx) (d : Reg) (a : Reg) (b : Reg) (f : Reg)
  | vand (c : Ctl) (x : Option Pfx) (d : Reg) (a : Reg) (b : Reg) (f : Reg)
  | vor (c : Ctl) (x : Option Pfx) (d : Reg) (a : Reg) (b : Reg) (f : Reg)
  | vxor (c : Ctl) (x : Option Pfx) (d : Reg) (a : Reg) (b : Reg) (f : Reg)
  | vshl (c : Ctl) (x : Option Pfx) (d : Reg) (a : Reg) (b : Reg) (f : Reg)
  | vshr (c : Ctl) (x : Option Pfx) (d : Reg) (a : Reg) (b : Reg) (f : Reg)
  | vsra (c : Ctl) (x : Option Pfx) (d : Reg) (a : Reg) (b : Reg) (f : Reg)
  | vsadd (c : Ctl) (x : Option Pfx) (d : Reg) (a : Reg) (b : Reg) (f : Reg)
  | vssub (c : Ctl) (x : Option Pfx) (d : Reg) (a : Reg) (b : Reg) (f : Reg)
  | vwmul (c : Ctl) (x : Option Pfx) (d : Reg) (a : Reg) (b : Reg) (f : Reg)
  | vwmacc (c : Ctl) (x : Option Pfx) (d : Reg) (a : Reg) (b : Reg) (f : Reg)
  | vcmp (c : Ctl) (x : Option Pfx) (d : PReg) (a : Reg) (b : Reg) (f : Reg) (k : VCmp)
  | vmerge (c : Ctl) (x : Option Pfx) (d : Reg) (a : Reg) (b : Reg) (rc : PReg) (f : Reg)
  | vcvt (c : Ctl) (x : Option Pfx) (d : Reg) (a : Reg) (f : Reg)
  -- Masks (07 R148)
  | mand (c : Ctl) (d : PReg) (a : PReg) (b : PReg)
  | mor (c : Ctl) (d : PReg) (a : PReg) (b : PReg)
  | mxor (c : Ctl) (d : PReg) (a : PReg) (b : PReg)
  | mnot (c : Ctl) (d : PReg) (a : PReg)
  | mpop (c : Ctl) (d : Reg) (a : PReg)
  | mffs (c : Ctl) (d : Reg) (a : PReg)
  | mset (c : Ctl) (d : PReg) (a : Reg)
  -- Vector floating point (07 R141 to R147)
  | vfadd (c : Ctl) (x : Option Pfx) (d : Reg) (a : Reg) (b : Reg) (f : Reg)
  | vfsub (c : Ctl) (x : Option Pfx) (d : Reg) (a : Reg) (b : Reg) (f : Reg)
  | vfmul (c : Ctl) (x : Option Pfx) (d : Reg) (a : Reg) (b : Reg) (f : Reg)
  | vfma (c : Ctl) (x : Option Pfx) (d : Reg) (a : Reg) (b : Reg) (rc : Reg) (f : Reg)
  | vfnma (c : Ctl) (x : Option Pfx) (d : Reg) (a : Reg) (b : Reg) (rc : Reg) (f : Reg)
  | vfdiv (c : Ctl) (x : Option Pfx) (d : Reg) (a : Reg) (b : Reg) (f : Reg)
  | vfrcp (c : Ctl) (x : Option Pfx) (d : Reg) (a : Reg) (f : Reg)
  | vfsqrt (c : Ctl) (x : Option Pfx) (d : Reg) (a : Reg) (f : Reg)
  | vfrsqrt (c : Ctl) (x : Option Pfx) (d : Reg) (a : Reg) (f : Reg)
  | vfexp2 (c : Ctl) (x : Option Pfx) (d : Reg) (a : Reg) (f : Reg)
  | vflog2 (c : Ctl) (x : Option Pfx) (d : Reg) (a : Reg) (f : Reg)
  | vfsin (c : Ctl) (x : Option Pfx) (d : Reg) (a : Reg) (f : Reg)
  | vfcos (c : Ctl) (x : Option Pfx) (d : Reg) (a : Reg) (f : Reg)
  | vftanh (c : Ctl) (x : Option Pfx) (d : Reg) (a : Reg) (f : Reg)
  | vfmin (c : Ctl) (x : Option Pfx) (d : Reg) (a : Reg) (b : Reg) (f : Reg)
  | vfmax (c : Ctl) (x : Option Pfx) (d : Reg) (a : Reg) (b : Reg) (f : Reg)
  | vfcmp (c : Ctl) (x : Option Pfx) (d : PReg) (a : Reg) (b : Reg) (f : Reg) (k : FCmp)
  | vfcvt (c : Ctl) (x : Option Pfx) (d : Reg) (a : Reg) (b : Reg) (f : Reg)
  | vfwma (c : Ctl) (x : Option Pfx) (d : Reg) (a : Reg) (b : Reg) (rc : Reg) (f : Reg)
  | vfclass (c : Ctl) (x : Option Pfx) (d : Reg) (a : Reg) (f : Reg)
  | vfsgn (c : Ctl) (x : Option Pfx) (d : Reg) (a : Reg) (b : Reg) (f : Reg) (k : Sgn)
  -- Permutes (07 R149 to R153)
  | vslide (c : Ctl) (x : Option Pfx) (d : Reg) (a : Reg) (b : Reg) (f : Reg) (t : Bool)
  | vperm (c : Ctl) (x : Option Pfx) (d : Reg) (a : Reg) (b : Reg) (f : Reg)
  | vreshape (c : Ctl) (x : Option Pfx) (d : Reg) (a : Reg) (b : Reg) (f : Reg)
  | vcompress (c : Ctl) (x : Option Pfx) (d : Reg) (a : Reg) (b : PReg) (f : Reg)
  | vexpand (c : Ctl) (x : Option Pfx) (d : Reg) (a : Reg) (b : PReg) (f : Reg)
  | vbcast (c : Ctl) (x : Option Pfx) (d : Reg) (a : Reg) (f : Reg)
  | vext (c : Ctl) (x : Option Pfx) (d : Reg) (a : Reg) (b : Reg) (f : Reg)
  | vins (c : Ctl) (x : Option Pfx) (d : Reg) (a : Reg) (b : Reg) (f : Reg)
  -- Plain reductions (07 R154)
  | vrsum (c : Ctl) (x : Option Pfx) (d : Reg) (a : Reg) (f : Reg)
  | vrmax (c : Ctl) (x : Option Pfx) (d : Reg) (a : Reg) (f : Reg)
  | vrmin (c : Ctl) (x : Option Pfx) (d : Reg) (a : Reg) (f : Reg)
  | vrssum (c : Ctl) (x : Option Pfx) (d : Reg) (a : Reg) (f : Reg)
  -- Witness (10 R190 to R200)
  | vrmaxw (c : Ctl) (x : Option Pfx) (d : Reg) (a : Reg) (b : Reg) (f : Reg) (tie : Tie) (logg : BitVec 3)
  | vrminw (c : Ctl) (x : Option Pfx) (d : Reg) (a : Reg) (b : Reg) (f : Reg) (tie : Tie) (logg : BitVec 3)
  | vclampw (c : Ctl) (x : Option Pfx) (d : Reg) (a : Reg) (b : Reg) (rc : Reg) (f : Reg)
  | vrmedw (c : Ctl) (x : Option Pfx) (d : Reg) (a : Reg) (b : Reg) (f : Reg) (tie : Tie) (logg : BitVec 3)
  | vrssumw (c : Ctl) (x : Option Pfx) (d : Reg) (a : Reg) (b : Reg) (f : Reg) (tie : Tie) (logg : BitVec 3)
  | vwhdr (c : Ctl) (d : Reg) (a : Reg) (b : Reg)
  | vadjb (c : Ctl) (x : Option Pfx) (d : Reg) (a : Reg) (b : Reg) (rc : Reg) (f : Reg) (t : Bool)
  -- Vector memory (12 R225 to R231)
  | vld (c : Ctl) (x : Option Pfx) (d : Reg) (a : Reg) (k : VW) (off : BitVec 48)
  | vlds (c : Ctl) (x : Option Pfx) (d : Reg) (a : Reg) (b : Reg) (k : Size) (off : BitVec 48)
  | vldx (c : Ctl) (x : Option Pfx) (d : Reg) (a : Reg) (b : Reg) (k : Size) (i64 : Bool) (off : BitVec 48)
  | vldseg (c : Ctl) (x : Option Pfx) (d : Reg) (a : Reg) (k : Size) (nf : BitVec 3) (off : BitVec 48)
  | vst (c : Ctl) (x : Option Pfx) (d : Reg) (a : Reg) (k : VW) (off : BitVec 48)
  | vsts (c : Ctl) (x : Option Pfx) (d : Reg) (a : Reg) (b : Reg) (k : Size) (off : BitVec 48)
  | vstx (c : Ctl) (x : Option Pfx) (d : Reg) (a : Reg) (b : Reg) (k : Size) (i64 : Bool) (off : BitVec 48)
  | vstseg (c : Ctl) (x : Option Pfx) (d : Reg) (a : Reg) (k : Size) (nf : BitVec 3) (off : BitVec 48)
  | vldmx (c : Ctl) (x : Option Pfx) (d : Reg) (a : Reg) (b : Reg) (rc : Reg) (f : Reg) (t : Bool)
  | vstmx (c : Ctl) (x : Option Pfx) (d : Reg) (a : Reg) (b : Reg) (rc : Reg) (f : Reg) (t : Bool)
  -- Presence and helpers (08 R163 to R172)
  | vsettle (c : Ctl) (a : Reg) (k : Reach)
  | vpres (c : Ctl) (d : PReg) (a : Reg) (k : Size) (st : Presence)
  | mpoison (c : Ctl) (d : Reg) (a : PReg) (k : Size)
  | hpop (c : Ctl) (d : Reg)
  | hopnd (c : Ctl) (d : Reg) (k : Opnd)
  | hfill (c : Ctl) (a : Reg) (b : Reg)
  | hflt (c : Ctl) (a : Reg) (b : Reg)
  -- Matrix (09 R174 to R189)
  | msel (c : Ctl) (a : Reg) (b : Reg)
  | mmul (c : Ctl) (x : Option Pfx) (d : Reg) (a : Reg) (f : Reg) (t : Bool)
  | mstat (c : Ctl) (d : Reg)
  | mclr (c : Ctl)
  -- Engines (20 R312 to R331)
  | cpy (c : Ctl) (a : Reg) (tag : BitVec 6)
  | cpyt (c : Ctl) (a : Reg) (tag : BitVec 6)
  | cfill (c : Ctl) (a : Reg) (b : Reg) (tag : BitVec 6)
  | cwany (c : Ctl) (d : Reg) (a : Reg)
  | cwall (c : Ctl) (d : Reg) (a : Reg)
  | cffr (c : Ctl) (d : Reg) (a : Reg)
  | ctclr (c : Ctl) (a : Reg)
  | epop (c : Ctl) (d : Reg)
  | lzopen (c : Ctl) (a : Reg) (b : Reg) (zone : BitVec 4)
  | lzclose (c : Ctl) (zone : BitVec 4)
  | lzres (c : Ctl) (site : Site) (zone : BitVec 4)
  | lzput (c : Ctl) (a : Reg) (site : Site) (zone : BitVec 4) (tag : BitVec 6)
  | lzwait (c : Ctl) (d : Reg) (a : Reg) (b : Reg) (t : Bool) (zone : BitVec 4)
  | lzfree (c : Ctl) (a : Reg) (zone : BitVec 4)
  | lzclean (c : Ctl) (zone : BitVec 4)
  | xred (c : Ctl) (a : Reg) (site : Site) (zone : BitVec 4) (tag : BitVec 6)
  -- Tasks and tender (19 R306 to R311)
  | tbset (c : Ctl) (d : Reg) (a : Reg) (t : Bool)
  | tbtest (c : Ctl) (d : Reg) (a : Reg)
  | glaunch (c : Ctl) (a : Reg) (b : Reg)
  | texit (c : Ctl)
  | tsusp (c : Ctl)
  | tdclass (c : Ctl) (a : Reg) (b : Reg)
  | tdoffer (c : Ctl) (d : Reg) (a : Reg) (b : Reg)
  -- Tag table (12 R235 to R237)
  | tglk (c : Ctl) (d : Reg) (a : Reg)
  | tgset (c : Ctl) (a : Reg) (b : Reg) (rc : Reg)
  | tginv (c : Ctl) (a : Reg) (k : TgKind)
  -- The steps of the table that are no instruction (95_what_each_step_holds.md); each carries the data of its step.
  | barwaitRelease (core thr : Nat)
  | mireStallResume (core : Nat) (q : Pipe)
  | laneWaitRelease (core : Nat) (q : Pipe)
  | planeLatch (core thr : Nat)
  | lzwaitTimeout (core thr : Nat)
  | issueCycle (core : Nat)
  | pipeDispatch (core : Nat) (q : Pipe) (upset : Option Upset)
  | engineCommandAccept (core thr : Nat)
  | copySegment (core id : Nat)
  | reservationRequest (q : ResReq)
  | reservationAnswer (q : ResAns)
  | landing (q : Land)
  | putAck (q : Ack)
  | xredGateRead (core id : Nat)
  | xredReduce (core id : Nat)
  | launchInstantiate (part : Nat)
  | dispatch (pav : Nat)
  | tenderAnnounce (pav : Nat)
  | bid (q : Bid)
  | bidWindowClose (pav serial : Nat)
  | award (pav serial core : Nat)
  | retenderTimer (pav serial : Nat)
  | gangPrepare (q : GangMsg)
  | gangCommit (q : GangMsg)
  | gangPrepareTimeout (part inst : Nat)
  | gangCommitTimeout (part inst : Nat)
  | stopDrain (core thr : Nat)
  | contextSave (core thr : Nat)
  | contextRestore (core thr : Nat)
  | scrubComplete (pav : Nat)
  | relockEnd (isle : Nat)
  | governorEvaluation (part : Nat)
  | dumpEnd (part : Nat) (err : Option Nat)
  | traceSample (part : Nat)
  | traceRecordWrite (core : Nat)
  | powerUpReset (q : StartInput)
  | idleHelperPop (core h : Nat)
  | scalarResultWrite (core thr : Nat) (d : Reg) (pred : Bool)
  | linkFailureDeclared (link : Nat)
  | launchRecordWrite (part queue : Nat) (rec : List Byte)
  | gangAck (q : GangMsg)
  | gangAbort (q : GangMsg)
  | hostSuspendRequest (core thr : Nat)
  | hostRelease (part slot : Nat)
  | hostResume (who : ThreadName)
  | hostEndThread (who : ThreadName)
  | serviceAnswer (who : ThreadName)
  | pageRequestResponse (part page : Nat) (ok : Bool)
  | faultQueueConsume (part n : Nat)
  | pavilionAssign (vf : Option Nat) (pavs : List Nat)
  | patrolScrubLine (q : PatrolRead)
  | patrolDeadlineWrite (hours : Nat)
  | frequencyWrite (isle code : Nat)
  | capWrite (part cap : Nat)
  | translationRootWrite (part : Nat) (val : W64)
  | hostInvalidate (part : Nat) (range : Option (Nat × Nat))
  | zeroingCommand (pa len : Nat)
  | apbaseWrite (part : Nat) (val : W64)
  | apertureAccess (part off len : Nat) (op : HostOp)
  | corecfgWrite (core : Nat) (val : W64)
  | verifyModeSet (part : Nat) (on : Bool)
  | suspectClear (core : Nat)
  | dumpArm (part base len : Nat)
  | dumpRequest (part : Nat) (who : ThreadName)
  | trctlFlush (part : Nat)
  | managementRegisterWrite (q : MgmtWrite)
  | startStageComplete (ok : Bool) (unit : Nat)
  | startWatchdog
  | fullStartRequest
  | spdmGetVersion (fn : Nat)
  | spdmGetCapabilities (fn : Nat)
  | spdmNegotiateAlgorithms (fn : Nat)
  | spdmGetDigests (fn : Nat)
  | spdmGetCertificate (fn : Nat)
  | spdmChallenge (fn : Nat) (nonce : List Byte)
  | spdmGetMeasurements (fn : Nat) (blocks : List Nat)
  | vfEnable (n : Nat)
  | fabricSettingsWrite (q : FabricWrite)
  | linkUp (link : Nat)
  | pcieCompletionTimeout (core thr : Nat)
  | memoryAccessPerformed (core thr : Nat) (q : Report)
  deriving DecidableEq, Repr

/-- The assigned opcodes (R47). -/
inductive Op where
  | add | sub | addi | mul | mulh | mulhu | div | divu | rem | remu
  | and | or | xor | andi | ori | xori | shl | shr | sra | shli
  | shri | srai | rot | min | max | minu | maxu | clz | ctz | popc
  | movi | sel | cmp | faddS | faddD | fsubS | fsubD | fmulS | fmulD | ffmaS
  | ffmaD | fdivS | fdivD | fsqrtS | fsqrtD | fminS | fminD | fmaxS | fmaxD | fcmpS
  | fcmpD | fcvtS | fcvtD | fclassS | fclassD | fsgnS | fsgnD | pand | por | pxor
  | pnot | pmov | br | jmp | call | ret | lnest | lninc | yield | nop
  | trap | svc | eret | ld | st | amo | cas | fence | barinit | bararr
  | barwait | barfree | sigst | csrr | csrw | csrs | csrc | tlbinv | icinv | setvl
  | setvli | vlq | vspill | vfill | vadd | vsub | vmul | vmulh | vdiv | vrem
  | vmin | vmax | vand | vor | vxor | vshl | vshr | vsra | vsadd | vssub
  | vwmul | vwmacc | vcmp | vmerge | vcvt | mand | mor | mxor | mnot | mpop
  | mffs | mset | vfadd | vfsub | vfmul | vfma | vfnma | vfdiv | vfrcp | vfsqrt
  | vfrsqrt | vfexp2 | vflog2 | vfsin | vfcos | vftanh | vfmin | vfmax | vfcmp | vfcvt
  | vfwma | vfclass | vfsgn | vslide | vperm | vreshape | vcompress | vexpand | vbcast | vext
  | vins | vrsum | vrmax | vrmin | vrssum | vrmaxw | vrminw | vclampw | vrmedw | vrssumw
  | vwhdr | vadjb | vld | vlds | vldx | vldseg | vst | vsts | vstx | vstseg
  | vldmx | vstmx | vsettle | vpres | mpoison | hpop | hopnd | hfill | hflt | msel
  | mmul | mstat | mclr | cpy | cpyt | cfill | cwany | cwall | cffr | ctclr
  | epop | lzopen | lzclose | lzres | lzput | lzwait | lzfree | lzclean | xred | tbset
  | tbtest | glaunch | texit | tsusp | tdclass | tdoffer | tglk | tgset | tginv
  deriving DecidableEq, Repr

/-- The opcode of an instruction; a step that is no instruction has none. -/
def Instr.op : Instr → Option Op
  | .add _ _ _ _ => some .add
  | .sub _ _ _ _ => some .sub
  | .addi _ _ _ _ => some .addi
  | .mul _ _ _ _ => some .mul
  | .mulh _ _ _ _ => some .mulh
  | .mulhu _ _ _ _ => some .mulhu
  | .div _ _ _ _ => some .div
  | .divu _ _ _ _ => some .divu
  | .rem _ _ _ _ => some .rem
  | .remu _ _ _ _ => some .remu
  | .and _ _ _ _ => some .and
  | .or _ _ _ _ => some .or
  | .xor _ _ _ _ => some .xor
  | .andi _ _ _ _ => some .andi
  | .ori _ _ _ _ => some .ori
  | .xori _ _ _ _ => some .xori
  | .shl _ _ _ _ => some .shl
  | .shr _ _ _ _ => some .shr
  | .sra _ _ _ _ => some .sra
  | .shli _ _ _ _ => some .shli
  | .shri _ _ _ _ => some .shri
  | .srai _ _ _ _ => some .srai
  | .rot _ _ _ _ => some .rot
  | .min _ _ _ _ => some .min
  | .max _ _ _ _ => some .max
  | .minu _ _ _ _ => some .minu
  | .maxu _ _ _ _ => some .maxu
  | .clz _ _ _ => some .clz
  | .ctz _ _ _ => some .ctz
  | .popc _ _ _ => some .popc
  | .movi _ _ _ => some .movi
  | .sel _ _ _ _ _ => some .sel
  | .cmp _ _ _ _ _ => some .cmp
  | .faddS _ _ _ _ _ => some .faddS
  | .faddD _ _ _ _ _ => some .faddD
  | .fsubS _ _ _ _ _ => some .fsubS
  | .fsubD _ _ _ _ _ => some .fsubD
  | .fmulS _ _ _ _ _ => some .fmulS
  | .fmulD _ _ _ _ _ => some .fmulD
  | .ffmaS _ _ _ _ _ _ => some .ffmaS
  | .ffmaD _ _ _ _ _ _ => some .ffmaD
  | .fdivS _ _ _ _ _ => some .fdivS
  | .fdivD _ _ _ _ _ => some .fdivD
  | .fsqrtS _ _ _ _ => some .fsqrtS
  | .fsqrtD _ _ _ _ => some .fsqrtD
  | .fminS _ _ _ _ => some .fminS
  | .fminD _ _ _ _ => some .fminD
  | .fmaxS _ _ _ _ => some .fmaxS
  | .fmaxD _ _ _ _ => some .fmaxD
  | .fcmpS _ _ _ _ _ => some .fcmpS
  | .fcmpD _ _ _ _ _ => some .fcmpD
  | .fcvtS _ _ _ _ _ => some .fcvtS
  | .fcvtD _ _ _ _ _ => some .fcvtD
  | .fclassS _ _ _ => some .fclassS
  | .fclassD _ _ _ => some .fclassD
  | .fsgnS _ _ _ _ _ => some .fsgnS
  | .fsgnD _ _ _ _ _ => some .fsgnD
  | .pand _ _ _ _ => some .pand
  | .por _ _ _ _ => some .por
  | .pxor _ _ _ _ => some .pxor
  | .pnot _ _ _ => some .pnot
  | .pmov _ _ _ => some .pmov
  | .br _ _ => some .br
  | .jmp _ _ _ => some .jmp
  | .call _ _ _ => some .call
  | .ret _ _ => some .ret
  | .lnest _ _ _ _ => some .lnest
  | .lninc _ _ _ _ => some .lninc
  | .yield _ => some .yield
  | .nop _ => some .nop
  | .trap _ _ => some .trap
  | .svc _ _ => some .svc
  | .eret _ => some .eret
  | .ld _ _ _ _ _ _ => some .ld
  | .st _ _ _ _ _ => some .st
  | .amo _ _ _ _ _ _ _ _ => some .amo
  | .cas _ _ _ _ _ _ _ => some .cas
  | .fence _ _ _ => some .fence
  | .barinit _ _ _ _ => some .barinit
  | .bararr _ _ _ _ => some .bararr
  | .barwait _ _ _ _ => some .barwait
  | .barfree _ _ _ => some .barfree
  | .sigst _ _ _ _ _ => some .sigst
  | .csrr _ _ _ => some .csrr
  | .csrw _ _ _ => some .csrw
  | .csrs _ _ _ => some .csrs
  | .csrc _ _ _ => some .csrc
  | .tlbinv _ _ _ _ => some .tlbinv
  | .icinv _ _ _ _ => some .icinv
  | .setvl _ _ _ _ => some .setvl
  | .setvli _ _ _ => some .setvli
  | .vlq _ _ _ => some .vlq
  | .vspill _ _ _ _ _ => some .vspill
  | .vfill _ _ _ _ _ => some .vfill
  | .vadd _ _ _ _ _ _ => some .vadd
  | .vsub _ _ _ _ _ _ => some .vsub
  | .vmul _ _ _ _ _ _ => some .vmul
  | .vmulh _ _ _ _ _ _ => some .vmulh
  | .vdiv _ _ _ _ _ _ => some .vdiv
  | .vrem _ _ _ _ _ _ => some .vrem
  | .vmin _ _ _ _ _ _ => some .vmin
  | .vmax _ _ _ _ _ _ => some .vmax
  | .vand _ _ _ _ _ _ => some .vand
  | .vor _ _ _ _ _ _ => some .vor
  | .vxor _ _ _ _ _ _ => some .vxor
  | .vshl _ _ _ _ _ _ => some .vshl
  | .vshr _ _ _ _ _ _ => some .vshr
  | .vsra _ _ _ _ _ _ => some .vsra
  | .vsadd _ _ _ _ _ _ => some .vsadd
  | .vssub _ _ _ _ _ _ => some .vssub
  | .vwmul _ _ _ _ _ _ => some .vwmul
  | .vwmacc _ _ _ _ _ _ => some .vwmacc
  | .vcmp _ _ _ _ _ _ _ => some .vcmp
  | .vmerge _ _ _ _ _ _ _ => some .vmerge
  | .vcvt _ _ _ _ _ => some .vcvt
  | .mand _ _ _ _ => some .mand
  | .mor _ _ _ _ => some .mor
  | .mxor _ _ _ _ => some .mxor
  | .mnot _ _ _ => some .mnot
  | .mpop _ _ _ => some .mpop
  | .mffs _ _ _ => some .mffs
  | .mset _ _ _ => some .mset
  | .vfadd _ _ _ _ _ _ => some .vfadd
  | .vfsub _ _ _ _ _ _ => some .vfsub
  | .vfmul _ _ _ _ _ _ => some .vfmul
  | .vfma _ _ _ _ _ _ _ => some .vfma
  | .vfnma _ _ _ _ _ _ _ => some .vfnma
  | .vfdiv _ _ _ _ _ _ => some .vfdiv
  | .vfrcp _ _ _ _ _ => some .vfrcp
  | .vfsqrt _ _ _ _ _ => some .vfsqrt
  | .vfrsqrt _ _ _ _ _ => some .vfrsqrt
  | .vfexp2 _ _ _ _ _ => some .vfexp2
  | .vflog2 _ _ _ _ _ => some .vflog2
  | .vfsin _ _ _ _ _ => some .vfsin
  | .vfcos _ _ _ _ _ => some .vfcos
  | .vftanh _ _ _ _ _ => some .vftanh
  | .vfmin _ _ _ _ _ _ => some .vfmin
  | .vfmax _ _ _ _ _ _ => some .vfmax
  | .vfcmp _ _ _ _ _ _ _ => some .vfcmp
  | .vfcvt _ _ _ _ _ _ => some .vfcvt
  | .vfwma _ _ _ _ _ _ _ => some .vfwma
  | .vfclass _ _ _ _ _ => some .vfclass
  | .vfsgn _ _ _ _ _ _ _ => some .vfsgn
  | .vslide _ _ _ _ _ _ _ => some .vslide
  | .vperm _ _ _ _ _ _ => some .vperm
  | .vreshape _ _ _ _ _ _ => some .vreshape
  | .vcompress _ _ _ _ _ _ => some .vcompress
  | .vexpand _ _ _ _ _ _ => some .vexpand
  | .vbcast _ _ _ _ _ => some .vbcast
  | .vext _ _ _ _ _ _ => some .vext
  | .vins _ _ _ _ _ _ => some .vins
  | .vrsum _ _ _ _ _ => some .vrsum
  | .vrmax _ _ _ _ _ => some .vrmax
  | .vrmin _ _ _ _ _ => some .vrmin
  | .vrssum _ _ _ _ _ => some .vrssum
  | .vrmaxw _ _ _ _ _ _ _ _ => some .vrmaxw
  | .vrminw _ _ _ _ _ _ _ _ => some .vrminw
  | .vclampw _ _ _ _ _ _ _ => some .vclampw
  | .vrmedw _ _ _ _ _ _ _ _ => some .vrmedw
  | .vrssumw _ _ _ _ _ _ _ _ => some .vrssumw
  | .vwhdr _ _ _ _ => some .vwhdr
  | .vadjb _ _ _ _ _ _ _ _ => some .vadjb
  | .vld _ _ _ _ _ _ => some .vld
  | .vlds _ _ _ _ _ _ _ => some .vlds
  | .vldx _ _ _ _ _ _ _ _ => some .vldx
  | .vldseg _ _ _ _ _ _ _ => some .vldseg
  | .vst _ _ _ _ _ _ => some .vst
  | .vsts _ _ _ _ _ _ _ => some .vsts
  | .vstx _ _ _ _ _ _ _ _ => some .vstx
  | .vstseg _ _ _ _ _ _ _ => some .vstseg
  | .vldmx _ _ _ _ _ _ _ _ => some .vldmx
  | .vstmx _ _ _ _ _ _ _ _ => some .vstmx
  | .vsettle _ _ _ => some .vsettle
  | .vpres _ _ _ _ _ => some .vpres
  | .mpoison _ _ _ _ => some .mpoison
  | .hpop _ _ => some .hpop
  | .hopnd _ _ _ => some .hopnd
  | .hfill _ _ _ => some .hfill
  | .hflt _ _ _ => some .hflt
  | .msel _ _ _ => some .msel
  | .mmul _ _ _ _ _ _ => some .mmul
  | .mstat _ _ => some .mstat
  | .mclr _ => some .mclr
  | .cpy _ _ _ => some .cpy
  | .cpyt _ _ _ => some .cpyt
  | .cfill _ _ _ _ => some .cfill
  | .cwany _ _ _ => some .cwany
  | .cwall _ _ _ => some .cwall
  | .cffr _ _ _ => some .cffr
  | .ctclr _ _ => some .ctclr
  | .epop _ _ => some .epop
  | .lzopen _ _ _ _ => some .lzopen
  | .lzclose _ _ => some .lzclose
  | .lzres _ _ _ => some .lzres
  | .lzput _ _ _ _ _ => some .lzput
  | .lzwait _ _ _ _ _ _ => some .lzwait
  | .lzfree _ _ _ => some .lzfree
  | .lzclean _ _ => some .lzclean
  | .xred _ _ _ _ _ => some .xred
  | .tbset _ _ _ _ => some .tbset
  | .tbtest _ _ _ => some .tbtest
  | .glaunch _ _ _ => some .glaunch
  | .texit _ => some .texit
  | .tsusp _ => some .tsusp
  | .tdclass _ _ _ => some .tdclass
  | .tdoffer _ _ _ _ => some .tdoffer
  | .tglk _ _ _ => some .tglk
  | .tgset _ _ _ _ => some .tgset
  | .tginv _ _ _ => some .tginv
  | .barwaitRelease _ _ => none
  | .mireStallResume _ _ => none
  | .laneWaitRelease _ _ => none
  | .planeLatch _ _ => none
  | .lzwaitTimeout _ _ => none
  | .issueCycle _ => none
  | .pipeDispatch _ _ _ => none
  | .engineCommandAccept _ _ => none
  | .copySegment _ _ => none
  | .reservationRequest _ => none
  | .reservationAnswer _ => none
  | .landing _ => none
  | .putAck _ => none
  | .xredGateRead _ _ => none
  | .xredReduce _ _ => none
  | .launchInstantiate _ => none
  | .dispatch _ => none
  | .tenderAnnounce _ => none
  | .bid _ => none
  | .bidWindowClose _ _ => none
  | .award _ _ _ => none
  | .retenderTimer _ _ => none
  | .gangPrepare _ => none
  | .gangCommit _ => none
  | .gangPrepareTimeout _ _ => none
  | .gangCommitTimeout _ _ => none
  | .stopDrain _ _ => none
  | .contextSave _ _ => none
  | .contextRestore _ _ => none
  | .scrubComplete _ => none
  | .relockEnd _ => none
  | .governorEvaluation _ => none
  | .dumpEnd _ _ => none
  | .traceSample _ => none
  | .traceRecordWrite _ => none
  | .powerUpReset _ => none
  | .idleHelperPop _ _ => none
  | .scalarResultWrite _ _ _ _ => none
  | .linkFailureDeclared _ => none
  | .launchRecordWrite _ _ _ => none
  | .gangAck _ => none
  | .gangAbort _ => none
  | .hostSuspendRequest _ _ => none
  | .hostRelease _ _ => none
  | .hostResume _ => none
  | .hostEndThread _ => none
  | .serviceAnswer _ => none
  | .pageRequestResponse _ _ _ => none
  | .faultQueueConsume _ _ => none
  | .pavilionAssign _ _ => none
  | .patrolScrubLine _ => none
  | .patrolDeadlineWrite _ => none
  | .frequencyWrite _ _ => none
  | .capWrite _ _ => none
  | .translationRootWrite _ _ => none
  | .hostInvalidate _ _ => none
  | .zeroingCommand _ _ => none
  | .apbaseWrite _ _ => none
  | .apertureAccess _ _ _ _ => none
  | .corecfgWrite _ _ => none
  | .verifyModeSet _ _ => none
  | .suspectClear _ => none
  | .dumpArm _ _ _ => none
  | .dumpRequest _ _ => none
  | .trctlFlush _ => none
  | .managementRegisterWrite _ => none
  | .startStageComplete _ _ => none
  | .startWatchdog => none
  | .fullStartRequest => none
  | .spdmGetVersion _ => none
  | .spdmGetCapabilities _ => none
  | .spdmNegotiateAlgorithms _ => none
  | .spdmGetDigests _ => none
  | .spdmGetCertificate _ => none
  | .spdmChallenge _ _ => none
  | .spdmGetMeasurements _ _ => none
  | .vfEnable _ => none
  | .fabricSettingsWrite _ => none
  | .linkUp _ => none
  | .pcieCompletionTimeout _ _ => none
  | .memoryAccessPerformed _ _ _ => none

/-- Guard and hints of an instruction. -/
def Instr.ctl : Instr → Ctl
  | .add c _ _ _ => c
  | .sub c _ _ _ => c
  | .addi c _ _ _ => c
  | .mul c _ _ _ => c
  | .mulh c _ _ _ => c
  | .mulhu c _ _ _ => c
  | .div c _ _ _ => c
  | .divu c _ _ _ => c
  | .rem c _ _ _ => c
  | .remu c _ _ _ => c
  | .and c _ _ _ => c
  | .or c _ _ _ => c
  | .xor c _ _ _ => c
  | .andi c _ _ _ => c
  | .ori c _ _ _ => c
  | .xori c _ _ _ => c
  | .shl c _ _ _ => c
  | .shr c _ _ _ => c
  | .sra c _ _ _ => c
  | .shli c _ _ _ => c
  | .shri c _ _ _ => c
  | .srai c _ _ _ => c
  | .rot c _ _ _ => c
  | .min c _ _ _ => c
  | .max c _ _ _ => c
  | .minu c _ _ _ => c
  | .maxu c _ _ _ => c
  | .clz c _ _ => c
  | .ctz c _ _ => c
  | .popc c _ _ => c
  | .movi c _ _ => c
  | .sel c _ _ _ _ => c
  | .cmp c _ _ _ _ => c
  | .faddS c _ _ _ _ => c
  | .faddD c _ _ _ _ => c
  | .fsubS c _ _ _ _ => c
  | .fsubD c _ _ _ _ => c
  | .fmulS c _ _ _ _ => c
  | .fmulD c _ _ _ _ => c
  | .ffmaS c _ _ _ _ _ => c
  | .ffmaD c _ _ _ _ _ => c
  | .fdivS c _ _ _ _ => c
  | .fdivD c _ _ _ _ => c
  | .fsqrtS c _ _ _ => c
  | .fsqrtD c _ _ _ => c
  | .fminS c _ _ _ => c
  | .fminD c _ _ _ => c
  | .fmaxS c _ _ _ => c
  | .fmaxD c _ _ _ => c
  | .fcmpS c _ _ _ _ => c
  | .fcmpD c _ _ _ _ => c
  | .fcvtS c _ _ _ _ => c
  | .fcvtD c _ _ _ _ => c
  | .fclassS c _ _ => c
  | .fclassD c _ _ => c
  | .fsgnS c _ _ _ _ => c
  | .fsgnD c _ _ _ _ => c
  | .pand c _ _ _ => c
  | .por c _ _ _ => c
  | .pxor c _ _ _ => c
  | .pnot c _ _ => c
  | .pmov c _ _ => c
  | .br c _ => c
  | .jmp c _ _ => c
  | .call c _ _ => c
  | .ret c _ => c
  | .lnest c _ _ _ => c
  | .lninc c _ _ _ => c
  | .yield c => c
  | .nop c => c
  | .trap c _ => c
  | .svc c _ => c
  | .eret c => c
  | .ld c _ _ _ _ _ => c
  | .st c _ _ _ _ => c
  | .amo c _ _ _ _ _ _ _ => c
  | .cas c _ _ _ _ _ _ => c
  | .fence c _ _ => c
  | .barinit c _ _ _ => c
  | .bararr c _ _ _ => c
  | .barwait c _ _ _ => c
  | .barfree c _ _ => c
  | .sigst c _ _ _ _ => c
  | .csrr c _ _ => c
  | .csrw c _ _ => c
  | .csrs c _ _ => c
  | .csrc c _ _ => c
  | .tlbinv c _ _ _ => c
  | .icinv c _ _ _ => c
  | .setvl c _ _ _ => c
  | .setvli c _ _ => c
  | .vlq c _ _ => c
  | .vspill c _ _ _ _ => c
  | .vfill c _ _ _ _ => c
  | .vadd c _ _ _ _ _ => c
  | .vsub c _ _ _ _ _ => c
  | .vmul c _ _ _ _ _ => c
  | .vmulh c _ _ _ _ _ => c
  | .vdiv c _ _ _ _ _ => c
  | .vrem c _ _ _ _ _ => c
  | .vmin c _ _ _ _ _ => c
  | .vmax c _ _ _ _ _ => c
  | .vand c _ _ _ _ _ => c
  | .vor c _ _ _ _ _ => c
  | .vxor c _ _ _ _ _ => c
  | .vshl c _ _ _ _ _ => c
  | .vshr c _ _ _ _ _ => c
  | .vsra c _ _ _ _ _ => c
  | .vsadd c _ _ _ _ _ => c
  | .vssub c _ _ _ _ _ => c
  | .vwmul c _ _ _ _ _ => c
  | .vwmacc c _ _ _ _ _ => c
  | .vcmp c _ _ _ _ _ _ => c
  | .vmerge c _ _ _ _ _ _ => c
  | .vcvt c _ _ _ _ => c
  | .mand c _ _ _ => c
  | .mor c _ _ _ => c
  | .mxor c _ _ _ => c
  | .mnot c _ _ => c
  | .mpop c _ _ => c
  | .mffs c _ _ => c
  | .mset c _ _ => c
  | .vfadd c _ _ _ _ _ => c
  | .vfsub c _ _ _ _ _ => c
  | .vfmul c _ _ _ _ _ => c
  | .vfma c _ _ _ _ _ _ => c
  | .vfnma c _ _ _ _ _ _ => c
  | .vfdiv c _ _ _ _ _ => c
  | .vfrcp c _ _ _ _ => c
  | .vfsqrt c _ _ _ _ => c
  | .vfrsqrt c _ _ _ _ => c
  | .vfexp2 c _ _ _ _ => c
  | .vflog2 c _ _ _ _ => c
  | .vfsin c _ _ _ _ => c
  | .vfcos c _ _ _ _ => c
  | .vftanh c _ _ _ _ => c
  | .vfmin c _ _ _ _ _ => c
  | .vfmax c _ _ _ _ _ => c
  | .vfcmp c _ _ _ _ _ _ => c
  | .vfcvt c _ _ _ _ _ => c
  | .vfwma c _ _ _ _ _ _ => c
  | .vfclass c _ _ _ _ => c
  | .vfsgn c _ _ _ _ _ _ => c
  | .vslide c _ _ _ _ _ _ => c
  | .vperm c _ _ _ _ _ => c
  | .vreshape c _ _ _ _ _ => c
  | .vcompress c _ _ _ _ _ => c
  | .vexpand c _ _ _ _ _ => c
  | .vbcast c _ _ _ _ => c
  | .vext c _ _ _ _ _ => c
  | .vins c _ _ _ _ _ => c
  | .vrsum c _ _ _ _ => c
  | .vrmax c _ _ _ _ => c
  | .vrmin c _ _ _ _ => c
  | .vrssum c _ _ _ _ => c
  | .vrmaxw c _ _ _ _ _ _ _ => c
  | .vrminw c _ _ _ _ _ _ _ => c
  | .vclampw c _ _ _ _ _ _ => c
  | .vrmedw c _ _ _ _ _ _ _ => c
  | .vrssumw c _ _ _ _ _ _ _ => c
  | .vwhdr c _ _ _ => c
  | .vadjb c _ _ _ _ _ _ _ => c
  | .vld c _ _ _ _ _ => c
  | .vlds c _ _ _ _ _ _ => c
  | .vldx c _ _ _ _ _ _ _ => c
  | .vldseg c _ _ _ _ _ _ => c
  | .vst c _ _ _ _ _ => c
  | .vsts c _ _ _ _ _ _ => c
  | .vstx c _ _ _ _ _ _ _ => c
  | .vstseg c _ _ _ _ _ _ => c
  | .vldmx c _ _ _ _ _ _ _ => c
  | .vstmx c _ _ _ _ _ _ _ => c
  | .vsettle c _ _ => c
  | .vpres c _ _ _ _ => c
  | .mpoison c _ _ _ => c
  | .hpop c _ => c
  | .hopnd c _ _ => c
  | .hfill c _ _ => c
  | .hflt c _ _ => c
  | .msel c _ _ => c
  | .mmul c _ _ _ _ _ => c
  | .mstat c _ => c
  | .mclr c => c
  | .cpy c _ _ => c
  | .cpyt c _ _ => c
  | .cfill c _ _ _ => c
  | .cwany c _ _ => c
  | .cwall c _ _ => c
  | .cffr c _ _ => c
  | .ctclr c _ => c
  | .epop c _ => c
  | .lzopen c _ _ _ => c
  | .lzclose c _ => c
  | .lzres c _ _ => c
  | .lzput c _ _ _ _ => c
  | .lzwait c _ _ _ _ _ => c
  | .lzfree c _ _ => c
  | .lzclean c _ => c
  | .xred c _ _ _ _ => c
  | .tbset c _ _ _ => c
  | .tbtest c _ _ => c
  | .glaunch c _ _ => c
  | .texit c => c
  | .tsusp c => c
  | .tdclass c _ _ => c
  | .tdoffer c _ _ _ => c
  | .tglk c _ _ => c
  | .tgset c _ _ _ => c
  | .tginv c _ _ => c
  | .barwaitRelease _ _ => default
  | .mireStallResume _ _ => default
  | .laneWaitRelease _ _ => default
  | .planeLatch _ _ => default
  | .lzwaitTimeout _ _ => default
  | .issueCycle _ => default
  | .pipeDispatch _ _ _ => default
  | .engineCommandAccept _ _ => default
  | .copySegment _ _ => default
  | .reservationRequest _ => default
  | .reservationAnswer _ => default
  | .landing _ => default
  | .putAck _ => default
  | .xredGateRead _ _ => default
  | .xredReduce _ _ => default
  | .launchInstantiate _ => default
  | .dispatch _ => default
  | .tenderAnnounce _ => default
  | .bid _ => default
  | .bidWindowClose _ _ => default
  | .award _ _ _ => default
  | .retenderTimer _ _ => default
  | .gangPrepare _ => default
  | .gangCommit _ => default
  | .gangPrepareTimeout _ _ => default
  | .gangCommitTimeout _ _ => default
  | .stopDrain _ _ => default
  | .contextSave _ _ => default
  | .contextRestore _ _ => default
  | .scrubComplete _ => default
  | .relockEnd _ => default
  | .governorEvaluation _ => default
  | .dumpEnd _ _ => default
  | .traceSample _ => default
  | .traceRecordWrite _ => default
  | .powerUpReset _ => default
  | .idleHelperPop _ _ => default
  | .scalarResultWrite _ _ _ _ => default
  | .linkFailureDeclared _ => default
  | .launchRecordWrite _ _ _ => default
  | .gangAck _ => default
  | .gangAbort _ => default
  | .hostSuspendRequest _ _ => default
  | .hostRelease _ _ => default
  | .hostResume _ => default
  | .hostEndThread _ => default
  | .serviceAnswer _ => default
  | .pageRequestResponse _ _ _ => default
  | .faultQueueConsume _ _ => default
  | .pavilionAssign _ _ => default
  | .patrolScrubLine _ => default
  | .patrolDeadlineWrite _ => default
  | .frequencyWrite _ _ => default
  | .capWrite _ _ => default
  | .translationRootWrite _ _ => default
  | .hostInvalidate _ _ => default
  | .zeroingCommand _ _ => default
  | .apbaseWrite _ _ => default
  | .apertureAccess _ _ _ _ => default
  | .corecfgWrite _ _ => default
  | .verifyModeSet _ _ => default
  | .suspectClear _ => default
  | .dumpArm _ _ _ => default
  | .dumpRequest _ _ => default
  | .trctlFlush _ => default
  | .managementRegisterWrite _ => default
  | .startStageComplete _ _ => default
  | .startWatchdog => default
  | .fullStartRequest => default
  | .spdmGetVersion _ => default
  | .spdmGetCapabilities _ => default
  | .spdmNegotiateAlgorithms _ => default
  | .spdmGetDigests _ => default
  | .spdmGetCertificate _ => default
  | .spdmChallenge _ _ => default
  | .spdmGetMeasurements _ _ => default
  | .vfEnable _ => default
  | .fabricSettingsWrite _ => default
  | .linkUp _ => default
  | .pcieCompletionTimeout _ _ => default
  | .memoryAccessPerformed _ _ _ => default

/-- The prefix of an instruction, if it carries one. -/
def Instr.pfx : Instr → Option Pfx
  | .add _ _ _ _ => none
  | .sub _ _ _ _ => none
  | .addi _ _ _ _ => none
  | .mul _ _ _ _ => none
  | .mulh _ _ _ _ => none
  | .mulhu _ _ _ _ => none
  | .div _ _ _ _ => none
  | .divu _ _ _ _ => none
  | .rem _ _ _ _ => none
  | .remu _ _ _ _ => none
  | .and _ _ _ _ => none
  | .or _ _ _ _ => none
  | .xor _ _ _ _ => none
  | .andi _ _ _ _ => none
  | .ori _ _ _ _ => none
  | .xori _ _ _ _ => none
  | .shl _ _ _ _ => none
  | .shr _ _ _ _ => none
  | .sra _ _ _ _ => none
  | .shli _ _ _ _ => none
  | .shri _ _ _ _ => none
  | .srai _ _ _ _ => none
  | .rot _ _ _ _ => none
  | .min _ _ _ _ => none
  | .max _ _ _ _ => none
  | .minu _ _ _ _ => none
  | .maxu _ _ _ _ => none
  | .clz _ _ _ => none
  | .ctz _ _ _ => none
  | .popc _ _ _ => none
  | .movi _ _ _ => none
  | .sel _ _ _ _ _ => none
  | .cmp _ _ _ _ _ => none
  | .faddS _ _ _ _ _ => none
  | .faddD _ _ _ _ _ => none
  | .fsubS _ _ _ _ _ => none
  | .fsubD _ _ _ _ _ => none
  | .fmulS _ _ _ _ _ => none
  | .fmulD _ _ _ _ _ => none
  | .ffmaS _ _ _ _ _ _ => none
  | .ffmaD _ _ _ _ _ _ => none
  | .fdivS _ _ _ _ _ => none
  | .fdivD _ _ _ _ _ => none
  | .fsqrtS _ _ _ _ => none
  | .fsqrtD _ _ _ _ => none
  | .fminS _ _ _ _ => none
  | .fminD _ _ _ _ => none
  | .fmaxS _ _ _ _ => none
  | .fmaxD _ _ _ _ => none
  | .fcmpS _ _ _ _ _ => none
  | .fcmpD _ _ _ _ _ => none
  | .fcvtS _ _ _ _ _ => none
  | .fcvtD _ _ _ _ _ => none
  | .fclassS _ _ _ => none
  | .fclassD _ _ _ => none
  | .fsgnS _ _ _ _ _ => none
  | .fsgnD _ _ _ _ _ => none
  | .pand _ _ _ _ => none
  | .por _ _ _ _ => none
  | .pxor _ _ _ _ => none
  | .pnot _ _ _ => none
  | .pmov _ _ _ => none
  | .br _ _ => none
  | .jmp _ _ _ => none
  | .call _ _ _ => none
  | .ret _ _ => none
  | .lnest _ _ _ _ => none
  | .lninc _ _ _ _ => none
  | .yield _ => none
  | .nop _ => none
  | .trap _ _ => none
  | .svc _ _ => none
  | .eret _ => none
  | .ld _ _ _ _ _ _ => none
  | .st _ _ _ _ _ => none
  | .amo _ _ _ _ _ _ _ _ => none
  | .cas _ _ _ _ _ _ _ => none
  | .fence _ _ _ => none
  | .barinit _ _ _ _ => none
  | .bararr _ _ _ _ => none
  | .barwait _ _ _ _ => none
  | .barfree _ _ _ => none
  | .sigst _ _ _ _ _ => none
  | .csrr _ _ _ => none
  | .csrw _ _ _ => none
  | .csrs _ _ _ => none
  | .csrc _ _ _ => none
  | .tlbinv _ _ _ _ => none
  | .icinv _ _ _ _ => none
  | .setvl _ _ _ _ => none
  | .setvli _ _ _ => none
  | .vlq _ _ _ => none
  | .vspill _ _ _ _ _ => none
  | .vfill _ _ _ _ _ => none
  | .vadd _ x _ _ _ _ => x
  | .vsub _ x _ _ _ _ => x
  | .vmul _ x _ _ _ _ => x
  | .vmulh _ x _ _ _ _ => x
  | .vdiv _ x _ _ _ _ => x
  | .vrem _ x _ _ _ _ => x
  | .vmin _ x _ _ _ _ => x
  | .vmax _ x _ _ _ _ => x
  | .vand _ x _ _ _ _ => x
  | .vor _ x _ _ _ _ => x
  | .vxor _ x _ _ _ _ => x
  | .vshl _ x _ _ _ _ => x
  | .vshr _ x _ _ _ _ => x
  | .vsra _ x _ _ _ _ => x
  | .vsadd _ x _ _ _ _ => x
  | .vssub _ x _ _ _ _ => x
  | .vwmul _ x _ _ _ _ => x
  | .vwmacc _ x _ _ _ _ => x
  | .vcmp _ x _ _ _ _ _ => x
  | .vmerge _ x _ _ _ _ _ => x
  | .vcvt _ x _ _ _ => x
  | .mand _ _ _ _ => none
  | .mor _ _ _ _ => none
  | .mxor _ _ _ _ => none
  | .mnot _ _ _ => none
  | .mpop _ _ _ => none
  | .mffs _ _ _ => none
  | .mset _ _ _ => none
  | .vfadd _ x _ _ _ _ => x
  | .vfsub _ x _ _ _ _ => x
  | .vfmul _ x _ _ _ _ => x
  | .vfma _ x _ _ _ _ _ => x
  | .vfnma _ x _ _ _ _ _ => x
  | .vfdiv _ x _ _ _ _ => x
  | .vfrcp _ x _ _ _ => x
  | .vfsqrt _ x _ _ _ => x
  | .vfrsqrt _ x _ _ _ => x
  | .vfexp2 _ x _ _ _ => x
  | .vflog2 _ x _ _ _ => x
  | .vfsin _ x _ _ _ => x
  | .vfcos _ x _ _ _ => x
  | .vftanh _ x _ _ _ => x
  | .vfmin _ x _ _ _ _ => x
  | .vfmax _ x _ _ _ _ => x
  | .vfcmp _ x _ _ _ _ _ => x
  | .vfcvt _ x _ _ _ _ => x
  | .vfwma _ x _ _ _ _ _ => x
  | .vfclass _ x _ _ _ => x
  | .vfsgn _ x _ _ _ _ _ => x
  | .vslide _ x _ _ _ _ _ => x
  | .vperm _ x _ _ _ _ => x
  | .vreshape _ x _ _ _ _ => x
  | .vcompress _ x _ _ _ _ => x
  | .vexpand _ x _ _ _ _ => x
  | .vbcast _ x _ _ _ => x
  | .vext _ x _ _ _ _ => x
  | .vins _ x _ _ _ _ => x
  | .vrsum _ x _ _ _ => x
  | .vrmax _ x _ _ _ => x
  | .vrmin _ x _ _ _ => x
  | .vrssum _ x _ _ _ => x
  | .vrmaxw _ x _ _ _ _ _ _ => x
  | .vrminw _ x _ _ _ _ _ _ => x
  | .vclampw _ x _ _ _ _ _ => x
  | .vrmedw _ x _ _ _ _ _ _ => x
  | .vrssumw _ x _ _ _ _ _ _ => x
  | .vwhdr _ _ _ _ => none
  | .vadjb _ x _ _ _ _ _ _ => x
  | .vld _ x _ _ _ _ => x
  | .vlds _ x _ _ _ _ _ => x
  | .vldx _ x _ _ _ _ _ _ => x
  | .vldseg _ x _ _ _ _ _ => x
  | .vst _ x _ _ _ _ => x
  | .vsts _ x _ _ _ _ _ => x
  | .vstx _ x _ _ _ _ _ _ => x
  | .vstseg _ x _ _ _ _ _ => x
  | .vldmx _ x _ _ _ _ _ _ => x
  | .vstmx _ x _ _ _ _ _ _ => x
  | .vsettle _ _ _ => none
  | .vpres _ _ _ _ _ => none
  | .mpoison _ _ _ _ => none
  | .hpop _ _ => none
  | .hopnd _ _ _ => none
  | .hfill _ _ _ => none
  | .hflt _ _ _ => none
  | .msel _ _ _ => none
  | .mmul _ x _ _ _ _ => x
  | .mstat _ _ => none
  | .mclr _ => none
  | .cpy _ _ _ => none
  | .cpyt _ _ _ => none
  | .cfill _ _ _ _ => none
  | .cwany _ _ _ => none
  | .cwall _ _ _ => none
  | .cffr _ _ _ => none
  | .ctclr _ _ => none
  | .epop _ _ => none
  | .lzopen _ _ _ _ => none
  | .lzclose _ _ => none
  | .lzres _ _ _ => none
  | .lzput _ _ _ _ _ => none
  | .lzwait _ _ _ _ _ _ => none
  | .lzfree _ _ _ => none
  | .lzclean _ _ => none
  | .xred _ _ _ _ _ => none
  | .tbset _ _ _ _ => none
  | .tbtest _ _ _ => none
  | .glaunch _ _ _ => none
  | .texit _ => none
  | .tsusp _ => none
  | .tdclass _ _ _ => none
  | .tdoffer _ _ _ _ => none
  | .tglk _ _ _ => none
  | .tgset _ _ _ _ => none
  | .tginv _ _ _ => none
  | .barwaitRelease _ _ => none
  | .mireStallResume _ _ => none
  | .laneWaitRelease _ _ => none
  | .planeLatch _ _ => none
  | .lzwaitTimeout _ _ => none
  | .issueCycle _ => none
  | .pipeDispatch _ _ _ => none
  | .engineCommandAccept _ _ => none
  | .copySegment _ _ => none
  | .reservationRequest _ => none
  | .reservationAnswer _ => none
  | .landing _ => none
  | .putAck _ => none
  | .xredGateRead _ _ => none
  | .xredReduce _ _ => none
  | .launchInstantiate _ => none
  | .dispatch _ => none
  | .tenderAnnounce _ => none
  | .bid _ => none
  | .bidWindowClose _ _ => none
  | .award _ _ _ => none
  | .retenderTimer _ _ => none
  | .gangPrepare _ => none
  | .gangCommit _ => none
  | .gangPrepareTimeout _ _ => none
  | .gangCommitTimeout _ _ => none
  | .stopDrain _ _ => none
  | .contextSave _ _ => none
  | .contextRestore _ _ => none
  | .scrubComplete _ => none
  | .relockEnd _ => none
  | .governorEvaluation _ => none
  | .dumpEnd _ _ => none
  | .traceSample _ => none
  | .traceRecordWrite _ => none
  | .powerUpReset _ => none
  | .idleHelperPop _ _ => none
  | .scalarResultWrite _ _ _ _ => none
  | .linkFailureDeclared _ => none
  | .launchRecordWrite _ _ _ => none
  | .gangAck _ => none
  | .gangAbort _ => none
  | .hostSuspendRequest _ _ => none
  | .hostRelease _ _ => none
  | .hostResume _ => none
  | .hostEndThread _ => none
  | .serviceAnswer _ => none
  | .pageRequestResponse _ _ _ => none
  | .faultQueueConsume _ _ => none
  | .pavilionAssign _ _ => none
  | .patrolScrubLine _ => none
  | .patrolDeadlineWrite _ => none
  | .frequencyWrite _ _ => none
  | .capWrite _ _ => none
  | .translationRootWrite _ _ => none
  | .hostInvalidate _ _ => none
  | .zeroingCommand _ _ => none
  | .apbaseWrite _ _ => none
  | .apertureAccess _ _ _ _ => none
  | .corecfgWrite _ _ => none
  | .verifyModeSet _ _ => none
  | .suspectClear _ => none
  | .dumpArm _ _ _ => none
  | .dumpRequest _ _ => none
  | .trctlFlush _ => none
  | .managementRegisterWrite _ => none
  | .startStageComplete _ _ => none
  | .startWatchdog => none
  | .fullStartRequest => none
  | .spdmGetVersion _ => none
  | .spdmGetCapabilities _ => none
  | .spdmNegotiateAlgorithms _ => none
  | .spdmGetDigests _ => none
  | .spdmGetCertificate _ => none
  | .spdmChallenge _ _ => none
  | .spdmGetMeasurements _ _ => none
  | .vfEnable _ => none
  | .fabricSettingsWrite _ => none
  | .linkUp _ => none
  | .pcieCompletionTimeout _ _ => none
  | .memoryAccessPerformed _ _ _ => none

/-- Length in bytes: 16 with a prefix, 12 without (R25). -/
def Instr.len (i : Instr) : Nat := if i.pfx.isSome then 16 else 12

end Sys2Proof
end

