-- ==== Sys2Proof/WellFormed.lean ====
section
/-! DEFINITION. Which terms of `Instr` are instructions: the checks of step 5 of R33 that the field types do not make by
themselves. The decoder gives no other term. -/

namespace Sys2Proof

/-- Instructions whose description names a rounding step (R31, R110, R130, R181, R197). -/
def Op.rounds : Op → Bool
  | .vfadd | .vfsub | .vfmul | .vfdiv | .vfma | .vfnma | .vfrcp | .vfsqrt | .vfrsqrt | .vfexp2 | .vflog2 | .vfsin
  | .vfcos | .vftanh | .vfcvt | .vfwma | .vrsum | .mmul | .vadjb => true
  | _ => false

/-- Instructions that may carry the fourth operand E (R130, R181); none requires it. -/
def Op.mayE : Op → Bool
  | .vfcvt | .vfwma | .mmul => true
  | _ => false

/-- Instructions that write neither a vector register nor a mask register, and `vext`: ZP must be 0 (R31, R130). -/
def Op.noZp : Op → Bool
  | .vst | .vsts | .vstx | .vstseg | .vstmx | .vext => true
  | _ => false

/-- Instructions that require MSK = 0b000 (R130, R230). -/
def Op.noMsk : Op → Bool
  | .vcompress | .vexpand | .vext | .vins | .vstmx => true
  | _ => false

/-- The prefix agrees with the instruction that follows it (R31, R130, R225, R230). -/
def pfxOk (o : Op) : Option Pfx → Bool
  | none => true
  | some x => (x.rm == .dyn || o.rounds) && (!x.ev || o.mayE) && (x.ev || x.e == 0#6) &&
      (!x.zp || !o.noZp) && (x.msk == 0#3 || !o.noMsk)

/-- LOGG from 1 to `n` (R190). -/
def loggOk (n : Nat) (l : BitVec 3) : Bool := 1 ≤ l.toNat && l.toNat ≤ n

/-- The checks of step 5 of R33 on an instruction's fields. -/
def Instr.wf : Instr → Bool
  | .add _ _ _ _ => true
  | .sub _ _ _ _ => true
  | .addi _ _ _ _ => true
  | .mul _ _ _ _ => true
  | .mulh _ _ _ _ => true
  | .mulhu _ _ _ _ => true
  | .div _ _ _ _ => true
  | .divu _ _ _ _ => true
  | .rem _ _ _ _ => true
  | .remu _ _ _ _ => true
  | .and _ _ _ _ => true
  | .or _ _ _ _ => true
  | .xor _ _ _ _ => true
  | .andi _ _ _ _ => true
  | .ori _ _ _ _ => true
  | .xori _ _ _ _ => true
  | .shl _ _ _ _ => true
  | .shr _ _ _ _ => true
  | .sra _ _ _ _ => true
  | .shli _ _ _ _ => true
  | .shri _ _ _ _ => true
  | .srai _ _ _ _ => true
  | .rot _ _ _ _ => true
  | .min _ _ _ _ => true
  | .max _ _ _ _ => true
  | .minu _ _ _ _ => true
  | .maxu _ _ _ _ => true
  | .clz _ _ _ => true
  | .ctz _ _ _ => true
  | .popc _ _ _ => true
  | .movi _ _ _ => true
  | .sel _ _ _ _ _ => true
  | .cmp _ _ _ _ _ => true
  | .faddS _ _ _ _ _ => true
  | .faddD _ _ _ _ _ => true
  | .fsubS _ _ _ _ _ => true
  | .fsubD _ _ _ _ _ => true
  | .fmulS _ _ _ _ _ => true
  | .fmulD _ _ _ _ _ => true
  | .ffmaS _ _ _ _ _ _ => true
  | .ffmaD _ _ _ _ _ _ => true
  | .fdivS _ _ _ _ _ => true
  | .fdivD _ _ _ _ _ => true
  | .fsqrtS _ _ _ _ => true
  | .fsqrtD _ _ _ _ => true
  | .fminS _ _ _ _ => true
  | .fminD _ _ _ _ => true
  | .fmaxS _ _ _ _ => true
  | .fmaxD _ _ _ _ => true
  | .fcmpS _ _ _ _ _ => true
  | .fcmpD _ _ _ _ _ => true
  | .fcvtS _ _ _ _ _ => true
  | .fcvtD _ _ _ _ _ => true
  | .fclassS _ _ _ => true
  | .fclassD _ _ _ => true
  | .fsgnS _ _ _ _ _ => true
  | .fsgnD _ _ _ _ _ => true
  | .pand _ _ _ _ => true
  | .por _ _ _ _ => true
  | .pxor _ _ _ _ => true
  | .pnot _ _ _ => true
  | .pmov _ _ _ => true
  | .br _ tgt => tgt.setWidth 2 == 0#2
  | .jmp _ _ tgt => tgt.setWidth 2 == 0#2
  | .call _ _ tgt => tgt.setWidth 2 == 0#2
  | .ret _ _ => true
  | .lnest _ _ _ _ => true
  | .lninc _ _ _ _ => true
  | .yield _ => true
  | .nop _ => true
  | .trap _ _ => true
  | .svc _ _ => true
  | .eret _ => true
  | .ld _ _ _ k sx _ => !(sx && k == .d)
  | .st _ _ _ _ _ => true
  | .amo _ _ _ _ _ _ _ _ => true
  | .cas _ _ _ _ _ _ _ => true
  | .fence _ _ _ => true
  | .barinit _ _ _ _ => true
  | .bararr _ _ _ _ => true
  | .barwait _ _ _ _ => true
  | .barfree _ _ _ => true
  | .sigst _ _ _ _ _ => true
  | .csrr _ _ _ => true
  | .csrw _ _ _ => true
  | .csrs _ _ _ => true
  | .csrc _ _ _ => true
  | .tlbinv _ a b k => (k != .page || b == 0#6) && (k != .all || (a == 0#6 && b == 0#6))
  | .icinv _ _ _ _ => true
  | .setvl _ _ _ _ => true
  | .setvli _ _ _ => true
  | .vlq _ _ _ => true
  | .vspill _ _ _ _ _ => true
  | .vfill _ _ _ _ _ => true
  | .vadd _ x _ _ _ _ => pfxOk .vadd x
  | .vsub _ x _ _ _ _ => pfxOk .vsub x
  | .vmul _ x _ _ _ _ => pfxOk .vmul x
  | .vmulh _ x _ _ _ _ => pfxOk .vmulh x
  | .vdiv _ x _ _ _ _ => pfxOk .vdiv x
  | .vrem _ x _ _ _ _ => pfxOk .vrem x
  | .vmin _ x _ _ _ _ => pfxOk .vmin x
  | .vmax _ x _ _ _ _ => pfxOk .vmax x
  | .vand _ x _ _ _ _ => pfxOk .vand x
  | .vor _ x _ _ _ _ => pfxOk .vor x
  | .vxor _ x _ _ _ _ => pfxOk .vxor x
  | .vshl _ x _ _ _ _ => pfxOk .vshl x
  | .vshr _ x _ _ _ _ => pfxOk .vshr x
  | .vsra _ x _ _ _ _ => pfxOk .vsra x
  | .vsadd _ x _ _ _ _ => pfxOk .vsadd x
  | .vssub _ x _ _ _ _ => pfxOk .vssub x
  | .vwmul _ x _ _ _ _ => pfxOk .vwmul x
  | .vwmacc _ x _ _ _ _ => pfxOk .vwmacc x
  | .vcmp _ x _ _ _ _ _ => pfxOk .vcmp x
  | .vmerge _ x _ _ _ _ _ => pfxOk .vmerge x
  | .vcvt _ x _ _ _ => pfxOk .vcvt x
  | .mand _ _ _ _ => true
  | .mor _ _ _ _ => true
  | .mxor _ _ _ _ => true
  | .mnot _ _ _ => true
  | .mpop _ _ _ => true
  | .mffs _ _ _ => true
  | .mset _ _ _ => true
  | .vfadd _ x _ _ _ _ => pfxOk .vfadd x
  | .vfsub _ x _ _ _ _ => pfxOk .vfsub x
  | .vfmul _ x _ _ _ _ => pfxOk .vfmul x
  | .vfma _ x _ _ _ _ _ => pfxOk .vfma x
  | .vfnma _ x _ _ _ _ _ => pfxOk .vfnma x
  | .vfdiv _ x _ _ _ _ => pfxOk .vfdiv x
  | .vfrcp _ x _ _ _ => pfxOk .vfrcp x
  | .vfsqrt _ x _ _ _ => pfxOk .vfsqrt x
  | .vfrsqrt _ x _ _ _ => pfxOk .vfrsqrt x
  | .vfexp2 _ x _ _ _ => pfxOk .vfexp2 x
  | .vflog2 _ x _ _ _ => pfxOk .vflog2 x
  | .vfsin _ x _ _ _ => pfxOk .vfsin x
  | .vfcos _ x _ _ _ => pfxOk .vfcos x
  | .vftanh _ x _ _ _ => pfxOk .vftanh x
  | .vfmin _ x _ _ _ _ => pfxOk .vfmin x
  | .vfmax _ x _ _ _ _ => pfxOk .vfmax x
  | .vfcmp _ x _ _ _ _ _ => pfxOk .vfcmp x
  | .vfcvt _ x _ _ _ _ => pfxOk .vfcvt x
  | .vfwma _ x _ _ _ _ _ => pfxOk .vfwma x
  | .vfclass _ x _ _ _ => pfxOk .vfclass x
  | .vfsgn _ x _ _ _ _ _ => pfxOk .vfsgn x
  | .vslide _ x _ _ _ _ _ => pfxOk .vslide x
  | .vperm _ x _ _ _ _ => pfxOk .vperm x
  | .vreshape _ x _ _ _ _ => pfxOk .vreshape x
  | .vcompress _ x _ _ _ _ => pfxOk .vcompress x
  | .vexpand _ x _ _ _ _ => pfxOk .vexpand x
  | .vbcast _ x _ _ _ => pfxOk .vbcast x
  | .vext _ x _ _ _ _ => pfxOk .vext x
  | .vins _ x _ _ _ _ => pfxOk .vins x
  | .vrsum _ x _ _ _ => pfxOk .vrsum x
  | .vrmax _ x _ _ _ => pfxOk .vrmax x
  | .vrmin _ x _ _ _ => pfxOk .vrmin x
  | .vrssum _ x _ _ _ => pfxOk .vrssum x
  | .vrmaxw _ x _ _ _ _ _ logg => pfxOk .vrmaxw x && loggOk 6 logg
  | .vrminw _ x _ _ _ _ _ logg => pfxOk .vrminw x && loggOk 6 logg
  | .vclampw _ x _ _ _ rc _ => pfxOk .vclampw x && rc != 63#6
  | .vrmedw _ x _ _ _ _ tie logg => pfxOk .vrmedw x && loggOk 4 logg && tie == .first
  | .vrssumw _ x _ _ _ _ tie logg => pfxOk .vrssumw x && loggOk 6 logg && tie == .first
  | .vwhdr _ _ _ _ => true
  | .vadjb _ x _ _ _ _ _ _ => pfxOk .vadjb x
  | .vld _ x _ _ _ _ => pfxOk .vld x
  | .vlds _ x _ _ _ _ _ => pfxOk .vlds x
  | .vldx _ x _ _ _ _ _ _ => pfxOk .vldx x
  | .vldseg _ x _ _ _ nf _ => pfxOk .vldseg x && nf != 0#3
  | .vst _ x _ _ _ _ => pfxOk .vst x
  | .vsts _ x _ _ _ _ _ => pfxOk .vsts x
  | .vstx _ x _ _ _ _ _ _ => pfxOk .vstx x
  | .vstseg _ x _ _ _ nf _ => pfxOk .vstseg x && nf != 0#3
  | .vldmx _ x _ _ _ _ _ _ => pfxOk .vldmx x
  | .vstmx _ x _ _ _ _ _ _ => pfxOk .vstmx x
  | .vsettle _ a k => (k != .all || a == 0#6)
  | .vpres _ _ _ _ _ => true
  | .mpoison _ _ _ _ => true
  | .hpop _ _ => true
  | .hopnd _ _ _ => true
  | .hfill _ _ _ => true
  | .hflt _ _ _ => true
  | .msel _ _ _ => true
  | .mmul _ x _ _ _ _ => pfxOk .mmul x
  | .mstat _ _ => true
  | .mclr _ => true
  | .cpy _ _ _ => true
  | .cpyt _ _ _ => true
  | .cfill _ _ _ _ => true
  | .cwany _ _ _ => true
  | .cwall _ _ _ => true
  | .cffr _ _ _ => true
  | .ctclr _ _ => true
  | .epop _ _ => true
  | .lzopen _ _ _ _ => true
  | .lzclose _ _ => true
  | .lzres _ _ _ => true
  | .lzput _ _ _ _ _ => true
  | .lzwait _ _ _ _ _ _ => true
  | .lzfree _ _ _ => true
  | .lzclean _ _ => true
  | .xred _ _ _ _ _ => true
  | .tbset _ _ _ _ => true
  | .tbtest _ _ _ => true
  | .glaunch _ _ _ => true
  | .texit _ => true
  | .tsusp _ => true
  | .tdclass _ _ _ => true
  | .tdoffer _ _ _ _ => true
  | .tglk _ _ _ => true
  | .tgset _ _ _ _ => true
  | .tginv _ a k => (k != .all || a == 0#6)
  | .barwaitRelease _ _ => true
  | .mireStallResume _ _ => true
  | .laneWaitRelease _ _ => true
  | .planeLatch _ _ => true
  | .lzwaitTimeout _ _ => true
  | .issueCycle _ => true
  | .pipeDispatch _ _ _ => true
  | .engineCommandAccept _ _ => true
  | .copySegment _ _ => true
  | .reservationRequest _ => true
  | .reservationAnswer _ => true
  | .landing _ => true
  | .putAck _ => true
  | .xredGateRead _ _ => true
  | .xredReduce _ _ => true
  | .launchInstantiate _ => true
  | .dispatch _ => true
  | .tenderAnnounce _ => true
  | .bid _ => true
  | .bidWindowClose _ _ => true
  | .award _ _ _ => true
  | .retenderTimer _ _ => true
  | .gangPrepare _ => true
  | .gangCommit _ => true
  | .gangPrepareTimeout _ _ => true
  | .gangCommitTimeout _ _ => true
  | .stopDrain _ _ => true
  | .contextSave _ _ => true
  | .contextRestore _ _ => true
  | .scrubComplete _ => true
  | .relockEnd _ => true
  | .governorEvaluation _ => true
  | .dumpEnd _ _ => true
  | .traceSample _ => true
  | .traceRecordWrite _ => true
  | .powerUpReset _ => true
  | .idleHelperPop _ _ => true
  | .scalarResultWrite _ _ _ _ => true
  | .linkFailureDeclared _ => true
  | .launchRecordWrite _ _ _ => true
  | .gangAck _ => true
  | .gangAbort _ => true
  | .hostSuspendRequest _ _ => true
  | .hostRelease _ _ => true
  | .hostResume _ => true
  | .hostEndThread _ => true
  | .serviceAnswer _ => true
  | .pageRequestResponse _ _ _ => true
  | .faultQueueConsume _ _ => true
  | .pavilionAssign _ _ => true
  | .patrolScrubLine _ => true
  | .patrolDeadlineWrite _ => true
  | .frequencyWrite _ _ => true
  | .capWrite _ _ => true
  | .translationRootWrite _ _ => true
  | .hostInvalidate _ _ => true
  | .zeroingCommand _ _ => true
  | .apbaseWrite _ _ => true
  | .apertureAccess _ _ _ _ => true
  | .corecfgWrite _ _ => true
  | .verifyModeSet _ _ => true
  | .suspectClear _ => true
  | .dumpArm _ _ _ => true
  | .dumpRequest _ _ => true
  | .trctlFlush _ => true
  | .managementRegisterWrite _ => true
  | .startStageComplete _ _ => true
  | .startWatchdog => true
  | .fullStartRequest => true
  | .spdmGetVersion _ => true
  | .spdmGetCapabilities _ => true
  | .spdmNegotiateAlgorithms _ => true
  | .spdmGetDigests _ => true
  | .spdmGetCertificate _ => true
  | .spdmChallenge _ _ => true
  | .spdmGetMeasurements _ _ => true
  | .vfEnable _ => true
  | .fabricSettingsWrite _ => true
  | .linkUp _ => true
  | .pcieCompletionTimeout _ _ => true
  | .memoryAccessPerformed _ _ _ => true

/-- A well-formed instruction. -/
abbrev WellFormed (i : Instr) : Prop := i.wf = true

end Sys2Proof
end

