-- ==== Sys2Proof/Decode.lean ====
section
/-! DEFINITION. The decoder, total on any bytes, in the order of R33 and rejecting by name, and after it the encoder, both
from the encoding tables of R24 to R32 and R47. -/

namespace Sys2Proof

/-! ## Opcodes (R47, R49, R52) -/

/-- The opcode value of R47. -/
def Op.code : Op → Nat
  | .add => 0x000
  | .sub => 0x001
  | .addi => 0x002
  | .mul => 0x003
  | .mulh => 0x004
  | .mulhu => 0x005
  | .div => 0x006
  | .divu => 0x007
  | .rem => 0x008
  | .remu => 0x009
  | .and => 0x00A
  | .or => 0x00B
  | .xor => 0x00C
  | .andi => 0x00D
  | .ori => 0x00E
  | .xori => 0x00F
  | .shl => 0x010
  | .shr => 0x011
  | .sra => 0x012
  | .shli => 0x013
  | .shri => 0x014
  | .srai => 0x015
  | .rot => 0x016
  | .min => 0x017
  | .max => 0x018
  | .minu => 0x019
  | .maxu => 0x01A
  | .clz => 0x01B
  | .ctz => 0x01C
  | .popc => 0x01D
  | .movi => 0x01E
  | .sel => 0x01F
  | .cmp => 0x020
  | .faddS => 0x040
  | .faddD => 0x041
  | .fsubS => 0x042
  | .fsubD => 0x043
  | .fmulS => 0x044
  | .fmulD => 0x045
  | .ffmaS => 0x046
  | .ffmaD => 0x047
  | .fdivS => 0x048
  | .fdivD => 0x049
  | .fsqrtS => 0x04A
  | .fsqrtD => 0x04B
  | .fminS => 0x04C
  | .fminD => 0x04D
  | .fmaxS => 0x04E
  | .fmaxD => 0x04F
  | .fcmpS => 0x050
  | .fcmpD => 0x051
  | .fcvtS => 0x052
  | .fcvtD => 0x053
  | .fclassS => 0x054
  | .fclassD => 0x055
  | .fsgnS => 0x056
  | .fsgnD => 0x057
  | .pand => 0x060
  | .por => 0x061
  | .pxor => 0x062
  | .pnot => 0x063
  | .pmov => 0x064
  | .br => 0x068
  | .jmp => 0x069
  | .call => 0x06A
  | .ret => 0x06B
  | .lnest => 0x06C
  | .lninc => 0x06D
  | .yield => 0x06E
  | .nop => 0x06F
  | .trap => 0x070
  | .svc => 0x071
  | .eret => 0x072
  | .ld => 0x080
  | .st => 0x081
  | .amo => 0x082
  | .cas => 0x083
  | .fence => 0x084
  | .barinit => 0x085
  | .bararr => 0x086
  | .barwait => 0x087
  | .barfree => 0x088
  | .sigst => 0x089
  | .csrr => 0x0C0
  | .csrw => 0x0C1
  | .csrs => 0x0C2
  | .csrc => 0x0C3
  | .tlbinv => 0x0C4
  | .icinv => 0x0C5
  | .setvl => 0x100
  | .setvli => 0x101
  | .vlq => 0x102
  | .vspill => 0x103
  | .vfill => 0x104
  | .vadd => 0x110
  | .vsub => 0x111
  | .vmul => 0x112
  | .vmulh => 0x113
  | .vdiv => 0x114
  | .vrem => 0x115
  | .vmin => 0x116
  | .vmax => 0x117
  | .vand => 0x118
  | .vor => 0x119
  | .vxor => 0x11A
  | .vshl => 0x11B
  | .vshr => 0x11C
  | .vsra => 0x11D
  | .vsadd => 0x11E
  | .vssub => 0x11F
  | .vwmul => 0x120
  | .vwmacc => 0x121
  | .vcmp => 0x122
  | .vmerge => 0x123
  | .vcvt => 0x124
  | .mand => 0x140
  | .mor => 0x141
  | .mxor => 0x142
  | .mnot => 0x143
  | .mpop => 0x144
  | .mffs => 0x145
  | .mset => 0x146
  | .vfadd => 0x180
  | .vfsub => 0x181
  | .vfmul => 0x182
  | .vfma => 0x183
  | .vfnma => 0x184
  | .vfdiv => 0x185
  | .vfrcp => 0x186
  | .vfsqrt => 0x187
  | .vfrsqrt => 0x188
  | .vfexp2 => 0x189
  | .vflog2 => 0x18A
  | .vfsin => 0x18B
  | .vfcos => 0x18C
  | .vftanh => 0x18D
  | .vfmin => 0x18E
  | .vfmax => 0x18F
  | .vfcmp => 0x190
  | .vfcvt => 0x191
  | .vfwma => 0x192
  | .vfclass => 0x193
  | .vfsgn => 0x194
  | .vslide => 0x200
  | .vperm => 0x201
  | .vreshape => 0x202
  | .vcompress => 0x203
  | .vexpand => 0x204
  | .vbcast => 0x205
  | .vext => 0x206
  | .vins => 0x207
  | .vrsum => 0x210
  | .vrmax => 0x211
  | .vrmin => 0x212
  | .vrssum => 0x213
  | .vrmaxw => 0x220
  | .vrminw => 0x221
  | .vclampw => 0x222
  | .vrmedw => 0x223
  | .vrssumw => 0x224
  | .vwhdr => 0x225
  | .vadjb => 0x226
  | .vld => 0x240
  | .vlds => 0x241
  | .vldx => 0x242
  | .vldseg => 0x243
  | .vst => 0x248
  | .vsts => 0x249
  | .vstx => 0x24A
  | .vstseg => 0x24B
  | .vldmx => 0x250
  | .vstmx => 0x251
  | .vsettle => 0x280
  | .vpres => 0x281
  | .mpoison => 0x282
  | .hpop => 0x288
  | .hopnd => 0x289
  | .hfill => 0x28A
  | .hflt => 0x28B
  | .msel => 0x2A0
  | .mmul => 0x2A1
  | .mstat => 0x2A2
  | .mclr => 0x2A3
  | .cpy => 0x2C0
  | .cpyt => 0x2C1
  | .cfill => 0x2C2
  | .cwany => 0x2C3
  | .cwall => 0x2C4
  | .cffr => 0x2C5
  | .ctclr => 0x2C6
  | .epop => 0x2C7
  | .lzopen => 0x2C8
  | .lzclose => 0x2C9
  | .lzres => 0x2CA
  | .lzput => 0x2CB
  | .lzwait => 0x2CC
  | .lzfree => 0x2CD
  | .lzclean => 0x2CE
  | .xred => 0x2D0
  | .tbset => 0x300
  | .tbtest => 0x301
  | .glaunch => 0x302
  | .texit => 0x303
  | .tsusp => 0x304
  | .tdclass => 0x308
  | .tdoffer => 0x309
  | .tglk => 0x310
  | .tgset => 0x311
  | .tginv => 0x312

def opTable0 : List (Nat × Op) :=
  [(0x000, .add), (0x001, .sub), (0x002, .addi), (0x003, .mul), (0x004, .mulh), (0x005, .mulhu),
   (0x006, .div), (0x007, .divu), (0x008, .rem), (0x009, .remu), (0x00A, .and), (0x00B, .or),
   (0x00C, .xor), (0x00D, .andi), (0x00E, .ori), (0x00F, .xori), (0x010, .shl), (0x011, .shr),
   (0x012, .sra), (0x013, .shli), (0x014, .shri), (0x015, .srai), (0x016, .rot), (0x017, .min)]
def opTable1 : List (Nat × Op) :=
  [(0x018, .max), (0x019, .minu), (0x01A, .maxu), (0x01B, .clz), (0x01C, .ctz), (0x01D, .popc),
   (0x01E, .movi), (0x01F, .sel), (0x020, .cmp), (0x040, .faddS), (0x041, .faddD), (0x042, .fsubS),
   (0x043, .fsubD), (0x044, .fmulS), (0x045, .fmulD), (0x046, .ffmaS), (0x047, .ffmaD), (0x048, .fdivS),
   (0x049, .fdivD), (0x04A, .fsqrtS), (0x04B, .fsqrtD), (0x04C, .fminS), (0x04D, .fminD), (0x04E, .fmaxS)]
def opTable2 : List (Nat × Op) :=
  [(0x04F, .fmaxD), (0x050, .fcmpS), (0x051, .fcmpD), (0x052, .fcvtS), (0x053, .fcvtD), (0x054, .fclassS),
   (0x055, .fclassD), (0x056, .fsgnS), (0x057, .fsgnD), (0x060, .pand), (0x061, .por), (0x062, .pxor),
   (0x063, .pnot), (0x064, .pmov), (0x068, .br), (0x069, .jmp), (0x06A, .call), (0x06B, .ret),
   (0x06C, .lnest), (0x06D, .lninc), (0x06E, .yield), (0x06F, .nop), (0x070, .trap), (0x071, .svc)]
def opTable3 : List (Nat × Op) :=
  [(0x072, .eret), (0x080, .ld), (0x081, .st), (0x082, .amo), (0x083, .cas), (0x084, .fence),
   (0x085, .barinit), (0x086, .bararr), (0x087, .barwait), (0x088, .barfree), (0x089, .sigst), (0x0C0, .csrr),
   (0x0C1, .csrw), (0x0C2, .csrs), (0x0C3, .csrc), (0x0C4, .tlbinv), (0x0C5, .icinv), (0x100, .setvl),
   (0x101, .setvli), (0x102, .vlq), (0x103, .vspill), (0x104, .vfill), (0x110, .vadd), (0x111, .vsub)]
def opTable4 : List (Nat × Op) :=
  [(0x112, .vmul), (0x113, .vmulh), (0x114, .vdiv), (0x115, .vrem), (0x116, .vmin), (0x117, .vmax),
   (0x118, .vand), (0x119, .vor), (0x11A, .vxor), (0x11B, .vshl), (0x11C, .vshr), (0x11D, .vsra),
   (0x11E, .vsadd), (0x11F, .vssub), (0x120, .vwmul), (0x121, .vwmacc), (0x122, .vcmp), (0x123, .vmerge),
   (0x124, .vcvt), (0x140, .mand), (0x141, .mor), (0x142, .mxor), (0x143, .mnot), (0x144, .mpop)]
def opTable5 : List (Nat × Op) :=
  [(0x145, .mffs), (0x146, .mset), (0x180, .vfadd), (0x181, .vfsub), (0x182, .vfmul), (0x183, .vfma),
   (0x184, .vfnma), (0x185, .vfdiv), (0x186, .vfrcp), (0x187, .vfsqrt), (0x188, .vfrsqrt), (0x189, .vfexp2),
   (0x18A, .vflog2), (0x18B, .vfsin), (0x18C, .vfcos), (0x18D, .vftanh), (0x18E, .vfmin), (0x18F, .vfmax),
   (0x190, .vfcmp), (0x191, .vfcvt), (0x192, .vfwma), (0x193, .vfclass), (0x194, .vfsgn), (0x200, .vslide)]
def opTable6 : List (Nat × Op) :=
  [(0x201, .vperm), (0x202, .vreshape), (0x203, .vcompress), (0x204, .vexpand), (0x205, .vbcast), (0x206, .vext),
   (0x207, .vins), (0x210, .vrsum), (0x211, .vrmax), (0x212, .vrmin), (0x213, .vrssum), (0x220, .vrmaxw),
   (0x221, .vrminw), (0x222, .vclampw), (0x223, .vrmedw), (0x224, .vrssumw), (0x225, .vwhdr), (0x226, .vadjb),
   (0x240, .vld), (0x241, .vlds), (0x242, .vldx), (0x243, .vldseg), (0x248, .vst), (0x249, .vsts)]
def opTable7 : List (Nat × Op) :=
  [(0x24A, .vstx), (0x24B, .vstseg), (0x250, .vldmx), (0x251, .vstmx), (0x280, .vsettle), (0x281, .vpres),
   (0x282, .mpoison), (0x288, .hpop), (0x289, .hopnd), (0x28A, .hfill), (0x28B, .hflt), (0x2A0, .msel),
   (0x2A1, .mmul), (0x2A2, .mstat), (0x2A3, .mclr), (0x2C0, .cpy), (0x2C1, .cpyt), (0x2C2, .cfill),
   (0x2C3, .cwany), (0x2C4, .cwall), (0x2C5, .cffr), (0x2C6, .ctclr), (0x2C7, .epop), (0x2C8, .lzopen)]
def opTable8 : List (Nat × Op) :=
  [(0x2C9, .lzclose), (0x2CA, .lzres), (0x2CB, .lzput), (0x2CC, .lzwait), (0x2CD, .lzfree), (0x2CE, .lzclean),
   (0x2D0, .xred), (0x300, .tbset), (0x301, .tbtest), (0x302, .glaunch), (0x303, .texit), (0x304, .tsusp),
   (0x308, .tdclass), (0x309, .tdoffer), (0x310, .tglk), (0x311, .tgset), (0x312, .tginv)]

/-- The opcode map of R47. -/
def opTable : List (Nat × Op) := opTable0 ++ opTable1 ++ opTable2 ++ opTable3 ++ opTable4 ++ opTable5 ++ opTable6 ++ opTable7 ++ opTable8

/-- The opcode of a value of OPC; `none` when it is unassigned (R48). -/
def Op.ofCode (n : Nat) : Option Op := opTable.lookup n

/-- The FEATMASK bit that gates the opcode (R47, R49). -/
def Op.feature : Op → Nat
  | .add => 0
  | .sub => 0
  | .addi => 0
  | .mul => 0
  | .mulh => 0
  | .mulhu => 0
  | .div => 0
  | .divu => 0
  | .rem => 0
  | .remu => 0
  | .and => 0
  | .or => 0
  | .xor => 0
  | .andi => 0
  | .ori => 0
  | .xori => 0
  | .shl => 0
  | .shr => 0
  | .sra => 0
  | .shli => 0
  | .shri => 0
  | .srai => 0
  | .rot => 0
  | .min => 0
  | .max => 0
  | .minu => 0
  | .maxu => 0
  | .clz => 0
  | .ctz => 0
  | .popc => 0
  | .movi => 0
  | .sel => 0
  | .cmp => 0
  | .faddS => 1
  | .faddD => 2
  | .fsubS => 1
  | .fsubD => 2
  | .fmulS => 1
  | .fmulD => 2
  | .ffmaS => 1
  | .ffmaD => 2
  | .fdivS => 1
  | .fdivD => 2
  | .fsqrtS => 1
  | .fsqrtD => 2
  | .fminS => 1
  | .fminD => 2
  | .fmaxS => 1
  | .fmaxD => 2
  | .fcmpS => 1
  | .fcmpD => 2
  | .fcvtS => 1
  | .fcvtD => 2
  | .fclassS => 1
  | .fclassD => 2
  | .fsgnS => 1
  | .fsgnD => 2
  | .pand => 0
  | .por => 0
  | .pxor => 0
  | .pnot => 0
  | .pmov => 0
  | .br => 0
  | .jmp => 0
  | .call => 0
  | .ret => 0
  | .lnest => 0
  | .lninc => 0
  | .yield => 0
  | .nop => 0
  | .trap => 0
  | .svc => 0
  | .eret => 0
  | .ld => 0
  | .st => 0
  | .amo => 0
  | .cas => 0
  | .fence => 0
  | .barinit => 0
  | .bararr => 0
  | .barwait => 0
  | .barfree => 0
  | .sigst => 0
  | .csrr => 0
  | .csrw => 0
  | .csrs => 0
  | .csrc => 0
  | .tlbinv => 0
  | .icinv => 0
  | .setvl => 3
  | .setvli => 3
  | .vlq => 3
  | .vspill => 3
  | .vfill => 3
  | .vadd => 3
  | .vsub => 3
  | .vmul => 3
  | .vmulh => 3
  | .vdiv => 3
  | .vrem => 3
  | .vmin => 3
  | .vmax => 3
  | .vand => 3
  | .vor => 3
  | .vxor => 3
  | .vshl => 3
  | .vshr => 3
  | .vsra => 3
  | .vsadd => 3
  | .vssub => 3
  | .vwmul => 3
  | .vwmacc => 3
  | .vcmp => 3
  | .vmerge => 3
  | .vcvt => 3
  | .mand => 3
  | .mor => 3
  | .mxor => 3
  | .mnot => 3
  | .mpop => 3
  | .mffs => 3
  | .mset => 3
  | .vfadd => 4
  | .vfsub => 4
  | .vfmul => 4
  | .vfma => 4
  | .vfnma => 4
  | .vfdiv => 4
  | .vfrcp => 4
  | .vfsqrt => 4
  | .vfrsqrt => 4
  | .vfexp2 => 5
  | .vflog2 => 5
  | .vfsin => 5
  | .vfcos => 5
  | .vftanh => 5
  | .vfmin => 4
  | .vfmax => 4
  | .vfcmp => 4
  | .vfcvt => 4
  | .vfwma => 4
  | .vfclass => 4
  | .vfsgn => 4
  | .vslide => 6
  | .vperm => 6
  | .vreshape => 6
  | .vcompress => 6
  | .vexpand => 6
  | .vbcast => 6
  | .vext => 6
  | .vins => 6
  | .vrsum => 6
  | .vrmax => 6
  | .vrmin => 6
  | .vrssum => 6
  | .vrmaxw => 7
  | .vrminw => 7
  | .vclampw => 7
  | .vrmedw => 7
  | .vrssumw => 7
  | .vwhdr => 7
  | .vadjb => 7
  | .vld => 8
  | .vlds => 8
  | .vldx => 8
  | .vldseg => 8
  | .vst => 8
  | .vsts => 8
  | .vstx => 8
  | .vstseg => 8
  | .vldmx => 9
  | .vstmx => 9
  | .vsettle => 0
  | .vpres => 0
  | .mpoison => 0
  | .hpop => 0
  | .hopnd => 0
  | .hfill => 0
  | .hflt => 0
  | .msel => 10
  | .mmul => 10
  | .mstat => 10
  | .mclr => 10
  | .cpy => 11
  | .cpyt => 11
  | .cfill => 11
  | .cwany => 11
  | .cwall => 11
  | .cffr => 11
  | .ctclr => 11
  | .epop => 11
  | .lzopen => 12
  | .lzclose => 12
  | .lzres => 12
  | .lzput => 12
  | .lzwait => 12
  | .lzfree => 12
  | .lzclean => 12
  | .xred => 13
  | .tbset => 14
  | .tbtest => 14
  | .glaunch => 14
  | .texit => 14
  | .tsusp => 14
  | .tdclass => 14
  | .tdoffer => 14
  | .tglk => 15
  | .tgset => 15
  | .tginv => 15

/-- The opcode takes a prefix (R47). -/
def Op.prefixable : Op → Bool
  | .add => false
  | .sub => false
  | .addi => false
  | .mul => false
  | .mulh => false
  | .mulhu => false
  | .div => false
  | .divu => false
  | .rem => false
  | .remu => false
  | .and => false
  | .or => false
  | .xor => false
  | .andi => false
  | .ori => false
  | .xori => false
  | .shl => false
  | .shr => false
  | .sra => false
  | .shli => false
  | .shri => false
  | .srai => false
  | .rot => false
  | .min => false
  | .max => false
  | .minu => false
  | .maxu => false
  | .clz => false
  | .ctz => false
  | .popc => false
  | .movi => false
  | .sel => false
  | .cmp => false
  | .faddS => false
  | .faddD => false
  | .fsubS => false
  | .fsubD => false
  | .fmulS => false
  | .fmulD => false
  | .ffmaS => false
  | .ffmaD => false
  | .fdivS => false
  | .fdivD => false
  | .fsqrtS => false
  | .fsqrtD => false
  | .fminS => false
  | .fminD => false
  | .fmaxS => false
  | .fmaxD => false
  | .fcmpS => false
  | .fcmpD => false
  | .fcvtS => false
  | .fcvtD => false
  | .fclassS => false
  | .fclassD => false
  | .fsgnS => false
  | .fsgnD => false
  | .pand => false
  | .por => false
  | .pxor => false
  | .pnot => false
  | .pmov => false
  | .br => false
  | .jmp => false
  | .call => false
  | .ret => false
  | .lnest => false
  | .lninc => false
  | .yield => false
  | .nop => false
  | .trap => false
  | .svc => false
  | .eret => false
  | .ld => false
  | .st => false
  | .amo => false
  | .cas => false
  | .fence => false
  | .barinit => false
  | .bararr => false
  | .barwait => false
  | .barfree => false
  | .sigst => false
  | .csrr => false
  | .csrw => false
  | .csrs => false
  | .csrc => false
  | .tlbinv => false
  | .icinv => false
  | .setvl => false
  | .setvli => false
  | .vlq => false
  | .vspill => false
  | .vfill => false
  | .vadd => true
  | .vsub => true
  | .vmul => true
  | .vmulh => true
  | .vdiv => true
  | .vrem => true
  | .vmin => true
  | .vmax => true
  | .vand => true
  | .vor => true
  | .vxor => true
  | .vshl => true
  | .vshr => true
  | .vsra => true
  | .vsadd => true
  | .vssub => true
  | .vwmul => true
  | .vwmacc => true
  | .vcmp => true
  | .vmerge => true
  | .vcvt => true
  | .mand => false
  | .mor => false
  | .mxor => false
  | .mnot => false
  | .mpop => false
  | .mffs => false
  | .mset => false
  | .vfadd => true
  | .vfsub => true
  | .vfmul => true
  | .vfma => true
  | .vfnma => true
  | .vfdiv => true
  | .vfrcp => true
  | .vfsqrt => true
  | .vfrsqrt => true
  | .vfexp2 => true
  | .vflog2 => true
  | .vfsin => true
  | .vfcos => true
  | .vftanh => true
  | .vfmin => true
  | .vfmax => true
  | .vfcmp => true
  | .vfcvt => true
  | .vfwma => true
  | .vfclass => true
  | .vfsgn => true
  | .vslide => true
  | .vperm => true
  | .vreshape => true
  | .vcompress => true
  | .vexpand => true
  | .vbcast => true
  | .vext => true
  | .vins => true
  | .vrsum => true
  | .vrmax => true
  | .vrmin => true
  | .vrssum => true
  | .vrmaxw => true
  | .vrminw => true
  | .vclampw => true
  | .vrmedw => true
  | .vrssumw => true
  | .vwhdr => false
  | .vadjb => true
  | .vld => true
  | .vlds => true
  | .vldx => true
  | .vldseg => true
  | .vst => true
  | .vsts => true
  | .vstx => true
  | .vstseg => true
  | .vldmx => true
  | .vstmx => true
  | .vsettle => false
  | .vpres => false
  | .mpoison => false
  | .hpop => false
  | .hopnd => false
  | .hfill => false
  | .hflt => false
  | .msel => false
  | .mmul => true
  | .mstat => false
  | .mclr => false
  | .cpy => false
  | .cpyt => false
  | .cfill => false
  | .cwany => false
  | .cwall => false
  | .cffr => false
  | .ctclr => false
  | .epop => false
  | .lzopen => false
  | .lzclose => false
  | .lzres => false
  | .lzput => false
  | .lzwait => false
  | .lzfree => false
  | .lzclean => false
  | .xred => false
  | .tbset => false
  | .tbtest => false
  | .glaunch => false
  | .texit => false
  | .tsusp => false
  | .tdclass => false
  | .tdoffer => false
  | .tglk => false
  | .tgset => false
  | .tginv => false

/-- The opcode may run in a task thread (R52). -/
def Op.inTask : Op → Bool
  | .add => true
  | .sub => true
  | .addi => true
  | .mul => true
  | .mulh => true
  | .mulhu => true
  | .div => true
  | .divu => true
  | .rem => true
  | .remu => true
  | .and => true
  | .or => true
  | .xor => true
  | .andi => true
  | .ori => true
  | .xori => true
  | .shl => true
  | .shr => true
  | .sra => true
  | .shli => true
  | .shri => true
  | .srai => true
  | .rot => true
  | .min => true
  | .max => true
  | .minu => true
  | .maxu => true
  | .clz => true
  | .ctz => true
  | .popc => true
  | .movi => true
  | .sel => true
  | .cmp => true
  | .faddS => true
  | .faddD => true
  | .fsubS => true
  | .fsubD => true
  | .fmulS => true
  | .fmulD => true
  | .ffmaS => true
  | .ffmaD => true
  | .fdivS => true
  | .fdivD => true
  | .fsqrtS => true
  | .fsqrtD => true
  | .fminS => true
  | .fminD => true
  | .fmaxS => true
  | .fmaxD => true
  | .fcmpS => true
  | .fcmpD => true
  | .fcvtS => true
  | .fcvtD => true
  | .fclassS => true
  | .fclassD => true
  | .fsgnS => true
  | .fsgnD => true
  | .pand => true
  | .por => true
  | .pxor => true
  | .pnot => true
  | .pmov => true
  | .br => true
  | .jmp => true
  | .call => true
  | .ret => true
  | .lnest => true
  | .lninc => true
  | .yield => true
  | .nop => true
  | .trap => true
  | .svc => true
  | .eret => true
  | .ld => true
  | .st => true
  | .amo => true
  | .cas => true
  | .fence => true
  | .barinit => true
  | .bararr => true
  | .barwait => true
  | .barfree => true
  | .sigst => true
  | .csrr => true
  | .csrw => true
  | .csrs => true
  | .csrc => true
  | .tlbinv => true
  | .icinv => true
  | .setvl => true
  | .setvli => true
  | .vlq => true
  | .vspill => true
  | .vfill => true
  | .vadd => true
  | .vsub => true
  | .vmul => true
  | .vmulh => true
  | .vdiv => true
  | .vrem => true
  | .vmin => true
  | .vmax => true
  | .vand => true
  | .vor => true
  | .vxor => true
  | .vshl => true
  | .vshr => true
  | .vsra => true
  | .vsadd => true
  | .vssub => true
  | .vwmul => true
  | .vwmacc => true
  | .vcmp => true
  | .vmerge => true
  | .vcvt => true
  | .mand => true
  | .mor => true
  | .mxor => true
  | .mnot => true
  | .mpop => true
  | .mffs => true
  | .mset => true
  | .vfadd => true
  | .vfsub => true
  | .vfmul => true
  | .vfma => true
  | .vfnma => true
  | .vfdiv => true
  | .vfrcp => true
  | .vfsqrt => true
  | .vfrsqrt => true
  | .vfexp2 => true
  | .vflog2 => true
  | .vfsin => true
  | .vfcos => true
  | .vftanh => true
  | .vfmin => true
  | .vfmax => true
  | .vfcmp => true
  | .vfcvt => true
  | .vfwma => true
  | .vfclass => true
  | .vfsgn => true
  | .vslide => true
  | .vperm => true
  | .vreshape => true
  | .vcompress => true
  | .vexpand => true
  | .vbcast => true
  | .vext => true
  | .vins => true
  | .vrsum => true
  | .vrmax => true
  | .vrmin => true
  | .vrssum => true
  | .vrmaxw => true
  | .vrminw => true
  | .vclampw => true
  | .vrmedw => true
  | .vrssumw => true
  | .vwhdr => true
  | .vadjb => true
  | .vld => true
  | .vlds => true
  | .vldx => true
  | .vldseg => true
  | .vst => true
  | .vsts => true
  | .vstx => true
  | .vstseg => true
  | .vldmx => true
  | .vstmx => true
  | .vsettle => true
  | .vpres => true
  | .mpoison => true
  | .hpop => false
  | .hopnd => false
  | .hfill => false
  | .hflt => false
  | .msel => true
  | .mmul => true
  | .mstat => true
  | .mclr => true
  | .cpy => true
  | .cpyt => true
  | .cfill => true
  | .cwany => true
  | .cwall => true
  | .cffr => true
  | .ctclr => true
  | .epop => true
  | .lzopen => true
  | .lzclose => true
  | .lzres => true
  | .lzput => true
  | .lzwait => true
  | .lzfree => true
  | .lzclean => true
  | .xred => true
  | .tbset => true
  | .tbtest => true
  | .glaunch => true
  | .texit => true
  | .tsusp => true
  | .tdclass => true
  | .tdoffer => true
  | .tglk => true
  | .tgset => true
  | .tginv => true

/-- The opcode may run in a helper thread (R52). -/
def Op.inHelper : Op → Bool
  | .add => true
  | .sub => true
  | .addi => true
  | .mul => true
  | .mulh => true
  | .mulhu => true
  | .div => true
  | .divu => true
  | .rem => true
  | .remu => true
  | .and => true
  | .or => true
  | .xor => true
  | .andi => true
  | .ori => true
  | .xori => true
  | .shl => true
  | .shr => true
  | .sra => true
  | .shli => true
  | .shri => true
  | .srai => true
  | .rot => true
  | .min => true
  | .max => true
  | .minu => true
  | .maxu => true
  | .clz => true
  | .ctz => true
  | .popc => true
  | .movi => true
  | .sel => true
  | .cmp => true
  | .faddS => true
  | .faddD => true
  | .fsubS => true
  | .fsubD => true
  | .fmulS => true
  | .fmulD => true
  | .ffmaS => true
  | .ffmaD => true
  | .fdivS => true
  | .fdivD => true
  | .fsqrtS => true
  | .fsqrtD => true
  | .fminS => true
  | .fminD => true
  | .fmaxS => true
  | .fmaxD => true
  | .fcmpS => true
  | .fcmpD => true
  | .fcvtS => true
  | .fcvtD => true
  | .fclassS => true
  | .fclassD => true
  | .fsgnS => true
  | .fsgnD => true
  | .pand => true
  | .por => true
  | .pxor => true
  | .pnot => true
  | .pmov => true
  | .br => true
  | .jmp => true
  | .call => true
  | .ret => true
  | .lnest => true
  | .lninc => true
  | .yield => true
  | .nop => true
  | .trap => true
  | .svc => true
  | .eret => true
  | .ld => true
  | .st => true
  | .amo => true
  | .cas => true
  | .fence => true
  | .barinit => false
  | .bararr => false
  | .barwait => false
  | .barfree => false
  | .sigst => false
  | .csrr => true
  | .csrw => true
  | .csrs => true
  | .csrc => true
  | .tlbinv => false
  | .icinv => false
  | .setvl => false
  | .setvli => false
  | .vlq => false
  | .vspill => false
  | .vfill => false
  | .vadd => false
  | .vsub => false
  | .vmul => false
  | .vmulh => false
  | .vdiv => false
  | .vrem => false
  | .vmin => false
  | .vmax => false
  | .vand => false
  | .vor => false
  | .vxor => false
  | .vshl => false
  | .vshr => false
  | .vsra => false
  | .vsadd => false
  | .vssub => false
  | .vwmul => false
  | .vwmacc => false
  | .vcmp => false
  | .vmerge => false
  | .vcvt => false
  | .mand => false
  | .mor => false
  | .mxor => false
  | .mnot => false
  | .mpop => false
  | .mffs => false
  | .mset => false
  | .vfadd => false
  | .vfsub => false
  | .vfmul => false
  | .vfma => false
  | .vfnma => false
  | .vfdiv => false
  | .vfrcp => false
  | .vfsqrt => false
  | .vfrsqrt => false
  | .vfexp2 => false
  | .vflog2 => false
  | .vfsin => false
  | .vfcos => false
  | .vftanh => false
  | .vfmin => false
  | .vfmax => false
  | .vfcmp => false
  | .vfcvt => false
  | .vfwma => false
  | .vfclass => false
  | .vfsgn => false
  | .vslide => false
  | .vperm => false
  | .vreshape => false
  | .vcompress => false
  | .vexpand => false
  | .vbcast => false
  | .vext => false
  | .vins => false
  | .vrsum => false
  | .vrmax => false
  | .vrmin => false
  | .vrssum => false
  | .vrmaxw => false
  | .vrminw => false
  | .vclampw => false
  | .vrmedw => false
  | .vrssumw => false
  | .vwhdr => false
  | .vadjb => false
  | .vld => false
  | .vlds => false
  | .vldx => false
  | .vldseg => false
  | .vst => false
  | .vsts => false
  | .vstx => false
  | .vstseg => false
  | .vldmx => false
  | .vstmx => false
  | .vsettle => false
  | .vpres => false
  | .mpoison => false
  | .hpop => true
  | .hopnd => true
  | .hfill => true
  | .hflt => true
  | .msel => false
  | .mmul => false
  | .mstat => false
  | .mclr => false
  | .cpy => false
  | .cpyt => false
  | .cfill => false
  | .cwany => false
  | .cwall => false
  | .cffr => false
  | .ctclr => false
  | .epop => false
  | .lzopen => false
  | .lzclose => false
  | .lzres => false
  | .lzput => false
  | .lzwait => false
  | .lzfree => false
  | .lzclean => false
  | .xred => false
  | .tbset => false
  | .tbtest => false
  | .glaunch => false
  | .texit => false
  | .tsusp => false
  | .tdclass => false
  | .tdoffer => false
  | .tglk => false
  | .tgset => false
  | .tginv => false

/-- The opcode requires SUB = 0. -/
def Op.subZero : Op → Bool
  | .add => true
  | .sub => true
  | .addi => false
  | .mul => true
  | .mulh => true
  | .mulhu => true
  | .div => true
  | .divu => true
  | .rem => true
  | .remu => true
  | .and => true
  | .or => true
  | .xor => true
  | .andi => false
  | .ori => false
  | .xori => false
  | .shl => true
  | .shr => true
  | .sra => true
  | .shli => false
  | .shri => false
  | .srai => false
  | .rot => true
  | .min => true
  | .max => true
  | .minu => true
  | .maxu => true
  | .clz => true
  | .ctz => true
  | .popc => true
  | .movi => false
  | .sel => true
  | .cmp => false
  | .faddS => false
  | .faddD => false
  | .fsubS => false
  | .fsubD => false
  | .fmulS => false
  | .fmulD => false
  | .ffmaS => false
  | .ffmaD => false
  | .fdivS => false
  | .fdivD => false
  | .fsqrtS => false
  | .fsqrtD => false
  | .fminS => true
  | .fminD => true
  | .fmaxS => true
  | .fmaxD => true
  | .fcmpS => false
  | .fcmpD => false
  | .fcvtS => false
  | .fcvtD => false
  | .fclassS => true
  | .fclassD => true
  | .fsgnS => false
  | .fsgnD => false
  | .pand => true
  | .por => true
  | .pxor => true
  | .pnot => true
  | .pmov => true
  | .br => false
  | .jmp => false
  | .call => false
  | .ret => false
  | .lnest => false
  | .lninc => false
  | .yield => false
  | .nop => false
  | .trap => false
  | .svc => false
  | .eret => false
  | .ld => false
  | .st => false
  | .amo => false
  | .cas => false
  | .fence => false
  | .barinit => true
  | .bararr => true
  | .barwait => true
  | .barfree => true
  | .sigst => false
  | .csrr => false
  | .csrw => false
  | .csrs => false
  | .csrc => false
  | .tlbinv => false
  | .icinv => false
  | .setvl => true
  | .setvli => false
  | .vlq => false
  | .vspill => false
  | .vfill => false
  | .vadd => true
  | .vsub => true
  | .vmul => true
  | .vmulh => true
  | .vdiv => true
  | .vrem => true
  | .vmin => true
  | .vmax => true
  | .vand => true
  | .vor => true
  | .vxor => true
  | .vshl => true
  | .vshr => true
  | .vsra => true
  | .vsadd => true
  | .vssub => true
  | .vwmul => true
  | .vwmacc => true
  | .vcmp => false
  | .vmerge => true
  | .vcvt => true
  | .mand => true
  | .mor => true
  | .mxor => true
  | .mnot => true
  | .mpop => true
  | .mffs => true
  | .mset => true
  | .vfadd => true
  | .vfsub => true
  | .vfmul => true
  | .vfma => true
  | .vfnma => true
  | .vfdiv => true
  | .vfrcp => true
  | .vfsqrt => true
  | .vfrsqrt => true
  | .vfexp2 => true
  | .vflog2 => true
  | .vfsin => true
  | .vfcos => true
  | .vftanh => true
  | .vfmin => true
  | .vfmax => true
  | .vfcmp => false
  | .vfcvt => true
  | .vfwma => true
  | .vfclass => true
  | .vfsgn => false
  | .vslide => false
  | .vperm => true
  | .vreshape => true
  | .vcompress => true
  | .vexpand => true
  | .vbcast => true
  | .vext => true
  | .vins => true
  | .vrsum => true
  | .vrmax => true
  | .vrmin => true
  | .vrssum => true
  | .vrmaxw => false
  | .vrminw => false
  | .vclampw => true
  | .vrmedw => false
  | .vrssumw => false
  | .vwhdr => true
  | .vadjb => false
  | .vld => false
  | .vlds => false
  | .vldx => false
  | .vldseg => false
  | .vst => false
  | .vsts => false
  | .vstx => false
  | .vstseg => false
  | .vldmx => false
  | .vstmx => false
  | .vsettle => false
  | .vpres => false
  | .mpoison => false
  | .hpop => true
  | .hopnd => false
  | .hfill => true
  | .hflt => true
  | .msel => true
  | .mmul => false
  | .mstat => true
  | .mclr => false
  | .cpy => true
  | .cpyt => true
  | .cfill => true
  | .cwany => true
  | .cwall => true
  | .cffr => true
  | .ctclr => true
  | .epop => true
  | .lzopen => true
  | .lzclose => true
  | .lzres => true
  | .lzput => true
  | .lzwait => false
  | .lzfree => true
  | .lzclean => true
  | .xred => true
  | .tbset => false
  | .tbtest => true
  | .glaunch => true
  | .texit => false
  | .tsusp => false
  | .tdclass => true
  | .tdoffer => true
  | .tglk => true
  | .tgset => true
  | .tginv => false

/-! ## Forms and fields (R24, R26) -/

/-- The forms of R26. -/
inductive Form where
  | N | R | I | M | V | B | E | S
  deriving DecidableEq, Repr

/-- How an instruction uses a register field: not at all, as a scalar or vector register, or as a mask or predicate (R27). -/
inductive Slot where
  | z | r | p
  deriving DecidableEq, Repr

/-- Which fields an instruction uses: the form, the register fields, TAG, ZONE, and how many bits of IMM. -/
structure Use where
  form : Form
  d : Slot
  a : Slot
  b : Slot
  c : Slot
  tag : Bool
  zone : Bool
  imm : Nat
  deriving DecidableEq, Repr

/-- The fields each opcode uses, from the instruction chapters. -/
def Op.use : Op → Use
  | .add => ⟨.R, .r, .r, .r, .z, false, false, 0⟩
  | .sub => ⟨.R, .r, .r, .r, .z, false, false, 0⟩
  | .addi => ⟨.I, .r, .r, .z, .z, false, false, 56⟩
  | .mul => ⟨.R, .r, .r, .r, .z, false, false, 0⟩
  | .mulh => ⟨.R, .r, .r, .r, .z, false, false, 0⟩
  | .mulhu => ⟨.R, .r, .r, .r, .z, false, false, 0⟩
  | .div => ⟨.R, .r, .r, .r, .z, false, false, 0⟩
  | .divu => ⟨.R, .r, .r, .r, .z, false, false, 0⟩
  | .rem => ⟨.R, .r, .r, .r, .z, false, false, 0⟩
  | .remu => ⟨.R, .r, .r, .r, .z, false, false, 0⟩
  | .and => ⟨.R, .r, .r, .r, .z, false, false, 0⟩
  | .or => ⟨.R, .r, .r, .r, .z, false, false, 0⟩
  | .xor => ⟨.R, .r, .r, .r, .z, false, false, 0⟩
  | .andi => ⟨.I, .r, .r, .z, .z, false, false, 56⟩
  | .ori => ⟨.I, .r, .r, .z, .z, false, false, 56⟩
  | .xori => ⟨.I, .r, .r, .z, .z, false, false, 56⟩
  | .shl => ⟨.R, .r, .r, .r, .z, false, false, 0⟩
  | .shr => ⟨.R, .r, .r, .r, .z, false, false, 0⟩
  | .sra => ⟨.R, .r, .r, .r, .z, false, false, 0⟩
  | .shli => ⟨.I, .r, .r, .z, .z, false, false, 6⟩
  | .shri => ⟨.I, .r, .r, .z, .z, false, false, 6⟩
  | .srai => ⟨.I, .r, .r, .z, .z, false, false, 6⟩
  | .rot => ⟨.R, .r, .r, .r, .z, false, false, 0⟩
  | .min => ⟨.R, .r, .r, .r, .z, false, false, 0⟩
  | .max => ⟨.R, .r, .r, .r, .z, false, false, 0⟩
  | .minu => ⟨.R, .r, .r, .r, .z, false, false, 0⟩
  | .maxu => ⟨.R, .r, .r, .r, .z, false, false, 0⟩
  | .clz => ⟨.R, .r, .r, .z, .z, false, false, 0⟩
  | .ctz => ⟨.R, .r, .r, .z, .z, false, false, 0⟩
  | .popc => ⟨.R, .r, .r, .z, .z, false, false, 0⟩
  | .movi => ⟨.I, .r, .z, .z, .z, false, false, 56⟩
  | .sel => ⟨.R, .r, .r, .r, .p, false, false, 0⟩
  | .cmp => ⟨.R, .p, .r, .r, .z, false, false, 0⟩
  | .faddS => ⟨.R, .r, .r, .r, .z, false, false, 0⟩
  | .faddD => ⟨.R, .r, .r, .r, .z, false, false, 0⟩
  | .fsubS => ⟨.R, .r, .r, .r, .z, false, false, 0⟩
  | .fsubD => ⟨.R, .r, .r, .r, .z, false, false, 0⟩
  | .fmulS => ⟨.R, .r, .r, .r, .z, false, false, 0⟩
  | .fmulD => ⟨.R, .r, .r, .r, .z, false, false, 0⟩
  | .ffmaS => ⟨.R, .r, .r, .r, .r, false, false, 0⟩
  | .ffmaD => ⟨.R, .r, .r, .r, .r, false, false, 0⟩
  | .fdivS => ⟨.R, .r, .r, .r, .z, false, false, 0⟩
  | .fdivD => ⟨.R, .r, .r, .r, .z, false, false, 0⟩
  | .fsqrtS => ⟨.R, .r, .r, .z, .z, false, false, 0⟩
  | .fsqrtD => ⟨.R, .r, .r, .z, .z, false, false, 0⟩
  | .fminS => ⟨.R, .r, .r, .r, .z, false, false, 0⟩
  | .fminD => ⟨.R, .r, .r, .r, .z, false, false, 0⟩
  | .fmaxS => ⟨.R, .r, .r, .r, .z, false, false, 0⟩
  | .fmaxD => ⟨.R, .r, .r, .r, .z, false, false, 0⟩
  | .fcmpS => ⟨.R, .p, .r, .r, .z, false, false, 0⟩
  | .fcmpD => ⟨.R, .p, .r, .r, .z, false, false, 0⟩
  | .fcvtS => ⟨.R, .r, .r, .z, .z, false, false, 0⟩
  | .fcvtD => ⟨.R, .r, .r, .z, .z, false, false, 0⟩
  | .fclassS => ⟨.R, .r, .r, .z, .z, false, false, 0⟩
  | .fclassD => ⟨.R, .r, .r, .z, .z, false, false, 0⟩
  | .fsgnS => ⟨.R, .r, .r, .r, .z, false, false, 0⟩
  | .fsgnD => ⟨.R, .r, .r, .r, .z, false, false, 0⟩
  | .pand => ⟨.R, .p, .p, .p, .z, false, false, 0⟩
  | .por => ⟨.R, .p, .p, .p, .z, false, false, 0⟩
  | .pxor => ⟨.R, .p, .p, .p, .z, false, false, 0⟩
  | .pnot => ⟨.R, .p, .p, .z, .z, false, false, 0⟩
  | .pmov => ⟨.R, .p, .p, .z, .z, false, false, 0⟩
  | .br => ⟨.B, .z, .z, .z, .z, false, false, 0⟩
  | .jmp => ⟨.B, .z, .r, .z, .z, false, false, 0⟩
  | .call => ⟨.B, .r, .z, .z, .z, false, false, 0⟩
  | .ret => ⟨.N, .z, .r, .z, .z, false, false, 0⟩
  | .lnest => ⟨.I, .r, .r, .z, .z, false, false, 8⟩
  | .lninc => ⟨.R, .r, .r, .z, .z, false, false, 0⟩
  | .yield => ⟨.N, .z, .z, .z, .z, false, false, 0⟩
  | .nop => ⟨.N, .z, .z, .z, .z, false, false, 0⟩
  | .trap => ⟨.I, .z, .z, .z, .z, false, false, 16⟩
  | .svc => ⟨.I, .z, .z, .z, .z, false, false, 16⟩
  | .eret => ⟨.N, .z, .z, .z, .z, false, false, 0⟩
  | .ld => ⟨.M, .r, .r, .z, .z, false, false, 0⟩
  | .st => ⟨.M, .r, .r, .z, .z, false, false, 0⟩
  | .amo => ⟨.M, .r, .r, .r, .z, false, false, 0⟩
  | .cas => ⟨.M, .r, .r, .r, .z, false, false, 0⟩
  | .fence => ⟨.R, .z, .z, .z, .z, false, false, 0⟩
  | .barinit => ⟨.M, .r, .r, .z, .z, false, false, 0⟩
  | .bararr => ⟨.M, .r, .r, .z, .z, false, false, 0⟩
  | .barwait => ⟨.M, .r, .r, .z, .z, false, false, 0⟩
  | .barfree => ⟨.M, .z, .r, .z, .z, false, false, 0⟩
  | .sigst => ⟨.M, .r, .r, .z, .z, false, false, 0⟩
  | .csrr => ⟨.I, .r, .z, .z, .z, false, false, 12⟩
  | .csrw => ⟨.I, .z, .r, .z, .z, false, false, 12⟩
  | .csrs => ⟨.I, .z, .r, .z, .z, false, false, 12⟩
  | .csrc => ⟨.I, .z, .r, .z, .z, false, false, 12⟩
  | .tlbinv => ⟨.R, .z, .r, .r, .z, false, false, 0⟩
  | .icinv => ⟨.R, .z, .r, .r, .z, false, false, 0⟩
  | .setvl => ⟨.R, .r, .r, .r, .z, false, false, 0⟩
  | .setvli => ⟨.I, .r, .z, .z, .z, false, false, 56⟩
  | .vlq => ⟨.R, .r, .z, .z, .z, false, false, 0⟩
  | .vspill => ⟨.M, .r, .r, .z, .z, false, false, 0⟩
  | .vfill => ⟨.M, .r, .r, .z, .z, false, false, 0⟩
  | .vadd => ⟨.V, .r, .r, .r, .z, false, false, 0⟩
  | .vsub => ⟨.V, .r, .r, .r, .z, false, false, 0⟩
  | .vmul => ⟨.V, .r, .r, .r, .z, false, false, 0⟩
  | .vmulh => ⟨.V, .r, .r, .r, .z, false, false, 0⟩
  | .vdiv => ⟨.V, .r, .r, .r, .z, false, false, 0⟩
  | .vrem => ⟨.V, .r, .r, .r, .z, false, false, 0⟩
  | .vmin => ⟨.V, .r, .r, .r, .z, false, false, 0⟩
  | .vmax => ⟨.V, .r, .r, .r, .z, false, false, 0⟩
  | .vand => ⟨.V, .r, .r, .r, .z, false, false, 0⟩
  | .vor => ⟨.V, .r, .r, .r, .z, false, false, 0⟩
  | .vxor => ⟨.V, .r, .r, .r, .z, false, false, 0⟩
  | .vshl => ⟨.V, .r, .r, .r, .z, false, false, 0⟩
  | .vshr => ⟨.V, .r, .r, .r, .z, false, false, 0⟩
  | .vsra => ⟨.V, .r, .r, .r, .z, false, false, 0⟩
  | .vsadd => ⟨.V, .r, .r, .r, .z, false, false, 0⟩
  | .vssub => ⟨.V, .r, .r, .r, .z, false, false, 0⟩
  | .vwmul => ⟨.V, .r, .r, .r, .z, false, false, 0⟩
  | .vwmacc => ⟨.V, .r, .r, .r, .z, false, false, 0⟩
  | .vcmp => ⟨.V, .p, .r, .r, .z, false, false, 0⟩
  | .vmerge => ⟨.V, .r, .r, .r, .p, false, false, 0⟩
  | .vcvt => ⟨.V, .r, .r, .z, .z, false, false, 0⟩
  | .mand => ⟨.R, .p, .p, .p, .z, false, false, 0⟩
  | .mor => ⟨.R, .p, .p, .p, .z, false, false, 0⟩
  | .mxor => ⟨.R, .p, .p, .p, .z, false, false, 0⟩
  | .mnot => ⟨.R, .p, .p, .z, .z, false, false, 0⟩
  | .mpop => ⟨.R, .r, .p, .z, .z, false, false, 0⟩
  | .mffs => ⟨.R, .r, .p, .z, .z, false, false, 0⟩
  | .mset => ⟨.R, .p, .r, .z, .z, false, false, 0⟩
  | .vfadd => ⟨.V, .r, .r, .r, .z, false, false, 0⟩
  | .vfsub => ⟨.V, .r, .r, .r, .z, false, false, 0⟩
  | .vfmul => ⟨.V, .r, .r, .r, .z, false, false, 0⟩
  | .vfma => ⟨.V, .r, .r, .r, .r, false, false, 0⟩
  | .vfnma => ⟨.V, .r, .r, .r, .r, false, false, 0⟩
  | .vfdiv => ⟨.V, .r, .r, .r, .z, false, false, 0⟩
  | .vfrcp => ⟨.V, .r, .r, .z, .z, false, false, 0⟩
  | .vfsqrt => ⟨.V, .r, .r, .z, .z, false, false, 0⟩
  | .vfrsqrt => ⟨.V, .r, .r, .z, .z, false, false, 0⟩
  | .vfexp2 => ⟨.V, .r, .r, .z, .z, false, false, 0⟩
  | .vflog2 => ⟨.V, .r, .r, .z, .z, false, false, 0⟩
  | .vfsin => ⟨.V, .r, .r, .z, .z, false, false, 0⟩
  | .vfcos => ⟨.V, .r, .r, .z, .z, false, false, 0⟩
  | .vftanh => ⟨.V, .r, .r, .z, .z, false, false, 0⟩
  | .vfmin => ⟨.V, .r, .r, .r, .z, false, false, 0⟩
  | .vfmax => ⟨.V, .r, .r, .r, .z, false, false, 0⟩
  | .vfcmp => ⟨.V, .p, .r, .r, .z, false, false, 0⟩
  | .vfcvt => ⟨.V, .r, .r, .r, .z, false, false, 0⟩
  | .vfwma => ⟨.V, .r, .r, .r, .r, false, false, 0⟩
  | .vfclass => ⟨.V, .r, .r, .z, .z, false, false, 0⟩
  | .vfsgn => ⟨.V, .r, .r, .r, .z, false, false, 0⟩
  | .vslide => ⟨.V, .r, .r, .r, .z, false, false, 0⟩
  | .vperm => ⟨.V, .r, .r, .r, .z, false, false, 0⟩
  | .vreshape => ⟨.V, .r, .r, .r, .z, false, false, 0⟩
  | .vcompress => ⟨.V, .r, .r, .p, .z, false, false, 0⟩
  | .vexpand => ⟨.V, .r, .r, .p, .z, false, false, 0⟩
  | .vbcast => ⟨.V, .r, .r, .z, .z, false, false, 0⟩
  | .vext => ⟨.V, .r, .r, .r, .z, false, false, 0⟩
  | .vins => ⟨.V, .r, .r, .r, .z, false, false, 0⟩
  | .vrsum => ⟨.V, .r, .r, .z, .z, false, false, 0⟩
  | .vrmax => ⟨.V, .r, .r, .z, .z, false, false, 0⟩
  | .vrmin => ⟨.V, .r, .r, .z, .z, false, false, 0⟩
  | .vrssum => ⟨.V, .r, .r, .z, .z, false, false, 0⟩
  | .vrmaxw => ⟨.V, .r, .r, .r, .z, false, false, 0⟩
  | .vrminw => ⟨.V, .r, .r, .r, .z, false, false, 0⟩
  | .vclampw => ⟨.V, .r, .r, .r, .r, false, false, 0⟩
  | .vrmedw => ⟨.V, .r, .r, .r, .z, false, false, 0⟩
  | .vrssumw => ⟨.V, .r, .r, .r, .z, false, false, 0⟩
  | .vwhdr => ⟨.R, .r, .r, .r, .z, false, false, 0⟩
  | .vadjb => ⟨.V, .r, .r, .r, .r, false, false, 0⟩
  | .vld => ⟨.M, .r, .r, .z, .z, false, false, 0⟩
  | .vlds => ⟨.M, .r, .r, .r, .z, false, false, 0⟩
  | .vldx => ⟨.M, .r, .r, .r, .z, false, false, 0⟩
  | .vldseg => ⟨.M, .r, .r, .z, .z, false, false, 0⟩
  | .vst => ⟨.M, .r, .r, .z, .z, false, false, 0⟩
  | .vsts => ⟨.M, .r, .r, .r, .z, false, false, 0⟩
  | .vstx => ⟨.M, .r, .r, .r, .z, false, false, 0⟩
  | .vstseg => ⟨.M, .r, .r, .z, .z, false, false, 0⟩
  | .vldmx => ⟨.V, .r, .r, .r, .r, false, false, 0⟩
  | .vstmx => ⟨.V, .r, .r, .r, .r, false, false, 0⟩
  | .vsettle => ⟨.R, .z, .r, .z, .z, false, false, 0⟩
  | .vpres => ⟨.R, .p, .r, .z, .z, false, false, 0⟩
  | .mpoison => ⟨.R, .r, .p, .z, .z, false, false, 0⟩
  | .hpop => ⟨.R, .r, .z, .z, .z, false, false, 0⟩
  | .hopnd => ⟨.R, .r, .z, .z, .z, false, false, 0⟩
  | .hfill => ⟨.R, .z, .r, .r, .z, false, false, 0⟩
  | .hflt => ⟨.R, .z, .r, .r, .z, false, false, 0⟩
  | .msel => ⟨.R, .z, .r, .r, .z, false, false, 0⟩
  | .mmul => ⟨.V, .r, .r, .z, .z, false, false, 0⟩
  | .mstat => ⟨.R, .r, .z, .z, .z, false, false, 0⟩
  | .mclr => ⟨.N, .z, .z, .z, .z, false, false, 0⟩
  | .cpy => ⟨.E, .z, .r, .z, .z, true, false, 0⟩
  | .cpyt => ⟨.E, .z, .r, .z, .z, true, false, 0⟩
  | .cfill => ⟨.E, .z, .r, .r, .z, true, false, 0⟩
  | .cwany => ⟨.R, .r, .r, .z, .z, false, false, 0⟩
  | .cwall => ⟨.R, .r, .r, .z, .z, false, false, 0⟩
  | .cffr => ⟨.R, .r, .r, .z, .z, false, false, 0⟩
  | .ctclr => ⟨.R, .z, .r, .z, .z, false, false, 0⟩
  | .epop => ⟨.R, .r, .z, .z, .z, false, false, 0⟩
  | .lzopen => ⟨.E, .z, .r, .r, .z, false, true, 0⟩
  | .lzclose => ⟨.E, .z, .z, .z, .z, false, true, 0⟩
  | .lzres => ⟨.S, .z, .z, .z, .z, false, true, 0⟩
  | .lzput => ⟨.S, .z, .r, .z, .z, true, true, 0⟩
  | .lzwait => ⟨.E, .r, .r, .r, .z, false, true, 0⟩
  | .lzfree => ⟨.E, .z, .r, .z, .z, false, true, 0⟩
  | .lzclean => ⟨.E, .z, .z, .z, .z, false, true, 0⟩
  | .xred => ⟨.S, .z, .r, .z, .z, true, true, 0⟩
  | .tbset => ⟨.R, .r, .r, .z, .z, false, false, 0⟩
  | .tbtest => ⟨.R, .r, .r, .z, .z, false, false, 0⟩
  | .glaunch => ⟨.R, .z, .r, .r, .z, false, false, 0⟩
  | .texit => ⟨.N, .z, .z, .z, .z, false, false, 0⟩
  | .tsusp => ⟨.N, .z, .z, .z, .z, false, false, 0⟩
  | .tdclass => ⟨.R, .z, .r, .r, .z, false, false, 0⟩
  | .tdoffer => ⟨.R, .r, .r, .r, .z, false, false, 0⟩
  | .tglk => ⟨.R, .r, .r, .z, .z, false, false, 0⟩
  | .tgset => ⟨.R, .z, .r, .r, .r, false, false, 0⟩
  | .tginv => ⟨.R, .z, .r, .z, .z, false, false, 0⟩

/-- The fields of a 96-bit instruction word (R24). -/
structure Fields where
  opc : BitVec 10
  d : BitVec 6
  a : BitVec 6
  b : BitVec 6
  g : BitVec 3
  gn : Bool
  yld : Bool
  hold : Bool
  stall : BitVec 3
  res : BitVec 3
  x : BitVec 56
  deriving DecidableEq, Repr

/-- Word 0 of R24. -/
def Fields.word0 (f : Fields) : BitVec 32 := f.opc ++ f.d ++ f.a ++ f.b ++ f.g ++ BitVec.ofBool f.gn

/-- Word 1 of R24. -/
def Fields.word1 (f : Fields) : BitVec 32 :=
  BitVec.ofBool f.yld ++ BitVec.ofBool f.hold ++ f.stall ++ f.res ++ f.x.extractLsb' 32 24

/-- Word 2 of R24. -/
def Fields.word2 (f : Fields) : BitVec 32 := f.x.extractLsb' 0 32

/-- The fields of three words (R24). -/
def Fields.ofWords (w0 w1 w2 : BitVec 32) : Fields where
  opc := w0.extractLsb' 22 10
  d := w0.extractLsb' 16 6
  a := w0.extractLsb' 10 6
  b := w0.extractLsb' 4 6
  g := w0.extractLsb' 1 3
  gn := w0.getLsbD 0
  yld := w1.getLsbD 31
  hold := w1.getLsbD 30
  stall := w1.extractLsb' 27 3
  res := w1.extractLsb' 24 3
  x := w1.extractLsb' 0 24 ++ w2

namespace Fields

/-- Guard and hints. -/
def ctl (f : Fields) : Ctl := ⟨f.g, f.gn, f.yld, f.hold, f.stall⟩

/-- SUB of forms R, V, E and S. -/
def lo8 (f : Fields) : BitVec 8 := f.x.extractLsb' 0 8
/-- C of form R. -/
def rC (f : Fields) : BitVec 6 := f.x.extractLsb' 50 6
/-- F of form V. -/
def vF (f : Fields) : BitVec 6 := f.x.extractLsb' 50 6
/-- C of form V. -/
def vC (f : Fields) : BitVec 6 := f.x.extractLsb' 44 6
/-- SUB of form M. -/
def mSub (f : Fields) : BitVec 8 := f.x.extractLsb' 48 8
/-- OFF of form M. -/
def mOff (f : Fields) : BitVec 48 := f.x.extractLsb' 0 48
/-- C of form E. -/
def eC (f : Fields) : BitVec 6 := f.x.extractLsb' 50 6
/-- TAG of form E. -/
def eTag (f : Fields) : BitVec 6 := f.x.extractLsb' 44 6
/-- ZONE of form E. -/
def eZone (f : Fields) : BitVec 4 := f.x.extractLsb' 40 4
/-- The site field of form S. -/
def sSite (f : Fields) : Site :=
  ⟨f.x.extractLsb' 46 10, f.x.extractLsb' 43 3, f.x.extractLsb' 41 2, f.x.extractLsb' 37 4, f.x.extractLsb' 33 4⟩
/-- C of form S. -/
def sC (f : Fields) : BitVec 6 := f.x.extractLsb' 27 6
/-- TAG of form S. -/
def sTag (f : Fields) : BitVec 6 := f.x.extractLsb' 21 6
/-- ZONE of form S. -/
def sZone (f : Fields) : BitVec 4 := f.x.extractLsb' 17 4

end Fields

/-- The extension of form R. -/
def packR (c : BitVec 6) (sub : BitVec 8) : BitVec 56 := c ++ 0#42 ++ sub
/-- The extension of form V. -/
def packV (f c : BitVec 6) (sub : BitVec 8) : BitVec 56 := f ++ c ++ 0#36 ++ sub
/-- The extension of form M. -/
def packM (sub : BitVec 8) (off : BitVec 48) : BitVec 56 := sub ++ off
/-- The extension of form E. -/
def packE (c tag : BitVec 6) (zone : BitVec 4) (sub : BitVec 8) : BitVec 56 := c ++ tag ++ zone ++ 0#32 ++ sub
/-- The extension of form S. -/
def packS (s : Site) (c tag : BitVec 6) (zone : BitVec 4) (sub : BitVec 8) : BitVec 56 :=
  s.chip ++ s.die ++ s.pav ++ s.row ++ s.col ++ c ++ tag ++ zone ++ 0#9 ++ sub

/-! ## Reject reasons -/

/-- Why bytes are no instruction; every reason but `truncated` is an illegal instruction fault (R27, R31, R32, R48). -/
inductive Reject where
  /-- Fewer bytes than the instruction has. -/
  | truncated
  /-- A prefix before a prefix, or before an opcode that takes none (step 2 of R33). -/
  | prefixPlacement
  /-- The opcode is unassigned (step 3). -/
  | unassigned
  /-- A bit that H or the form marks zero is set (step 5, R27). -/
  | reservedBits
  /-- A field the instruction does not use is not zero (step 5, R27). -/
  | unusedField
  /-- A mask or predicate field above 7 (step 5, R27). -/
  | registerClass
  /-- A SUB value the instruction does not define (step 5, R27). -/
  | subValue
  /-- An immediate beyond the limit the instruction states (R26). -/
  | immediate
  /-- A prefix field that breaks R31. -/
  | prefixField
  /-- Fields that break a limit of the instruction's own description. -/
  | fieldLimit
  deriving DecidableEq, Repr

/-! ## Register classes and unused fields (R27) -/

/-- A register field against its use. -/
def slotCheck (s : Slot) (v : BitVec 6) : Option Reject :=
  match s with
  | .z => if v == 0#6 then none else some .unusedField
  | .r => none
  | .p => if v.extractLsb' 3 3 == 0#3 then none else some .registerClass

/-- The bits of X that the form or the instruction leaves unused. -/
def extCheck (u : Use) (f : Fields) : Option Reject :=
  match u.form with
  | .N => if f.x == 0#56 then none else some .reservedBits
  | .R => if f.x.extractLsb' 8 42 == 0#42 then slotCheck u.c f.rC else some .reservedBits
  | .V => if f.x.extractLsb' 8 36 == 0#36 then slotCheck u.c f.vC else some .reservedBits
  | .I => if f.x.toNat < 2 ^ u.imm then none else some .immediate
  | .M => none
  | .B => if f.x.setWidth 2 == 0#2 then none else some .reservedBits
  | .E =>
    if f.x.extractLsb' 8 32 != 0#32 then some .reservedBits
    else if !u.tag && f.eTag != 0#6 then some .unusedField
    else if !u.zone && f.eZone != 0#4 then some .unusedField
    else slotCheck u.c f.eC
  | .S =>
    if f.x.extractLsb' 8 9 != 0#9 then some .reservedBits
    else if !u.tag && f.sTag != 0#6 then some .unusedField
    else if !u.zone && f.sZone != 0#4 then some .unusedField
    else slotCheck u.c f.sC

/-- SUB as the form places it; forms without one read 0. -/
def subField (u : Use) (f : Fields) : BitVec 8 :=
  match u.form with
  | .M => f.mSub
  | .R | .V | .E | .S => f.lo8
  | .N | .I | .B => 0#8

/-- Reserved bits, unused fields and register classes (R27). -/
def fieldCheck (o : Op) (f : Fields) : Option Reject :=
  if f.res != 0#3 then some .reservedBits
  else (slotCheck o.use.d f.d).or <| (slotCheck o.use.a f.a).or <| (slotCheck o.use.b f.b).or <|
    (extCheck o.use f).or <| if o.subZero && subField o.use f != 0#8 then some .subValue else none

/-! ## SUB codes -/

/-- RM codes of R30 and R109. -/
def RMode.code : RMode → BitVec 3
  | .dyn => 0 | .rne => 1 | .rtz => 2 | .rdn => 3 | .rup => 4 | .rmm => 5 | .sr => 6

def RMode.ofCode (c : BitVec 3) : Option RMode :=
  if c == 0 then some .dyn else if c == 1 then some .rne else if c == 2 then some .rtz else if c == 3 then some .rdn
  else if c == 4 then some .rup else if c == 5 then some .rmm else if c == 6 then some .sr else none

/-- SUB of the rounding scalar FP instructions (R109, R110). -/
def RMode.sub (m : RMode) : BitVec 8 := 0#5 ++ m.code
def RMode.ofSub (s : BitVec 8) : Option RMode := if s.extractLsb' 3 5 == 0#5 then RMode.ofCode (s.extractLsb' 0 3) else none

def Size.code : Size → BitVec 8
  | .b => 0 | .h => 1 | .w => 2 | .d => 3
def Size.ofCode (s : BitVec 8) : Option Size :=
  if s == 0 then some .b else if s == 1 then some .h else if s == 2 then some .w else if s == 3 then some .d else none

def Cmp.code : Cmp → BitVec 8
  | .eq => 0 | .ne => 1 | .lt => 2 | .ge => 3 | .ltu => 4 | .geu => 5
def Cmp.ofCode (s : BitVec 8) : Option Cmp :=
  if s == 0 then some .eq else if s == 1 then some .ne else if s == 2 then some .lt else if s == 3 then some .ge
  else if s == 4 then some .ltu else if s == 5 then some .geu else none

/-- SUB[7:3] of `fcmp` (R111). -/
def FCmp.code : FCmp → BitVec 8
  | .eq => 0x00 | .lt => 0x08 | .le => 0x10 | .un => 0x18 | .ne => 0x20
def FCmp.ofCode (s : BitVec 8) : Option FCmp :=
  if s == 0x00 then some .eq else if s == 0x08 then some .lt else if s == 0x10 then some .le
  else if s == 0x18 then some .un else if s == 0x20 then some .ne else none

def VCmp.code : VCmp → BitVec 8
  | .eq => 0 | .ne => 1 | .lt => 2 | .ge => 3
def VCmp.ofCode (s : BitVec 8) : Option VCmp :=
  if s == 0 then some .eq else if s == 1 then some .ne else if s == 2 then some .lt else if s == 3 then some .ge else none

/-- SUB[7:4] of `fcvt.s` (R112). -/
def CvtS.code : CvtS → BitVec 4
  | .fl => 0 | .flu => 1 | .tl => 2 | .tlu => 3 | .tw => 4 | .twu => 5 | .fo => 6 | .fbf => 7 | .tbf => 8 | .fh => 9 | .th => 10
def CvtS.ofCode (k : BitVec 4) : Option CvtS :=
  if k == 0 then some .fl else if k == 1 then some .flu else if k == 2 then some .tl else if k == 3 then some .tlu
  else if k == 4 then some .tw else if k == 5 then some .twu else if k == 6 then some .fo else if k == 7 then some .fbf
  else if k == 8 then some .tbf else if k == 9 then some .fh else if k == 10 then some .th else none
def CvtS.sub (k : CvtS) (m : RMode) : BitVec 8 := k.code ++ 0#1 ++ m.code
def CvtS.ofSub (s : BitVec 8) : Option (CvtS × RMode) :=
  if s.getLsbD 3 then none else
    (CvtS.ofCode (s.extractLsb' 4 4)).bind fun k => (RMode.ofCode (s.extractLsb' 0 3)).map fun m => (k, m)

/-- SUB[7:4] of `fcvt.d` (R112). -/
def CvtD.code : CvtD → BitVec 4
  | .fl => 0 | .flu => 1 | .tl => 2 | .tlu => 3 | .tw => 4 | .twu => 5 | .fo => 6
def CvtD.ofCode (k : BitVec 4) : Option CvtD :=
  if k == 0 then some .fl else if k == 1 then some .flu else if k == 2 then some .tl else if k == 3 then some .tlu
  else if k == 4 then some .tw else if k == 5 then some .twu else if k == 6 then some .fo else none
def CvtD.sub (k : CvtD) (m : RMode) : BitVec 8 := k.code ++ 0#1 ++ m.code
def CvtD.ofSub (s : BitVec 8) : Option (CvtD × RMode) :=
  if s.getLsbD 3 then none else
    (CvtD.ofCode (s.extractLsb' 4 4)).bind fun k => (RMode.ofCode (s.extractLsb' 0 3)).map fun m => (k, m)

/-- SUB[4:3] of `fsgn` and `vfsgn` (R113). -/
def Sgn.code : Sgn → BitVec 8
  | .cp => 0x00 | .neg => 0x08 | .xor => 0x10
def Sgn.ofCode (s : BitVec 8) : Option Sgn :=
  if s == 0x00 then some .cp else if s == 0x08 then some .neg else if s == 0x10 then some .xor else none

/-- SUB[1:0] of `lninc` (R118). -/
def subTwo (s : BitVec 8) : Option (BitVec 2) := if s.extractLsb' 2 6 == 0#6 then some (s.extractLsb' 0 2) else none

def Size.bits2 : Size → BitVec 2
  | .b => 0 | .h => 1 | .w => 2 | .d => 3
def Size.ofBits2 (c : BitVec 2) : Size := if c == 0 then .b else if c == 1 then .h else if c == 2 then .w else .d

/-- SUB of `ld` (R218); `.sx` of `.d` is refused by `Instr.wf`. -/
def ldSub (k : Size) (sx : Bool) : BitVec 8 := 0#5 ++ BitVec.ofBool sx ++ k.bits2
def ldOfSub (s : BitVec 8) : Option (Size × Bool) :=
  if s.extractLsb' 3 5 == 0#5 then some (Size.ofBits2 (s.extractLsb' 0 2), s.getLsbD 2) else none

def AmoOp.code : AmoOp → BitVec 3
  | .add => 0 | .swap => 1 | .and => 2 | .or => 3 | .xor => 4 | .min => 5 | .max => 6 | .maxu => 7
def AmoOp.ofCode (c : BitVec 3) : AmoOp :=
  if c == 0 then .add else if c == 1 then .swap else if c == 2 then .and else if c == 3 then .or
  else if c == 4 then .xor else if c == 5 then .min else if c == 6 then .max else .maxu

/-- SUB of `amo` (R220). -/
def amoSub (o : AmoOp) (dbl : Bool) (ord : BitVec 4) : BitVec 8 := o.code ++ BitVec.ofBool dbl ++ ord
def amoOfSub (s : BitVec 8) : Option (AmoOp × Bool × BitVec 4) :=
  some (AmoOp.ofCode (s.extractLsb' 5 3), s.getLsbD 4, s.extractLsb' 0 4)

/-- SUB of `cas` (R221). -/
def casSub (dbl : Bool) (ord : BitVec 4) : BitVec 8 := 0#3 ++ BitVec.ofBool dbl ++ ord
def casOfSub (s : BitVec 8) : Option (Bool × BitVec 4) :=
  if s.extractLsb' 5 3 == 0#3 then some (s.getLsbD 4, s.extractLsb' 0 4) else none

/-- Scope codes (R219). -/
def Scope.code : Scope → BitVec 8
  | .core => 0 | .pav => 1 | .die => 2 | .pkg => 3 | .sys => 4
def Scope.ofCode (s : BitVec 8) : Option Scope :=
  if s == 0 then some .core else if s == 1 then some .pav else if s == 2 then some .die else if s == 3 then some .pkg
  else if s == 4 then some .sys else none

def FenceKind.code : FenceKind → BitVec 2
  | .acq => 1 | .rel => 2 | .full => 3
def FenceKind.ofCode (c : BitVec 2) : Option FenceKind :=
  if c == 1 then some .acq else if c == 2 then some .rel else if c == 3 then some .full else none

/-- SUB of `fence` (R223). -/
def fenceSub (sc : Scope) (k : FenceKind) : BitVec 8 := 0#3 ++ k.code ++ sc.code.extractLsb' 0 3
def fenceOfSub (s : BitVec 8) : Option (Scope × FenceKind) :=
  if s.extractLsb' 5 3 == 0#3 then
    (Scope.ofCode (0#5 ++ s.extractLsb' 0 3)).bind fun sc => (FenceKind.ofCode (s.extractLsb' 3 2)).map fun k => (sc, k)
  else none

def TlbKind.code : TlbKind → BitVec 8
  | .page => 0 | .range => 1 | .all => 2
def TlbKind.ofCode (s : BitVec 8) : Option TlbKind :=
  if s == 0 then some .page else if s == 1 then some .range else if s == 2 then some .all else none

/-- A SUB of one bit (R125, R149, R181, R197, R230, R306, R328). -/
def bitSub (t : Bool) : BitVec 8 := 0#7 ++ BitVec.ofBool t
def bitOfSub (s : BitVec 8) : Option Bool := if s.extractLsb' 1 7 == 0#7 then some (s.getLsbD 0) else none

/-- W of R225. -/
def VW.code : VW → BitVec 8
  | .b => 0 | .h => 1 | .w => 2 | .d => 3 | .n => 4 | .l6 => 5
def VW.ofCode (s : BitVec 8) : Option VW :=
  if s == 0 then some .b else if s == 1 then some .h else if s == 2 then some .w else if s == 3 then some .d
  else if s == 4 then some .n else if s == 5 then some .l6 else none

/-- SUB of `vldx` and `vstx` (R225). -/
def ixSub (k : Size) (i64 : Bool) : BitVec 8 := 0#4 ++ BitVec.ofBool i64 ++ 0#1 ++ k.bits2
def ixOfSub (s : BitVec 8) : Option (Size × Bool) :=
  if s.extractLsb' 4 4 == 0#4 && !s.getLsbD 2 then some (Size.ofBits2 (s.extractLsb' 0 2), s.getLsbD 3) else none

/-- SUB of `vldseg` and `vstseg` (R225); `nf` holds NF - 1, and 0 is refused by `Instr.wf`. -/
def segSub (k : Size) (nf : BitVec 3) : BitVec 8 := 0#1 ++ nf ++ 0#2 ++ k.bits2
def segOfSub (s : BitVec 8) : Option (Size × BitVec 3) :=
  if !s.getLsbD 7 && s.extractLsb' 2 2 == 0#2 then some (Size.ofBits2 (s.extractLsb' 0 2), s.extractLsb' 4 3) else none

def Tie.code : Tie → BitVec 2
  | .first => 0 | .last => 1 | .split => 2
def Tie.ofCode (c : BitVec 2) : Option Tie :=
  if c == 0 then some .first else if c == 1 then some .last else if c == 2 then some .split else none

/-- SUB of the witness reductions (R190). -/
def witSub (t : Tie) (logg : BitVec 3) : BitVec 8 := 0#3 ++ t.code ++ logg
def witOfSub (s : BitVec 8) : Option (Tie × BitVec 3) :=
  if s.extractLsb' 5 3 == 0#3 then (Tie.ofCode (s.extractLsb' 3 2)).map fun t => (t, s.extractLsb' 0 3) else none

/-- SUB of `vsettle` (R169). -/
def Reach.code : Reach → BitVec 8
  | .all => 0 | .g1 => 1 | .g2 => 2 | .g4 => 3 | .g8 => 4
def Reach.ofCode (s : BitVec 8) : Option Reach :=
  if s == 0 then some .all else if s == 1 then some .g1 else if s == 2 then some .g2 else if s == 3 then some .g4
  else if s == 4 then some .g8 else none

/-- Presence codes of R62. -/
def Presence.code : Presence → BitVec 2
  | .pres => 0 | .pend => 1 | .flt => 2 | .pois => 3
def Presence.ofCode (c : BitVec 2) : Presence := if c == 0 then .pres else if c == 1 then .pend else if c == 2 then .flt else .pois

/-- SUB of `vpres` (R171). -/
def presSub (k : Size) (st : Presence) : BitVec 8 := 0#4 ++ st.code ++ k.bits2
def presOfSub (s : BitVec 8) : Option (Size × Presence) :=
  if s.extractLsb' 4 4 == 0#4 then some (Size.ofBits2 (s.extractLsb' 0 2), Presence.ofCode (s.extractLsb' 2 2)) else none

/-- SUB of `hopnd` (R165). -/
def Opnd.code : Opnd → BitVec 8
  | .a => 0 | .b => 1 | .c => 2 | .sa => 3 | .sb => 4 | .p => 5 | .pc => 6
def Opnd.ofCode (s : BitVec 8) : Option Opnd :=
  if s == 0 then some .a else if s == 1 then some .b else if s == 2 then some .c else if s == 3 then some .sa
  else if s == 4 then some .sb else if s == 5 then some .p else if s == 6 then some .pc else none

/-- SUB of `tginv` (R236). -/
def TgKind.code : TgKind → BitVec 8
  | .entry => 0 | .key => 1 | .all => 2
def TgKind.ofCode (s : BitVec 8) : Option TgKind :=
  if s == 0 then some .entry else if s == 1 then some .key else if s == 2 then some .all else none

/-! ## The prefix word (R30) -/

/-- The word of a prefix. -/
def Pfx.word (x : Pfx) : BitVec 32 :=
  0x3FF#10 ++ x.msk ++ x.rm.code ++ x.e ++ BitVec.ofBool x.zp ++ BitVec.ofBool x.ev ++ 0#8

/-- A prefix word is one whose OPC is 0x3FF (R25). -/
def isPrefixWord (w : BitVec 32) : Bool := w.extractLsb' 22 10 == 0x3FF#10

/-- The fields of a prefix word; `none` when its reserved bits are not zero or RM is 111 (R31). -/
def Pfx.ofWord (w : BitVec 32) : Option Pfx :=
  if w.extractLsb' 0 8 == 0#8 then
    (RMode.ofCode (w.extractLsb' 16 3)).map fun m =>
      ⟨w.extractLsb' 19 3, m, w.extractLsb' 10 6, w.getLsbD 9, w.getLsbD 8⟩
  else none

/-! ## Decoding -/

/-- A mask or predicate number from a register field. -/
def pOf (v : BitVec 6) : PReg := v.extractLsb' 0 3

/-- A register field that holds a mask or predicate number. -/
def rOf (v : PReg) : BitVec 6 := 0#3 ++ v

/-- The instruction that an opcode, a prefix and the fields of its words make; `none` for an undefined SUB. -/
def build (o : Op) (x : Option Pfx) (f : Fields) : Option Instr :=
  match o with
  | .add => some (.add f.ctl f.d f.a f.b)
  | .sub => some (.sub f.ctl f.d f.a f.b)
  | .addi => some (.addi f.ctl f.d f.a f.x)
  | .mul => some (.mul f.ctl f.d f.a f.b)
  | .mulh => some (.mulh f.ctl f.d f.a f.b)
  | .mulhu => some (.mulhu f.ctl f.d f.a f.b)
  | .div => some (.div f.ctl f.d f.a f.b)
  | .divu => some (.divu f.ctl f.d f.a f.b)
  | .rem => some (.rem f.ctl f.d f.a f.b)
  | .remu => some (.remu f.ctl f.d f.a f.b)
  | .and => some (.and f.ctl f.d f.a f.b)
  | .or => some (.or f.ctl f.d f.a f.b)
  | .xor => some (.xor f.ctl f.d f.a f.b)
  | .andi => some (.andi f.ctl f.d f.a f.x)
  | .ori => some (.ori f.ctl f.d f.a f.x)
  | .xori => some (.xori f.ctl f.d f.a f.x)
  | .shl => some (.shl f.ctl f.d f.a f.b)
  | .shr => some (.shr f.ctl f.d f.a f.b)
  | .sra => some (.sra f.ctl f.d f.a f.b)
  | .shli => some (.shli f.ctl f.d f.a (f.x.setWidth 6))
  | .shri => some (.shri f.ctl f.d f.a (f.x.setWidth 6))
  | .srai => some (.srai f.ctl f.d f.a (f.x.setWidth 6))
  | .rot => some (.rot f.ctl f.d f.a f.b)
  | .min => some (.min f.ctl f.d f.a f.b)
  | .max => some (.max f.ctl f.d f.a f.b)
  | .minu => some (.minu f.ctl f.d f.a f.b)
  | .maxu => some (.maxu f.ctl f.d f.a f.b)
  | .clz => some (.clz f.ctl f.d f.a)
  | .ctz => some (.ctz f.ctl f.d f.a)
  | .popc => some (.popc f.ctl f.d f.a)
  | .movi => some (.movi f.ctl f.d f.x)
  | .sel => some (.sel f.ctl f.d f.a f.b (pOf f.rC))
  | .cmp => (Cmp.ofCode f.lo8).map fun k => .cmp f.ctl (pOf f.d) f.a f.b k
  | .faddS => (RMode.ofSub f.lo8).map fun rm => .faddS f.ctl f.d f.a f.b rm
  | .faddD => (RMode.ofSub f.lo8).map fun rm => .faddD f.ctl f.d f.a f.b rm
  | .fsubS => (RMode.ofSub f.lo8).map fun rm => .fsubS f.ctl f.d f.a f.b rm
  | .fsubD => (RMode.ofSub f.lo8).map fun rm => .fsubD f.ctl f.d f.a f.b rm
  | .fmulS => (RMode.ofSub f.lo8).map fun rm => .fmulS f.ctl f.d f.a f.b rm
  | .fmulD => (RMode.ofSub f.lo8).map fun rm => .fmulD f.ctl f.d f.a f.b rm
  | .ffmaS => (RMode.ofSub f.lo8).map fun rm => .ffmaS f.ctl f.d f.a f.b f.rC rm
  | .ffmaD => (RMode.ofSub f.lo8).map fun rm => .ffmaD f.ctl f.d f.a f.b f.rC rm
  | .fdivS => (RMode.ofSub f.lo8).map fun rm => .fdivS f.ctl f.d f.a f.b rm
  | .fdivD => (RMode.ofSub f.lo8).map fun rm => .fdivD f.ctl f.d f.a f.b rm
  | .fsqrtS => (RMode.ofSub f.lo8).map fun rm => .fsqrtS f.ctl f.d f.a rm
  | .fsqrtD => (RMode.ofSub f.lo8).map fun rm => .fsqrtD f.ctl f.d f.a rm
  | .fminS => some (.fminS f.ctl f.d f.a f.b)
  | .fminD => some (.fminD f.ctl f.d f.a f.b)
  | .fmaxS => some (.fmaxS f.ctl f.d f.a f.b)
  | .fmaxD => some (.fmaxD f.ctl f.d f.a f.b)
  | .fcmpS => (FCmp.ofCode f.lo8).map fun k => .fcmpS f.ctl (pOf f.d) f.a f.b k
  | .fcmpD => (FCmp.ofCode f.lo8).map fun k => .fcmpD f.ctl (pOf f.d) f.a f.b k
  | .fcvtS => (CvtS.ofSub f.lo8).map fun (k, rm) => .fcvtS f.ctl f.d f.a k rm
  | .fcvtD => (CvtD.ofSub f.lo8).map fun (k, rm) => .fcvtD f.ctl f.d f.a k rm
  | .fclassS => some (.fclassS f.ctl f.d f.a)
  | .fclassD => some (.fclassD f.ctl f.d f.a)
  | .fsgnS => (Sgn.ofCode f.lo8).map fun k => .fsgnS f.ctl f.d f.a f.b k
  | .fsgnD => (Sgn.ofCode f.lo8).map fun k => .fsgnD f.ctl f.d f.a f.b k
  | .pand => some (.pand f.ctl (pOf f.d) (pOf f.a) (pOf f.b))
  | .por => some (.por f.ctl (pOf f.d) (pOf f.a) (pOf f.b))
  | .pxor => some (.pxor f.ctl (pOf f.d) (pOf f.a) (pOf f.b))
  | .pnot => some (.pnot f.ctl (pOf f.d) (pOf f.a))
  | .pmov => some (.pmov f.ctl (pOf f.d) (pOf f.a))
  | .br => some (.br f.ctl f.x)
  | .jmp => some (.jmp f.ctl f.a f.x)
  | .call => some (.call f.ctl f.d f.x)
  | .ret => some (.ret f.ctl f.a)
  | .lnest => some (.lnest f.ctl f.d f.a (f.x.setWidth 8))
  | .lninc => (subTwo f.lo8).map fun k => .lninc f.ctl f.d f.a k
  | .yield => some (.yield f.ctl)
  | .nop => some (.nop f.ctl)
  | .trap => some (.trap f.ctl (f.x.setWidth 16))
  | .svc => some (.svc f.ctl (f.x.setWidth 16))
  | .eret => some (.eret f.ctl)
  | .ld => (ldOfSub f.mSub).map fun (k, sx) => .ld f.ctl f.d f.a k sx f.mOff
  | .st => (Size.ofCode f.mSub).map fun k => .st f.ctl f.d f.a k f.mOff
  | .amo => (amoOfSub f.mSub).map fun (o, dbl, ord) => .amo f.ctl f.d f.a f.b o dbl ord f.mOff
  | .cas => (casOfSub f.mSub).map fun (dbl, ord) => .cas f.ctl f.d f.a f.b dbl ord f.mOff
  | .fence => (fenceOfSub f.lo8).map fun (sc, k) => .fence f.ctl sc k
  | .barinit => some (.barinit f.ctl f.d f.a f.mOff)
  | .bararr => some (.bararr f.ctl f.d f.a f.mOff)
  | .barwait => some (.barwait f.ctl f.d f.a f.mOff)
  | .barfree => some (.barfree f.ctl f.a f.mOff)
  | .sigst => (Scope.ofCode f.mSub).map fun sc => .sigst f.ctl f.d f.a sc f.mOff
  | .csrr => some (.csrr f.ctl f.d (f.x.setWidth 12))
  | .csrw => some (.csrw f.ctl f.a (f.x.setWidth 12))
  | .csrs => some (.csrs f.ctl f.a (f.x.setWidth 12))
  | .csrc => some (.csrc f.ctl f.a (f.x.setWidth 12))
  | .tlbinv => (TlbKind.ofCode f.lo8).map fun k => .tlbinv f.ctl f.a f.b k
  | .icinv => (bitOfSub f.lo8).map fun t => .icinv f.ctl f.a f.b t
  | .setvl => some (.setvl f.ctl f.d f.a f.b)
  | .setvli => some (.setvli f.ctl f.d f.x)
  | .vlq => (Size.ofCode f.lo8).map fun k => .vlq f.ctl f.d k
  | .vspill => (Size.ofCode f.mSub).map fun k => .vspill f.ctl f.d f.a k f.mOff
  | .vfill => (Size.ofCode f.mSub).map fun k => .vfill f.ctl f.d f.a k f.mOff
  | .vadd => some (.vadd f.ctl x f.d f.a f.b f.vF)
  | .vsub => some (.vsub f.ctl x f.d f.a f.b f.vF)
  | .vmul => some (.vmul f.ctl x f.d f.a f.b f.vF)
  | .vmulh => some (.vmulh f.ctl x f.d f.a f.b f.vF)
  | .vdiv => some (.vdiv f.ctl x f.d f.a f.b f.vF)
  | .vrem => some (.vrem f.ctl x f.d f.a f.b f.vF)
  | .vmin => some (.vmin f.ctl x f.d f.a f.b f.vF)
  | .vmax => some (.vmax f.ctl x f.d f.a f.b f.vF)
  | .vand => some (.vand f.ctl x f.d f.a f.b f.vF)
  | .vor => some (.vor f.ctl x f.d f.a f.b f.vF)
  | .vxor => some (.vxor f.ctl x f.d f.a f.b f.vF)
  | .vshl => some (.vshl f.ctl x f.d f.a f.b f.vF)
  | .vshr => some (.vshr f.ctl x f.d f.a f.b f.vF)
  | .vsra => some (.vsra f.ctl x f.d f.a f.b f.vF)
  | .vsadd => some (.vsadd f.ctl x f.d f.a f.b f.vF)
  | .vssub => some (.vssub f.ctl x f.d f.a f.b f.vF)
  | .vwmul => some (.vwmul f.ctl x f.d f.a f.b f.vF)
  | .vwmacc => some (.vwmacc f.ctl x f.d f.a f.b f.vF)
  | .vcmp => (VCmp.ofCode f.lo8).map fun k => .vcmp f.ctl x (pOf f.d) f.a f.b f.vF k
  | .vmerge => some (.vmerge f.ctl x f.d f.a f.b (pOf f.vC) f.vF)
  | .vcvt => some (.vcvt f.ctl x f.d f.a f.vF)
  | .mand => some (.mand f.ctl (pOf f.d) (pOf f.a) (pOf f.b))
  | .mor => some (.mor f.ctl (pOf f.d) (pOf f.a) (pOf f.b))
  | .mxor => some (.mxor f.ctl (pOf f.d) (pOf f.a) (pOf f.b))
  | .mnot => some (.mnot f.ctl (pOf f.d) (pOf f.a))
  | .mpop => some (.mpop f.ctl f.d (pOf f.a))
  | .mffs => some (.mffs f.ctl f.d (pOf f.a))
  | .mset => some (.mset f.ctl (pOf f.d) f.a)
  | .vfadd => some (.vfadd f.ctl x f.d f.a f.b f.vF)
  | .vfsub => some (.vfsub f.ctl x f.d f.a f.b f.vF)
  | .vfmul => some (.vfmul f.ctl x f.d f.a f.b f.vF)
  | .vfma => some (.vfma f.ctl x f.d f.a f.b f.vC f.vF)
  | .vfnma => some (.vfnma f.ctl x f.d f.a f.b f.vC f.vF)
  | .vfdiv => some (.vfdiv f.ctl x f.d f.a f.b f.vF)
  | .vfrcp => some (.vfrcp f.ctl x f.d f.a f.vF)
  | .vfsqrt => some (.vfsqrt f.ctl x f.d f.a f.vF)
  | .vfrsqrt => some (.vfrsqrt f.ctl x f.d f.a f.vF)
  | .vfexp2 => some (.vfexp2 f.ctl x f.d f.a f.vF)
  | .vflog2 => some (.vflog2 f.ctl x f.d f.a f.vF)
  | .vfsin => some (.vfsin f.ctl x f.d f.a f.vF)
  | .vfcos => some (.vfcos f.ctl x f.d f.a f.vF)
  | .vftanh => some (.vftanh f.ctl x f.d f.a f.vF)
  | .vfmin => some (.vfmin f.ctl x f.d f.a f.b f.vF)
  | .vfmax => some (.vfmax f.ctl x f.d f.a f.b f.vF)
  | .vfcmp => (FCmp.ofCode f.lo8).map fun k => .vfcmp f.ctl x (pOf f.d) f.a f.b f.vF k
  | .vfcvt => some (.vfcvt f.ctl x f.d f.a f.b f.vF)
  | .vfwma => some (.vfwma f.ctl x f.d f.a f.b f.vC f.vF)
  | .vfclass => some (.vfclass f.ctl x f.d f.a f.vF)
  | .vfsgn => (Sgn.ofCode f.lo8).map fun k => .vfsgn f.ctl x f.d f.a f.b f.vF k
  | .vslide => (bitOfSub f.lo8).map fun t => .vslide f.ctl x f.d f.a f.b f.vF t
  | .vperm => some (.vperm f.ctl x f.d f.a f.b f.vF)
  | .vreshape => some (.vreshape f.ctl x f.d f.a f.b f.vF)
  | .vcompress => some (.vcompress f.ctl x f.d f.a (pOf f.b) f.vF)
  | .vexpand => some (.vexpand f.ctl x f.d f.a (pOf f.b) f.vF)
  | .vbcast => some (.vbcast f.ctl x f.d f.a f.vF)
  | .vext => some (.vext f.ctl x f.d f.a f.b f.vF)
  | .vins => some (.vins f.ctl x f.d f.a f.b f.vF)
  | .vrsum => some (.vrsum f.ctl x f.d f.a f.vF)
  | .vrmax => some (.vrmax f.ctl x f.d f.a f.vF)
  | .vrmin => some (.vrmin f.ctl x f.d f.a f.vF)
  | .vrssum => some (.vrssum f.ctl x f.d f.a f.vF)
  | .vrmaxw => (witOfSub f.lo8).map fun (tie, logg) => .vrmaxw f.ctl x f.d f.a f.b f.vF tie logg
  | .vrminw => (witOfSub f.lo8).map fun (tie, logg) => .vrminw f.ctl x f.d f.a f.b f.vF tie logg
  | .vclampw => some (.vclampw f.ctl x f.d f.a f.b f.vC f.vF)
  | .vrmedw => (witOfSub f.lo8).map fun (tie, logg) => .vrmedw f.ctl x f.d f.a f.b f.vF tie logg
  | .vrssumw => (witOfSub f.lo8).map fun (tie, logg) => .vrssumw f.ctl x f.d f.a f.b f.vF tie logg
  | .vwhdr => some (.vwhdr f.ctl f.d f.a f.b)
  | .vadjb => (bitOfSub f.lo8).map fun t => .vadjb f.ctl x f.d f.a f.b f.vC f.vF t
  | .vld => (VW.ofCode f.mSub).map fun k => .vld f.ctl x f.d f.a k f.mOff
  | .vlds => (Size.ofCode f.mSub).map fun k => .vlds f.ctl x f.d f.a f.b k f.mOff
  | .vldx => (ixOfSub f.mSub).map fun (k, i64) => .vldx f.ctl x f.d f.a f.b k i64 f.mOff
  | .vldseg => (segOfSub f.mSub).map fun (k, nf) => .vldseg f.ctl x f.d f.a k nf f.mOff
  | .vst => (VW.ofCode f.mSub).map fun k => .vst f.ctl x f.d f.a k f.mOff
  | .vsts => (Size.ofCode f.mSub).map fun k => .vsts f.ctl x f.d f.a f.b k f.mOff
  | .vstx => (ixOfSub f.mSub).map fun (k, i64) => .vstx f.ctl x f.d f.a f.b k i64 f.mOff
  | .vstseg => (segOfSub f.mSub).map fun (k, nf) => .vstseg f.ctl x f.d f.a k nf f.mOff
  | .vldmx => (bitOfSub f.lo8).map fun t => .vldmx f.ctl x f.d f.a f.b f.vC f.vF t
  | .vstmx => (bitOfSub f.lo8).map fun t => .vstmx f.ctl x f.d f.a f.b f.vC f.vF t
  | .vsettle => (Reach.ofCode f.lo8).map fun k => .vsettle f.ctl f.a k
  | .vpres => (presOfSub f.lo8).map fun (k, st) => .vpres f.ctl (pOf f.d) f.a k st
  | .mpoison => (Size.ofCode f.lo8).map fun k => .mpoison f.ctl f.d (pOf f.a) k
  | .hpop => some (.hpop f.ctl f.d)
  | .hopnd => (Opnd.ofCode f.lo8).map fun k => .hopnd f.ctl f.d k
  | .hfill => some (.hfill f.ctl f.a f.b)
  | .hflt => some (.hflt f.ctl f.a f.b)
  | .msel => some (.msel f.ctl f.a f.b)
  | .mmul => (bitOfSub f.lo8).map fun t => .mmul f.ctl x f.d f.a f.vF t
  | .mstat => some (.mstat f.ctl f.d)
  | .mclr => some (.mclr f.ctl)
  | .cpy => some (.cpy f.ctl f.a f.eTag)
  | .cpyt => some (.cpyt f.ctl f.a f.eTag)
  | .cfill => some (.cfill f.ctl f.a f.b f.eTag)
  | .cwany => some (.cwany f.ctl f.d f.a)
  | .cwall => some (.cwall f.ctl f.d f.a)
  | .cffr => some (.cffr f.ctl f.d f.a)
  | .ctclr => some (.ctclr f.ctl f.a)
  | .epop => some (.epop f.ctl f.d)
  | .lzopen => some (.lzopen f.ctl f.a f.b f.eZone)
  | .lzclose => some (.lzclose f.ctl f.eZone)
  | .lzres => some (.lzres f.ctl f.sSite f.sZone)
  | .lzput => some (.lzput f.ctl f.a f.sSite f.sZone f.sTag)
  | .lzwait => (bitOfSub f.lo8).map fun t => .lzwait f.ctl f.d f.a f.b t f.eZone
  | .lzfree => some (.lzfree f.ctl f.a f.eZone)
  | .lzclean => some (.lzclean f.ctl f.eZone)
  | .xred => some (.xred f.ctl f.a f.sSite f.sZone f.sTag)
  | .tbset => (bitOfSub f.lo8).map fun t => .tbset f.ctl f.d f.a t
  | .tbtest => some (.tbtest f.ctl f.d f.a)
  | .glaunch => some (.glaunch f.ctl f.a f.b)
  | .texit => some (.texit f.ctl)
  | .tsusp => some (.tsusp f.ctl)
  | .tdclass => some (.tdclass f.ctl f.a f.b)
  | .tdoffer => some (.tdoffer f.ctl f.d f.a f.b)
  | .tglk => some (.tglk f.ctl f.d f.a)
  | .tgset => some (.tgset f.ctl f.a f.b f.rC)
  | .tginv => (TgKind.ofCode f.lo8).map fun k => .tginv f.ctl f.a k

/-- What steps 2 and 3 of R33 give: the opcode, the raw prefix word, the fields, and the length in bytes. -/
structure Raw where
  op : Op
  pfx : Option (BitVec 32)
  fields : Fields
  len : Nat
  deriving DecidableEq, Repr

/-- Steps 2 and 3 of R33 on four words (the fourth is read only after a prefix). -/
def decodeOp (w0 w1 w2 w3 : BitVec 32) : Except Reject Raw :=
  if isPrefixWord w0 then
    if isPrefixWord w1 then .error .prefixPlacement
    else
      let f := Fields.ofWords w1 w2 w3
      match Op.ofCode f.opc.toNat with
      | none => .error .prefixPlacement
      | some o => if o.prefixable then .ok ⟨o, some w0, f, 16⟩ else .error .prefixPlacement
  else
    let f := Fields.ofWords w0 w1 w2
    match Op.ofCode f.opc.toNat with
    | none => .error .unassigned
    | some o => .ok ⟨o, none, f, 12⟩

/-- Step 5 of R33, apart from the context check of R52. -/
def Raw.finish (r : Raw) : Except Reject Instr :=
  match fieldCheck r.op r.fields with
  | some e => .error e
  | none =>
    match r.pfx with
    | none =>
      match build r.op none r.fields with
      | none => .error .subValue
      | some i => if i.wf then .ok i else .error .fieldLimit
    | some w =>
      match Pfx.ofWord w with
      | none => .error .prefixField
      | some p =>
        match build r.op (some p) r.fields with
        | none => .error .subValue
        | some i => if i.wf then .ok i else .error .prefixField

/-- The instruction in four words. -/
def decodeWords (w0 w1 w2 w3 : BitVec 32) : Except Reject Instr :=
  match decodeOp w0 w1 w2 w3 with
  | .error e => .error e
  | .ok r => r.finish

/-- The 32-bit word in four bytes, the least significant first (R7). -/
def wordOfBytes (b0 b1 b2 b3 : Byte) : BitVec 32 := b3 ++ b2 ++ b1 ++ b0

/-- The bytes of a 32-bit word, the least significant first (R7). -/
def bytesOfWord (w : BitVec 32) : List Byte :=
  [w.extractLsb' 0 8, w.extractLsb' 8 8, w.extractLsb' 16 8, w.extractLsb' 24 8]

/-- The words in a list of bytes; bytes that make no whole word are left out. -/
def wordsOfBytes : List Byte → List (BitVec 32)
  | b0 :: b1 :: b2 :: b3 :: r => wordOfBytes b0 b1 b2 b3 :: wordsOfBytes r
  | _ => []

/-- Decode the first instruction of a list of bytes, and the bytes after it. -/
def decode (bs : List Byte) : Except Reject (Instr × List Byte) :=
  match wordsOfBytes (bs.take 16) with
  | w0 :: w1 :: w2 :: r =>
    if isPrefixWord w0 && r.isEmpty then .error .truncated
    else match decodeWords w0 w1 w2 (r.headD 0) with
      | .error e => .error e
      | .ok i => .ok (i, bs.drop i.len)
  | _ => .error .truncated

/-! ## Encoding -/

/-- The fields of an unprefixed word of opcode `o`. -/
def mk (o : Op) (c : Ctl) (d a b : BitVec 6) (x : BitVec 56) : Fields :=
  ⟨BitVec.ofNat 10 o.code, d, a, b, c.g, c.gn, c.yld, c.hold, c.stall, 0, x⟩

/-- Opcode, prefix and fields of an instruction; a step that is no instruction has no words. -/
def encodeFields : Instr → Option (Op × Option Pfx × Fields)
  | .add c d a b => some (.add, none, mk .add c d a b (packR 0#6 0#8))
  | .sub c d a b => some (.sub, none, mk .sub c d a b (packR 0#6 0#8))
  | .addi c d a imm => some (.addi, none, mk .addi c d a 0#6 imm)
  | .mul c d a b => some (.mul, none, mk .mul c d a b (packR 0#6 0#8))
  | .mulh c d a b => some (.mulh, none, mk .mulh c d a b (packR 0#6 0#8))
  | .mulhu c d a b => some (.mulhu, none, mk .mulhu c d a b (packR 0#6 0#8))
  | .div c d a b => some (.div, none, mk .div c d a b (packR 0#6 0#8))
  | .divu c d a b => some (.divu, none, mk .divu c d a b (packR 0#6 0#8))
  | .rem c d a b => some (.rem, none, mk .rem c d a b (packR 0#6 0#8))
  | .remu c d a b => some (.remu, none, mk .remu c d a b (packR 0#6 0#8))
  | .and c d a b => some (.and, none, mk .and c d a b (packR 0#6 0#8))
  | .or c d a b => some (.or, none, mk .or c d a b (packR 0#6 0#8))
  | .xor c d a b => some (.xor, none, mk .xor c d a b (packR 0#6 0#8))
  | .andi c d a imm => some (.andi, none, mk .andi c d a 0#6 imm)
  | .ori c d a imm => some (.ori, none, mk .ori c d a 0#6 imm)
  | .xori c d a imm => some (.xori, none, mk .xori c d a 0#6 imm)
  | .shl c d a b => some (.shl, none, mk .shl c d a b (packR 0#6 0#8))
  | .shr c d a b => some (.shr, none, mk .shr c d a b (packR 0#6 0#8))
  | .sra c d a b => some (.sra, none, mk .sra c d a b (packR 0#6 0#8))
  | .shli c d a imm => some (.shli, none, mk .shli c d a 0#6 (imm.setWidth 56))
  | .shri c d a imm => some (.shri, none, mk .shri c d a 0#6 (imm.setWidth 56))
  | .srai c d a imm => some (.srai, none, mk .srai c d a 0#6 (imm.setWidth 56))
  | .rot c d a b => some (.rot, none, mk .rot c d a b (packR 0#6 0#8))
  | .min c d a b => some (.min, none, mk .min c d a b (packR 0#6 0#8))
  | .max c d a b => some (.max, none, mk .max c d a b (packR 0#6 0#8))
  | .minu c d a b => some (.minu, none, mk .minu c d a b (packR 0#6 0#8))
  | .maxu c d a b => some (.maxu, none, mk .maxu c d a b (packR 0#6 0#8))
  | .clz c d a => some (.clz, none, mk .clz c d a 0#6 (packR 0#6 0#8))
  | .ctz c d a => some (.ctz, none, mk .ctz c d a 0#6 (packR 0#6 0#8))
  | .popc c d a => some (.popc, none, mk .popc c d a 0#6 (packR 0#6 0#8))
  | .movi c d imm => some (.movi, none, mk .movi c d 0#6 0#6 imm)
  | .sel c d a b rc => some (.sel, none, mk .sel c d a b (packR (rOf rc) 0#8))
  | .cmp c d a b k => some (.cmp, none, mk .cmp c (rOf d) a b (packR 0#6 k.code))
  | .faddS c d a b rm => some (.faddS, none, mk .faddS c d a b (packR 0#6 (RMode.sub rm)))
  | .faddD c d a b rm => some (.faddD, none, mk .faddD c d a b (packR 0#6 (RMode.sub rm)))
  | .fsubS c d a b rm => some (.fsubS, none, mk .fsubS c d a b (packR 0#6 (RMode.sub rm)))
  | .fsubD c d a b rm => some (.fsubD, none, mk .fsubD c d a b (packR 0#6 (RMode.sub rm)))
  | .fmulS c d a b rm => some (.fmulS, none, mk .fmulS c d a b (packR 0#6 (RMode.sub rm)))
  | .fmulD c d a b rm => some (.fmulD, none, mk .fmulD c d a b (packR 0#6 (RMode.sub rm)))
  | .ffmaS c d a b rc rm => some (.ffmaS, none, mk .ffmaS c d a b (packR rc (RMode.sub rm)))
  | .ffmaD c d a b rc rm => some (.ffmaD, none, mk .ffmaD c d a b (packR rc (RMode.sub rm)))
  | .fdivS c d a b rm => some (.fdivS, none, mk .fdivS c d a b (packR 0#6 (RMode.sub rm)))
  | .fdivD c d a b rm => some (.fdivD, none, mk .fdivD c d a b (packR 0#6 (RMode.sub rm)))
  | .fsqrtS c d a rm => some (.fsqrtS, none, mk .fsqrtS c d a 0#6 (packR 0#6 (RMode.sub rm)))
  | .fsqrtD c d a rm => some (.fsqrtD, none, mk .fsqrtD c d a 0#6 (packR 0#6 (RMode.sub rm)))
  | .fminS c d a b => some (.fminS, none, mk .fminS c d a b (packR 0#6 0#8))
  | .fminD c d a b => some (.fminD, none, mk .fminD c d a b (packR 0#6 0#8))
  | .fmaxS c d a b => some (.fmaxS, none, mk .fmaxS c d a b (packR 0#6 0#8))
  | .fmaxD c d a b => some (.fmaxD, none, mk .fmaxD c d a b (packR 0#6 0#8))
  | .fcmpS c d a b k => some (.fcmpS, none, mk .fcmpS c (rOf d) a b (packR 0#6 k.code))
  | .fcmpD c d a b k => some (.fcmpD, none, mk .fcmpD c (rOf d) a b (packR 0#6 k.code))
  | .fcvtS c d a k rm => some (.fcvtS, none, mk .fcvtS c d a 0#6 (packR 0#6 (CvtS.sub k rm)))
  | .fcvtD c d a k rm => some (.fcvtD, none, mk .fcvtD c d a 0#6 (packR 0#6 (CvtD.sub k rm)))
  | .fclassS c d a => some (.fclassS, none, mk .fclassS c d a 0#6 (packR 0#6 0#8))
  | .fclassD c d a => some (.fclassD, none, mk .fclassD c d a 0#6 (packR 0#6 0#8))
  | .fsgnS c d a b k => some (.fsgnS, none, mk .fsgnS c d a b (packR 0#6 k.code))
  | .fsgnD c d a b k => some (.fsgnD, none, mk .fsgnD c d a b (packR 0#6 k.code))
  | .pand c d a b => some (.pand, none, mk .pand c (rOf d) (rOf a) (rOf b) (packR 0#6 0#8))
  | .por c d a b => some (.por, none, mk .por c (rOf d) (rOf a) (rOf b) (packR 0#6 0#8))
  | .pxor c d a b => some (.pxor, none, mk .pxor c (rOf d) (rOf a) (rOf b) (packR 0#6 0#8))
  | .pnot c d a => some (.pnot, none, mk .pnot c (rOf d) (rOf a) 0#6 (packR 0#6 0#8))
  | .pmov c d a => some (.pmov, none, mk .pmov c (rOf d) (rOf a) 0#6 (packR 0#6 0#8))
  | .br c tgt => some (.br, none, mk .br c 0#6 0#6 0#6 tgt)
  | .jmp c a tgt => some (.jmp, none, mk .jmp c 0#6 a 0#6 tgt)
  | .call c d tgt => some (.call, none, mk .call c d 0#6 0#6 tgt)
  | .ret c a => some (.ret, none, mk .ret c 0#6 a 0#6 0#56)
  | .lnest c d a imm => some (.lnest, none, mk .lnest c d a 0#6 (imm.setWidth 56))
  | .lninc c d a k => some (.lninc, none, mk .lninc c d a 0#6 (packR 0#6 (0#6 ++ k)))
  | .yield c => some (.yield, none, mk .yield c 0#6 0#6 0#6 0#56)
  | .nop c => some (.nop, none, mk .nop c 0#6 0#6 0#6 0#56)
  | .trap c imm => some (.trap, none, mk .trap c 0#6 0#6 0#6 (imm.setWidth 56))
  | .svc c imm => some (.svc, none, mk .svc c 0#6 0#6 0#6 (imm.setWidth 56))
  | .eret c => some (.eret, none, mk .eret c 0#6 0#6 0#6 0#56)
  | .ld c d a k sx off => some (.ld, none, mk .ld c d a 0#6 (packM (ldSub k sx) off))
  | .st c d a k off => some (.st, none, mk .st c d a 0#6 (packM k.code off))
  | .amo c d a b o dbl ord off => some (.amo, none, mk .amo c d a b (packM (amoSub o dbl ord) off))
  | .cas c d a b dbl ord off => some (.cas, none, mk .cas c d a b (packM (casSub dbl ord) off))
  | .fence c sc k => some (.fence, none, mk .fence c 0#6 0#6 0#6 (packR 0#6 (fenceSub sc k)))
  | .barinit c d a off => some (.barinit, none, mk .barinit c d a 0#6 (packM 0#8 off))
  | .bararr c d a off => some (.bararr, none, mk .bararr c d a 0#6 (packM 0#8 off))
  | .barwait c d a off => some (.barwait, none, mk .barwait c d a 0#6 (packM 0#8 off))
  | .barfree c a off => some (.barfree, none, mk .barfree c 0#6 a 0#6 (packM 0#8 off))
  | .sigst c d a sc off => some (.sigst, none, mk .sigst c d a 0#6 (packM sc.code off))
  | .csrr c d imm => some (.csrr, none, mk .csrr c d 0#6 0#6 (imm.setWidth 56))
  | .csrw c a imm => some (.csrw, none, mk .csrw c 0#6 a 0#6 (imm.setWidth 56))
  | .csrs c a imm => some (.csrs, none, mk .csrs c 0#6 a 0#6 (imm.setWidth 56))
  | .csrc c a imm => some (.csrc, none, mk .csrc c 0#6 a 0#6 (imm.setWidth 56))
  | .tlbinv c a b k => some (.tlbinv, none, mk .tlbinv c 0#6 a b (packR 0#6 k.code))
  | .icinv c a b t => some (.icinv, none, mk .icinv c 0#6 a b (packR 0#6 (bitSub t)))
  | .setvl c d a b => some (.setvl, none, mk .setvl c d a b (packR 0#6 0#8))
  | .setvli c d imm => some (.setvli, none, mk .setvli c d 0#6 0#6 imm)
  | .vlq c d k => some (.vlq, none, mk .vlq c d 0#6 0#6 (packR 0#6 k.code))
  | .vspill c d a k off => some (.vspill, none, mk .vspill c d a 0#6 (packM k.code off))
  | .vfill c d a k off => some (.vfill, none, mk .vfill c d a 0#6 (packM k.code off))
  | .vadd c x d a b f => some (.vadd, x, mk .vadd c d a b (packV f 0#6 0#8))
  | .vsub c x d a b f => some (.vsub, x, mk .vsub c d a b (packV f 0#6 0#8))
  | .vmul c x d a b f => some (.vmul, x, mk .vmul c d a b (packV f 0#6 0#8))
  | .vmulh c x d a b f => some (.vmulh, x, mk .vmulh c d a b (packV f 0#6 0#8))
  | .vdiv c x d a b f => some (.vdiv, x, mk .vdiv c d a b (packV f 0#6 0#8))
  | .vrem c x d a b f => some (.vrem, x, mk .vrem c d a b (packV f 0#6 0#8))
  | .vmin c x d a b f => some (.vmin, x, mk .vmin c d a b (packV f 0#6 0#8))
  | .vmax c x d a b f => some (.vmax, x, mk .vmax c d a b (packV f 0#6 0#8))
  | .vand c x d a b f => some (.vand, x, mk .vand c d a b (packV f 0#6 0#8))
  | .vor c x d a b f => some (.vor, x, mk .vor c d a b (packV f 0#6 0#8))
  | .vxor c x d a b f => some (.vxor, x, mk .vxor c d a b (packV f 0#6 0#8))
  | .vshl c x d a b f => some (.vshl, x, mk .vshl c d a b (packV f 0#6 0#8))
  | .vshr c x d a b f => some (.vshr, x, mk .vshr c d a b (packV f 0#6 0#8))
  | .vsra c x d a b f => some (.vsra, x, mk .vsra c d a b (packV f 0#6 0#8))
  | .vsadd c x d a b f => some (.vsadd, x, mk .vsadd c d a b (packV f 0#6 0#8))
  | .vssub c x d a b f => some (.vssub, x, mk .vssub c d a b (packV f 0#6 0#8))
  | .vwmul c x d a b f => some (.vwmul, x, mk .vwmul c d a b (packV f 0#6 0#8))
  | .vwmacc c x d a b f => some (.vwmacc, x, mk .vwmacc c d a b (packV f 0#6 0#8))
  | .vcmp c x d a b f k => some (.vcmp, x, mk .vcmp c (rOf d) a b (packV f 0#6 k.code))
  | .vmerge c x d a b rc f => some (.vmerge, x, mk .vmerge c d a b (packV f (rOf rc) 0#8))
  | .vcvt c x d a f => some (.vcvt, x, mk .vcvt c d a 0#6 (packV f 0#6 0#8))
  | .mand c d a b => some (.mand, none, mk .mand c (rOf d) (rOf a) (rOf b) (packR 0#6 0#8))
  | .mor c d a b => some (.mor, none, mk .mor c (rOf d) (rOf a) (rOf b) (packR 0#6 0#8))
  | .mxor c d a b => some (.mxor, none, mk .mxor c (rOf d) (rOf a) (rOf b) (packR 0#6 0#8))
  | .mnot c d a => some (.mnot, none, mk .mnot c (rOf d) (rOf a) 0#6 (packR 0#6 0#8))
  | .mpop c d a => some (.mpop, none, mk .mpop c d (rOf a) 0#6 (packR 0#6 0#8))
  | .mffs c d a => some (.mffs, none, mk .mffs c d (rOf a) 0#6 (packR 0#6 0#8))
  | .mset c d a => some (.mset, none, mk .mset c (rOf d) a 0#6 (packR 0#6 0#8))
  | .vfadd c x d a b f => some (.vfadd, x, mk .vfadd c d a b (packV f 0#6 0#8))
  | .vfsub c x d a b f => some (.vfsub, x, mk .vfsub c d a b (packV f 0#6 0#8))
  | .vfmul c x d a b f => some (.vfmul, x, mk .vfmul c d a b (packV f 0#6 0#8))
  | .vfma c x d a b rc f => some (.vfma, x, mk .vfma c d a b (packV f rc 0#8))
  | .vfnma c x d a b rc f => some (.vfnma, x, mk .vfnma c d a b (packV f rc 0#8))
  | .vfdiv c x d a b f => some (.vfdiv, x, mk .vfdiv c d a b (packV f 0#6 0#8))
  | .vfrcp c x d a f => some (.vfrcp, x, mk .vfrcp c d a 0#6 (packV f 0#6 0#8))
  | .vfsqrt c x d a f => some (.vfsqrt, x, mk .vfsqrt c d a 0#6 (packV f 0#6 0#8))
  | .vfrsqrt c x d a f => some (.vfrsqrt, x, mk .vfrsqrt c d a 0#6 (packV f 0#6 0#8))
  | .vfexp2 c x d a f => some (.vfexp2, x, mk .vfexp2 c d a 0#6 (packV f 0#6 0#8))
  | .vflog2 c x d a f => some (.vflog2, x, mk .vflog2 c d a 0#6 (packV f 0#6 0#8))
  | .vfsin c x d a f => some (.vfsin, x, mk .vfsin c d a 0#6 (packV f 0#6 0#8))
  | .vfcos c x d a f => some (.vfcos, x, mk .vfcos c d a 0#6 (packV f 0#6 0#8))
  | .vftanh c x d a f => some (.vftanh, x, mk .vftanh c d a 0#6 (packV f 0#6 0#8))
  | .vfmin c x d a b f => some (.vfmin, x, mk .vfmin c d a b (packV f 0#6 0#8))
  | .vfmax c x d a b f => some (.vfmax, x, mk .vfmax c d a b (packV f 0#6 0#8))
  | .vfcmp c x d a b f k => some (.vfcmp, x, mk .vfcmp c (rOf d) a b (packV f 0#6 k.code))
  | .vfcvt c x d a b f => some (.vfcvt, x, mk .vfcvt c d a b (packV f 0#6 0#8))
  | .vfwma c x d a b rc f => some (.vfwma, x, mk .vfwma c d a b (packV f rc 0#8))
  | .vfclass c x d a f => some (.vfclass, x, mk .vfclass c d a 0#6 (packV f 0#6 0#8))
  | .vfsgn c x d a b f k => some (.vfsgn, x, mk .vfsgn c d a b (packV f 0#6 k.code))
  | .vslide c x d a b f t => some (.vslide, x, mk .vslide c d a b (packV f 0#6 (bitSub t)))
  | .vperm c x d a b f => some (.vperm, x, mk .vperm c d a b (packV f 0#6 0#8))
  | .vreshape c x d a b f => some (.vreshape, x, mk .vreshape c d a b (packV f 0#6 0#8))
  | .vcompress c x d a b f => some (.vcompress, x, mk .vcompress c d a (rOf b) (packV f 0#6 0#8))
  | .vexpand c x d a b f => some (.vexpand, x, mk .vexpand c d a (rOf b) (packV f 0#6 0#8))
  | .vbcast c x d a f => some (.vbcast, x, mk .vbcast c d a 0#6 (packV f 0#6 0#8))
  | .vext c x d a b f => some (.vext, x, mk .vext c d a b (packV f 0#6 0#8))
  | .vins c x d a b f => some (.vins, x, mk .vins c d a b (packV f 0#6 0#8))
  | .vrsum c x d a f => some (.vrsum, x, mk .vrsum c d a 0#6 (packV f 0#6 0#8))
  | .vrmax c x d a f => some (.vrmax, x, mk .vrmax c d a 0#6 (packV f 0#6 0#8))
  | .vrmin c x d a f => some (.vrmin, x, mk .vrmin c d a 0#6 (packV f 0#6 0#8))
  | .vrssum c x d a f => some (.vrssum, x, mk .vrssum c d a 0#6 (packV f 0#6 0#8))
  | .vrmaxw c x d a b f tie logg => some (.vrmaxw, x, mk .vrmaxw c d a b (packV f 0#6 (witSub tie logg)))
  | .vrminw c x d a b f tie logg => some (.vrminw, x, mk .vrminw c d a b (packV f 0#6 (witSub tie logg)))
  | .vclampw c x d a b rc f => some (.vclampw, x, mk .vclampw c d a b (packV f rc 0#8))
  | .vrmedw c x d a b f tie logg => some (.vrmedw, x, mk .vrmedw c d a b (packV f 0#6 (witSub tie logg)))
  | .vrssumw c x d a b f tie logg => some (.vrssumw, x, mk .vrssumw c d a b (packV f 0#6 (witSub tie logg)))
  | .vwhdr c d a b => some (.vwhdr, none, mk .vwhdr c d a b (packR 0#6 0#8))
  | .vadjb c x d a b rc f t => some (.vadjb, x, mk .vadjb c d a b (packV f rc (bitSub t)))
  | .vld c x d a k off => some (.vld, x, mk .vld c d a 0#6 (packM k.code off))
  | .vlds c x d a b k off => some (.vlds, x, mk .vlds c d a b (packM k.code off))
  | .vldx c x d a b k i64 off => some (.vldx, x, mk .vldx c d a b (packM (ixSub k i64) off))
  | .vldseg c x d a k nf off => some (.vldseg, x, mk .vldseg c d a 0#6 (packM (segSub k nf) off))
  | .vst c x d a k off => some (.vst, x, mk .vst c d a 0#6 (packM k.code off))
  | .vsts c x d a b k off => some (.vsts, x, mk .vsts c d a b (packM k.code off))
  | .vstx c x d a b k i64 off => some (.vstx, x, mk .vstx c d a b (packM (ixSub k i64) off))
  | .vstseg c x d a k nf off => some (.vstseg, x, mk .vstseg c d a 0#6 (packM (segSub k nf) off))
  | .vldmx c x d a b rc f t => some (.vldmx, x, mk .vldmx c d a b (packV f rc (bitSub t)))
  | .vstmx c x d a b rc f t => some (.vstmx, x, mk .vstmx c d a b (packV f rc (bitSub t)))
  | .vsettle c a k => some (.vsettle, none, mk .vsettle c 0#6 a 0#6 (packR 0#6 k.code))
  | .vpres c d a k st => some (.vpres, none, mk .vpres c (rOf d) a 0#6 (packR 0#6 (presSub k st)))
  | .mpoison c d a k => some (.mpoison, none, mk .mpoison c d (rOf a) 0#6 (packR 0#6 k.code))
  | .hpop c d => some (.hpop, none, mk .hpop c d 0#6 0#6 (packR 0#6 0#8))
  | .hopnd c d k => some (.hopnd, none, mk .hopnd c d 0#6 0#6 (packR 0#6 k.code))
  | .hfill c a b => some (.hfill, none, mk .hfill c 0#6 a b (packR 0#6 0#8))
  | .hflt c a b => some (.hflt, none, mk .hflt c 0#6 a b (packR 0#6 0#8))
  | .msel c a b => some (.msel, none, mk .msel c 0#6 a b (packR 0#6 0#8))
  | .mmul c x d a f t => some (.mmul, x, mk .mmul c d a 0#6 (packV f 0#6 (bitSub t)))
  | .mstat c d => some (.mstat, none, mk .mstat c d 0#6 0#6 (packR 0#6 0#8))
  | .mclr c => some (.mclr, none, mk .mclr c 0#6 0#6 0#6 0#56)
  | .cpy c a tag => some (.cpy, none, mk .cpy c 0#6 a 0#6 (packE 0#6 tag 0#4 0#8))
  | .cpyt c a tag => some (.cpyt, none, mk .cpyt c 0#6 a 0#6 (packE 0#6 tag 0#4 0#8))
  | .cfill c a b tag => some (.cfill, none, mk .cfill c 0#6 a b (packE 0#6 tag 0#4 0#8))
  | .cwany c d a => some (.cwany, none, mk .cwany c d a 0#6 (packR 0#6 0#8))
  | .cwall c d a => some (.cwall, none, mk .cwall c d a 0#6 (packR 0#6 0#8))
  | .cffr c d a => some (.cffr, none, mk .cffr c d a 0#6 (packR 0#6 0#8))
  | .ctclr c a => some (.ctclr, none, mk .ctclr c 0#6 a 0#6 (packR 0#6 0#8))
  | .epop c d => some (.epop, none, mk .epop c d 0#6 0#6 (packR 0#6 0#8))
  | .lzopen c a b zone => some (.lzopen, none, mk .lzopen c 0#6 a b (packE 0#6 0#6 zone 0#8))
  | .lzclose c zone => some (.lzclose, none, mk .lzclose c 0#6 0#6 0#6 (packE 0#6 0#6 zone 0#8))
  | .lzres c site zone => some (.lzres, none, mk .lzres c 0#6 0#6 0#6 (packS site 0#6 0#6 zone 0#8))
  | .lzput c a site zone tag => some (.lzput, none, mk .lzput c 0#6 a 0#6 (packS site 0#6 tag zone 0#8))
  | .lzwait c d a b t zone => some (.lzwait, none, mk .lzwait c d a b (packE 0#6 0#6 zone (bitSub t)))
  | .lzfree c a zone => some (.lzfree, none, mk .lzfree c 0#6 a 0#6 (packE 0#6 0#6 zone 0#8))
  | .lzclean c zone => some (.lzclean, none, mk .lzclean c 0#6 0#6 0#6 (packE 0#6 0#6 zone 0#8))
  | .xred c a site zone tag => some (.xred, none, mk .xred c 0#6 a 0#6 (packS site 0#6 tag zone 0#8))
  | .tbset c d a t => some (.tbset, none, mk .tbset c d a 0#6 (packR 0#6 (bitSub t)))
  | .tbtest c d a => some (.tbtest, none, mk .tbtest c d a 0#6 (packR 0#6 0#8))
  | .glaunch c a b => some (.glaunch, none, mk .glaunch c 0#6 a b (packR 0#6 0#8))
  | .texit c => some (.texit, none, mk .texit c 0#6 0#6 0#6 0#56)
  | .tsusp c => some (.tsusp, none, mk .tsusp c 0#6 0#6 0#6 0#56)
  | .tdclass c a b => some (.tdclass, none, mk .tdclass c 0#6 a b (packR 0#6 0#8))
  | .tdoffer c d a b => some (.tdoffer, none, mk .tdoffer c d a b (packR 0#6 0#8))
  | .tglk c d a => some (.tglk, none, mk .tglk c d a 0#6 (packR 0#6 0#8))
  | .tgset c a b rc => some (.tgset, none, mk .tgset c 0#6 a b (packR rc 0#8))
  | .tginv c a k => some (.tginv, none, mk .tginv c 0#6 a 0#6 (packR 0#6 k.code))
  | .barwaitRelease _ _ => none
  | .mireStallResume _ _ => none
  | .laneWaitRelease _ _ => none
  | .planeLatch _ _ => none
  | .lzwaitTimeout _ _ => none
  | .issueCycle _ => none
  | .pipeDispatch _ _ _ => none
  | .engineCommandAccept _ _ => none
  | .copySegment _ _ => none
  | .reservationRequest _ => none
  | .reservationAnswer _ => none
  | .landing _ => none
  | .putAck _ => none
  | .xredGateRead _ _ => none
  | .xredReduce _ _ => none
  | .launchInstantiate _ => none
  | .dispatch _ => none
  | .tenderAnnounce _ => none
  | .bid _ => none
  | .bidWindowClose _ _ => none
  | .award _ _ _ => none
  | .retenderTimer _ _ => none
  | .gangPrepare _ => none
  | .gangCommit _ => none
  | .gangPrepareTimeout _ _ => none
  | .gangCommitTimeout _ _ => none
  | .stopDrain _ _ => none
  | .contextSave _ _ => none
  | .contextRestore _ _ => none
  | .scrubComplete _ => none
  | .relockEnd _ => none
  | .governorEvaluation _ => none
  | .dumpEnd _ _ => none
  | .traceSample _ => none
  | .traceRecordWrite _ => none
  | .powerUpReset _ => none
  | .idleHelperPop _ _ => none
  | .scalarResultWrite _ _ _ _ => none
  | .linkFailureDeclared _ => none
  | .launchRecordWrite _ _ _ => none
  | .gangAck _ => none
  | .gangAbort _ => none
  | .hostSuspendRequest _ _ => none
  | .hostRelease _ _ => none
  | .hostResume _ => none
  | .hostEndThread _ => none
  | .serviceAnswer _ => none
  | .pageRequestResponse _ _ _ => none
  | .faultQueueConsume _ _ => none
  | .pavilionAssign _ _ => none
  | .patrolScrubLine _ => none
  | .patrolDeadlineWrite _ => none
  | .frequencyWrite _ _ => none
  | .capWrite _ _ => none
  | .translationRootWrite _ _ => none
  | .hostInvalidate _ _ => none
  | .zeroingCommand _ _ => none
  | .apbaseWrite _ _ => none
  | .apertureAccess _ _ _ _ => none
  | .corecfgWrite _ _ => none
  | .verifyModeSet _ _ => none
  | .suspectClear _ => none
  | .dumpArm _ _ _ => none
  | .dumpRequest _ _ => none
  | .trctlFlush _ => none
  | .managementRegisterWrite _ => none
  | .startStageComplete _ _ => none
  | .startWatchdog => none
  | .fullStartRequest => none
  | .spdmGetVersion _ => none
  | .spdmGetCapabilities _ => none
  | .spdmNegotiateAlgorithms _ => none
  | .spdmGetDigests _ => none
  | .spdmGetCertificate _ => none
  | .spdmChallenge _ _ => none
  | .spdmGetMeasurements _ _ => none
  | .vfEnable _ => none
  | .fabricSettingsWrite _ => none
  | .linkUp _ => none
  | .pcieCompletionTimeout _ _ => none
  | .memoryAccessPerformed _ _ _ => none

/-- The words of an instruction in storage order (R24, R25); the empty list for a step that is no instruction. -/
def encode (i : Instr) : List (BitVec 32) :=
  match encodeFields i with
  | none => []
  | some (_, none, f) => [f.word0, f.word1, f.word2]
  | some (_, some x, f) => [x.word, f.word0, f.word1, f.word2]

/-- The bytes of an instruction in storage order (R7). -/
def encodeBytes (i : Instr) : List Byte := (encode i).flatMap bytesOfWord

/-- The 16 bytes that the low bits of `w` make, numbered as spec/opcode_table.json numbers bits; the bits from `nbits` up are 0. -/
def bytesOfTableWord (nbits w : Nat) : List Byte :=
  let v := w % 2 ^ nbits
  (List.range 16).map fun k => BitVec.ofNat 8 (v >>> (8 * k))

/-- What the decoder reads from an instruction whose bits are `w` (bits from `nbits` up are 0). -/
def decodeTableWord (nbits w : Nat) : Option Instr :=
  match decode (bytesOfTableWord nbits w) with
  | .ok (i, _) => some i
  | .error _ => none

end Sys2Proof
end

