-- ==== Sys2Proof/Config.lean ====
section
/-! DEFINITION. What the manual leaves open, as constants that have no body, and the figures of stepping B0 that the
model names. A constant below that is opaque can be neither evaluated nor proved to have any value, so a theorem that
mentions it holds for every value. -/

namespace Sys2Proof.Config

/-- The bits of an undefined value (R5): the value drawn for the `n`-th time, at width `w`. Free, log entry 5, DESIGN CHOICE. -/
opaque freeBits : (w : Nat) → (n : Nat) → BitVec w

/-- Which of several steps that no rule orders comes first at step `n` of the model (R385, chapter 13). Free, log entry 6, DESIGN CHOICE. -/
opaque choice : (n : Nat) → Nat

/-- How many times a step that goes on being possible is passed over before it is taken (R21). Free, log entry 6, DESIGN CHOICE. -/
opaque patience : Nat

/-- Whether an access that may use the translation or the code word it cached before a change uses that old one
(R263, R34), at step `n` of the model, for the page or word `k`. Free, log entry 12, DEDUCED. -/
opaque useOld : (n k : Nat) → Bool

/-- The core and the page whose translation a walker reads ahead of need (R257) before step `n` of the model, if any. Free, log entry
12, DEDUCED. -/
opaque walkAhead : (n : Nat) → Option (Nat × Nat)

/-- Whether a transcendental result that lies inside the lane's error band is classed as hard (R144), for the operation
`op`, format code `fmt` and operand bits `x`. Free, log entry 14, DEDUCED. -/
opaque laneHard : (op fmt : Nat) → (x : BitVec 64) → Bool

/-- The ROM digest (measurement block 1) of this package (R378). Free, log entry 15, PRESUMED. -/
opaque romDigest : BitVec 512

/-- The ML-DSA-87 signature of 4,627 bytes over an answer, under a key that never leaves the Lodge (R378). Free, log entry 15, PRESUMED. -/
opaque sign : (answer : List (BitVec 8)) → Vector (BitVec 8) 4627

/-- The device certificate chain, which the spec names and does not give (R378). Free, log entry 15, PRESUMED. -/
opaque certificate : List (BitVec 8)

end Sys2Proof.Config
end

