-- ==== Sys2Proof/Machine/State.lean ====
section
/-! DEFINITION. The state of the package: everything the manual gives the machine, as plain data, and its value at reset.
Cores are numbered 144 * pavilion + site, pavilions 4 * die + pavilion, islands by their C-die and place (R8 to R12). -/

namespace Sys2Proof.Machine

/-- A table by number: pairs in rising order of their number; what is not listed has the table's default. -/
abbrev NMap (α : Type) := List (Nat × α)

/-- A leaf translation (R257): the frame of a 4 KiB page, the permissions, and how many such pages the leaf maps (1, 16 in a
contiguous group, 512 or 262,144). A TLB lists a leaf with the frame of its first page. -/
structure TlbEntry where
  frame : Nat
  r : Bool
  w : Bool
  x : Bool
  span : Nat := 1
  deriving DecidableEq, Repr, Inhabited

/-! ## Registers of a thread -/

/-- 64 bits of a vector register and the presence codes of its four half-slots (R54, R62). -/
structure VWord where
  bits : W64 := 0
  pres : BitVec 8 := 0
  deriving DecidableEq, Repr, Inhabited

/-- A vector register: 8,192 bits, 512 half-slots. -/
abbrev VReg := Vector VWord 128

/-- v0 to v63; sN is the low word of vN (R57). -/
abbrev VFile := Vector VReg 64

/-- A mask register: 2,048 bits (R54). -/
abbrev Mask := Vector W64 32

/-- A held fault slot (R166, R281); `age` orders deliveries by the time of `hflt` (R169); `refs` are the elements that are
FAULTED with it, as register, first half-slot and number of half-slots (log 16, DESIGN CHOICE). -/
structure Slot where
  val : W64
  pc : PC
  cause : BitVec 16
  elem : Nat
  reg : Reg
  half : Nat
  width : Nat
  age : Nat
  refs : List (Reg × Nat × Nat)
  deriving DecidableEq, Repr, Inhabited

/-- A pending binding of `lninc` (R118). -/
structure Bind where
  reg : Reg
  stride : Reg
  deriving DecidableEq, Repr, Inhabited

/-- A binding of an open nest (R119). -/
structure NestBind where
  slot : Nat
  reg : Reg
  stride : Reg
  base : W64
  strides : List W64
  deriving DecidableEq, Repr, Inhabited

/-- An open loop nest (R119, R121). -/
structure Nest where
  lev : Nat
  blen : Nat
  idxReg : Reg
  bodyStart : PC
  bodyEnd : PC
  cnt : List W64
  idx : List W64
  binds : List NestBind
  deriving DecidableEq, Repr, Inhabited

/-- A pushed engine command (R283, R312 to R314): opcode, image, fields of its word, fill value of `cfill`, sequence number,
push PC, its place in the push order of its core (R248), by which the core names it, whether it is a copy into the range that its
thread held selected when it pushed it (R179), and the number of the first vector instruction of its thread that is younger (R243). -/
structure Cmd where
  op : Op
  img : List Byte
  tag : Option (BitVec 6)
  zone : BitVec 4
  site : Site
  fill : W64
  seq : W64
  pc : PC
  num : Nat
  own : Bool := false
  past : Nat := 0
  deriving DecidableEq, Repr

/-- What a task thread waits on (R270, R277). -/
inductive Wait where
  /-- `barwait` on the word at an address, for its phase to differ. -/
  | barwait (addr : W64) (phase : BitVec 32)
  /-- `cwany` or `cwall` on a mask of tags. -/
  | tags (all : Bool) (mask : W64)
  /-- `lzwait` since a tick, with its limit; `past` once that has passed. -/
  | lzwait (start : W64) (limit : W64) (past : Bool) (all : Bool) (mask : W64) (zone : Nat)
  /-- `vsettle`, `texit` or `tsusp`, for every record of the thread or for a run of registers. -/
  | settle (all : Bool) (base n : Nat)
  | epop
  /-- `glaunch` to a full launch queue. -/
  | queueRoom (queue : Nat)
  /-- `texit`, for the thread's engine commands. -/
  | commands
  /-- A scalar access that the range checker or a relock window holds back. -/
  | range (ea : W64) (n : Nat) (store : Bool)
  | hostAccess
  /-- A page that is not present, with the address that met it. -/
  | page (page : Nat) (ea : W64)
  /-- `tlbinv`, for the accesses that used a translation of the pages of these ranges. -/
  | pages (ranges : List (Nat × Nat))
  deriving DecidableEq, Repr

/-- What a task thread context is doing (R270, R276, R277, R344, R350). -/
inductive Status where
  | free
  | running
  | waiting (w : Wait)
  /-- Stopped at a precise fault. -/
  | stopped
  /-- Stopped by `trap`, or by `svc` with its service owed: it resumes at PC + 12 (R122, R344). -/
  | stoppedAfter (svc : Bool)
  /-- Frozen for a dump (R350). -/
  | frozen
  /-- Ends when its fatal record, which waits for room, has entered the fault queue; the record names it (R268). -/
  | ending (who : BitVec 26)
  /-- Holds a save slot's task whose context is still to be read back (R284). -/
  | restoring (slot : Nat)
  deriving DecidableEq, Repr

/-- The task in a context: instance, node and launch data (R290, R293, R298). -/
structure Task where
  part : Nat
  inst : Nat
  node : Nat
  queue : Nat
  prio : Nat
  order : Nat
  deriving DecidableEq, Repr, Inhabited

/-- The control registers that a vector or matrix instruction works with: those of its issue (R56, R58). -/
structure VCtl where
  vl : W64 := 0
  vtype : W64 := 0
  fctl : W64 := 1
  vstart : W64 := 0
  deriving DecidableEq, Repr, Inhabited

/-- What is discarded if the vector or matrix instruction `num` of the thread, which has not passed its fault points, faults or
becomes the stop point (R126, R128): the low words that younger instructions overwrote, and what they may change as it was at the
issue of `num`. `past` instructions have issued past it (R126), and `done` of them, issued while no younger instruction of the kind
waited, retire when it has passed (R360). -/
structure Undo where
  num : Nat
  past : Nat := 0
  done : Nat := 0
  lows : NMap VWord := []
  p : BitVec 8
  nest : Option Nest
  binds : Vector (Option Bind) 4
  pmk : Mask
  istat : W64
  hentry : W64
  ctl : VCtl
  deriving DecidableEq, Repr

/-- An access to the host window that has issued and waits for its completion (R224, R238); `got` are the answers that a
vector instruction has for earlier reads of the same element group. -/
structure HostAcc where
  addr : Nat
  len : Nat
  /-- The page of its address, with the leaf it used. -/
  xl : Option (Nat × TlbEntry)
  answer : Option Completion
  got : List Completion
  deriving DecidableEq, Repr

/-- A task thread context (R54). -/
structure Thread where
  v : VFile := Vector.replicate 64 (Vector.replicate 128 {})
  m : Vector Mask 8 := Vector.replicate 8 (Vector.replicate 32 0)
  p : BitVec 8 := 1
  pc : PC := 0
  vl : W64 := 0
  vtype : W64 := 0
  fctl : W64 := 1
  istat : W64 := 0
  vstart : W64 := 0
  hwm : W64 := 0
  mprog : W64 := 0
  tags : W64 := 0
  cerr : W64 := 0
  pmk : Mask := Vector.replicate 32 0
  srstate : W64 := 0x5DEECE66D1CE4E5B
  hentry : W64 := 0
  /-- The selection as `mstat` reads it (R187), and the number of the core's next push when it was made (R179). -/
  sel : W64 := 0
  selNum : Nat := 0
  /-- The values that stopped rows have left in MPROG, which software may restore (R185). -/
  rowStops : List W64 := []
  slots : Vector (Option Slot) 8 := Vector.replicate 8 none
  binds : Vector (Option Bind) 4 := Vector.replicate 4 none
  nest : Option Nest := none
  fifo : List Cmd := []
  /-- Outputs with the sequence numbers of their commands (R322, R281). -/
  outs : List (W64 × W64) := []
  outRes : Nat := 0
  seq : W64 := 0
  instret : W64 := 0
  cycnf : W64 := 0
  st : Status := .free
  /-- The CAUSE of the save the thread is stopping for (R276, R282). -/
  stop : Option Nat := none
  /-- Its records, its FIFO and its copies have come to rest: the save may be written (R277). -/
  drained : Bool := false
  /-- The host has asked for a stop while the thread stops for a page (R276). -/
  asked : Bool := false
  stall : Nat := 0
  yld : Bool := false
  busyS : W64 := 0
  busyP : BitVec 8 := 0
  /-- Cycles for which its oldest mark has stood (log 9, DEDUCED). -/
  busyFor : Nat := 0
  /-- The number of its strip: how many `setvl` and `setvli` it has executed (R66, R242). -/
  strip : Nat := 0
  /-- The number of its next vector or matrix instruction, and what is kept for those that have not passed their fault points,
  oldest first. -/
  vnum : Nat := 0
  undos : List Undo := []
  /-- An Advance that waits until older vector instructions have read the registers it writes (R58, R119). -/
  owed : Bool := false
  task : Option Task := none
  hostAcc : Option HostAcc := none
  brkSkip : Bool := false
  /-- REFT at the issue of a scalar instruction that waits for its access (R366). -/
  since : Option W64 := none
  /-- Register words in which an uncorrectable error lies (R63): register, 32-bit word, and whether a read for inactive elements only
  has marked and counted it. -/
  errs : List (Nat × Nat × Bool) := []
  /-- The wait of its `barwait` has ended: `true` when the word stopped being live (R233). -/
  barEnd : Option Bool := none
  deriving DecidableEq, Repr

/-- Where a helper returns to (R160, R163). -/
inductive Ret where
  | none
  | idle
  | addr (pc : PC)
  deriving DecidableEq, Repr

/-- A helper context (R160). -/
structure Helper where
  s : Vector W64 64 := Vector.replicate 64 0
  p : BitVec 8 := 1
  pc : PC := 0
  fctl : W64 := 1
  istat : W64 := 0
  ret : Ret := .none
  idle : Bool := true
  /-- The number of the Mire record it holds (R163). -/
  held : Option Nat := none
  /-- The HENTRY with which it took its last record (R55, R76). -/
  hent : W64 := 0
  rnd : BitVec 16 := 0
  nest : Option Nest := none
  binds : Vector (Option Bind) 4 := Vector.replicate 4 none
  instret : W64 := 0
  cycnf : W64 := 0
  stall : Nat := 0
  yld : Bool := false
  hostAcc : Option HostAcc := none
  /-- Its scalar access that the range checker or a relock window holds back: the address, the bytes, and whether it writes. -/
  range : Option (W64 × Nat × Bool) := none
  deriving DecidableEq, Repr

/-! ## The core -/

/-- An operand captured by a hole record (R156): its bits, or a link to the record that will fill it. Bits `shift` and up of
that fill are bits `pos` to `pos + width - 1` of the operand, whose other bits are those of `rest` (log 23, DEDUCED). -/
inductive MOpnd where
  | none
  | val (v : W64)
  | link (id shift pos width : Nat) (rest : W64)
  deriving DecidableEq, Repr

/-- A hole record or a move record of the Mire (R156, R386). -/
structure MireRec where
  id : Nat
  thr : Nat
  pc : PC
  op : BitVec 10
  sop : BitVec 2
  fa : BitVec 6
  fb : BitVec 6
  fd : BitVec 6
  rm : BitVec 3
  rnd : BitVec 16
  ten : BitVec 5
  elem : Nat
  reg : Reg
  half : Nat
  width : Nat
  a : MOpnd
  b : MOpnd
  c : MOpnd
  sa : BitVec 8
  sb : BitVec 8
  /-- The instruction has block scales of A, of B (R165). -/
  sca : Bool := false
  scb : Bool := false
  /-- Integer results of the producing instruction saturate (log 23, DEDUCED). -/
  sat : Bool
  move : Bool
  superseded : Bool
  chained : Bool
  /-- Taken by a helper. -/
  taken : Bool
  /-- Its owner ended: the helper that holds it only releases it (R173). -/
  dead : Bool
  deriving DecidableEq, Repr

/-- Why an instruction waits in its pipe (R158, R159, R180, R182, R249, R272); `elder` waits for older instructions of its thread,
because its outcome is a fault or a stop (R344). -/
inductive LaneWait where
  | queued
  | presence
  | mireRoom
  | range
  | latch
  | plane
  | host
  | elder
  deriving DecidableEq, Repr

/-- Where the bytes of one access lie. -/
inductive Loc where
  | sp (core off : Nat)
  | ts (core off : Nat)
  | hbm (pa : Nat)
  | host (pa : Nat)
  deriving DecidableEq, Repr

/-- An `mmul` between two planes (R182): the groups it has done, its accumulators by column, its flags and SRSTATE. -/
structure RowRun where
  g : Nat
  acc : NMap Nat
  fl : W64
  sr : W64
  deriving DecidableEq, Repr

/-- What an instruction that has begun in the lanes keeps across its waits: that the snapshot of R198 found its witness current, or the
scale of the first record that `vldmx` has read, which shares a half-slot with the second's (R62, R230). -/
inductive Memo where
  | current
  | scale (v : Nat) (bad : Bool)
  deriving DecidableEq, Repr

/-- An instruction in a pipe: whose it is, its PC, the element it continues at, the scalar operands it has read (R60), what it
waits for, REFT at its issue (R126, R272, R366), its number in its thread and the control registers of its issue. A memory
instruction that has been dispatched holds the translations it made for the elements it has not performed, by element and page, and where
their accesses lie (R126, R286). -/
structure PipeEntry where
  thr : Nat
  pc : PC
  instr : Instr
  start : Nat
  scal : Option (Vector W64 64) := none
  why : LaneWait := .queued
  time : W64 := 0
  num : Nat := 0
  ctl : VCtl := {}
  xl : List (Nat × Nat × TlbEntry) := []
  mem : List (Loc × Nat) := []
  /-- The strip it belongs to (R242). -/
  strip : Nat := 0
  /-- Registers of its destination whose low word it has written (R58, R275). -/
  lows : List Nat := []
  /-- No access and no element it still has to read can make it fault. -/
  safe : Bool := false
  row : Option RowRun := none
  memo : Option Memo := none
  deriving DecidableEq, Repr

/-- States of a pending engine command (R278, R320, R325, R331). -/
inductive Phase where
  | run
  | page (page : Nat)
  | frozen
  /-- A reservation request on its way (R325). -/
  | sent
  /-- A put or a forward that waits for its acknowledgement (R326, R331). -/
  | forwarded
  /-- A host-window read of the command has issued; its completion once it is there. -/
  | host (answer : Option Completion)
  deriving DecidableEq, Repr

/-- A command accepted by an engine (R265, R283): its number in the core, the task it is for, its elements and its segments
done (R318). -/
structure Pend where
  id : Nat
  cmd : Cmd
  owner : ThreadName
  part : Nat
  inst : Nat
  queue : Nat
  done : Nat
  segs : Nat
  phase : Phase
  /-- An `xred` whose signal word has not met its value (R331). -/
  gated : Bool := false
  /-- Scratchpad offset of the input slot of an `xred`, once it has arrived (R331). -/
  slotAt : Option Nat := none
  /-- Bytes read or reduced and not yet sent, and the 8-byte granules of them that are poisoned (R326, R331). -/
  buf : List Byte := []
  bad : List Nat := []
  /-- Source blocks of 64 bytes that the command has read, by their number: each is read once (R240). -/
  blocks : List (Nat × List (Byte × Bool)) := []
  /-- The pages of its host-window read that has issued, with the leaves it used. -/
  xl : List (Nat × TlbEntry) := []
  deriving DecidableEq, Repr

/-- States of a landing zone slot (R324). -/
inductive ZState where
  | free | reserved | arrived | orphaned
  deriving DecidableEq, Repr, Inhabited

/-- A slot of a zone with its holder (R336). -/
structure ZSlot where
  st : ZState := .free
  holder : Site := {}
  deriving DecidableEq, Repr, Inhabited

/-- A landing zone (R323, R336). -/
structure Zone where
  isOpen : Bool := false
  cnt : BitVec 7 := 0
  lsz : BitVec 4 := 0
  base : BitVec 19 := 0
  mask : BitVec 10 := 0
  accept : BitVec 10 := 0
  bar : BitVec 19 := 0
  slots : List ZSlot := []
  deriving DecidableEq, Repr, Inhabited

/-- An entry of the tag table (R235). -/
structure TagEntry where
  valid : Bool := false
  key : W64 := 0
  val : BitVec 32 := 0
  deriving DecidableEq, Repr, Inhabited



/-- The latched planes: whose selection they hold, and the bytes of the tile (R175, R180); `bad` are the numbers of the bytes
that were uncorrectable. -/
structure Latch where
  thr : Nat
  sel : W64
  num : Nat
  bytes : List Byte
  bad : List Nat
  deriving DecidableEq, Repr

/-- A mismatch that the next instruction of verify mode will meet: the element group, and whether its retry meets it too (R349). -/
structure Flaw where
  group : Nat
  again : Bool
  deriving DecidableEq, Repr

/-- A store to the host window that has left and of which no failure is known yet (R224). -/
structure Posted where
  thr : Nat
  pc : W64
  seq : W64
  ea : W64
  deriving DecidableEq, Repr

/-- A core (R9, R54, R265, R335). -/
structure Core where
  threads : Vector Thread 4 := Vector.replicate 4 {}
  helpers : Vector Helper 2 := Vector.replicate 2 {}
  corecfg : W64 := 0
  mire : List MireRec := []
  nextRec : Nat := 0
  sp : List Host.Cell := []
  live : List Nat := []
  pois : List Nat := []
  ts : List Host.Cell := []
  tsBad : List Nat := []
  latched : Option Latch := none
  pipeA : List PipeEntry := []
  pipeM : List PipeEntry := []
  pipeX : List PipeEntry := []
  copyQ : List Pend := []
  /-- Commands in the landing zone unit: `lzres`, `lzput`, `lzclean` (R265). -/
  units : List Pend := []
  nextCmd : Nat := 0
  zones : Vector Zone 16 := Vector.replicate 16 {}
  tagTab : NMap TagEntry := []
  tlb : NMap TlbEntry := []
  icache : NMap (BitVec 32) := []
  gcur : Option Nat := none
  grun : Nat := 0
  glast : Nat := 5
  wait : Vector Nat 6 := Vector.replicate 6 0
  sinceHelper : Nat := 7
  frame : Nat := 0
  frameDuty : Nat := 64
  cyc : W64 := 0
  cycn : W64 := 0
  cycnFrac : Nat := 0
  evt : Vector W64 16 := Vector.replicate 16 0
  suspect : Bool := false
  flaws : List Flaw := []
  /-- Verify mode is in effect (R347). -/
  verify : Bool := false
  /-- Posted stores, oldest first. -/
  posted : List Posted := []
  staging : List (Nat × List Byte) := []
  deriving DecidableEq, Repr

/-! ## Pavilions, partitions, the package -/

/-- An eligible node, or a saved task that may resume, in a dispatcher queue (R297 to R299). -/
inductive DEntry where
  | fresh (part inst node : Nat)
  | resume (part slot : Nat)
  deriving DecidableEq, Repr

/-- A tender class record (R300). -/
structure ClassRec where
  valid : Bool := false
  win : Nat := 0
  wbias : Nat := 0
  whop : Nat := 0
  wq : Nat := 0
  wres : Nat := 0
  cfeat : BitVec 16 := 0
  deriving DecidableEq, Repr, Inhabited

/-- Where a tender stands (R301 to R303). -/
inductive TenderPhase where
  | bidding (closes : Nat)
  | awarded (core : Nat)
  | again (due : Nat)
  deriving DecidableEq, Repr

/-- The tender a home dispatcher has in flight (R301). -/
structure Tender where
  serial : Nat
  part : Nat
  inst : Nat
  node : Nat
  cls : ClassRec
  bids : List Bid
  phase : TenderPhase
  deriving DecidableEq, Repr

/-- A pavilion (R12, R20, R209 to R211, R297 to R303). -/
structure Pav where
  part : Option Nat := none
  /-- While the scrub runs: the partition it is for, and the assignments queued behind it. -/
  scrub : Option (Option Nat) := none
  queued : List (Option Nat) := []
  disp : Vector (List DEntry) 4 := Vector.replicate 4 []
  passed : Vector Nat 4 := Vector.replicate 4 0
  tender : Option Tender := none
  serial : Nat := 0
  rot : Nat := 0
  classes : Vector ClassRec 16 := Vector.replicate 16 {}
  tlb : NMap TlbEntry := []
  deriving DecidableEq, Repr

/-- An island (R11, R358): its frequency code; the end of its relock window with the frequency it brings; a held write. -/
structure Isle where
  freq : Nat := 15
  relock : Option Nat := none
  next : Nat := 15
  held : Option Nat := none
  /-- Messages that wait in the crossing FIFO of its edge, oldest first. -/
  edge : List Instr := []
  deriving DecidableEq, Repr, Inhabited

/-- A launch queue (R265, R293). -/
structure LQueue where
  enabled : Bool := false
  prio : Nat := 0
  recs : List (List Byte) := []
  overflow : Nat := 0
  /-- In 2^-16 nJ (R354). -/
  energy : BitVec 80 := 0
  deriving DecidableEq, Repr, Inhabited

/-- A tile buffer of an instance (R289, R295). -/
structure Buf where
  full : Bool
  wr : Bool := false
  rd : Nat := 0
  gen : BitVec 32 := 0
  size : Nat
  loc1 : Bool
  addr : W64
  site : Site
  deriving DecidableEq, Repr, Inhabited

/-- Where a node stands in its instance (R295 to R297). -/
inductive NodeState where
  | pending | eligible | placed | retired
  deriving DecidableEq, Repr, Inhabited

/-- A node of an instance (R290). -/
structure Node where
  code : W64
  feat : BitVec 16
  tend : Bool
  cls : Nat
  pin : Site
  prio : Nat
  mov : Bool
  seed : W64
  hent : W64
  ins : List Nat
  outs : List Nat
  st : NodeState := .pending
  /-- Tenders announced for it (R303). -/
  announced : Nat := 0
  /-- Its no-eligible-core record is posted (R299). -/
  noCore : Bool := false
  /-- The task thread of its pin's core that it pre-empts (R298). -/
  victim : Option Nat := none
  deriving DecidableEq, Repr, Inhabited

/-- The gang side of an instance (R304, R305). -/
structure Gang where
  gid : Nat
  members : List Nat
  idx : Nat
  prepared : Bool := true
  /-- The leader has sent its prepare. -/
  asked : Bool := false
  acked : Bool := false
  committed : Bool := false
  acks : List Nat := []
  deadline : Option Nat := none
  deriving DecidableEq, Repr, Inhabited

/-- A live graph instance (R291 to R296). -/
structure Inst where
  id : Nat
  queue : Nat
  qprio : Nat
  home : Nat
  caddr : W64
  cval : W64
  nodes : List Node
  bufs : List Buf
  gang : Option Gang := none
  aborted : Bool := false
  deriving DecidableEq, Repr, Inhabited

/-- A fault record (R341), its TIME and IDENT included. -/
structure FRec where
  cls : BitVec 8 := 0
  code : BitVec 8 := 0
  flags : BitVec 8 := 0
  aux : BitVec 32 := 0
  pc : W64 := 0
  seq : W64 := 0
  elem : BitVec 16 := 0xFFFF
  addr : W64 := 0
  ident : W64 := 0
  aux2 : W64 := 0
  time : W64 := 0
  deriving DecidableEq, Repr, Inhabited

/-- Who waits on a page request (R259, R260). -/
inductive PageWaiter where
  | thread (t : ThreadName)
  | cmd (core id : Nat)
  deriving DecidableEq, Repr

/-- An open page request (R259). -/
structure PageReq where
  page : Nat
  waiters : List PageWaiter
  deriving DecidableEq, Repr

/-- Why a saved task may not be dispatched yet (R259, R277, R333, R344). -/
inductive SavedWait where
  | none
  | page (page : Nat) (ea : W64)
  /-- A precise stop that the host is to resume or end. -/
  | host
  | svc
  /-- Suspended by the host until its release. -/
  | release
  /-- Frozen for a dump (R350). -/
  | frozen
  /-- Ends when its fatal record has entered the fault queue (R268). -/
  | ending (who : BitVec 26)
  deriving DecidableEq, Repr

/-- A save slot in use (R280 to R284); its context is the slot's bytes in HBM. -/
structure Saved where
  task : Task
  home : Nat
  wait : SavedWait
  /-- A precise stop after which the thread resumes at PC + 12 (R344). -/
  after : Bool := false
  /-- The fault slots with their references (log 16, DESIGN CHOICE). -/
  slots : Vector (Option Slot) 8 := Vector.replicate 8 none
  outRes : Nat := 0
  /-- The commands of the slot's records, by their numbers (R283). -/
  copies : List Nat := []
  /-- Its no-eligible-core record is posted (R299, R349). -/
  noCore : Bool := false
  sel : W64 := 0
  selNum : Nat := 0
  rowStops : List W64 := []
  /-- A breakpoint hit while the task was away: it stops at its restore (R373). -/
  brk : Bool := false
  brkSkip : Bool := false
  /-- What of a nest and of pending bindings the layout of R281 does not hold: the end of the body and the index register. -/
  bodyEnd : PC := 0
  idxReg : Reg := 0
  binds : Vector (Option Bind) 4 := Vector.replicate 4 none
  deriving DecidableEq, Repr

/-- The dump engine (R350 to R353). -/
structure Dump where
  base : Nat := 0
  len : Nat := 0
  armed : Bool := false
  /-- Contexts frozen for the dump, in order, each with its fault record (none for a host request). -/
  frozen : List (ThreadName × Option FRec) := []
  nsec : Nat := 0
  second : Option FRec := none
  deriving DecidableEq, Repr, Inhabited

/-- A breakpoint hit (R373). -/
structure BrkHit where
  num : Nat
  who : BitVec 26
  pc : W64
  seq : W64
  deriving DecidableEq, Repr

/-- The trace unit (R365, R372). -/
structure Trace where
  ctl : W64 := 160
  stat : W64 := 0
  base : W64 := 0
  size : W64 := 0
  wr : W64 := 0
  rd : W64 := 0
  /-- The cached translation: the number of the 64 KiB page and the frames of its 4 KiB pages (R372). -/
  xl : Option (Nat × List Nat) := none
  lost : W64 := 0
  nextSample : Nat := 0
  /-- A sample that is being latched: its tick and the partition's record, and the records of the cores that have latched (R367). -/
  taking : Option (W64 × List Byte) := none
  latched : List (Nat × List Byte) := []
  deriving DecidableEq, Repr

/-- A partition (R12, R253, R265, R354). Energies are in 2^-16 nJ (R354). -/
structure Part where
  root : W64 := 0
  queues : Vector LQueue 64 := Vector.replicate 64 {}
  insts : List Inst := []
  nextInst : Nat := 0
  fq : List FRec := []
  fqWait : List FRec := []
  fqLost : Nat := 0
  pageReqs : List PageReq := []
  saveBase : W64 := 0
  saveCnt : W64 := 0
  saved : NMap Saved := []
  order : Nat := 0
  cap : Nat := 0
  duty : Nat := 64
  power : Nat := 0
  energy : BitVec 80 := 0
  /-- Energy charged since the governor's last evaluation. -/
  windowEnergy : Nat := 0
  /-- REFT of the governor's next evaluation (R363). -/
  nextEval : Nat := 0
  /-- Verify mode as the host has set it (R347). -/
  verify : Bool := false
  dump : Dump := {}
  trace : Trace := {}
  brk : Vector Brk 8 := Vector.replicate 8 {}
  brkStat : Option BrkHit := none
  lshare : W64 := 0x444
  /-- What the host has written through the aperture since the partition's last launch (R34). -/
  hostWrote : List (Loc × Nat) := []
  libEntry : Option PC := none
  deriving DecidableEq, Repr

/-- A virtual function (R380, R381): its aperture base, and the fabric identifier of its partition (R384). -/
structure VFn where
  apbase : W64 := 0
  fabric : Nat := 0
  deriving DecidableEq, Repr, Inhabited

/-- Link states (R384). -/
inductive LinkState where
  | down | up | failed
  deriving DecidableEq, Repr, Inhabited

/-- A message that left the chip over a peer link (R304, R325 to R328). -/
inductive PeerMsg where
  | req (q : ResReq)
  | ans (q : ResAns)
  | land (q : Land)
  | ack (q : Ack)
  | prepare (q : GangMsg)
  | gangAck (q : GangMsg)
  | commit (q : GangMsg)
  | abort (q : GangMsg)
  deriving DecidableEq, Repr

/-- An answer the Lodge gave through a mailbox (R378). -/
structure SpdmAns where
  fn : Nat
  code : Nat
  body : List Byte
  sig : Option (List Byte)
  deriving DecidableEq, Repr

/-- What left through the host link (R208, R380). -/
inductive HostTx where
  | write (pa : Nat) (bytes : List Byte) (ep : Bool)
  | read (part : Nat) (bytes : List Byte) (ep : Bool)
  /-- An AtomicOp whose operand is poisoned, with EP set and undefined data (R208, R222). -/
  | atomic (pa : Nat) (bytes : List Byte)
  | completerAbort (part : Nat)
  /-- An invalidation of the host is complete (R264). -/
  | invalidated (part : Nat)
  deriving DecidableEq, Repr

/-- The Lodge (R375 to R378). -/
structure Lodge where
  stage : Nat := 0
  reason : Nat := 0
  unit : Nat := 0xFF
  fails : Nat := 0
  min : Bool := false
  ready : Bool := false
  /-- A start is under way. -/
  starting : Bool := false
  /-- The host has asked that the next start runs in full mode (R377). -/
  full : Bool := false
  /-- The host has installed a record or images since the part came up (R377). -/
  installed : Bool := false
  record : Option ConfigRecord := none
  recordNew : Option ConfigRecord := none
  images : List (List Byte) := []
  /-- The signatures of the images and of the installed record verify. -/
  signed : Bool := true
  recordSigned : Bool := true
  meas : NMap (List Byte) := []
  answers : List SpdmAns := []
  deriving DecidableEq, Repr

/-- Which context an instruction runs in: thread 0 to 3 or helper 4, 5 of a core. -/
structure Ctx where
  core : Nat
  ctx : Nat
  deriving DecidableEq, Repr

/-- The machine. -/
structure State where
  /-- Steps that come from outside, oldest first (log 6, DESIGN CHOICE). -/
  agenda : List Instr := []
  /-- Messages on their way inside the package, oldest first (log 6, DESIGN CHOICE). -/
  net : List Instr := []
  /-- The context and, in a lane step, the pipe entry that runs now (log 8, DEDUCED). -/
  cur : Option Ctx := none
  lane : Option PipeEntry := none
  /-- Steps taken; the index of free choices (log 6, DESIGN CHOICE). -/
  clock : Nat := 0
  /-- Steps that have been possible without being taken, with the number of times another was (R21; log 6, DESIGN CHOICE). -/
  passedOver : List (Instr × Nat) := []
  /-- Free values drawn (log 5, DESIGN CHOICE). -/
  free : Nat := 0
  reft : W64 := 0
  /-- How far each die's copy of REFT is behind the host die's, and how far it falls behind in all (R359; log 10, DESIGN CHOICE). -/
  skew : Vector Nat 8 := Vector.replicate 8 0
  skewTo : Vector Nat 8 := Vector.replicate 8 0
  refOn : Bool := false
  lodge : Lodge := {}
  chip : BitVec 10 := 0
  vfs : Nat := 0
  fns : NMap VFn := []
  /-- The host has enabled Link IDE (R379). -/
  linkIde : Bool := false
  links : Vector LinkState 18 := Vector.replicate 18 .down
  routes : NMap (BitVec 18) := []
  /-- Chips whose route has failed and whose mask the host has not rewritten since (R384). -/
  deadRoutes : List Nat := []
  hbm : List Host.Cell := []
  hbmPois : List Nat := []
  host : List Host.Cell := []
  hostTx : List HostTx := []
  peerTx : List PeerMsg := []
  cores : NMap Core := []
  pavs : NMap Pav := []
  isles : NMap Isle := []
  parts : NMap Part := []
  patrolD : Nat := 12
  patrolNext : Nat := 12
  patrolPos : Nat := 0
  patrolStart : Nat := 0
  errlog : List Nat := []
  corrected : W64 := 0
  deriving DecidableEq, Repr

/-- The package right after reset: nothing has started, no partition exists, and the memories list nothing (R54, R201,
R210, R375, R376). -/
def State.reset : State := {}

/-- Why a step has no next state. -/
inductive Fault where
  /-- An instruction was executed while no context of any core runs one: raised by every meaning of an instruction when
  `State.cur` is `none`. Safe: the machine never executes an instruction outside a context. -/
  | noContext
  deriving DecidableEq, Repr

/-- Why an instruction has no meaning. -/
inductive Refusal where
  /-- Not modelled: raised only by an arm of `exec` that has no meaning yet. Safe. -/
  | notModelled (mnemonic : String)
  deriving DecidableEq, Repr

end Sys2Proof.Machine
end

