-- ==== Sys2Proof/Machine/Base.lean ====
section
/-! DEFINITION. Tables, memories in their canonical form, bit fields, and the accessors of the state's parts. -/

namespace Sys2Proof.Machine
open Sys2Proof

/-! ## Tables by number -/

/-- The entry of a number. -/
def mapGet {α : Type} : NMap α → Nat → Option α
  | [], _ => none
  | (k, v) :: r, n => if k = n then some v else mapGet r n

/-- Set an entry, keeping the numbers rising. -/
def mapSet {α : Type} : NMap α → Nat → α → NMap α
  | [], n, v => [(n, v)]
  | (k, w) :: r, n, v => if n < k then (n, v) :: (k, w) :: r else if k = n then (n, v) :: r else (k, w) :: mapSet r n v

/-- Remove an entry. -/
def mapDel {α : Type} (m : NMap α) (n : Nat) : NMap α := m.filter fun e => e.1 != n

/-! ## Sets of numbers, rising -/

def setIns : List Nat → Nat → List Nat
  | [], n => [n]
  | k :: r, n => if n < k then n :: k :: r else if k = n then k :: r else k :: setIns r n

def setDel (l : List Nat) (n : Nat) : List Nat := l.filter (· != n)

/-! ## Memories

A memory lists (address, byte) pairs with the addresses strictly rising and no byte equal to what an unlisted address
reads as. -/

/-- What an unlisted address reads as: 0 (R54 and R210 for the scratchpads and tile stores; DESIGN CHOICE, log entries 2 and 3 for HBM and
host memory). -/
def Memory.unlisted : Byte := 0

/-- Read one byte. -/
def Memory.get : List Host.Cell → Nat → Byte
  | [], _ => Memory.unlisted
  | (k, v) :: r, a => if k = a then v else Memory.get r a

/-- Write one byte; writing what an unlisted address reads as removes the entry. -/
def Memory.set : List Host.Cell → Nat → Byte → List Host.Cell
  | [], a, b => if b = Memory.unlisted then [] else [(a, b)]
  | (k, v) :: r, a, b =>
    if a < k then (if b = Memory.unlisted then (k, v) :: r else (a, b) :: (k, v) :: r)
    else if k = a then (if b = Memory.unlisted then r else (a, b) :: r)
    else (k, v) :: Memory.set r a b

/-- An address is above a bound, if there is one. -/
def Memory.above : Option Nat → Nat → Bool
  | none, _ => true
  | some l, k => decide (l < k)

/-- Addresses above `lo` strictly rising, no entry with the unlisted byte. -/
def Memory.wfFrom : Option Nat → List Host.Cell → Bool
  | _, [] => true
  | lo, (k, v) :: r => Memory.above lo k && v != Memory.unlisted && Memory.wfFrom (some k) r

/-- The canonical form. -/
def Memory.wf (m : List Host.Cell) : Bool := Memory.wfFrom none m

/-- Read `n` bytes from `a` upward. -/
def Memory.read (m : List Host.Cell) (a n : Nat) : List Byte := (List.range n).map fun k => Memory.get m (a + k)

/-- Write bytes from `a` upward. -/
def Memory.write (m : List Host.Cell) (a : Nat) : List Byte → List Host.Cell
  | [] => m
  | b :: r => Memory.write (Memory.set m a b) (a + 1) r

/-! ## Little-endian numbers (R7) -/

/-- The number in a list of bytes, the least significant first. -/
def leNat : List Byte → Nat
  | [] => 0
  | b :: r => b.toNat + 256 * leNat r

/-- The `n` low bytes of a number, the least significant first. -/
def natLe : Nat → Nat → List Byte
  | 0, _ => []
  | n + 1, v => BitVec.ofNat 8 v :: natLe n (v / 256)

/-- Bytes `lo` to `lo + n - 1` of a list, as a number. -/
def leAt (bs : List Byte) (lo n : Nat) : Nat := leNat ((bs.drop lo).take n)

/-- Bits `lo` to `lo + n - 1` of a number. -/
def bits (v lo n : Nat) : Nat := v / 2 ^ lo % 2 ^ n

/-- Is bit `k` of a number set? -/
def bit (v k : Nat) : Bool := v / 2 ^ k % 2 == 1

/-- Ceiling division. -/
def ceilDiv (a b : Nat) : Nat := (a + b - 1) / b

/-- The integer that `n` bits of a number stand for in two's complement. -/
def toSigned (n v : Nat) : Int := if v % 2 ^ n < 2 ^ (n - 1) then (v % 2 ^ n : Int) else (v % 2 ^ n : Int) - 2 ^ n

/-- An integer in `n` bits, two's complement. -/
def ofSigned (n : Nat) (i : Int) : Nat := (i % (2 ^ n : Int)).toNat

/-! ## Sites and cores (R8 to R12, R40) -/

/-- Pavilion number of a core. -/
def pavOf (core : Nat) : Nat := core / 144
/-- Site index of a core in its pavilion. -/
def siteOf (core : Nat) : Nat := core % 144

end Sys2Proof.Machine

namespace Sys2Proof

/-- The core a site word names, on the chip itself. -/
def Site.core (x : Site) : Nat := 144 * (4 * x.die.toNat + x.pav.toNat) + 12 * x.row.toNat + x.col.toNat

/-- ROW and COL are each 0 to 11 (R42, R43). -/
def Site.inGrid (x : Site) : Bool := decide (x.row.toNat < 12) && decide (x.col.toNat < 12)

/-- The 23 bits of a site word (R40). -/
def Site.toNat (x : Site) : Nat :=
  x.chip.toNat * 2 ^ 13 + x.die.toNat * 2 ^ 10 + x.pav.toNat * 2 ^ 8 + x.row.toNat * 2 ^ 4 + x.col.toNat

/-- The site word in a number. -/
def Site.ofNat (n : Nat) : Site :=
  ⟨BitVec.ofNat 10 (n / 2 ^ 13), BitVec.ofNat 3 (n / 2 ^ 10), BitVec.ofNat 2 (n / 2 ^ 8), BitVec.ofNat 4 (n / 16), BitVec.ofNat 4 n⟩

/-- The site word of a core of the chip `chip`. -/
def Site.ofCore (chip : BitVec 10) (core : Nat) : Site :=
  ⟨chip, BitVec.ofNat 3 (core / 144 / 4), BitVec.ofNat 2 (core / 144), BitVec.ofNat 4 (core % 144 / 12), BitVec.ofNat 4 (core % 144 % 12)⟩

end Sys2Proof

namespace Sys2Proof.Machine
open Sys2Proof

/-! ## Parts of the state -/

namespace State

def core (s : State) (k : Nat) : Core := (mapGet s.cores k).getD {}
def setCore (s : State) (k : Nat) (c : Core) : State := { s with cores := mapSet s.cores k c }
def part (s : State) (p : Nat) : Part := (mapGet s.parts p).getD {}
def setPart (s : State) (p : Nat) (v : Part) : State := { s with parts := mapSet s.parts p v }
def pav (s : State) (k : Nat) : Pav := (mapGet s.pavs k).getD {}
def setPav (s : State) (k : Nat) (v : Pav) : State := { s with pavs := mapSet s.pavs k v }
def isle (s : State) (k : Nat) : Isle := (mapGet s.isles k).getD {}
def setIsle (s : State) (k : Nat) (v : Isle) : State := { s with isles := mapSet s.isles k v }

/-- A task thread context. -/
def thread (s : State) (k t : Nat) : Thread := (s.core k).threads.getD t {}
def setThread (s : State) (k t : Nat) (v : Thread) : State :=
  let c := s.core k
  s.setCore k { c with threads := c.threads.setIfInBounds t v }
/-- A helper context, 0 for context 4 and 1 for context 5. -/
def helper (s : State) (k h : Nat) : Helper := (s.core k).helpers.getD h {}
def setHelper (s : State) (k h : Nat) (v : Helper) : State :=
  let c := s.core k
  s.setCore k { c with helpers := c.helpers.setIfInBounds h v }

def modCore (s : State) (k : Nat) (f : Core → Core) : State := s.setCore k (f (s.core k))
def modPart (s : State) (k : Nat) (f : Part → Part) : State := s.setPart k (f (s.part k))
def modPav (s : State) (k : Nat) (f : Pav → Pav) : State := s.setPav k (f (s.pav k))
def modThread (s : State) (k t : Nat) (f : Thread → Thread) : State := s.setThread k t (f (s.thread k t))
def modHelper (s : State) (k h : Nat) (f : Helper → Helper) : State := s.setHelper k h (f (s.helper k h))

/-- The partition a core belongs to. -/
def partOf (s : State) (core : Nat) : Option Nat := (s.pav (pavOf core)).part

/-- The record in force says a core's site is enabled (R10, R338). -/
def enabled (s : State) (core : Nat) : Bool :=
  match s.lodge.record with
  | none => false
  | some r => match mapGet r.enabled (pavOf core) with
    | none => false
    | some m => m.getLsbD (siteOf core)

/-- FEATMASK of a core (R49): the bits that the record in force does not withdraw are 1; BASE, VEC, VMEM and TASK before any record (log 1,
DESIGN CHOICE). -/
def featmask (s : State) (core : Nat) : BitVec 16 :=
  match s.lodge.record with
  | none => 0x4109
  | some r => (mapGet r.feat core).getD 0xFFFF

/-- REFT of the die of a core (R359). -/
def reftAt (s : State) (core : Nat) : W64 := s.reft - BitVec.ofNat 64 (s.skew.getD (pavOf core / 4) 0)

/-- A context's identity (R77); `thr` 7 names the core (R341). -/
def thid (s : State) (core thr : Nat) : W64 :=
  BitVec.ofNat 64 ((s.partOf core).getD 0 * 2 ^ 32 + s.chip.toNat * 2 ^ 16 + (pavOf core / 4 % 8) * 2 ^ 13
    + (pavOf core % 4) * 2 ^ 11 + (siteOf core / 12) * 2 ^ 7 + (siteOf core % 12) * 2 ^ 3 + thr)

/-- The WHO bits of a context (R366). -/
def who (s : State) (core thr : Nat) : BitVec 26 := (s.thid core thr).setWidth 26

/-- A virtual function; it is enabled when its number is below the count (R380). -/
def fn (s : State) (n : Nat) : VFn := (mapGet s.fns n).getD {}
def modFn (s : State) (n : Nat) (f : VFn → VFn) : State := { s with fns := mapSet s.fns n (f (s.fn n)) }
def fnOn (s : State) (n : Nat) : Bool := decide (n < s.vfs)

/-- The partition exists, and the host reaches it through its virtual function (R380). -/
def reaches (s : State) (p : Nat) : Bool := (mapGet s.parts p).isSome && s.fnOn p

/-- The fabric identifier of a partition (R384). -/
def fabricOf (s : State) (p : Nat) : Nat := (s.fn p).fabric

/-- The pavilions of a partition in ascending order: their rank is their place in this list (R41). -/
def pavsOf (s : State) (p : Nat) : List Nat := (s.pavs.filter fun e => e.2.part == some p).map (·.1)

/-- The enabled sites of a pavilion in ascending order (R41). -/
def sitesOf (s : State) (pav : Nat) : List Nat := (List.range 144).filter fun x => s.enabled (144 * pav + x)

/-- The cores of a partition. -/
def coresOf (s : State) (p : Nat) : List Nat := (s.pavsOf p).flatMap fun v => (s.sitesOf v).map (144 * v + ·)

/-- A free value of `w` bits: an undefined value of R5 (log 5, DESIGN CHOICE). -/
def drawFree (s : State) (w : Nat) : BitVec w × State := (Config.freeBits w s.free, { s with free := s.free + 1 })

end State

/-- The island of a core: 16 islands of 8 enabled cores in a pavilion, in ascending site order (R11); a site that is not enabled
belongs to none (R10). -/
def isleOf (s : State) (core : Nat) : Option Nat :=
  if s.enabled core then some (16 * pavOf core + ((List.range (siteOf core)).filter fun x => s.enabled (144 * pavOf core + x)).length / 8)
  else none

/-- The island of a core, for a site that has one. -/
def State.isleAt (s : State) (core : Nat) : Isle := ((isleOf s core).map s.isle).getD {}

/-! ## Vector register words -/

/-- Word `k` of register `r`. -/
def Thread.word (t : Thread) (r k : Nat) : VWord := (t.v.getD r (Vector.replicate 128 {})).getD k {}

/-- Replace word `k` of register `r`. -/
def Thread.setWord (t : Thread) (r k : Nat) (w : VWord) : Thread :=
  { t with v := t.v.setIfInBounds r ((t.v.getD r (Vector.replicate 128 {})).setIfInBounds k w) }

/-- The presence of half-slot `h` of register `r` (R62). -/
def Thread.halfPres (t : Thread) (r h : Nat) : Presence :=
  Presence.ofCode ((t.word r (h / 4)).pres.extractLsb' (2 * (h % 4)) 2)

/-- The presence that a read of half-slot `h` for an active element finds: an uncorrectable error in its word is poison (R63). -/
def Thread.readPres (t : Thread) (r h : Nat) : Presence :=
  if t.errs.any fun e => e.1 == r && e.2.1 == h / 2 then .pois else t.halfPres r h

/-- Bits `lo` to `lo + w - 1` of register `r`, inside one word. -/
def Thread.fieldBits (t : Thread) (r lo w : Nat) : Nat := bits (t.word r (lo / 64)).bits.toNat (lo % 64) w

/-- A mask bit. -/
def maskBit (m : Mask) (i : Nat) : Bool := (m.getD (i / 64) 0).getLsbD (i % 64)

/-- Set a mask bit to a value. -/
def setMaskBit (m : Mask) (i : Nat) (b : Bool) : Mask :=
  let w := m.getD (i / 64) 0
  let o := (1#64) <<< (i % 64)
  m.setIfInBounds (i / 64) (if b then w ||| o else w &&& ~~~o)

/-- A predicate (R65): p0 reads 1. -/
def predBit (p : BitVec 8) (k : PReg) : Bool := k == 0 || p.getLsbD k.toNat

/-- Write a predicate; a write to p0 is discarded (R65). -/
def setPred (p : BitVec 8) (k : PReg) (b : Bool) : BitVec 8 :=
  if k == 0 then p else
    let o := (1#8) <<< k.toNat
    if b then p ||| o else p &&& ~~~o

end Sys2Proof.Machine
end

