-- ==== Sys2Proof/Machine/Mem.lean ====
section
/-! DEFINITION. The address map (R205, R206), translation (R252 to R264), and reads and writes of bytes with their poison
(R208). -/

namespace Sys2Proof.Machine
open Sys2Proof

/-! ## The address map (R205) -/

/-- Where an effective address lies. -/
inductive Window where
  | global (va : Nat)
  | sp (core off : Nat)
  | ts (off : Nat)
  | none
  deriving DecidableEq, Repr

/-- Scratchpad size, tile store size (R201). -/
def spSize : Nat := 0x80000
def tsSize : Nat := 0x400000

/-- The window of an effective address for the core `core` (R205); a pavilion window of a site that is not enabled, or of a
pavilion that is scrubbing for another use, is none (R10, R211). -/
def window (s : State) (core : Nat) (ea : W64) : Window :=
  let a := ea.toNat
  if a < 2 ^ 55 then .global a
  else if 0xFF000000000000 ≤ a ∧ a < 0xFF000000000000 + spSize then .sp core (a - 0xFF000000000000)
  else if 0xFF010000000000 ≤ a ∧ a < 0xFF010000000000 + 144 * 2 ^ 20 then
    let x := a - 0xFF010000000000
    let site := x / 2 ^ 20
    let k := 144 * pavOf core + site
    if x % 2 ^ 20 < spSize ∧ s.enabled k then .sp k (x % 2 ^ 20) else .none
  else if 0xFF020000000000 ≤ a ∧ a < 0xFF020000000000 + tsSize then .ts (a - 0xFF020000000000)
  else .none

/-! ## Page tables (R252 to R256) -/

/-- What an access needs (R256). -/
inductive Access where
  | read | write | amo | fetch
  deriving DecidableEq, Repr

/-- Access kinds of a page request record (R343). -/
def Access.kindCode : Access → Nat
  | .read => 0 | .write | .amo => 1 | .fetch => 2

/-- The end of a walk. -/
inductive Walk where
  | leaf (e : TlbEntry)
  | missing
  | bad (level : Nat)
  deriving DecidableEq, Repr

/-- The byte address of HBM's end (R206). -/
def hbmEnd : Nat := 0x9000000000

/-- A page address that exists: HBM, unless the part runs in minimal mode, or the host window (R206, R377). -/
def paExists (s : State) (pa : Nat) : Bool := decide (2 ^ 51 ≤ pa) || (decide (pa < hbmEnd) && !s.lodge.min)

/-- Index of a virtual address at a level (R252). -/
def vaIndex (va level : Nat) : Nat := if level = 4 then bits va 48 7 else bits va (12 + 9 * level) 9

/-- The 64-byte line of HBM that holds an address is poisoned. -/
def linePoisoned (s : State) (pa : Nat) : Bool := s.hbmPois.contains (pa / 64)

/-- Read an entry of a table; `none` when its line is poisoned (R255). -/
def readEntry (s : State) (pa : Nat) : Option Nat :=
  if linePoisoned s pa then none else some (leNat (Memory.read s.hbm pa 8))

/-- PFN of an entry, as a byte address. -/
def pfn (e : Nat) : Nat := bits e 12 40 * 4096

/-- The 16 entries of a contiguous group agree (R254). -/
def contOk (s : State) (table va e : Nat) : Bool :=
  let first := vaIndex va 0 / 16 * 16
  let base := pfn e - (vaIndex va 0 - first) * 4096
  base % 65536 == 0 && (List.range 16).all fun k =>
    match readEntry s (table + 8 * (first + k)) with
    | none => false
    | some g => bit g 0 && bit g 1 && bit g 5 && bits g 2 3 == bits e 2 3 && pfn g == base + 4096 * k && bits g 6 6 == 0

/-- Walk from the table at `table` at `level` (R252, R254, R255). -/
def walkFrom (s : State) (va : Nat) : (level : Nat) → (table : Nat) → Walk
  | 0, table =>
    match readEntry s (table + 8 * vaIndex va 0) with
    | none => .bad 0
    | some e =>
      if !bit e 0 then .missing
      else if bits e 6 6 != 0 || !bit e 1 || (bit e 3 && !bit e 2) || !paExists s (pfn e) then .bad 0
      else if bit e 5 && !contOk s table va e then .bad 0
      else .leaf ⟨pfn e, bit e 2, bit e 3, bit e 4, if bit e 5 then 16 else 1⟩
  | l + 1, table =>
    match readEntry s (table + 8 * vaIndex va (l + 1)) with
    | none => .bad (l + 1)
    | some e =>
      if !bit e 0 then .missing
      else if bits e 6 6 != 0 || bit e 5 then .bad (l + 1)
      else if bit e 1 then
        let size := 4096 * 512 ^ (l + 1)
        if 2 ≤ l || pfn e % size != 0 || (bit e 3 && !bit e 2) || !paExists s (pfn e) then .bad (l + 1)
        else .leaf ⟨pfn e + va % size / 4096 * 4096, bit e 2, bit e 3, bit e 4, 512 ^ (l + 1)⟩
      else if (bit e 3 && !bit e 2) || hbmEnd ≤ pfn e then .bad (l + 1)
      else walkFrom s va l (pfn e)

/-- The walk of a partition's tables (R252, R253). Level 4 is reported where no entry was read (log 12, DEDUCED). -/
def walk (s : State) (part va : Nat) : Walk :=
  let root := (s.part part).root.toNat
  if !bit root 0 then .bad 4
  else
    let t := bits root 12 40 * 4096
    if hbmEnd ≤ t then .bad 4 else walkFrom s va 4 t

/-! ## TLBs (R257, R263) -/

/-- The number of a leaf in a TLB: four times its first page, and a code for its size, so that leaves of two sizes may lie there at
once. -/
def TlbEntry.key (e : TlbEntry) (page : Nat) : Nat :=
  4 * (page / e.span * e.span) + (if e.span = 1 then 0 else if e.span = 16 then 1 else if e.span = 512 then 2 else 3)

/-- A leaf listed under `key` maps a page of `lo` to `hi`. -/
def TlbEntry.covers (e : TlbEntry) (key lo hi : Nat) : Bool := decide (lo < key / 4 + e.span) && decide (key / 4 ≤ hi)

/-- What a TLB holds for a page: its leaves over it, with the page's own frame. -/
def tlbHits (t : NMap TlbEntry) (page : Nat) : List TlbEntry :=
  (t.filter fun e => e.2.covers e.1 page page).map fun e => { e.2 with frame := e.2.frame + 4096 * (page - e.1 / 4) }

/-- Add the leaf that maps a page, dropping another entry of a full TLB (R257: a TLB may drop an entry at any time). -/
def tlbFill (cap : Nat) (t : NMap TlbEntry) (page : Nat) (e : TlbEntry) : NMap TlbEntry :=
  let k := e.key page
  let t' := mapSet t k { e with frame := e.frame - 4096 * (page % e.span) }
  if cap < t'.length then mapDel t' ((t'.map (·.1)).find? (· != k) |>.getD k) else t'

/-- The leaf an access uses: the walk's, or a cached one that differs from it, which the access may still use (log 12, DEDUCED). -/
def leafFor (s : State) (core part va : Nat) : Walk :=
  let w := walk s part va
  match (tlbHits (s.core core).tlb (va / 4096) ++ tlbHits (s.pav (pavOf core)).tlb (va / 4096)).find? fun e => w != .leaf e with
  | none => w
  | some e => if Config.useOld s.clock (va / 4096) then .leaf e else w

/-- Cache the leaf an access used (R257). -/
def noteLeaf (s : State) (core va : Nat) (e : TlbEntry) : State :=
  let s := s.modCore core fun c => { c with tlb := tlbFill 64 c.tlb (va / 4096) e }
  s.modPav (pavOf core) fun p => { p with tlb := tlbFill 4096 p.tlb (va / 4096) e }

/-- A walker may walk ahead of need and fill the TLBs of a core, without a fault or a request (R257): whether it does, and where, is
free (log 12, DEDUCED). -/
def walkAhead (s : State) : State :=
  if s.parts.any fun (e : Nat × Part) => e.2.root.getLsbD 0 then
    match Config.walkAhead s.clock with
    | none => s
    | some (core, page) => match s.partOf core with
      | none => s
      | some p => match walk s p (4096 * page) with
        | .leaf e => noteLeaf s core (4096 * page) e
        | _ => s
  else s

/-- Permission of a leaf for an access (R256). -/
def TlbEntry.allows (e : TlbEntry) : Access → Bool
  | .read => e.r
  | .write => e.w
  | .amo => e.r && e.w
  | .fetch => e.x && decide (e.frame < 2 ^ 51)

/-- Drop every cached translation that covers a byte of the pages `lo` to `hi` in every TLB of a partition (R262, R264). -/
def tlbDrop (s : State) (part lo hi : Nat) : State :=
  let keep : NMap TlbEntry → NMap TlbEntry := fun t => t.filter fun e => !e.2.covers e.1 lo hi
  { s with
    cores := s.cores.map fun e => if (s.pav (pavOf e.1)).part == some part then (e.1, { e.2 with tlb := keep e.2.tlb }) else e
    pavs := s.pavs.map fun e => if e.2.part == some part then (e.1, { e.2 with tlb := keep e.2.tlb }) else e }

/-! ## Locations -/



/-- Why an access has no location. -/
inductive AccErr where
  | address
  | permission
  | table (level : Nat)
  | missing (page : Nat)
  deriving DecidableEq, Repr

/-- The location of a byte for an access of a core (R205, R252 to R256). -/
def locate (s : State) (core : Nat) (kind : Access) (ea : W64) : Except AccErr (Loc × Option TlbEntry) :=
  match window s core ea with
  | .none => .error .address
  | .sp k off => .ok (.sp k off, none)
  | .ts off => .ok (.ts core off, none)
  | .global va =>
    match s.partOf core with
    | none => .error (.table 4)
    | some p =>
      match leafFor s core p va with
      | .missing => .error (.missing (va / 4096))
      | .bad l => .error (.table l)
      | .leaf e =>
        if e.allows kind then
          let pa := e.frame + va % 4096
          .ok (if 2 ^ 51 ≤ pa then .host (pa - 2 ^ 51) else .hbm pa, some e)
        else .error .permission

/-- Cache the translation a located access used. -/
def noteLocated (s : State) (core : Nat) (ea : W64) (e : Option TlbEntry) : State :=
  match e with
  | none => s
  | some l => noteLeaf s core ea.toNat l

/-- The page of an address that a core reads, and the leaf that its access uses. -/
def usedLeaf (s : State) (core : Nat) (ea : W64) : Option (Nat × TlbEntry) :=
  match locate s core .read ea with
  | .ok (_, some e) => some (ea.toNat / 4096, e)
  | _ => none

/-- The location `n` bytes further in the same page or window. -/
def Loc.add : Loc → Nat → Loc
  | .sp k o, n => .sp k (o + n)
  | .ts k o, n => .ts k (o + n)
  | .hbm p, n => .hbm (p + n)
  | .host p, n => .host (p + n)

/-! ## Bytes and poison (R208) -/

/-- Read `n` bytes, and whether any of their granules is poisoned. -/
def readLoc (s : State) (l : Loc) (n : Nat) : List Byte × Bool :=
  match l with
  | .sp k o =>
    let c := s.core k
    (Memory.read c.sp o n, (List.range n).any fun i => c.pois.contains ((o + i) / 8))
  | .ts k o =>
    let c := s.core k
    (Memory.read c.ts o n, (List.range n).any fun i => c.tsBad.contains ((o + i) / 8))
  | .hbm p => (Memory.read s.hbm p n, (List.range n).any fun i => linePoisoned s (p + i))
  | .host p => (Memory.read s.host p n, false)

/-- The granules of `g` bytes that `n` bytes from `o` touch. -/
def granules (g o n : Nat) : List Nat := if n = 0 then [] else (List.range ((o + n - 1) / g - o / g + 1)).map (o / g + ·)

/-- A granule lies wholly inside `n` bytes from `o`. -/
def covered (g o n k : Nat) : Bool := decide (o ≤ g * k) && decide (g * k + g ≤ o + n)

/-- The poison set after a write: poisoned data poisons every granule it touches, other data clears the granules it covers
whole (R208). -/
def poisAfter (g : Nat) (set : List Nat) (o n : Nat) (poison : Bool) : List Nat :=
  (granules g o n).foldl (fun acc k => if poison then setIns acc k else if covered g o n k then setDel acc k else acc) set

/-- Write bytes of one write, poisoned or not. A write to host memory of poisoned data leaves as a TLP with EP set, whose bytes are
undefined (R5, R208). -/
def writeLoc (s : State) (l : Loc) (bs : List Byte) (poison : Bool) : State :=
  let n := bs.length
  match l with
  | .sp k o => s.modCore k fun c => { c with sp := Memory.write c.sp o bs, pois := poisAfter 8 c.pois o n poison }
  | .ts k o => s.modCore k fun c => { c with ts := Memory.write c.ts o bs, tsBad := poisAfter 8 c.tsBad o n poison }
  | .hbm p => { s with hbm := Memory.write s.hbm p bs, hbmPois := poisAfter 64 s.hbmPois p n poison }
  | .host p =>
    if poison then
      let f := s.drawFree (8 * n)
      { f.2 with hostTx := f.2.hostTx ++ [.write p (natLe n f.1.toNat) true] }
    else { s with host := Memory.write s.host p bs }

/-- A live barrier word lies among the bytes (R204). -/
def touchesLive (s : State) (l : Loc) (n : Nat) : Bool :=
  match l with
  | .sp k o => (granules 8 o n).any fun w => (s.core k).live.contains w
  | _ => false

end Sys2Proof.Machine
end

