-- ==== Sys2Proof/Machine/Ops.lean ====
section
/-! DEFINITION. The shared operations: records and queues, the end of commands, instances and threads, taking an exception
and returning from one, scalar operands, and the frame every instruction runs in (R28, R29, R33). -/

namespace Sys2Proof.Machine
open Sys2Proof

/-! ## Outcomes of a meaning -/

abbrev Out := Host.Outcome State Fault Refusal

/-- How a meaning ends before its instruction completes: with a state (a fault taken, or a wait entered), not issued at all, or
parked in its pipe at an element (R126, R158, R159). -/
inductive Stop where
  | ends (s : State)
  | retry
  | parks (s : State) (start : Nat) (why : LaneWait)

/-- A meaning: a state transformer that may stop. -/
abbrev M := StateT State (Except Stop)

/-- Stop with a state. -/
def endWith {α : Type} (s : State) : M α := fun _ => .error (.ends s)

/-- The instruction does not issue: nothing changes and it is tried again (R103, R270). -/
def notIssued {α : Type} : M α := fun _ => .error .retry

/-- The instruction waits inside the lanes and goes on at element `start` (R126, R159). -/
def park {α : Type} (start : Nat) (why : LaneWait) : M α := fun s => .error (.parks s start why)

/-! ## What stays when younger work is discarded (R128) -/

/-- Flags that a vector instruction or a fill merges into ISTAT (R69). -/
def Thread.mergeFlags (t : Thread) (f : W64) : Thread :=
  { t with istat := t.istat ||| f, undos := t.undos.map fun u => { u with istat := u.istat ||| f } }

/-- A vector instruction or a fill sets PMK bit `i` (R74). -/
def Thread.markPmk (t : Thread) (i : Nat) : Thread :=
  { t with pmk := setMaskBit t.pmk i true, undos := t.undos.map fun u => { u with pmk := setMaskBit u.pmk i true } }

/-! ## Contexts -/

/-- Is the context a helper? -/
def Ctx.isHelper (x : Ctx) : Bool := decide (4 ≤ x.ctx)

namespace State

/-- The context that runs; context 0 of core 0 when there is none (every meaning has checked that there is one). -/
def at' (s : State) : Ctx := s.cur.getD ⟨0, 0⟩

def pcAt (s : State) (x : Ctx) : PC := if x.isHelper then (s.helper x.core (x.ctx - 4)).pc else (s.thread x.core x.ctx).pc
def setPcAt (s : State) (x : Ctx) (pc : PC) : State :=
  if x.isHelper then s.modHelper x.core (x.ctx - 4) fun h => { h with pc := pc }
  else s.modThread x.core x.ctx fun t => { t with pc := pc }
def predsAt (s : State) (x : Ctx) : BitVec 8 := if x.isHelper then (s.helper x.core (x.ctx - 4)).p else (s.thread x.core x.ctx).p
def setPredsAt (s : State) (x : Ctx) (p : BitVec 8) : State :=
  if x.isHelper then s.modHelper x.core (x.ctx - 4) fun h => { h with p := p }
  else s.modThread x.core x.ctx fun t => { t with p := p }
def fctlAt (s : State) (x : Ctx) : W64 := if x.isHelper then (s.helper x.core (x.ctx - 4)).fctl else (s.thread x.core x.ctx).fctl
def istatAt (s : State) (x : Ctx) : W64 := if x.isHelper then (s.helper x.core (x.ctx - 4)).istat else (s.thread x.core x.ctx).istat
def setIstatAt (s : State) (x : Ctx) (v : W64) : State :=
  if x.isHelper then s.modHelper x.core (x.ctx - 4) fun h => { h with istat := v }
  else s.modThread x.core x.ctx fun t => { t with istat := v }
def nestAt (s : State) (x : Ctx) : Option Nest := if x.isHelper then (s.helper x.core (x.ctx - 4)).nest else (s.thread x.core x.ctx).nest
def setNestAt (s : State) (x : Ctx) (n : Option Nest) : State :=
  if x.isHelper then s.modHelper x.core (x.ctx - 4) fun h => { h with nest := n }
  else s.modThread x.core x.ctx fun t => { t with nest := n }
def bindsAt (s : State) (x : Ctx) : Vector (Option Bind) 4 := if x.isHelper then (s.helper x.core (x.ctx - 4)).binds else (s.thread x.core x.ctx).binds
def setBindsAt (s : State) (x : Ctx) (b : Vector (Option Bind) 4) : State :=
  if x.isHelper then s.modHelper x.core (x.ctx - 4) fun h => { h with binds := b }
  else s.modThread x.core x.ctx fun t => { t with binds := b }

/-- Raise sticky flags (R69). What an instruction in the lanes raises stays when younger work is discarded (R128). -/
def raiseFlags (s : State) (x : Ctx) (f : W64) : State :=
  if x.isHelper || s.lane.isNone then s.setIstatAt x (s.istatAt x ||| f)
  else s.modThread x.core x.ctx fun t => t.mergeFlags f

/-- Pipe queues of a core. -/
def pipe (s : State) (k : Nat) : Pipe → List PipeEntry
  | .a => (s.core k).pipeA
  | .m => (s.core k).pipeM
  | .x => (s.core k).pipeX
def setPipe (s : State) (k : Nat) (q : Pipe) (l : List PipeEntry) : State :=
  s.modCore k fun c => match q with
    | .a => { c with pipeA := l }
    | .m => { c with pipeM := l }
    | .x => { c with pipeX := l }

/-- An instruction of the thread is in some pipe. -/
def inPipe (s : State) (k t : Nat) : Bool :=
  let c := s.core k
  c.pipeA.any (·.thr == t) || c.pipeM.any (·.thr == t) || c.pipeX.any (·.thr == t)

/-- A thread's instructions that are in the pipes. -/
def entries (s : State) (k t : Nat) : List PipeEntry :=
  let c := s.core k
  (c.pipeA ++ c.pipeM ++ c.pipeX).filter (·.thr == t)

/-- An instruction of the thread that is older than number `num` is in some pipe. -/
def hasElder (s : State) (k t num : Nat) : Bool := (s.entries k t).any fun e => decide (e.num < num)

/-- Remove a thread's instructions from number `num` on from every pipe (R128). -/
def flushPipes (s : State) (k t num : Nat) : State :=
  let keep (e : PipeEntry) : Bool := e.thr != t || decide (e.num < num)
  s.modCore k fun c => { c with pipeA := c.pipeA.filter keep, pipeM := c.pipeM.filter keep, pipeX := c.pipeX.filter keep }

end State

/-! ## Elements, slots and records (R62, R155, R162, R167) -/

/-- The Mire record that will fill the element covering half-slot `h` of register `r` of a thread, if it is still the
element's youngest writer. -/
def Core.recAt (c : Core) (thr r h : Nat) : Option MireRec :=
  c.mire.find? fun e => e.thr == thr && e.reg.toNat == r && !e.superseded && !e.dead && e.half ≤ h && h < e.half + e.width

/-- The fault slot of a FAULTED half-slot. -/
def Thread.slotAt (t : Thread) (r h : Nat) : Option Nat :=
  (List.range 8).find? fun k => match t.slots.getD k none with
    | none => false
    | some sl => sl.refs.any fun e => e.1.toNat == r && decide (e.2.1 ≤ h) && decide (h < e.2.1 + e.2.2)

/-- A write of whole 32-bit words clears the errors in them (R63). -/
def Thread.clearErrs (t : Thread) (whole : Nat → Nat → Bool) : Thread := { t with errs := t.errs.filter fun e => !whole e.1 e.2.1 }

/-- A write of `n` half-slots from `h` of register `r` clears the errors of the words that lie in them whole (R63). -/
def Thread.clearElem (t : Thread) (r h n : Nat) : Thread :=
  t.clearErrs fun q w => q == r && decide (h ≤ 2 * w) && decide (2 * w + 2 ≤ h + n)

/-- Set the presence code of a half-slot. -/
def Thread.setHalf (t : Thread) (r h : Nat) (p : Presence) : Thread :=
  let w := t.word r (h / 4)
  let k := 2 * (h % 4)
  t.setWord r (h / 4) { w with pres := (w.pres &&& ~~~((3#8) <<< k)) ||| ((p.code.setWidth 8) <<< k) }

/-- Set the presence codes of `n` half-slots from `h`. -/
def Thread.setHalves (t : Thread) (r h n : Nat) (p : Presence) : Thread :=
  (List.range n).foldl (fun t k => t.setHalf r (h + k) p) t

/-- Set bits `lo` to `lo + w - 1` of a register, inside one word. -/
def Thread.setBits (t : Thread) (r lo w v : Nat) : Thread :=
  let x := t.word r (lo / 64)
  let m : W64 := BitVec.ofNat 64 ((2 ^ w - 1) * 2 ^ (lo % 64))
  t.setWord r (lo / 64) { x with bits := (x.bits &&& ~~~m) ||| (BitVec.ofNat 64 (v % 2 ^ w * 2 ^ (lo % 64))) }

/-- Take a whole PENDING or FAULTED element that half-slot `h` belongs to out of that state (R162): its record is
superseded or its slot reference dropped; every half-slot of it becomes PRESENT; the bits of a PENDING element are
undefined. -/
def Core.release (c : Core) (thr r h free : Nat) : Core × Nat :=
  let t := c.threads.getD thr {}
  match t.halfPres r h with
  | .pend =>
    match c.recAt thr r h with
    | none => (c, free)
    | some e =>
      let t := t.setHalves r e.half e.width .pres
      let t := t.setBits r (16 * e.half) (16 * e.width) (Config.freeBits 64 free).toNat
      ({ c with
          threads := c.threads.setIfInBounds thr t
          mire := c.mire.map fun x => if x.id = e.id then { x with superseded := true } else x }, free + 1)
  | .flt =>
    match t.slotAt r h with
    | none => (c, free)
    | some k =>
      match t.slots.getD k none with
      | none => (c, free)
      | some sl =>
        match sl.refs.find? fun e => e.1.toNat == r && decide (e.2.1 ≤ h) && decide (h < e.2.1 + e.2.2) with
        | none => (c, free)
        | some e =>
          let t := t.setHalves r e.2.1 e.2.2 .pres
          let t := { t with slots := t.slots.setIfInBounds k (some { sl with refs := sl.refs.filter (· != e) }) }
          ({ c with threads := c.threads.setIfInBounds thr t }, free)
  | _ => (c, free)

/-- Raise HWM for bytes up to `ext` of register `r` (R71). -/
def hwmRaise (h : W64) (r ext : Nat) : W64 :=
  let v := h.toNat
  BitVec.ofNat 64 (2 ^ 17 + max (bits v 6 11) ext * 64 + max (bits v 0 6) r)

/-- A write raises HWM, which never decreases: a raise stays when the write is discarded (R71, R128). -/
def Thread.raiseHwm (t : Thread) (r ext : Nat) : Thread := { t with hwm := hwmRaise t.hwm r ext }

/-! ## What run-ahead may have to undo (R126, R128, R360) -/

/-- The control registers an instruction works with. -/
def Thread.ctl (t : Thread) : VCtl := ⟨t.vl, t.vtype, t.fctl, t.vstart⟩

/-- Give the thread the control registers `c`. -/
def Thread.withCtl (t : Thread) (c : VCtl) : Thread := { t with vl := c.vl, vtype := c.vtype, fctl := c.fctl, vstart := c.vstart }

/-- Open the record of what goes if instruction `num`, which issues now, stops (R128). -/
def Thread.openUndo (t : Thread) (num : Nat) : Thread :=
  { t with undos := t.undos ++ [{ num := num, p := t.p, nest := t.nest, binds := t.binds, pmk := t.pmk, istat := t.istat, hentry := t.hentry, ctl := t.ctl }] }

/-- A scalar write past them overwrites the low word of register `r`. -/
def Undo.noteLow (u : Undo) (r : Nat) (w : VWord) : Undo :=
  match mapGet u.lows r with
  | some _ => u
  | none => { u with lows := mapSet u.lows r w }

/-- An instruction has retired past every instruction of `l`; it counts once the youngest of them has passed (R126, R360). -/
def retirePast : List Undo → List Undo
  | [] => []
  | [u] => [{ u with past := u.past + 1, done := u.done + 1 }]
  | u :: r => { u with past := u.past + 1 } :: retirePast r

/-- An instruction of the thread retires: INSTRET counts it, at once when nothing can discard it (R360). -/
def Thread.retire (t : Thread) : Thread :=
  match t.undos with
  | [] => { t with instret := t.instret + 1 }
  | l => { t with undos := retirePast l }

/-- Instruction `num` has passed its fault points (R126). -/
def Thread.passed (t : Thread) (num : Nat) : Thread :=
  match t.undos.find? (·.num == num) with
  | none => t
  | some u => { t with undos := t.undos.filter (·.num != num), instret := t.instret + BitVec.ofNat 64 u.done }

/-- The thread goes back to the instruction `e`: what younger instructions changed is discarded (R128). -/
def Thread.rollback (t : Thread) (e : PipeEntry) : Thread :=
  match t.undos.find? (·.num == e.num) with
  | none => { t with pc := e.pc, owed := false }
  | some u =>
    let back := u.lows.foldl (fun (t : Thread) (w : Nat × VWord) => t.setWord w.1 0 w.2) t
    { back.withCtl u.ctl with
      p := u.p
      nest := u.nest
      binds := u.binds
      pmk := u.pmk
      istat := u.istat
      hentry := u.hentry
      pc := e.pc
      owed := false
      undos := t.undos.filter fun v => decide (v.num < e.num) }

namespace State

/-- Take the elements covering `n` half-slots from `h` out of PENDING and FAULTED; nothing when all are PRESENT. -/
def releaseHalves (s : State) (k thr r h n : Nat) : State :=
  (List.range n).foldl (fun s i =>
    match (s.thread k thr).halfPres r (h + i) with
    | .pres | .pois => s
    | _ =>
      let p := (s.core k).release thr r (h + i) s.free
      { s.setCore k p.1 with free := p.2 }) s

/-- Write an element of 16 bits or more whole, with its presence (R155, R162). -/
def writeWide (s : State) (k thr r lo w v : Nat) (p : Presence) : State :=
  let s := s.releaseHalves k thr r (lo / 16) (w / 16)
  s.modThread k thr fun t =>
    ((t.setBits r lo w v).setHalves r (lo / 16) (w / 16) p).raiseHwm r (lo / 8 + w / 8)

/-- The low word of a register, as a scalar. -/
def low (s : State) (k thr : Nat) (r : Reg) : W64 := ((s.thread k thr).word r.toNat 0).bits

/-- Remember what a scalar write past waiting vector instructions overwrites (R128). -/
def noteLow (s : State) (k thr : Nat) (r : Reg) : State :=
  if s.lane.isSome then s
  else s.modThread k thr fun t => { t with undos := t.undos.map fun u => u.noteLow r.toNat (t.word r.toNat 0) }

/-- Write scalar register `r` of a context, PRESENT or POISONED in a task thread (R57, R104). -/
def writeScalar (s : State) (x : Ctx) (r : Reg) (v : W64) (poison : Bool) : State :=
  if x.isHelper then s.modHelper x.core (x.ctx - 4) fun h => { h with s := h.s.setIfInBounds r.toNat v }
  else
    let s := (s.noteLow x.core x.ctx r).releaseHalves x.core x.ctx r.toNat 0 4
    s.modThread x.core x.ctx fun t =>
      let t := ((t.setWord r.toNat 0 ⟨v, if poison then 0xFF else 0⟩).raiseHwm r.toNat 8).clearErrs fun q w => q == r.toNat && decide (w < 2)
      if !poison then t
      else if s.lane.isSome then t.markPmk 0
      else { t with pmk := setMaskBit t.pmk 0 true }

/-- The bits of a scalar register of a context. -/
def scalar (s : State) (x : Ctx) (r : Reg) : W64 :=
  if x.isHelper then (s.helper x.core (x.ctx - 4)).s.getD r.toNat 0 else s.low x.core x.ctx r

/-- The presence that a scalar read sees (R103): PENDING before FAULTED before POISONED, an error in the register's low words among
the last (R63). -/
def scalarPres (s : State) (x : Ctx) (r : Reg) : Presence :=
  if x.isHelper then .pres
  else
    let t := s.thread x.core x.ctx
    let p := (t.word r.toNat 0).pres
    let bad := t.errs.any fun e => e.1 == r.toNat && decide (e.2.1 < 2)
    if p = 0 then if bad then .pois else .pres
    else
      let l := (List.range 4).map fun i => Presence.ofCode (p.extractLsb' (2 * i) 2)
      if l.contains .pend then .pend else if l.contains .flt then .flt else .pois

end State

/-! ## The fault queue (R267, R268, R341) -/

/-- Enter a record: one that stops a thread or waits for the host keeps waiting for room, another is counted as lost (R268). -/
def post (s : State) (part : Nat) (waits : Bool) (r : FRec) : State :=
  s.modPart part fun p =>
    if p.fq.length < 256 ∧ p.fqWait.isEmpty then { p with fq := p.fq ++ [r] }
    else if waits then { p with fqWait := p.fqWait ++ [r] }
    else { p with fqLost := p.fqLost + 1 }

/-- What a cause of a record says (R341, R343). -/
structure Cause where
  cls : Nat
  code : Nat
  aux : Nat := 0
  aux2 : W64 := 0
  elem : Nat := 0xFFFF
  addr : W64 := 0
  seq : W64 := 0
  deriving DecidableEq, Repr, Inhabited

/-- The SEQ of a record of a thread's instruction: that of the last command the thread pushed (R366; log 19, DEDUCED). -/
def Cause.ofThread (c : Cause) (t : Thread) : Cause := { c with seq := if c.seq = 0 then t.seq else c.seq }

/-- The kinds of R343. -/
inductive Kind where
  | precise | fatal | async
  deriving DecidableEq, Repr

/-- The record of a cause at `pc` for an identity. -/
def Cause.record (c : Cause) (s : State) (ident : W64) (pc : W64) (k : Kind) (suspect : Bool) : FRec where
  cls := BitVec.ofNat 8 c.cls
  code := BitVec.ofNat 8 c.code
  flags := (match k with | .precise => 1 | .fatal => 2 | .async => 4) ||| (if suspect then 8 else 0)
  aux := BitVec.ofNat 32 c.aux
  pc := pc
  seq := c.seq
  elem := BitVec.ofNat 16 c.elem
  addr := c.addr
  ident := ident
  aux2 := c.aux2
  time := s.reft

/-- A record for a partition without a context. -/
def partIdent (part : Nat) : W64 := BitVec.ofNat 64 (part * 2 ^ 32)

/-- Enter an asynchronous record of a core. -/
def postCore (s : State) (core : Nat) (thr : Nat) (pc : W64) (c : Cause) : State :=
  match s.partOf core with
  | none => s
  | some p => post s p false (c.record s (s.thid core thr) pc .async false)

/-- A store. One to the host window is posted, and its failure may be reported later (R224); one that leaves with EP set enters a
host-poison record (R208). -/
def storeAt (s : State) (core thr : Nat) (pc : W64) (ea : W64) (l : Loc) (bs : List Byte) (poison : Bool) : State :=
  let s := writeLoc s l bs poison
  match l with
  | .host _ =>
    let seq := if thr < 4 then (s.thread core thr).seq else 0
    let s := s.modCore core fun c => { c with posted := c.posted ++ [⟨thr, pc, seq, ea⟩] }
    if poison then postCore s core thr pc { cls := 5, code := 3, addr := ea, seq := seq } else s
  | _ => s

/-! ## Save slots (R280, R281) -/

/-- The byte address of a field of a save slot. -/
def slotAddr (s : State) (part slot off : Nat) : Nat := (s.part part).saveBase.toNat + 131072 * slot + off

/-- A 64-bit field of a save slot. -/
def slotField (s : State) (part slot off : Nat) : Nat := leNat (Memory.read s.hbm (slotAddr s part slot off) 8)

/-- Write bytes of a save slot, untranslated. -/
def slotWrite (s : State) (part slot off : Nat) (bs : List Byte) : State := writeLoc s (.hbm (slotAddr s part slot off)) bs false

/-! ## The end of engine commands (R73, R279, R315, R319) -/

/-- Commands of an owner that are outstanding on a tag. -/
def tagBusy (s : State) (o : ThreadName) (tag : BitVec 6) : Bool :=
  (s.cores.any fun (e : Nat × Core) => (e.2.copyQ ++ e.2.units).any fun p => p.owner == o && p.cmd.tag == some tag) ||
    (match o with
      | .live k t => (s.thread k t).fifo.any fun p => p.tag == some tag
      | .saved _ _ => false)

/-- Set TAGS and CERR of an owner for a command that completed on `tag` (R73), in the live registers or the save area (R279). -/
def noteTag (s : State) (o : ThreadName) (tag : BitVec 6) (err : Bool) : State :=
  let done := !tagBusy s o tag
  let b : W64 := 1#64 <<< tag.toNat
  match o with
  | .live k t => s.modThread k t fun th => { th with
      tags := if done then th.tags ||| b else th.tags
      cerr := if err then th.cerr ||| b else th.cerr }
  | .saved p sl =>
    let s := if done then slotWrite s p sl 0x48 (natLe 8 (slotField s p sl 0x48 ||| b.toNat)) else s
    if err then slotWrite s p sl 0x50 (natLe 8 (slotField s p sl 0x50 ||| b.toNat)) else s

/-- Put an output into an owner's output FIFO, which has reserved its entry (R266, R279). -/
def giveOutput (s : State) (o : ThreadName) (seq v : W64) : State :=
  match o with
  | .live k t => s.modThread k t fun th => { th with outs := th.outs ++ [(v, seq)], outRes := th.outRes - 1 }
  | .saved p sl =>
    let info := slotField s p sl 0
    let n := bits info 16 5
    let s := slotWrite s p sl (0xD00 + 16 * n) (natLe 8 v.toNat ++ natLe 8 seq.toNat)
    let s := slotWrite s p sl 0 (natLe 8 (info + 2 ^ 16))
    s.modPart p fun q => match mapGet q.saved sl with
      | none => q
      | some x => { q with saved := mapSet q.saved sl { x with outRes := x.outRes - 1 } }

/-- Remove a command from its core's queues. -/
def dropPend (s : State) (core id : Nat) : State :=
  s.modCore core fun c => { c with copyQ := c.copyQ.filter (·.id != id), units := c.units.filter (·.id != id) }

/-- The thread number of an owner, 7 when it is saved. -/
def ownerThr : ThreadName → Nat
  | .live _ t => t
  | .saved _ _ => 7

/-- The context filter of a breakpoint lets a context pass; `care` are the WHO bits that are known (R373, log 20, DESIGN CHOICE). -/
def brkPasses (b : Brk) (who care : BitVec 26) : Bool := (who ^^^ b.who) &&& b.whoMask &&& care == 0

/-- A breakpoint hit: the status holds it for the host to read (R373; log 20, DESIGN CHOICE: the latest hit). -/
def brkNote (s : State) (part : Nat) (hit : BrkHit) : State := s.modPart part fun q => { q with brkStat := some hit }

/-- A stop request of the host (R276, CAUSE 4): two requests give one save (R277), and one that comes while the thread stops for a page
is kept until that save or the page. -/
def askStop (s : State) (k t : Nat) : State :=
  s.modThread k t fun th => if th.stop.isNone then { th with stop := some 4 } else if th.stop = some 2 then { th with asked := true } else th

/-- A breakpoint of kind Command hits when the command it names completes: its thread stops at its next instruction boundary,
or at its restore when it is saved (R373). -/
def brkCommand (s : State) (core : Nat) (p : Pend) : State :=
  let q := s.part p.part
  let who := s.who core (ownerThr p.owner)
  let care : BitVec 26 := match p.owner with
    | .live _ _ => BitVec.allOnes 26
    | .saved _ _ => 0x3FFFFF8
  match (List.range 8).find? fun i =>
      let b := q.brk.getD i {}
      b.kind == .cmd && b.val == p.cmd.seq && b.aux == p.cmd.pc.setWidth 64 && brkPasses b who care with
  | none => s
  | some i =>
    let s := brkNote s p.part ⟨i, who, p.cmd.pc.setWidth 64, p.cmd.seq⟩
    match p.owner with
    | .live k t => askStop s k t
    | .saved pp sl => s.modPart pp fun r => match mapGet r.saved sl with
      | none => r
      | some x => { r with saved := mapSet r.saved sl { x with brk := true } }

/-- A command completes without error. -/
def complete (s : State) (core : Nat) (p : Pend) : State :=
  let s := brkCommand (dropPend s core p.id) core p
  match p.cmd.tag with
  | none => s
  | some t => noteTag s p.owner t false

/-- A command completes with an error: CERR, and an engine-error record with the cause and the first failing segment (R319). -/
def completeErr (s : State) (core : Nat) (p : Pend) (cause seg : Nat) : State :=
  let s := brkCommand (dropPend s core p.id) core p
  let s := match p.cmd.tag with
    | none => s
    | some t => noteTag s p.owner t true
  let c : Cause := { cls := 7, code := 1, aux := cause, aux2 := BitVec.ofNat 64 seg, seq := p.cmd.seq }
  post s p.part false (c.record s (s.thid core (ownerThr p.owner)) (p.cmd.pc.setWidth 64) .async false)

/-! ## The end of threads and instances (R173, R294, R296) -/

/-- A fatal fault of the owner discards its records unfilled; one that a helper holds stays until the helper releases it (R173). -/
def dropRecords (s : State) (k thr : Nat) : State :=
  s.modCore k fun c => { c with
    mire := (c.mire.filter fun e => e.thr != thr || e.taken).map fun e => if e.thr == thr then { e with dead := true } else e }

/-- End every command of an owner that has not completed, with cause 0x0B (R319); `core` is the core whose FIFO it pushes to. -/
def endCommands (s : State) (core : Nat) (o : ThreadName) (part inst queue : Nat) : State :=
  let s := s.cores.foldl (fun s (e : Nat × Core) =>
    (e.2.copyQ ++ e.2.units).foldl (fun s p => if p.owner == o then completeErr s e.1 p 0x0B p.segs else s) s) s
  match o with
  | .live k t =>
    let f := (s.thread k t).fifo
    let s := s.modThread k t fun th => { th with fifo := [] }
    f.foldl (fun s cmd => completeErr s core { id := cmd.num, cmd := cmd, owner := o, part := part, inst := inst, queue := queue, done := 0, segs := 0, phase := .run } 0x0B 0) s
  | .saved _ _ => s

/-- A context that holds no task. Its INSTRET and latched CYCN fraction belong to the context (R354, R355). -/
def Thread.emptied (t : Thread) : Thread := { ({} : Thread) with instret := t.instret, cycnf := t.cycnf }

/-- Wait of a task context counts from the start or the restore of its task (R271). -/
def State.resetWait (s : State) (core thr : Nat) : State := s.modCore core fun c => { c with wait := c.wait.setIfInBounds thr 0 }

/-- The task of a context has retired or has been saved: the context is free, and a GTO run that it held is over (R287). -/
def State.vacate (s : State) (core thr : Nat) : State :=
  (s.modThread core thr Thread.emptied).modCore core fun c => { c with gcur := if c.gcur = some thr then none else c.gcur }

/-- Take a thread out of the page requests it waits on. -/
def unwaitPage (s : State) (part : Nat) (w : PageWaiter) : State :=
  s.modPart part fun p => { p with pageReqs := p.pageReqs.map fun r => { r with waiters := r.waiters.filter (· != w) } }

/-- End a live thread as after a fatal fault: records, commands and selection go, and the context becomes free (R294). -/
def endThread (s : State) (k t : Nat) : State :=
  match (s.thread k t).task with
  | none => s
  | some tk =>
    let s := (dropRecords s k t).flushPipes k t 0
    let s := endCommands s k (.live k t) tk.part tk.inst tk.queue
    (unwaitPage s tk.part (.thread (.live k t))).vacate k t

/-- End a saved task (R294). -/
def endSaved (s : State) (part sl : Nat) (x : Saved) : State :=
  let s := endCommands s x.home (.saved part sl) x.task.part x.task.inst x.task.queue
  let s := unwaitPage s part (.thread (.saved part sl))
  s.modPart part fun p => { p with saved := mapDel p.saved sl }

/-- Translate one address of a partition without a TLB, for the front end, the trace unit and the aperture. -/
def locatePart (s : State) (part : Nat) (kind : Access) (va : W64) : Except AccErr Loc :=
  if 2 ^ 55 ≤ va.toNat then .error .address
  else match walk s part va.toNat with
    | .missing => .error (.missing (va.toNat / 4096))
    | .bad l => .error (.table l)
    | .leaf e =>
      if e.allows kind then
        let pa := e.frame + va.toNat % 4096
        .ok (if 2 ^ 51 ≤ pa then .host (pa - 2 ^ 51) else .hbm pa)
      else .error .permission

/-- The completion write of an instance (R294): the status, then CVAL; a record when CADDR does not translate. -/
def completionWrite (s : State) (part : Nat) (caddr cval : W64) (status : Nat) : State :=
  match locatePart s part .write caddr with
  | .ok l => writeLoc (writeLoc s l (natLe 8 status) false) (l.add 8) (natLe 8 cval.toNat) false
  | .error _ =>
    let c : Cause := { cls := 6, code := 0x0A, aux := status, aux2 := caddr }
    post s part false (c.record s (partIdent part) 0 .async false)

/-- The instance of the partition that a context's task belongs to. -/
def instOfName (s : State) (part : Nat) : ThreadName → Option Nat
  | .live k t => ((s.thread k t).task.filter fun x => x.part == part).map (·.inst)
  | .saved p sl => ((mapGet (s.part p).saved sl).filter fun _ => p == part).map fun (x : Saved) => x.task.inst

/-- A context is in the partition's dump. -/
def inDump (s : State) (part : Nat) (who : ThreadName) : Bool := (s.part part).dump.frozen.any fun e => e.1 == who

/-- Whether any context of an instance is in a dump, or frozen for one: the instance ends only when the dump ends (R350). -/
def hasFrozen (s : State) (part inst : Nat) : Bool :=
  ((s.part part).dump.frozen.any fun e => instOfName s part e.1 == some inst) ||
  (s.cores.any fun e => e.2.threads.any fun t => t.st == .frozen && (t.task.map fun x => (x.part, x.inst)) == some (part, inst))
    || (s.part part).saved.any fun (e : Nat × Saved) => e.2.wait == .frozen && e.2.task.inst == inst

/-- Remove an instance's entries from a dispatcher. -/
def Pav.without (p : Pav) (q : DEntry → Bool) (part inst : Nat) : Pav :=
  { p with
    disp := p.disp.map fun l => l.filter fun e => !q e
    tender := match p.tender with
      | none => none
      | some t => if t.part = part ∧ t.inst = inst then none else some t }

/-- Abort an instance (R294): its other tasks end, nothing more is dispatched, its buffers go, and the completion is
written with the status. -/
def endInstance (s : State) (part inst status : Nat) : State :=
  match (s.part part).insts.find? (·.id == inst) with
  | none => s
  | some g =>
    let s := s.cores.foldl (fun s (e : Nat × Core) => (List.range 4).foldl (fun s t =>
      match (s.thread e.1 t).task with
      | none => s
      | some x => if x.part = part ∧ x.inst = inst ∧ (s.thread e.1 t).st ≠ .frozen then endThread s e.1 t else s) s) s
    let mine : List (Nat × Saved) := (s.part part).saved.filter fun e => e.2.task.inst == inst
    let s := mine.foldl (fun s e => endSaved s part e.1 e.2) s
    let gone : DEntry → Bool := fun e => match e with
      | .fresh p i _ => p == part && i == inst
      | .resume p sl => p == part && mine.any (fun (m : Nat × Saved) => m.1 == sl)
    let s := { s with pavs := s.pavs.map fun (e : Nat × Pav) => (e.1, e.2.without gone part inst) }
    let s := s.modPart part fun p => { p with insts := p.insts.filter (·.id != inst) }
    completionWrite s part g.caddr g.cval status

/-- An instance that is to be aborted while a context of it is frozen for a dump: nothing more is dispatched for it (R294), and it
ends with the dump (R350). -/
def deferAbort (s : State) (part inst : Nat) : State :=
  let mine : DEntry → Bool := fun e => match e with
    | .fresh p i _ => p == part && i == inst
    | .resume p sl => p == part && ((mapGet (s.part part).saved sl).map fun (x : Saved) => x.task.inst) == some inst
  let s := { s with pavs := s.pavs.map fun (e : Nat × Pav) => (e.1, e.2.without mine part inst) }
  s.modPart part fun p => { p with insts := p.insts.map fun i => if i.id = inst then { i with aborted := true } else i }

/-- Abort an instance (R294); while a context of it is frozen for a dump, its end waits (R350). -/
def abortInstance (s : State) (part inst : Nat) : State :=
  if hasFrozen s part inst then deferAbort s part inst else endInstance s part inst 1

/-- Stop at the instruction that runs in the lanes: younger instructions of its thread are discarded (R128), and VSTART is what the
instruction has left in it (R70). -/
def discardYounger (s : State) (x : Ctx) : State :=
  match s.lane with
  | none => s
  | some e =>
    let s := (s.flushPipes x.core x.ctx e.num).modThread x.core x.ctx fun t => { t.rollback e with vstart := t.vstart }
    { s with lane := none }

/-! ## Hole records that end without a fill (R161, R166) -/

/-- Canonical NaN or 0 of a destination format code, as a hole's placeholder (R166). -/
def placeholder (fd : BitVec 6) : Nat :=
  if fd = 0x00 then 0x7FC00000 else if fd = 0x01 then 0x7FC0 else if fd = 0x02 then 0x7E00 else 0

/-- The records that take their operands from record `id`, directly or through others, in push order (R166). -/
def descendants (mire : List MireRec) (id : Nat) : List Nat :=
  mire.foldl (fun acc e =>
    let from' : MOpnd → Bool := fun o => match o with
      | .link j _ _ _ _ => j == id || acc.contains j
      | _ => false
    if from' e.a || from' e.b || from' e.c then acc ++ [e.id] else acc) []

/-- Write an element that stays the record's to write (R162): its bits and presence, without superseding anything. -/
def putRaw (s : State) (k : Nat) (e : MireRec) (v : Nat) (p : Presence) : State :=
  if e.superseded then s
  else s.modThread k e.thr fun t =>
    ((t.setBits e.reg.toNat (16 * e.half) (16 * e.width) v).setHalves e.reg.toNat e.half e.width p).clearElem e.reg.toNat e.half e.width

/-- A record's element becomes POISONED with undefined bits, and sets its PMK bit (R155, R166). -/
def poisonRec (s : State) (k : Nat) (r : MireRec) : State :=
  if r.superseded then s
  else
    let p := s.drawFree 64
    (putRaw p.2 k r p.1.toNat .pois).modThread k r.thr fun t => t.markPmk r.elem

/-- `Hflt` of R166 on record `e`, with the value and the cause. -/
def hfltRecord (s : State) (k : Nat) (e : MireRec) (val : W64) (cause : BitVec 16) : State :=
  let s := s.modThread k e.thr fun t => t.mergeFlags ((cause.extractLsb' 0 5).setWidth 64)
  let ds := descendants (s.core k).mire e.id
  let kids := (s.core k).mire.filter fun r => ds.contains r.id
  let s := s.modCore k fun c => { c with mire := c.mire.filter fun r => r.id != e.id && !ds.contains r.id }
  match (List.range 8).find? fun i => ((s.thread k e.thr).slots.getD i none).isNone with
  | none =>
    let s := poisonRec s k e
    let c : Cause := { cls := 4, code := 3, aux := cause.toNat, aux2 := e.pc.setWidth 64, elem := e.elem }
    let s := postCore s k e.thr (e.pc.setWidth 64) c
    kids.foldl (poisonRec · k ·) s
  | some i =>
    let refs := (e :: kids).filter (fun r => !r.superseded) |>.map fun r => (r.reg, r.half, r.width)
    let old := (s.thread k e.thr).slots.toList.filterMap (fun x => x)
    let age := old.foldl (fun m x => max m (x.age + 1)) 0
    let sl : Slot := ⟨val, e.pc, cause, e.elem, e.reg, e.half, e.width, age, refs⟩
    let s := s.modThread k e.thr fun t => { t with slots := t.slots.setIfInBounds i (some sl) }
    (e :: kids).foldl (fun s r => putRaw s k r (placeholder r.fd ||| i) .flt) s

/-! ## Taking an exception, and returning from one (R161, R170, R341 to R345, R350) -/

/-- A fault in a helper's own code: an asynchronous record; the helper becomes IDLE; a record it held ends as `hflt` would
end it with cause 0x0100 and value 0 (R161, R123). An open nest of the helper's is discarded with the fault, which R121 says of fatal
faults and no rule of a helper's (log 31, DEDUCED). -/
def helperFault (s : State) (x : Ctx) (c : Cause) : State :=
  let h := s.helper x.core (x.ctx - 4)
  let s := postCore s x.core x.ctx (h.pc.setWidth 64)
    { c with cls := 4, code := 2, aux := c.cls * 256 + c.code,
             aux2 := if c.cls = 3 ∧ (c.code = 2 ∨ c.code = 3) then BitVec.ofNat 64 c.aux else 0 }
  let s := match h.held with
    | none => s
    | some id => match List.find? (fun (r : MireRec) => r.id == id) (s.core x.core).mire with
      | none => s
      | some e =>
        if e.dead then s.modCore x.core fun k => { k with mire := k.mire.filter (fun r => r.id != id) }
        else hfltRecord s x.core e 0 0x0100
  s.modHelper x.core (x.ctx - 4) fun h => { h with idle := true, ret := .none, held := none, nest := none, hostAcc := none, range := none }

/-- A precise stop of a task thread (R342, R344): the record enters the queue and the thread stops at its PC. -/
def preciseFault (s : State) (x : Ctx) (c : Cause) : State :=
  let s := discardYounger s x
  let t := s.thread x.core x.ctx
  let s := s.setThread x.core x.ctx { t with
    since := none
    st := if c.cls = 3 ∧ c.code = 2 then .stoppedAfter false else if c.cls = 3 ∧ c.code = 3 then .stoppedAfter true else .stopped
    instret := if c.cls = 3 ∧ (c.code = 2 ∨ c.code = 3) then t.instret + 1 else t.instret
    hostAcc := none }
  match s.partOf x.core with
  | none => s
  | some p => post s p true ((c.ofThread t).record s (s.thid x.core x.ctx) (t.pc.setWidth 64) .precise false)

/-- A copy of a thread, at rest where it is: what it has read and not moved is read again (R278, R350). -/
def freezeOne (k t : Nat) (p : Pend) : Pend :=
  if p.owner = .live k t ∧ (p.cmd.op = .cpy ∨ p.cmd.op = .cpyt ∨ p.cmd.op = .cfill) then { p with phase := .frozen, blocks := [] } else p

/-- Freeze the copies of a thread where they are (R278, R350). -/
def freezeCopies (s : State) (k t : Nat) : State :=
  s.modCore k fun c => { c with copyQ := c.copyQ.map (freezeOne k t) }

/-- Bytes of a number of 64 bits. -/
def w8 (v : W64) : List Byte := natLe 8 v.toNat
def n8 (v : Nat) : List Byte := natLe 8 v
def zeros (n : Nat) : List Byte := List.replicate n 0

/-- The bytes of a fault record (R341). -/
def recordBytes (r : FRec) : List Byte :=
  natLe 1 r.cls.toNat ++ natLe 1 r.code.toNat ++ natLe 1 r.flags.toNat ++ [0] ++ natLe 4 r.aux.toNat ++ w8 r.pc ++ w8 r.seq
    ++ natLe 2 r.elem.toNat ++ zeros 6 ++ w8 r.addr ++ w8 r.ident ++ w8 r.aux2 ++ w8 r.time

/-- A record, or zeros. -/
def recordOr (r : Option FRec) : List Byte := (r.map recordBytes).getD (zeros 64)

/-- The header of a dump (R351). -/
def dumpHeader (d : Dump) (status nrec bytes : Nat) : List Byte :=
  natLe 4 0x504D5544 ++ [1] ++ natLe 1 status ++ natLe 1 d.nsec ++ natLe 1 nrec ++ n8 bytes
    ++ recordOr ((d.frozen.head?).bind fun e => e.2) ++ recordOr d.second ++ zeros 112

/-- Write bytes of a dump, untranslated. -/
def dumpWrite (s : State) (d : Dump) (off : Nat) (bs : List Byte) : State := writeLoc s (.hbm (d.base + off)) bs false

/-- A context joins the dump of its partition; with the first, the dump begins and its header is written with STATUS 0 (R350, R351,
R353). -/
def joinDump (s : State) (part : Nat) (who : ThreadName) (r : Option FRec) : State :=
  let first := (s.part part).dump.frozen.isEmpty
  let s := s.modPart part fun q => { q with dump := { q.dump with frozen := q.dump.frozen ++ [(who, r)] } }
  let d := (s.part part).dump
  if first && decide (256 ≤ d.len) then dumpWrite s d 0 (dumpHeader d 0 0 256) else s

/-- A fatal fault of a context that is in a dump (R353): one of the first context is counted, and the first such record kept; one of
another context that the host asked for is its record head, and one of another frozen context adds nothing. -/
def Dump.further (d : Dump) (who : ThreadName) (r : FRec) : Dump :=
  if (d.frozen.head?.map fun e => e.1) == some who then { d with nsec := min 255 (d.nsec + 1), second := some (d.second.getD r) }
  else { d with frozen := d.frozen.map fun e => if e.1 == who then (e.1, some (e.2.getD r)) else e }

/-- What a fatal fault takes from its context at once: an open nest, and the selection (R121, R179). -/
def Thread.struck (t : Thread) : Thread := { t with nest := none, sel := 0 }

/-- The same for a task in a save slot, whose context is the slot's bytes: SAVEINFO.NEST and the nest, and SELECTION (R281). -/
def strikeSaved (s : State) (part sl : Nat) : State :=
  let s := slotWrite s part sl 0 (n8 (slotField s part sl 0 &&& (2 ^ 64 - 1 - 2 ^ 47)))
  let s := slotWrite (slotWrite s part sl 0x68 (zeros 8)) part sl 0xB00 (zeros 512)
  s.modPart part fun p => match mapGet p.saved sl with
    | none => p
    | some x => { p with saved := mapSet p.saved sl { x with sel := 0 } }

/-- A fatal record of the context that the WHO bits name waits for room in the fault queue (R268). -/
def fatalWaits (s : State) (part : Nat) (who : BitVec 26) : Bool :=
  (s.part part).fqWait.any fun r => r.flags.getLsbD 1 && r.ident.setWidth 26 == who

/-- A context whose fatal record `who` names ends (R294); while that record waits for room, the context stays stopped (R268). -/
def endFatal (s : State) (who : BitVec 26) : ThreadName → State
  | .live k t => match (s.thread k t).task with
    | none => s
    | some tk => if fatalWaits s tk.part who then s.modThread k t fun th => { th with st := .ending who } else endThread s k t
  | .saved p sl => match mapGet (s.part p).saved sl with
    | none => s
    | some x =>
      if fatalWaits s p who then s.modPart p fun q => { q with saved := mapSet q.saved sl { x with wait := .ending who } } else endSaved s p sl x

/-- A thread that a fatal fault has stopped and that has not ended: its instance does not abort yet (R268, R350). -/
def Status.lingers : Status → Bool
  | .frozen | .ending _ => true
  | _ => false

/-- What a fatal fault does to its context (R344): it ends, or, while the dump engine is armed, it is frozen for the dump (R350), which may
hold it already (R353). -/
def stopFatal (s : State) (x : Ctx) (c : Cause) (suspect : Bool) : State :=
  let s := discardYounger s x
  let t := s.thread x.core x.ctx
  match s.partOf x.core with
  | none => s
  | some p =>
    let r := (c.ofThread t).record s (s.thid x.core x.ctx) (t.pc.setWidth 64) .fatal suspect
    let me : ThreadName := .live x.core x.ctx
    let again (s : State) : State := s.modPart p fun q => { q with dump := q.dump.further me r }
    if t.st.lingers then again s
    else
      let s := (dropRecords (post s p true r) x.core x.ctx).modThread x.core x.ctx Thread.struck
      let frozen : State := (freezeCopies s x.core x.ctx).modThread x.core x.ctx fun t => { t with st := .frozen }
      if inDump s p me then again frozen
      else if (s.part p).dump.armed then joinDump frozen p me (some r)
      else endFatal s (s.who x.core x.ctx) me

/-- A fatal fault (R344): the context ends and its instance aborts, or it is frozen for a dump. -/
def fatalFault (s : State) (x : Ctx) (c : Cause) (suspect : Bool) : State :=
  let t := stopFatal s x c suspect
  match (s.thread x.core x.ctx).task with
  | none => t
  | some tk => if (t.thread x.core x.ctx).st.lingers then t else abortInstance t tk.part tk.inst

/-- A fatal fault of a saved task (R344): it ends and its instance aborts, or, while the dump engine is armed, it is frozen for the
dump in its slot (R350). -/
def fatalSaved (s : State) (part sl : Nat) (x : Saved) (r : FRec) : State :=
  let s := post s part true r
  let who := r.ident.setWidth 26
  let s := if (s.part part).dump.armed || fatalWaits s part who then strikeSaved s part sl else s
  let x := { x with sel := 0 }
  if (s.part part).dump.armed then
    let gone : DEntry → Bool := fun e => match e with
      | .resume p k => p == part && k == sl
      | .fresh .. => false
    let s := { s with pavs := s.pavs.map fun (e : Nat × Pav) => (e.1, { e.2 with disp := e.2.disp.map fun l => l.filter fun e => !gone e }) }
    let s := unwaitPage s part (.thread (.saved part sl))
    let s := s.modPart part fun p => { p with saved := mapSet p.saved sl { x with wait := .frozen } }
    if inDump s part (.saved part sl) then s.modPart part fun q => { q with dump := q.dump.further (.saved part sl) r }
    else joinDump s part (.saved part sl) (some r)
  else
    let t := endFatal s who (.saved part sl)
    if fatalWaits s part who then t else abortInstance t part x.task.inst

/-- Take an exception in a context: the one way in which an instruction raises a fault. In a helper every cause is a fault
of the helper's own code (R161); in a task thread the kind decides (R343, R344). -/
def takeFault (s : State) (x : Ctx) (k : Kind) (c : Cause) : State :=
  if x.isHelper then helperFault s x c
  else match k with
    | .precise => preciseFault s x c
    | .fatal => fatalFault s x c false
    | .async => postCore s x.core x.ctx ((s.pcAt x).setWidth 64) c

/-- Return from a precise stop: the host resumes the thread, which executes PC again, or PC + 12 after a trap or a service
call (R122, R344). -/
def resumeThread (s : State) (k t : Nat) : State :=
  let th := s.thread k t
  match th.st with
  | .stopped => s.setThread k t { th with st := .running, brkSkip := true }
  | .stoppedAfter _ => s.setThread k t { th with st := .running, pc := th.pc + 12, brkSkip := false }
  | _ => s

/-- Delivery of a held fault slot at the delivering instruction (R170): the record, the root's value, the other elements'
placeholders without their slot number, and the slot's release; an element that is no longer FAULTED with it stays as it is. An
element derived at the root's own place with its width counts as the root (log 16, DESIGN CHOICE). -/
def deliverSlot (s : State) (x : Ctx) (k : Nat) : State :=
  match (s.thread x.core x.ctx).slots.getD k none with
  | none => s
  | some sl =>
    let c : Cause := { cls := 4, code := 1, aux := sl.cause.toNat, aux2 := sl.pc.setWidth 64, elem := sl.elem }
    let s := s.modThread x.core x.ctx fun t =>
      let t := sl.refs.foldl (fun t e =>
        let r := e.1.toNat
        let lo := 16 * e.2.1
        if t.halfPres r e.2.1 != .flt then t
        else
          let t := if e.1 = sl.reg ∧ e.2.1 = sl.half ∧ e.2.2 = sl.width then
              (t.setBits r lo (16 * e.2.2) sl.val.toNat).clearElem r e.2.1 e.2.2
            else t.setBits r lo 3 0
          t.setHalves r e.2.1 e.2.2 .pres) t
      { t with slots := t.slots.setIfInBounds k none }
    takeFault s x .precise c

/-- A page that is not present (R259): the thread stops to be saved, a page request enters the queue unless one for the page
is open, and the thread waits on it; a helper takes a fault of its own code. -/
def pageMissing (s : State) (x : Ctx) (page : Nat) (kind : Access) (ea : W64) : State :=
  if x.isHelper then helperFault s x { cls := 8, code := 1, addr := ea }
  else
    let s := discardYounger s x
    let t := s.thread x.core x.ctx
    let s := s.setThread x.core x.ctx { t with st := .waiting (.page page ea), stop := some 2, hostAcc := none, since := none }
    match s.partOf x.core with
    | none => s
    | some p =>
      let w := PageWaiter.thread (.live x.core x.ctx)
      match (s.part p).pageReqs.find? (fun (r : PageReq) => r.page == page) with
      | some _ => s.modPart p fun q => { q with
          pageReqs := q.pageReqs.map fun r => if r.page = page then { r with waiters := r.waiters ++ [w] } else r }
      | none =>
        let c : Cause := { cls := 8, code := 1, aux := kind.kindCode, addr := ea, seq := t.seq }
        let s := post s p true (c.record s (s.thid x.core x.ctx) (t.pc.setWidth 64) .precise false)
        s.modPart p fun q => { q with pageReqs := q.pageReqs ++ [⟨page, [w]⟩] }

/-- The end of an access that has no location (R205, R255, R256, R259). -/
def accessFault (s : State) (x : Ctx) (e : AccErr) (kind : Access) (ea : W64) (elem : Nat) : State :=
  match e with
  | .address => takeFault s x .precise { cls := 2, code := 1, addr := ea, elem := elem }
  | .permission => takeFault s x .precise { cls := 2, code := 4, aux := kind.kindCode, addr := ea, elem := elem }
  | .table l => takeFault s x .precise { cls := 2, code := 5, aux := l, addr := ea, elem := elem }
  | .missing p => pageMissing s x p kind ea

/-! ## Raising from a meaning -/

/-- The context the meaning runs in. -/
def ctx : M Ctx := do return (← get).at'

/-- Older vector instructions of the thread are in the pipes, so an instruction outside the lanes may not stop yet: a stop is
precise (R122, R127, R344). In the lanes `vinstr` sees to it. -/
def mustWait (s : State) (x : Ctx) : Bool := s.lane.isNone && !x.isHelper && s.inPipe x.core x.ctx

/-- Stop with what `f` makes of the state, once a stop is precise. -/
def stopWith {α : Type} (f : State → State) : M α := fun s =>
  if mustWait s s.at' then .error .retry else .error (.ends (f s))

/-- Raise a fault. -/
def raise {α : Type} (k : Kind) (c : Cause) : M α := stopWith fun s => takeFault s s.at' k c

/-- Raise the illegal instruction fault of opcode `o` (R343). -/
def illegal {α : Type} (o : Op) : M α := raise .precise { cls := 1, code := 1, aux := o.code }

/-- Raise the fatal poison-consumed fault (R346). -/
def poisonFault {α : Type} (elem : Nat := 0xFFFF) (addr : W64 := 0) : M α := raise .fatal { cls := 5, code := 1, elem := elem, addr := addr }

/-- Deliver the helper fault of a FAULTED half-slot (R170). -/
def deliver {α : Type} (r h : Nat) : M α := stopWith fun s =>
  let x := s.at'
  match (s.thread x.core x.ctx).slotAt r h with
  | none => s
  | some k => deliverSlot s x k

/-- The context waits for `w` and its instruction, of which REFT at the issue is kept (R366), runs again (R270); a helper remembers the
access that is held back. -/
def waitOn {α : Type} (w : Wait) : M α := fun s =>
  let x := s.at'
  if x.isHelper then .error (.ends (s.modHelper x.core (x.ctx - 4) fun h => match w with
    | .range ea n st => { h with range := some (ea, n, st) }
    | _ => h))
  else .error (.ends (s.modThread x.core x.ctx fun t => { t with st := .waiting w, since := some (t.since.getD (s.reftAt x.core)) }))

/-! ## Scalar operands (R103, R104) -/

/-- Half-slot 0 to 3 of a register that is FAULTED. -/
def faultedHalf (s : State) (x : Ctx) (r : Reg) : Nat :=
  ((List.range 4).find? fun h => (s.thread x.core x.ctx).halfPres r.toNat h == .flt).getD 0

/-- Wait until no source is PENDING, then deliver the first FAULTED one (log 17, DEDUCED). -/
def ready (rs : List Reg) : M Unit := fun s =>
  let x := s.at'
  if rs.any fun r => s.scalarPres x r == .pend then .error .retry
  else match rs.find? fun r => s.scalarPres x r == .flt with
    | some r => deliver r.toNat (faultedHalf s x r) s
    | none => .ok ((), s)

/-- Some source is POISONED. -/
def anyPoison (rs : List Reg) : M Bool := do
  let s ← get
  return rs.any fun r => s.scalarPres s.at' r == .pois

/-- The value of a scalar register that is ready. -/
def sval (r : Reg) : M W64 := do
  let s ← get
  return s.scalar s.at' r

/-- A scalar source that decides control, an address or a shape: poison is fatal (R104, R346). -/
def control (rs : List Reg) : M Unit := do
  ready rs
  if ← anyPoison rs then poisonFault

/-- Write a scalar destination, PRESENT (R57). -/
def wrS (r : Reg) (v : W64) : M Unit := modify fun s => s.writeScalar s.at' r v false

/-- A poisoned scalar result: POISONED, PMK bit 0, the bits undefined (R104). -/
def wrPoison (r : Reg) : M Unit := modify fun s =>
  let p := s.drawFree 64
  p.2.writeScalar s.at' r p.1 true

/-- Write a predicate (R65). -/
def wrP (k : PReg) (b : Bool) : M Unit := modify fun s => s.setPredsAt s.at' (setPred (s.predsAt s.at') k b)

/-- Raise sticky flags. -/
def flags (f : W64) : M Unit := modify fun s => s.raiseFlags s.at' f

/-! ## Sequential execution and loop nests (R25, R119) -/

/-- Step the indices of a nest: the new indices, or none when every level is at its end. -/
def stepIdx : List W64 → List W64 → Option (List W64)
  | c :: cs, i :: is => if i = c - 1 then (stepIdx cs is).map (0 :: ·) else some ((i + 1) :: is)
  | _, _ => none

/-- Write index and bound registers for the next pass. -/
def nestRegs (s : State) (x : Ctx) (n : Nest) (idx : List W64) : State :=
  let s := (List.range n.lev).foldl (fun s j => s.writeScalar x (n.idxReg + BitVec.ofNat 6 j) (idx.getD j 0) false) s
  n.binds.foldl (fun s b =>
    let off := (List.range n.lev).foldl (fun a j => a + idx.getD j 0 * b.strides.getD j 0) (0 : W64)
    s.writeScalar x b.reg (b.base + off) false) s

/-! ## Registers and masks of an instruction (R27, R58, R275) -/

/-- What an instruction reads and writes: registers as a first number and a count, masks by number. `scal` are the scalar
registers that an instruction of a pipe reads at its dispatch (R60). -/
structure Foot where
  scal : List Nat := []
  rd : List (Nat × Nat) := []
  wr : List (Nat × Nat) := []
  mrd : List Nat := []
  mwr : List Nat := []
  deriving DecidableEq, Repr

/-- Two lists of register ranges share a register. -/
def rangesMeet (a b : List (Nat × Nat)) : Bool :=
  a.any fun p => b.any fun q => decide (p.1 < q.1 + q.2) && decide (q.1 < p.1 + p.2)

/-- Scalar registers, as ranges. -/
def singles (l : List Nat) : List (Nat × Nat) := l.map fun r => (r, 1)

/-- A younger instruction `f` has to wait for an older one `o` (R58): it would read or write what `o` writes, or write what `o`
has still to read. `read` says that `o` has read its scalar operands. -/
def Foot.waitsFor (f o : Foot) (read : Bool) : Bool :=
  rangesMeet o.wr (f.rd ++ f.wr ++ singles f.scal) || rangesMeet (o.rd ++ if read then [] else singles o.scal) f.wr
    || (o.mwr.any fun m => f.mrd.contains m || f.mwr.contains m) || (o.mrd.any fun m => f.mwr.contains m)

/-- The registers of a group that holds VL elements of `w` bits (R59); with the default, of any width. -/
def groupBound (vl : Nat) (w : Nat := 64) : Nat :=
  let n := vl * w
  if n ≤ 8192 then 1 else if n ≤ 16384 then 2 else if n ≤ 32768 then 4 else 8

/-- Bits of a size code. -/
def sizeBits : Size → Nat
  | .b => 8 | .h => 16 | .w => 32 | .d => 64

/-- Witness reductions write a second destination, vB (R190). -/
def witnessTwo : Op → Bool
  | .vrmaxw | .vrminw | .vclampw | .vrmedw | .vrssumw => true
  | _ => false

/-- Fields that name a scalar register in an instruction of a pipe: A, B, and the third operand (07, 08, 09, 10, 12). -/
def scalarFields : Op → Bool × Bool × Bool
  | .vslide | .vreshape => (false, true, false)
  | .vbcast | .mset | .vspill | .vfill | .vld | .vst | .vldx | .vstx | .vldseg | .vstseg => (true, false, false)
  | .vext => (false, true, false)
  | .vins | .vlds | .vsts | .vldmx | .vstmx | .vwhdr | .msel => (true, true, false)
  | .vclampw => (false, false, true)
  | _ => (false, false, false)

/-- Instructions of a pipe whose groups are not those of VL elements. -/
def wideGroups : Op → Bool
  | .vreshape | .vperm | .vcompress | .vexpand | .vrmaxw | .vrminw | .vclampw | .vrmedw | .vrssumw | .vwhdr | .vadjb | .vldmx | .vstmx
  | .mmul | .vslide => true
  | _ => false

/-- The pipe an instruction issues to (R272). -/
def pipeOf (o : Op) : Option Pipe :=
  let n := o.code
  if (0x110 ≤ n && n ≤ 0x146) || (0x180 ≤ n && n ≤ 0x194) || (0x210 ≤ n && n ≤ 0x226) || o = .vpres || o = .mpoison then some .a
  else if (0x240 ≤ n && n ≤ 0x251) || o = .vspill || o = .vfill then some .m
  else if (0x200 ≤ n && n ≤ 0x207) || (0x2A0 ≤ n && n ≤ 0x2A3) then some .x
  else none

/-- What an instruction of a pipe reads and writes when VL is `vl`; where the size of a group depends on formats, the largest it
can have. -/
def pipeFoot (o : Op) (x : Option Pfx) (f : Fields) (vl : Nat) : Foot :=
  let u := o.use
  let sc := scalarFields o
  let n := if wideGroups o then 8 else groupBound vl
  let third : List (Nat × Nat) := match u.form with
    | .V => if sc.2.2 || u.c != .r then [] else [(f.vC.toNat, n)]
    | _ => []
  let store := o == .vst || o == .vsts || o == .vstx || o == .vstseg || o == .vstmx || o == .vspill
  let seg := o == .vldseg || o == .vstseg
  let one := o == .mpop || o == .mffs || o == .vext || o == .mstat || o == .mmul
  let fields : Nat := match segOfSub f.mSub with
    | some (k, nf) => (nf.toNat + 1) * groupBound vl (sizeBits k)
    | none => 0
  let dest : List (Nat × Nat) := if u.d != .r then [] else [(f.d.toNat, if seg then fields else if one then 1 else n)]
  { scal := (if sc.1 then [f.a.toNat] else []) ++ (if sc.2.1 then [f.b.toNat] else [])
      ++ (if sc.2.2 then [f.vC.toNat, f.vC.toNat + 1] else []) ++ (if u.form = .V then [f.vF.toNat] else [])
    rd := (if u.a == .r && !sc.1 then [(f.a.toNat, n)] else []) ++ (if u.b == .r && !sc.2.1 then [(f.b.toNat, n)] else []) ++ third
      ++ (match x with | some p => [(p.e.toNat, n)] | none => []) ++ (if store || o == .mmul || u.form = .V then dest else [])
    wr := (if store then [] else dest) ++ (if o = .vfcvt || witnessTwo o then [(f.b.toNat, n)] else [])
      ++ (if o = .vldmx then [(f.vC.toNat, 1)] else [])
    mrd := (match x with | some p => [p.msk.toNat] | none => []) ++ (if u.a == .p then [f.a.toNat] else []) ++ (if u.b == .p then [f.b.toNat] else [])
      ++ (if u.c == .p then [f.vC.toNat % 8] else [])
    mwr := if u.d == .p then [f.d.toNat] else [] }

/-- What a scalar instruction reads and writes. -/
def scalarFoot (o : Op) (f : Fields) : Foot :=
  let u := o.use
  let dest : List (Nat × Nat) := if u.d == .r then [(f.d.toNat, 1)] else []
  { rd := (if u.a == .r then [(f.a.toNat, 1)] else []) ++ (if u.b == .r then [(f.b.toNat, 1)] else [])
      ++ (if u.c == .r && u.form = .R then [(f.rC.toNat, 1)] else []) ++ (if u.form = .M then dest else [])
    wr := dest }

/-- What an instruction reads and writes when VL is `vl`. -/
def instrFoot (vl : Nat) (i : Instr) : Foot :=
  match encodeFields i with
  | none => {}
  | some (o, x, f) => if (pipeOf o).isSome then pipeFoot o x f vl else scalarFoot o f

/-- What an instruction in a pipe reads and writes. -/
def PipeEntry.foot (e : PipeEntry) : Foot := instrFoot e.ctl.vl.toNat e.instr

/-- The numbers in ranges. -/
def inRanges (l : List (Nat × Nat)) : List Nat := l.flatMap fun r => (List.range r.2).map (r.1 + ·)

/-- What an instruction in a pipe still writes of low words, which are what scalar instructions read (R58, R275). -/
def PipeEntry.lowFoot (e : PipeEntry) : Foot :=
  { e.foot with wr := if e.lows.isEmpty then e.foot.wr else singles ((inRanges e.foot.wr).filter fun r => !e.lows.contains r) }

/-- What a context's scalar instruction would read and write has to wait for an older instruction in the pipes. -/
def waitsForElder (s : State) (x : Ctx) (f : Foot) : Bool :=
  (s.entries x.core x.ctx).any fun e => f.waitsFor e.lowFoot e.scal.isSome

/-- What an instruction of a thread outside the pipes reads and writes; `lnest` reads its counts, and the strides and the bound registers
of the pending bindings (R119). -/
def Thread.footOf (t : Thread) (i : Instr) : Foot :=
  match i with
  | .lnest _ d a imm =>
    let lev := imm.toNat % 8
    let bs := t.binds.toList.filterMap id
    { rd := (a.toNat, lev) :: bs.flatMap fun b => [(b.stride.toNat, lev), (b.reg.toNat, 1)], wr := [(d.toNat, lev)] }
  | _ => instrFoot t.vl.toNat i

/-! ## The end of a body (R25, R119) -/

/-- The registers that Advance of the open nest writes, and `lnest` and it read. -/
def Nest.foot (n : Nest) : Foot := { wr := (n.idxReg.toNat, n.lev) :: n.binds.map fun b => (b.reg.toNat, 1) }

/-- Advance has to wait: an older vector instruction still reads or writes one of its registers, or one of them is PENDING or
FAULTED and a discarded Advance would have to restore that (R58, R128). -/
def advanceWaits (s : State) (x : Ctx) (n : Nest) : Bool :=
  !x.isHelper && (waitsForElder s x n.foot ||
    (!(s.thread x.core x.ctx).undos.isEmpty && n.foot.wr.any fun r => (List.range r.2).any fun j =>
      let p := s.scalarPres x (BitVec.ofNat 6 (r.1 + j))
      p == .pend || p == .flt))

/-- Advance of R119, sequential execution having reached the end of the body. -/
def advance (s : State) (x : Ctx) (n : Nest) (pc : PC) : State :=
  match stepIdx n.cnt n.idx with
  | none => ((s.setBindsAt x (Vector.replicate 4 none)).setNestAt x none).setPcAt x pc
  | some idx => ((nestRegs s x n idx).setNestAt x (some { n with idx := idx })).setPcAt x n.bodyStart

/-- Sequential execution reaches `pc`: Advance of R119 when that is the end of the open nest's body, or, while it has to wait, the
Advance is owed and the context issues nothing. -/
def arrive (s : State) (x : Ctx) (pc : PC) : State :=
  match s.nestAt x with
  | none => s.setPcAt x pc
  | some n =>
    if pc = n.bodyEnd then
      if advanceWaits s x n then (s.setPcAt x pc).modThread x.core x.ctx fun t => { t with owed := true }
      else advance s x n pc
    else s.setPcAt x pc

/-- An owed Advance happens once it need not wait. -/
def payAdvance (s : State) (x : Ctx) : State :=
  let t := s.thread x.core x.ctx
  match t.owed, t.nest with
  | true, some n =>
    if advanceWaits s x n then s
    else (advance s x n t.pc).modThread x.core x.ctx fun t => { t with owed := false }
  | _, _ => s

/-- An instruction of the context has retired: INSTRET, the run-ahead count and the hints (R29, R126, R360). -/
def retired (s : State) (x : Ctx) (c : Ctl) : State :=
  if x.isHelper then s.modHelper x.core (x.ctx - 4) fun h =>
    { h with instret := h.instret + 1, stall := c.stall.toNat, yld := c.yld, range := none }
  else s.modThread x.core x.ctx fun t =>
    { t.retire with
      stall := c.stall.toNat
      yld := c.yld
      brkSkip := false
      since := none
      st := match t.st with | .waiting _ => .running | st => st }

/-! ## The frame of an instruction (R28, R29, R33, R52, R126 to R128) -/

/-- Instructions that issue only when every older vector and matrix instruction has passed its fault points (R127). -/
def afterFaults (o : Op) : Bool :=
  let n := o.code
  (0x080 ≤ n && n ≤ 0x0BF) || (0x2C0 ≤ n && n ≤ 0x33F) || o == .tlbinv || o == .icinv || o == .trap || o == .svc || o == .eret

/-- A scalar floating-point instruction whose own mode is SR (R109). -/
def scalarSr : Instr → Bool
  | .faddS _ _ _ _ rm | .faddD _ _ _ _ rm | .fsubS _ _ _ _ rm | .fsubD _ _ _ _ rm | .fmulS _ _ _ _ rm | .fmulD _ _ _ _ rm
  | .ffmaS _ _ _ _ _ rm | .ffmaD _ _ _ _ _ rm | .fdivS _ _ _ _ rm | .fdivD _ _ _ _ rm | .fsqrtS _ _ _ rm | .fsqrtD _ _ _ rm
  | .fcvtS _ _ _ _ rm | .fcvtD _ _ _ _ rm => rm == .sr
  | _ => false

/-- The prefix mode, or FCTL.RM, is SR: the instruction may draw (R99). -/
def mayDraw (i : Instr) (ctl : VCtl) : Bool :=
  match i.pfx with
  | some p => if p.rm = .dyn then RMode.ofCode (ctl.fctl.extractLsb' 0 3) == some .sr else p.rm == .sr
  | none => RMode.ofCode (ctl.fctl.extractLsb' 0 3) == some .sr

/-- Vector stores, which write memory (R225, R230, R135). -/
def isVecStore (o : Op) : Bool := (0x248 ≤ o.code && o.code ≤ 0x24B) || o == .vstmx || o == .vspill

/-- The instruction in a pipe is a vector store. -/
def PipeEntry.stores (e : PipeEntry) : Bool := (e.instr.op.map isVecStore).getD false

/-- The instruction in a pipe is one of a group of pipes. -/
def PipeEntry.isIn (e : PipeEntry) (l : List Pipe) : Bool := ((e.instr.op.bind pipeOf).map l.contains).getD false

/-- An ORD that makes an atomic a release (R219). -/
def ordReleases (ord : BitVec 4) : Bool := ord != 0 && (ord.toNat - 1) % 3 != 0

/-- Instructions of 0x2C0 to 0x33F that are releases, beside the pushes, whose commands wait (R243, R306). -/
def releases : Op → Bool
  | .tgset | .tbset | .glaunch => true
  | _ => false

/-- The older instruction `e` in a pipe has to be complete before the scalar instruction issues, beside what R127 and their registers
ask for: `vsettle`, `texit` and `tsusp` wait for all, a trap, a service call and `eret` are precise (R122); a control register that the
older one may read, write or draw from is accessed in program order (R55, R56, R69); a release comes after older accesses, and an acquire
fence after older loads (R223, R243), and an invalidation after older stores (R125, R262). -/
def waitsUntilDone (i : Instr) (o : Op) (fctl : W64) (e : PipeEntry) : Bool :=
  let sr := RMode.ofCode (fctl.extractLsb' 0 3) == some .sr
  let read (n : Nat) : Bool := match n with
    | 1 | 4 | 5 | 0x104 => true
    | 6 => e.isIn [.x]
    | 9 => e.isIn [.a, .x]
    | _ => 0x20 ≤ n && n ≤ 0x3F
  match i with
  | .csrr _ _ n => read n.toNat
  | .csrw _ _ n | .csrs _ _ n | .csrc _ _ n => if n = 1 then e.isIn [.a, .x] else n != 0 && n != 0x00A && read n.toNat
  | .vsettle .. | .texit .. | .tsusp .. | .trap .. | .svc .. | .eret .. => true
  | .amo _ _ _ _ _ _ ord _ | .cas _ _ _ _ _ ord _ => ordReleases ord && e.isIn [.m]
  | .fence _ _ k => e.isIn [.m] && (k != .acq || !e.stores)
  | .bararr .. | .sigst .. => e.isIn [.m]
  | .tlbinv .. | .icinv .. => e.stores
  | _ => if releases o then e.isIn [.m] else 0x040 ≤ o.code && o.code ≤ 0x05F && (sr || scalarSr i) && mayDraw e.instr e.ctl

/-- An older instruction of the thread in the pipes has to be complete first (log 8, DEDUCED). -/
def elderFirst (s : State) (x : Ctx) (i : Instr) (o : Op) : Bool :=
  (s.entries x.core x.ctx).any (waitsUntilDone i o (s.thread x.core x.ctx).fctl)

/-- The window of R126 has room. -/
def windowOpen (t : Thread) : Bool := t.undos.all fun u => decide (u.past < 64)

/-- The instruction may issue although older vector instructions of its thread are in the pipes (R58, R126, R127). -/
def aheadFree (s : State) (x : Ctx) (i : Instr) (o : Op) : Bool :=
  let t := s.thread x.core x.ctx
  let f := t.footOf i
  windowOpen t && (!afterFaults o || t.undos.isEmpty) && !elderFirst s x i o && !waitsForElder s x f
    && (t.undos.isEmpty || f.wr.all fun r => (List.range r.2).all fun j =>
      let p := s.scalarPres x (BitVec.ofNat 6 (r.1 + j))
      p == .pres || p == .pois)

/-- HOLD is satisfied: every older instruction of the thread is complete, a scalar one once its result is written, a push once its command
is in the FIFO (R29). -/
def holdOk (s : State) (x : Ctx) : Bool :=
  let t := s.thread x.core x.ctx
  x.isHelper || !s.inPipe x.core x.ctx && t.busyS == 0 && t.busyP == 0

/-- The guard of R28. -/
def guardTrue (s : State) (x : Ctx) (c : Ctl) : Bool := (predBit (s.predsAt x) c.g) != c.gn

/-- The opcode may run in the context (R52). -/
def ctxOk (x : Ctx) (o : Op) : Bool := if x.isHelper then o.inHelper else o.inTask

/-- Run a meaning to its outcome. -/
def finish (m : M Unit) (s : State) : State :=
  match m s with
  | .ok (_, s') => s'
  | .error (.ends s') => s'
  | .error .retry => s
  | .error (.parks s' _ _) => s'

/-- The frame of an instruction outside the lanes. `body` gives the PC it goes to, or `none` for the next in sequence. -/
def instrTo (i : Instr) (o : Op) (body : M (Option PC)) (s : State) : Out :=
  match s.cur with
  | none => .fault .noContext
  | some x =>
    let older := !x.isHelper && s.inPipe x.core x.ctx
    if !ctxOk x o then .next (if older then s else takeFault s x .precise { cls := 1, code := 1, aux := o.code })
    else if i.ctl.hold && !holdOk s x then .next s
    else
      let next := s.pcAt x + BitVec.ofNat 56 i.len
      if !guardTrue s x i.ctl then
        if older && !windowOpen (s.thread x.core x.ctx) then .next s else .next (retired (arrive s x next) x i.ctl)
      else if older && !aheadFree s x i o then .next s
      else
        .next (finish (do
          let dest ← body
          modify fun s => match dest with
            | none => retired (arrive s x next) x i.ctl
            | some pc => retired (s.setPcAt x pc) x i.ctl) s)

/-- The frame of an instruction that goes on in sequence. -/
def instr (i : Instr) (o : Op) (body : M Unit) (s : State) : Out := instrTo i o (do body; return none) s

/-- The scalar registers of a thread, as a vector instruction reads them. -/
def lowRegs (s : State) (x : Ctx) : Vector W64 64 := Vector.ofFn fun r => s.low x.core x.ctx (BitVec.ofNat 6 r)

/-- Put an instruction that has issued into its pipe: the PC goes on (R126, R272). Unless it has passed its fault points, what
younger instructions change from here on is kept. -/
def enqueue (s : State) (x : Ctx) (i : Instr) (q : Pipe) (e : PipeEntry) (passed : Bool) : State :=
  let s := s.setPipe x.core q (s.pipe x.core q ++ [e])
  let s := s.modThread x.core x.ctx fun t =>
    let t : Thread := { t with undos := t.undos.map fun u => { u with past := u.past + 1 }, vnum := t.vnum + 1 }
    if passed then t else t.openUndo (t.vnum - 1)
  let s := arrive s x (e.pc + BitVec.ofNat 56 i.len)
  s.modThread x.core x.ctx fun t => { t with stall := i.ctl.stall.toNat, yld := i.ctl.yld, brkSkip := false }

/-- Completion of an instruction that ran in the lanes: VSTART is 0 (R70). -/
def laneDone (s : State) (x : Ctx) (vec : Bool) : State :=
  State.modThread { s with lane := none } x.core x.ctx fun t => { t with vstart := if vec then 0 else t.vstart }

/-- An instruction can be handed to the lanes (R273): every older one of its thread has passed its fault points, none of them still
reads or writes what it needs, and one that may draw words in mode SR has no older one, since draws go in program order (R99); `vpres`
waits until every older one is complete (R171). -/
def dispatchable (s : State) (k : Nat) (e : PipeEntry) : Bool :=
  let older := (s.entries k e.thr).filter fun o => decide (o.num < e.num)
  older.isEmpty ||
    ((s.thread k e.thr).undos.all (fun u => decide (e.num ≤ u.num)) && !mayDraw e.instr e.ctl && e.instr.op != some .vpres
      && older.all fun o => !e.foot.waitsFor o.foot o.scal.isSome)

/-- Instructions of a pipe that have not been dispatched: 2 at most (R265, R285). -/
def waiting (l : List PipeEntry) : Nat := (l.filter (·.why == .queued)).length

/-- A vector instruction may issue past the older instructions of its thread: the window has room, and no scalar it reads is still
to be written by one of them (R126, R275). -/
def vecAhead (s : State) (x : Ctx) (i : Instr) : Bool :=
  let t := s.thread x.core x.ctx
  let f := instrFoot t.vl.toNat i
  windowOpen t && (s.entries x.core x.ctx).all fun e => !rangesMeet e.lowFoot.wr (singles f.scal)

/-- The entry of an instruction that issues now: it begins at VSTART, or at 0 where an older one is still to set that (R70), and has
read its scalar operands when all are PRESENT. -/
def newEntry (s : State) (x : Ctx) (i : Instr) : PipeEntry :=
  let t := s.thread x.core x.ctx
  let older := s.inPipe x.core x.ctx
  let ctl := if older then { t.ctl with vstart := 0 } else t.ctl
  let f := instrFoot t.vl.toNat i
  { thr := x.ctx, pc := t.pc, instr := i, start := ctl.vstart.toNat % 2048, time := s.reftAt x.core, num := t.vnum, ctl := ctl, strip := t.strip
    scal := if older && f.scal.all fun r => s.scalarPres x (BitVec.ofNat 6 r) == .pres then some (lowRegs s x) else none }

/-- Add to an event counter (R361). -/
def evtAdd (c : Core) (k n : Nat) : Core := { c with evt := c.evt.setIfInBounds k (c.evt.getD k 0 + BitVec.ofNat 64 n) }

/-- The core of a context runs in verify mode (R347). -/
def verifyOn (s : State) (x : Ctx) : Bool := (s.core x.core).verify

/-- Verify mode executes the instruction twice (R347, R188): pipe A, and `mmul`. -/
def twice (o : Op) : Bool := pipeOf o == some .a || o == .mmul

/-- The end of an instruction that began in `s` and whose effect gave `t` (R349). In verify mode it may meet a mismatch: when its
retry agrees it is complete and counts as a correction, and else the thread takes the fatal verify-mismatch fault with nothing of
the instruction written, and the core is marked suspect. -/
def verified (s : State) (x : Ctx) (o : Op) (t : State) : State :=
  match (if twice o && verifyOn s x then (s.core x.core).flaws else []) with
  | [] => t
  | f :: r =>
    if f.again then
      let s := s.modCore x.core fun c => { c with flaws := r, suspect := true }
      let s := match s.lane with
        | some e => s.modThread x.core x.ctx fun t => t.withCtl e.ctl
        | none => s
      fatalFault s x { cls := 9, code := 1, aux := if o = .mmul then 1 else 0, aux2 := BitVec.ofNat 64 f.group } true
    else t.modCore x.core fun c => { evtAdd c 14 1 with flaws := r }

/-- An instruction that waits in the lanes for `why` can neither fault nor become a stop point any more: its fault points are
passed (R126, R277). A memory instruction says so itself (`safe`); an `mmul` may always stop at a plane, and an instruction that waits
for an element may meet a FAULTED one, which is a fault too (log 8, DEDUCED). -/
def LaneWait.passes (why : LaneWait) (safe : Bool) : Bool :=
  match why with
  | .mireRoom => true
  | .range => safe
  | _ => false

/-- The entry of an instruction that parks in its pipe. -/
def parked (s : State) (x : Ctx) (e : PipeEntry) (start : Nat) (why : LaneWait) : PipeEntry :=
  { e with start := start, why := why, scal := if why = .queued then e.scal else some (e.scal.getD (lowRegs s x)) }

/-- The frame of a vector or matrix instruction of pipe `q` (R126, R272): it runs when its pipe is empty and it can be dispatched,
waits in the queue otherwise, and stays in the pipe while its lanes wait. `body` starts at the element it is given. In the lanes it
works with the control registers of its issue (R56); a fault or a stop of it waits for the older instructions of its thread (R344).
`vec` is false for `msel`, `mstat` and `mclr`, which are no vector instructions in the sense of R70. -/
def vinstr (i : Instr) (o : Op) (q : Pipe) (vec : Bool) (body : Nat → M Unit) (s : State) : Out :=
  match s.cur with
  | none => .fault .noContext
  | some x =>
    match s.lane with
    | some e =>
      let now := (s.thread x.core x.ctx).ctl
      let back (s' : State) : State := s'.modThread x.core x.ctx fun t => t.withCtl now
      let rest (s' : State) : List PipeEntry := (s'.pipe x.core q).drop 1
      match body e.start (s.modThread x.core x.ctx fun t => t.withCtl e.ctl) with
      | .ok (_, s') =>
        let s' := laneDone ((back s').setPipe x.core q (rest s')) x vec
        .next (verified s x o (payAdvance (s'.modThread x.core x.ctx fun t => { t.passed e.num with instret := (t.passed e.num).instret + 1 }) x))
      | .error (.ends s') =>
        .next (if s.hasElder x.core x.ctx e.num then { s.setPipe x.core q ({ e with why := .elder } :: rest s) with lane := none }
          else { s' with lane := none })
      | .error .retry => .next { s with lane := none }
      | .error (.parks s' n why) =>
        let e' := s'.lane.getD e
        let s' := (back s').setPipe x.core q (parked s x e' n why :: rest s')
        let s' := if why.passes e'.safe then s'.modThread x.core x.ctx fun t => t.passed e.num else s'
        .next (payAdvance { s' with lane := none } x)
    | none =>
      let older := s.inPipe x.core x.ctx
      if !ctxOk x o then .next (if older then s else takeFault s x .precise { cls := 1, code := 1, aux := o.code })
      else if i.ctl.hold && !holdOk s x then .next s
      else
        let next := s.pcAt x + BitVec.ofNat 56 i.len
        if !guardTrue s x i.ctl then
          if older && !windowOpen (s.thread x.core x.ctx) then .next s else .next (retired (arrive s x next) x i.ctl)
        else if older && !vecAhead s x i then .next s
        else
          let e := newEntry s x i
          if (s.pipe x.core q).isEmpty && dispatchable s x.core e then
            let now := (s.thread x.core x.ctx).ctl
            let on (c : VCtl) (s : State) : State := if older then s.modThread x.core x.ctx fun t => t.withCtl c else s
            match body e.start { on e.ctl s with lane := some e } with
            | .ok (_, s') => .next (verified s x o (laneDone (retired (arrive (on now s') x next) x i.ctl) x vec))
            | .error (.ends s') => .next (if older then s else { s' with lane := none })
            | .error .retry => .next s
            | .error (.parks s' n why) =>
              let e' := s'.lane.getD e
              let s' := { on now s' with lane := none }
              .next (enqueue s' x i q (parked s x e' n why) (why.passes e'.safe))
          else if waiting (s.pipe x.core q) < 2 then .next (enqueue s x i q e false) else .next s

/-- Scalar operands of a vector instruction, which it reads at its dispatch (R60, R67): while one is PENDING dispatch waits, and then
the first FAULTED one is delivered (log 17, DEDUCED). An instruction that goes on in the lanes has read them already. -/
def dispWait (rs : List Reg) : M Unit := do
  let s ← get
  if (s.lane.bind (·.scal)).isNone then
    if rs.any fun r => s.scalarPres s.at' r == .pend then park ((s.lane.map (·.start)).getD 0) .queued
    ready rs

/-- A scalar operand of a vector instruction that decides its shape or an address: POISONED is fatal (R60, R67, R346). -/
def dispS (r : Reg) : M W64 := do
  dispWait [r]
  let s ← get
  match s.lane.bind (·.scal) with
  | some v => return v.getD r.toNat 0
  | none => do
    control [r]
    sval r

end Sys2Proof.Machine
end

