-- ==== Sys2Proof/Machine/Flags.lean ====
section
/-! DEFINITION. The bits of ISTAT and FCTL (R68, R69), and the scalar integer arithmetic with its flags (R105 to R107). -/

namespace Sys2Proof.Machine
open Sys2Proof

/-! ## ISTAT and FCTL (R68, R69) -/

def flagNV : W64 := 0x001
def flagDZ : W64 := 0x002
def flagOF : W64 := 0x004
def flagUF : W64 := 0x008
def flagNX : W64 := 0x010
def flagIDZ : W64 := 0x100
def flagIOV : W64 := 0x200
def flagISAT : W64 := 0x400

/-- Bits of ISTAT that are not reserved (R69). -/
def istatMask : W64 := 0x71F

/-- The trap enables TNX..TNV of FCTL, in the order of ISTAT[4:0] (R68). -/
def trapEnables (fctl : W64) : BitVec 5 := fctl.extractLsb' 4 5

/-- FCTL after a write (R6, R68): reserved bits keep 0, and RM at 000 or 111 becomes RNE. -/
def fctlStore (v : W64) : W64 :=
  let rm := v &&& 7#64
  (v &&& 0x1F0#64) ||| (if rm = 0#64 ∨ rm = 7#64 then 1#64 else rm)

/-! ## Scalar integer arithmetic -/

/-- Bits [127:64] of the signed product. -/
def mulHigh (a b : W64) : W64 := (a.signExtend 128 * b.signExtend 128).extractLsb' 64 64

/-- Bits [127:64] of the unsigned product. -/
def mulHighU (a b : W64) : W64 := (a.setWidth 128 * b.setWidth 128).extractLsb' 64 64

/-- Leading zeros; 64 for 0. -/
def leadingZeros (a : W64) : W64 :=
  BitVec.ofNat 64 (((List.range 64).find? fun k => a.getLsbD (63 - k)).getD 64)

/-- Trailing zeros; 64 for 0. -/
def trailingZeros (a : W64) : W64 :=
  BitVec.ofNat 64 (((List.range 64).find? fun k => a.getLsbD k).getD 64)

/-- The number of ones. -/
def popCount (a : W64) : W64 := BitVec.ofNat 64 ((List.range 64).filter fun k => a.getLsbD k).length

/-- What a division gives (R106). -/
structure DivResult where
  quot : W64
  rem : W64
  flags : W64
  deriving DecidableEq, Repr

/-- `Divide` of R106. -/
def divRem (signed : Bool) (a b : W64) : DivResult :=
  if b = 0 then ⟨BitVec.allOnes 64, a, flagIDZ⟩
  else if signed then
    if a = BitVec.intMin 64 ∧ b = BitVec.allOnes 64 then ⟨a, 0, flagIOV⟩
    else ⟨a.sdiv b, a.srem b, 0⟩
  else ⟨a.udiv b, a.umod b, 0⟩

/-- The conditions of `cmp` (R107). -/
def cmpHolds : Cmp → W64 → W64 → Bool
  | .eq, a, b => a == b
  | .ne, a, b => a != b
  | .lt, a, b => a.slt b
  | .ge, a, b => b.sle a
  | .ltu, a, b => a.ult b
  | .geu, a, b => b.ule a

end Sys2Proof.Machine
end

