-- ==== Sys2Proof/Machine/Fmt.lean ====
section
/-! DEFINITION. Number formats, exact values and rounding (05 R81 to R99): every operation computes the exact result and
rounds it once. -/

namespace Sys2Proof.Machine
open Sys2Proof

/-! ## Floating-point formats (R82) -/

/-- A floating-point format: exponent and fraction bits, bias, the largest finite magnitude code, the infinity code if there
is one, and the canonical NaN if there is one. -/
structure FFmt where
  ebits : Nat
  fbits : Nat
  bias : Nat
  maxCode : Nat
  infCode : Option Nat
  nanCode : Option Nat
  deriving DecidableEq, Repr

/-- Width in bits. -/
def FFmt.width (f : FFmt) : Nat := 1 + f.ebits + f.fbits

def fp64 : FFmt := ⟨11, 52, 1023, 0x7FEFFFFFFFFFFFFF, some 0x7FF0000000000000, some 0x7FF8000000000000⟩
def fp32 : FFmt := ⟨8, 23, 127, 0x7F7FFFFF, some 0x7F800000, some 0x7FC00000⟩
def bf16 : FFmt := ⟨8, 7, 127, 0x7F7F, some 0x7F80, some 0x7FC0⟩
def fp16 : FFmt := ⟨5, 10, 15, 0x7BFF, some 0x7C00, some 0x7E00⟩
def e4m3 : FFmt := ⟨4, 3, 7, 0x7E, none, some 0x7F⟩
def e5m2 : FFmt := ⟨5, 2, 15, 0x7B, some 0x7C, some 0x7E⟩
def e2m1 : FFmt := ⟨2, 1, 1, 0x7, none, none⟩

/-! ## Exact values -/

/-- The value of an operand: a NaN, an infinity, or (-1)^neg * m * 2^e. -/
inductive FVal where
  | nan (signalling : Bool)
  | inf (neg : Bool)
  | fin (neg : Bool) (m : Nat) (e : Int)
  deriving DecidableEq, Repr, Inhabited

/-- The value of a code of a format (R82, R83). -/
def FFmt.decode (f : FFmt) (v : Nat) : FVal :=
  let neg := bit v (f.ebits + f.fbits)
  let mag := v % 2 ^ (f.ebits + f.fbits)
  let ex := mag / 2 ^ f.fbits
  let fr := mag % 2 ^ f.fbits
  if f.infCode.isSome && ex == 2 ^ f.ebits - 1 then
    if fr = 0 then .inf neg else .nan (!bit fr (f.fbits - 1))
  else if f.infCode.isNone && f.nanCode == some mag then .nan false
  else if ex = 0 then .fin neg fr (1 - (f.bias : Int) - f.fbits)
  else .fin neg (2 ^ f.fbits + fr) ((ex : Int) - f.bias - f.fbits)

namespace FVal

def isNan : FVal → Bool
  | .nan _ => true
  | _ => false
def isSig : FVal → Bool
  | .nan s => s
  | _ => false
def isZero : FVal → Bool
  | .fin _ 0 _ => true
  | _ => false
def isInf : FVal → Bool
  | .inf _ => true
  | _ => false
/-- The sign of an infinity or a finite value. -/
def neg : FVal → Bool
  | .nan _ => false
  | .inf n => n
  | .fin n _ _ => n
/-- The value with the opposite sign. -/
def negate : FVal → FVal
  | .nan s => .nan s
  | .inf n => .inf (!n)
  | .fin n m e => .fin (!n) m e

end FVal

/-- `m * 2^(e - low)` for `low ≤ e`. -/
def scaleTo (m : Nat) (e low : Int) : Int := (m : Int) * 2 ^ (e - low).toNat

/-- A finite value as a signed multiple of `2^low`. -/
def signedAt (neg : Bool) (m : Nat) (e low : Int) : Int := if neg then - scaleTo m e low else scaleTo m e low

/-- Compare two values that are no NaN: -1, 0 or 1; the two zeros are equal. -/
def FVal.cmp (a b : FVal) : Int :=
  match a, b with
  | .inf n, .inf k => if n == k then 0 else if n then -1 else 1
  | .inf n, _ => if n then -1 else 1
  | _, .inf k => if k then 1 else -1
  | .fin n m e, .fin k p f =>
    let low := min e f
    let x := signedAt n m e low
    let y := signedAt k p f low
    if x < y then -1 else if x = y then 0 else 1
  | _, _ => 0

/-! ## Rounding (R97, R98) -/

/-- How a rounding step rounds: the effective mode, and the stochastic word of mode SR. -/
structure Rnd where
  mode : RMode
  word : Nat := 0
  deriving DecidableEq, Repr, Inhabited

/-- The mode a code of FCTL.RM or of a record names (R68, R97). -/
def modeOf (c : BitVec 3) : RMode := (RMode.ofCode c).getD .rne

/-- A magnitude to round: between `m * 2^e` and the next multiple of `2^e`, strictly above the former when `sticky`. -/
structure Mag where
  m : Nat
  e : Int
  sticky : Bool := false
  deriving DecidableEq, Repr, Inhabited

/-- Round a magnitude to a multiple of `2^q`: the multiple, and whether it differs from the magnitude. -/
def Mag.at (x : Mag) (r : Rnd) (neg : Bool) (q : Int) : Nat × Bool :=
  if q ≤ x.e then (x.m * 2 ^ (x.e - q).toNat, x.sticky)
  else
    let sh := (q - x.e).toNat
    let t := x.m / 2 ^ sh
    let rem := x.m % 2 ^ sh
    let half := 2 ^ (sh - 1)
    let inexact := rem != 0 || x.sticky
    let up := match r.mode with
      | .rtz => false
      | .rdn => neg && inexact
      | .rup => !neg && inexact
      | .rmm => decide (half ≤ rem)
      | .sr => decide (65536 ≤ rem * 65536 / 2 ^ sh + r.word)
      | .rne | .dyn => decide (half < rem) || (decide (rem = half) && (x.sticky || t % 2 == 1))
    (if up then t + 1 else t, inexact)

/-- The result of a rounding step or an operation: a code of the destination format, and the flags raised. -/
structure FRes where
  code : Nat
  flags : W64 := 0
  deriving DecidableEq, Repr, Inhabited

/-- The code of a sign and a magnitude code. -/
def FFmt.signed (f : FFmt) (neg : Bool) (mag : Nat) : Nat := if neg then mag + 2 ^ (f.ebits + f.fbits) else mag

/-- The canonical NaN; +0 where the format has none (R83, R85). -/
def FFmt.nan (f : FFmt) : Nat := f.nanCode.getD 0

/-- What an overflow delivers (R85): `conv` is a conversion into a format of 8 bits or fewer. -/
def FFmt.overflow (f : FFmt) (conv : Bool) (r : Rnd) (neg : Bool) : Nat :=
  let toMax := f.signed neg f.maxCode
  match f.infCode with
  | none => toMax
  | some i =>
    if conv then toMax
    else match r.mode with
      | .rtz => toMax
      | .rdn => if neg then f.signed neg i else toMax
      | .rup => if neg then toMax else f.signed neg i
      | _ => f.signed neg i

/-- Round a magnitude to a format (R84, R85, R97): tininess is detected after rounding. In mode SR the rounding that tells of tininess
uses the element's own word (log 49, DESIGN CHOICE). -/
def FFmt.round (f : FFmt) (conv : Bool) (r : Rnd) (neg : Bool) (x : Mag) : FRes :=
  if x.m = 0 && !x.sticky then ⟨f.signed neg 0, 0⟩
  else
    let emin : Int := 1 - (f.bias : Int)
    let lead : Int := (Nat.log2 x.m : Int) + x.e
    let q := max lead emin - f.fbits
    let (t, inexact) := x.at r neg q
    let p := f.fbits + 1
    let code :=
      if t < 2 ^ f.fbits then t
      else if t = 2 ^ p then ((q + 1 + f.fbits + f.bias).toNat) * 2 ^ f.fbits
      else ((q + f.fbits + f.bias).toNat) * 2 ^ f.fbits + (t - 2 ^ f.fbits)
    if f.maxCode < code then ⟨f.overflow conv r neg, flagOF ||| flagNX⟩
    else
      let tiny := decide (lead < emin) && !(decide (lead = emin - 1) && (x.at r neg (lead - f.fbits)).1 == 2 ^ p)
      ⟨f.signed neg code, if inexact then (if tiny then flagUF ||| flagNX else flagNX) else 0⟩

/-- Round an exact signed multiple of `2^e`; an exact zero has the sign `zneg`. -/
def FFmt.roundInt (f : FFmt) (conv : Bool) (r : Rnd) (zneg : Bool) (v : Int) (e : Int) : FRes :=
  if v = 0 then ⟨f.signed zneg 0, 0⟩ else f.round conv r (v < 0) ⟨v.natAbs, e, false⟩

/-- Deliver a value in a format: a NaN as the canonical one, with NV when it signals, an infinity as R85 says. -/
def FFmt.deliver (f : FFmt) (conv : Bool) (r : Rnd) (v : FVal) : FRes :=
  match v with
  | .nan s => ⟨f.nan, if s || f.nanCode.isNone then flagNV else 0⟩
  | .inf n => match f.infCode with
    | some i => ⟨f.signed n i, 0⟩
    | none => ⟨f.signed n f.maxCode, flagOF ||| flagNX⟩
  | .fin n m e => f.round conv r n ⟨m, e, false⟩

/-! ## Arithmetic -/

/-- NV for every signalling operand. -/
def sigFlags (l : List FVal) : W64 := if l.any FVal.isSig then flagNV else 0

/-- A NaN result of operands. -/
def FFmt.nanRes (f : FFmt) (l : List FVal) (invalid : Bool) : FRes := ⟨f.nan, sigFlags l ||| (if invalid then flagNV else 0)⟩

/-- Sign of an exact zero sum (R97). -/
def zeroSign (r : Rnd) (a b : Bool) : Bool := if a == b then a else r.mode == .rdn

/-- The exact sum of two finite values, as a multiple of a power of two. -/
def exactSum (n : Bool) (m : Nat) (e : Int) (k : Bool) (p : Nat) (g : Int) : Int × Int :=
  let low := min e g
  (signedAt n m e low + signedAt k p g low, low)

/-- A + B (R97, R110). -/
def FFmt.add (f : FFmt) (r : Rnd) (a b : FVal) : FRes :=
  if a.isNan || b.isNan then f.nanRes [a, b] false
  else match a, b with
    | .inf n, .inf k => if n == k then f.deliver false r (.inf n) else f.nanRes [] true
    | .inf n, _ => f.deliver false r (.inf n)
    | _, .inf k => f.deliver false r (.inf k)
    | .fin n m e, .fin k p g =>
      let s := exactSum n m e k p g
      f.roundInt false r (zeroSign r n k) s.1 s.2
    | _, _ => f.nanRes [] false

/-- The exact product of two values that are no NaN; `none` is invalid. -/
def exactMul (a b : FVal) : Option FVal :=
  match a, b with
  | .fin n m e, .fin k p g => some (.fin (n != k) (m * p) (e + g))
  | x, y => if x.isZero || y.isZero then none else some (.inf (x.neg != y.neg))

/-- A * B. -/
def FFmt.mul (f : FFmt) (r : Rnd) (a b : FVal) : FRes :=
  if a.isNan || b.isNan then f.nanRes [a, b] false
  else match exactMul a b with
    | none => f.nanRes [] true
    | some v => f.deliver false r v

/-- A * B + C with one rounding; an infinity times zero is invalid even when C is a quiet NaN (R110). -/
def FFmt.fma (f : FFmt) (r : Rnd) (a b c : FVal) : FRes :=
  let invalid := !a.isNan && !b.isNan && (exactMul a b).isNone
  if a.isNan || b.isNan || c.isNan || invalid then f.nanRes [a, b, c] invalid
  else match exactMul a b with
    | none => f.nanRes [] true
    | some p => f.add r p c

/-- A / B. -/
def FFmt.div (f : FFmt) (r : Rnd) (a b : FVal) : FRes :=
  if a.isNan || b.isNan then f.nanRes [a, b] false
  else
    let n := a.neg != b.neg
    match a, b with
    | .inf _, .inf _ => f.nanRes [] true
    | .inf _, _ => f.deliver false r (.inf n)
    | _, .inf _ => ⟨f.signed n 0, 0⟩
    | .fin _ m e, .fin _ p g =>
      if p = 0 then (if m = 0 then f.nanRes [] true else { f.deliver false r (.inf n) with flags := flagDZ })
      else if m = 0 then ⟨f.signed n 0, 0⟩
      else
        let sh := f.fbits + 24 + Nat.log2 p
        f.round false r n ⟨m * 2 ^ sh / p, e - g - sh, m * 2 ^ sh % p != 0⟩
    | _, _ => f.nanRes [] false

/-- The largest number whose square is at most `n`, by `fuel` halvings from `b`. -/
def isqrtFrom (n : Nat) : (fuel : Nat) → (b acc : Nat) → Nat
  | 0, _, acc => acc
  | k + 1, b, acc => isqrtFrom n k (b / 2) (if (acc + b) * (acc + b) ≤ n then acc + b else acc)

/-- The integer square root. -/
def isqrt (n : Nat) : Nat := let k := Nat.log2 n / 2 + 1; isqrtFrom n (k + 1) (2 ^ k) 0

/-- The square root of a positive magnitude, with at least `bits` bits. -/
def sqrtMag (bits : Nat) (m : Nat) (e : Int) : Mag :=
  let sh := 2 * bits + (if (e % 2 : Int) = 0 then 0 else 1)
  let v := m * 2 ^ sh
  let q := isqrt v
  ⟨q, (e - sh) / 2, q * q != v⟩

/-- The square root; of a negative value that is not zero, NaN and NV (R110). -/
def FFmt.sqrt (f : FFmt) (r : Rnd) (a : FVal) : FRes :=
  match a with
  | .nan _ => f.nanRes [a] false
  | .inf n => if n then f.nanRes [] true else f.deliver false r a
  | .fin n m e =>
    if m = 0 then ⟨f.signed n 0, 0⟩
    else if n then f.nanRes [] true
    else f.round false r false (sqrtMag (f.fbits + 24) m e)

/-- IEEE minimumNumber or maximumNumber; -0 orders below +0 (R110). -/
def FFmt.minMax (f : FFmt) (big : Bool) (a b : Nat) : FRes :=
  let x := f.decode a
  let y := f.decode b
  let fl := sigFlags [x, y]
  if x.isNan then ⟨if y.isNan then f.nan else b, fl⟩
  else if y.isNan then ⟨a, fl⟩
  else
    let c := x.cmp y
    let aLess := decide (c < 0) || (decide (c = 0) && x.neg && !y.neg)
    ⟨if aLess != big then a else b, fl⟩

/-- The conditions of R111 and NV. -/
def fcmpHolds (k : FCmp) (a b : FVal) : Bool × W64 :=
  let un := a.isNan || b.isNan
  let c := a.cmp b
  let v := match k with
    | .eq => !un && c == 0
    | .lt => !un && decide (c < 0)
    | .le => !un && decide (c ≤ 0)
    | .un => un
    | .ne => un || c != 0
  (v, if (un && (k == .lt || k == .le)) || a.isSig || b.isSig then flagNV else 0)

/-- The class mask of R113. -/
def FFmt.classify (f : FFmt) (v : Nat) : Nat :=
  match f.decode v with
  | .nan s => if s then 0x100 else 0x200
  | .inf n => if n then 0x001 else 0x080
  | .fin n m _ =>
    if m = 0 then (if n then 0x008 else 0x010)
    else if m < 2 ^ f.fbits then (if n then 0x004 else 0x020)
    else if n then 0x002 else 0x040

/-- The sign operations of R113 on codes. -/
def FFmt.signOp (f : FFmt) (k : Sgn) (a b : Nat) : Nat :=
  let s := f.ebits + f.fbits
  let sg := match k with
    | .cp => bit b s
    | .neg => !bit b s
    | .xor => bit a s != bit b s
  f.signed sg (a % 2 ^ s)

/-! ## Integers (R86) -/

/-- An integer format: signedness and width. -/
structure IFmt where
  signed : Bool
  width : Nat
  deriving DecidableEq, Repr, Inhabited

namespace IFmt

def lo (f : IFmt) : Int := if f.signed then - (2 ^ (f.width - 1) : Int) else 0
def hi (f : IFmt) : Int := if f.signed then (2 ^ (f.width - 1) : Int) - 1 else (2 ^ f.width : Int) - 1
/-- The value of a code. -/
def val (f : IFmt) (v : Nat) : Int := if f.signed then toSigned f.width v else (v % 2 ^ f.width : Int)
/-- The code of an integer, modulo 2^w. -/
def wrap (f : IFmt) (i : Int) : Nat := ofSigned f.width i
/-- Deliver an exact result (R86). -/
def deliver (f : IFmt) (sat : Bool) (i : Int) : Nat × W64 :=
  if f.lo ≤ i ∧ i ≤ f.hi then (f.wrap i, 0)
  else if sat then (f.wrap (if i < f.lo then f.lo else f.hi), flagISAT)
  else (f.wrap i, 0)

end IFmt

/-- A floating-point value to an integer: rounds, saturates; NV alone when out of range or NaN (R84, R86). -/
def toInt (f : IFmt) (r : Rnd) (v : FVal) : Nat × W64 :=
  match v with
  | .nan _ => (0, flagNV)
  | .inf n => (f.wrap (if n then f.lo else f.hi), flagNV)
  | .fin n m e =>
    let t := Mag.at ⟨m, e, false⟩ r n 0
    let i : Int := if n then -(t.1 : Int) else t.1
    if i < f.lo then (f.wrap f.lo, flagNV)
    else if f.hi < i then (f.wrap f.hi, flagNV)
    else (f.wrap i, if t.2 then flagNX else 0)

/-- An integer to a floating-point format (R86). -/
def ofInt (f : FFmt) (conv : Bool) (r : Rnd) (i : Int) : FRes := f.roundInt conv r false i 0

/-! ## Format codes (R81) -/

/-- What a format code names. -/
inductive Fmt where
  | fp (f : FFmt)
  | lns6
  | e8m0
  | fp64
  | int (f : IFmt)
  deriving DecidableEq, Repr

/-- The table of R81. -/
def fmtOf (c : BitVec 6) : Option Fmt :=
  match c.toNat with
  | 0x00 => some (.fp fp32) | 0x01 => some (.fp bf16) | 0x02 => some (.fp fp16) | 0x03 => some (.fp e4m3)
  | 0x04 => some (.fp e5m2) | 0x05 => some (.fp e2m1) | 0x06 => some .lns6 | 0x07 => some .e8m0 | 0x08 => some .fp64
  | 0x10 => some (.int ⟨true, 8⟩) | 0x11 => some (.int ⟨false, 8⟩) | 0x12 => some (.int ⟨true, 16⟩) | 0x13 => some (.int ⟨false, 16⟩)
  | 0x14 => some (.int ⟨true, 32⟩) | 0x15 => some (.int ⟨false, 32⟩) | 0x16 => some (.int ⟨true, 64⟩) | 0x17 => some (.int ⟨false, 64⟩)
  | 0x18 => some (.int ⟨true, 4⟩) | 0x19 => some (.int ⟨false, 4⟩)
  | _ => none

/-- The width of an element in a register. -/
def Fmt.width : Fmt → Nat
  | .fp f => f.width
  | .lns6 | .e8m0 => 8
  | .fp64 => 64
  | .int f => f.width

/-- The width of a format code's elements; 0 for a code that is absent. -/
def codeWidth (c : BitVec 6) : Nat := ((fmtOf c).map Fmt.width).getD 0

/-- The floating-point format of a code, if it names one that `Fmt.fp` holds. -/
def ffmtOf (c : BitVec 6) : Option FFmt :=
  match fmtOf c with
  | some (.fp f) => some f
  | _ => none

/-- The integer format of a code. -/
def ifmtOf (c : BitVec 6) : Option IFmt :=
  match fmtOf c with
  | some (.int f) => some f
  | _ => none

/-- Formats that take block scales (R81). -/
def blockScalable (c : BitVec 6) : Bool := c == 3 || c == 4 || c == 5 || c == 6

/-! ## LNS6 (R88 to R90) -/

/-- Significands of LnsTable over 2^23 (R89). -/
def lnsTable (f : Nat) : Nat := if f = 0 then 0x800000 else if f = 1 then 0x9837F0 else if f = 2 then 0xB504F3 else 0xD744FD

/-- The linear value of a sum of logarithms (R89). -/
def lnsLinear (neg : Bool) (sum : Int) : FVal := .fin neg (lnsTable (sum % 4).toNat) (sum / 4 - 23)

/-- L of an LNS6 code. -/
def lnsL (v : Nat) : Int := toSigned 5 v

/-- The value of an LNS6 element (R88, R89); the zero code is +0. -/
def lnsVal (v : Nat) : FVal := if v % 32 = 16 then .fin false 0 0 else lnsLinear (bit v 5) (lnsL v)

/-- The product of two LNS6 elements (R89). -/
def lnsProduct (a b : Nat) : FVal :=
  if a % 32 = 16 ∨ b % 32 = 16 then .fin false 0 0 else lnsLinear (bit a 5 != bit b 5) (lnsL a + lnsL b)

/-- `LnsFromFp32` of R90, on an exact value. -/
def lnsFrom (v : FVal) : FRes :=
  match v with
  | .nan _ => ⟨0x10, flagNV⟩
  | .inf n => ⟨(if n then 0x20 else 0) + 0x0F, flagOF ||| flagNX⟩
  | .fin n m e =>
    if m = 0 then ⟨0x10, 0⟩
    else
      let l := Nat.log2 m
      -- significand compared with a threshold t over 2^23
      let ge : Nat → Bool := fun t => decide (t * 2 ^ l ≤ m * 2 ^ 23)
      let k : Int := if ge 0xEAC0C7 then 4 else if ge 0xC5672A then 3 else if ge 0xA5FED7 then 2 else if ge 0x8B95C2 then 1 else 0
      let q : Int := 4 * ((l : Int) + e) + k
      if 15 < q then ⟨(if n then 0x20 else 0) + 0x0F, flagOF ||| flagNX⟩
      else if q < -15 then ⟨0x10, flagUF ||| flagNX⟩
      else ⟨(if n then 0x20 else 0) + ofSigned 5 q, if k = 0 ∧ m = 2 ^ l then 0 else flagNX⟩

/-! ## Stochastic words (R98) -/

/-- `SrNext` of R98: the next state and the word drawn. -/
def srNext (x : W64) : W64 × Nat :=
  let x := x ^^^ (x <<< 13)
  let x := x ^^^ (x >>> 7)
  let x := x ^^^ (x <<< 17)
  (x, (x >>> 48).toNat)

/-- Every element format's value of a code; integers are exact (R82, R86, R88). -/
def valueOf (c : BitVec 6) (v : Nat) : FVal :=
  match fmtOf c with
  | some (.fp f) => f.decode v
  | some .lns6 => lnsVal v
  | some .e8m0 => if v % 256 = 255 then .nan false else .fin false 1 ((v % 256 : Int) - 127)
  | some .fp64 => Sys2Proof.Machine.fp64.decode v
  | some (.int f) => let i := f.val v; .fin (i < 0) i.natAbs 0
  | none => .nan false

/-- Convert a value into a format of a vector element (R85, R90). -/
def convertTo (c : BitVec 6) (r : Rnd) (v : FVal) : FRes :=
  match fmtOf c with
  | some (.fp f) => f.deliver (decide (f.width ≤ 8)) r v
  | some .lns6 => lnsFrom v
  | some (.int f) => let x := toInt f r v; ⟨x.1, x.2⟩
  | _ => ⟨0, 0⟩

end Sys2Proof.Machine
end

