-- ==== Sys2Proof/Machine/Image.lean ====
section
/-! DEFINITION. Command images (R314, R317, R321, R326, R330), tiles in the tile store (R175 to R178), and the ranges that the
range checker compares (R248, R249, R179). -/

namespace Sys2Proof.Machine
open Sys2Proof

/-! ## Bytes with poison -/

/-- A byte and whether its granule is poisoned. -/
abbrev PByte := Byte × Bool

/-- Read `n` bytes, each with the poison of its granule (R208). -/
def readBytes (s : State) (l : Loc) (n : Nat) : List PByte :=
  match l with
  | .sp k o => let c := s.core k; (List.range n).map fun i => (Memory.get c.sp (o + i), c.pois.contains ((o + i) / 8))
  | .ts k o => let c := s.core k; (List.range n).map fun i => (Memory.get c.ts (o + i), c.tsBad.contains ((o + i) / 8))
  | .hbm p => (List.range n).map fun i => (Memory.get s.hbm (p + i), linePoisoned s (p + i))
  | .host p => (Memory.read s.host p n).map fun b => (b, false)

/-- The aligned 64-byte block that holds a location. -/
def Loc.block : Loc → Loc
  | .sp k o => .sp k (o / 64 * 64)
  | .ts k o => .ts k (o / 64 * 64)
  | .hbm p => .hbm (p / 64 * 64)
  | .host p => .host (p / 64 * 64)

/-- The offset of a location in its block. -/
def Loc.inBlock : Loc → Nat
  | .sp _ o | .ts _ o | .hbm o | .host o => o % 64

/-- A byte of an aligned 64-byte block after several parts were laid over it in order: the last part that covers it. Parts are
an offset and bytes. -/
def laidOver (parts : List (Nat × List PByte)) (i : Nat) : Option PByte :=
  parts.foldl (fun r p => if p.1 ≤ i && i < p.1 + p.2.length then (p.2[i - p.1]?).or r else r) none

/-- Rising numbers as runs of consecutive ones: the first and how many. -/
def runsOf : List Nat → List (Nat × Nat)
  | [] => []
  | i :: r => match runsOf r with
    | (j, n) :: t => if i + 1 = j then (i, n + 1) :: t else (i, 1) :: (j, n) :: t
    | [] => [(i, 1)]

/-- Write parts of one aligned 64-byte block as one access (R240): poison goes to every granule that receives any, and a
granule written whole without any is cleared (R208). `l` is the block's first byte; parts are offsets in it. -/
def writeBlock (s : State) (l : Loc) (parts : List (Nat × List PByte)) : State :=
  let at' := laidOver parts
  let idx := (List.range 64).filter fun i => (at' i).isSome
  let put (m : List Host.Cell) (o : Nat) : List Host.Cell :=
    idx.foldl (fun m i => match at' i with | none => m | some b => Memory.set m (o + i) b.1) m
  let mark (g o : Nat) (set : List Nat) : List Nat :=
    (granules g o 64).foldl (fun acc k =>
      let bs := (List.range g).map fun j => if g * k + j < o then none else at' (g * k + j - o)
      if bs.any fun b => match b with | some x => x.2 | none => false then setIns acc k
      else if bs.all (·.isSome) then setDel acc k else acc) set
  match l with
  | .sp k o => s.modCore k fun c => { c with sp := put c.sp o, pois := mark 8 o c.pois }
  | .ts k o => s.modCore k fun c => { c with ts := put c.ts o, tsBad := mark 8 o c.tsBad }
  | .hbm p => { s with hbm := put s.hbm p, hbmPois := mark 64 p s.hbmPois }
  | .host p => (runsOf idx).foldl (fun s r =>
      let bytes := ((List.range r.2).map (r.1 + ·)).filterMap at'
      writeLoc s (.host (p + r.1)) (bytes.map (·.1)) (bytes.any (·.2))) s

/-! ## Tiles (R175 to R178) -/

/-- A shape word's fields (R177). -/
structure Shape where
  k : Nat
  n : Nat
  fb : BitVec 6
  sblk : Nat
  deriving DecidableEq, Repr, Inhabited

/-- The fields of a shape word. -/
def Shape.ofNat (w : Nat) : Shape := ⟨bits w 0 11, bits w 11 7, BitVec.ofNat 6 (bits w 18 6), bits w 24 2⟩

/-- FB lies in the set of R177. -/
def tileFmt (fb : BitVec 6) : Bool := decide (fb.toNat ≤ 6) || fb == 0x10 || fb == 0x11

/-- Bits of an element in memory (R92, R93). -/
def memWidth (c : BitVec 6) : Nat := if c = 0x06 then 6 else codeWidth c

/-- Kblock of a format of B (R175). -/
def kblock (fb : BitVec 6) : Nat :=
  match fb.toNat with
  | 0 => 8
  | 1 | 2 => 32
  | 5 | 6 => 128
  | _ => 64

/-- What steps 1 and 2 of R178 find in a shape word: nothing, an illegal instruction (`true`) or an illegal format (`false`). -/
def shapeFault (w : Nat) : Option Bool :=
  let h := Shape.ofNat w
  if w / 2 ^ 26 != 0 || h.sblk == 3 || h.n == 0 || decide (64 < h.n) || h.k == 0 || (tileFmt h.fb && decide (8 * kblock h.fb < h.k)) then some true
  else if !tileFmt h.fb || (h.sblk != 0 && !blockScalable h.fb) then some false
  else none

namespace Shape

/-- Planes of the tile (R175). -/
def planes (h : Shape) : Nat := ceilDiv h.k (kblock h.fb)
/-- Bytes per plane per column (R175). -/
def planeBytes (h : Shape) : Nat := kblock h.fb * memWidth h.fb / 8
/-- Bytes of a column record (R176). -/
def colBytes (h : Shape) : Nat := ceilDiv (h.planes * h.planeBytes) 64 * 64
/-- Rows of the scale header (R176). -/
def scaleRows (h : Shape) : Nat := if h.sblk = 0 then 0 else ceilDiv h.k 32
/-- Bytes of the tile (R176). -/
def bytes (h : Shape) : Nat := 64 * h.scaleRows + h.n * h.colBytes

end Shape

/-! ## Images -/

/-- An image of `cpy` or `cfill` (R317). -/
structure CopyImg where
  src : Nat
  dst : Nat
  esz : Nat
  ndim : Nat
  counts : List Nat
  sstr : List Int
  dstr : List Int
  deriving DecidableEq, Repr, Inhabited

/-- The image of `cpy` (`fill` false) or `cfill` (`fill` true); `none` when it breaks a limit of R317. -/
def CopyImg.parse (fill : Bool) (b : List Byte) : Option CopyImg :=
  let ctl := leAt b 7 1
  let esz := ctl % 8
  let ndim := ctl / 16 % 8
  let cnt := (List.range 6).map fun d => leAt b (0x10 + 2 * d) 2
  let ss := (List.range 6).map fun d => toSigned 24 (leAt b (0x1C + 3 * d) 3)
  let ds := (List.range 6).map fun d => toSigned 24 (leAt b (0x2E + 3 * d) 3)
  if bit ctl 3 || bit ctl 7 || leAt b 15 1 != 0 || esz == 7 || ndim == 0 || ndim == 7
      || (cnt.drop ndim).any (· != 0) || (ss.drop ndim).any (· != 0) || (ds.drop ndim).any (· != 0)
      || (fill && (decide (3 < esz) || leAt b 0 7 != 0 || ss.any (· != 0))) then none
  else some ⟨leAt b 0 7, leAt b 8 7, esz, ndim, cnt.take ndim, ss.take ndim, ds.take ndim⟩

namespace CopyImg

/-- Bytes of an element. -/
def size (g : CopyImg) : Nat := 2 ^ g.esz
/-- Elements of the command (R318). -/
def elems (g : CopyImg) : Nat := g.counts.foldl (· * ·) 1
/-- The index of element `k`: i0 counts fastest (R318). -/
def index (counts : List Nat) (k : Nat) : List Nat :=
  match counts with
  | [] => []
  | c :: r => k % c :: index r (k / c)
/-- An address of R318 for element `k`. -/
def addr (g : CopyImg) (base : Nat) (str : List Int) (k : Nat) : W64 :=
  let off := ((index g.counts k).zip str).foldl (fun (a : Int) e => a + (e.1 : Int) * e.2) 0
  BitVec.ofNat 64 (ofSigned 56 ((base : Int) + (g.size : Int) * off))
def srcAt (g : CopyImg) (k : Nat) : W64 := g.addr g.src g.sstr k
def dstAt (g : CopyImg) (k : Nat) : W64 := g.addr g.dst g.dstr k

end CopyImg

/-- An image of `cpyt` (R321). -/
structure TileImg where
  src : Nat
  dst : Nat
  shape : Shape
  rstr : Nat
  scl : Nat
  deriving DecidableEq, Repr, Inhabited

/-- The image of `cpyt`; `none` when it breaks a limit of R321. -/
def TileImg.parse (b : List Byte) : Option TileImg :=
  let w := leAt b 0x10 8
  let h := Shape.ofNat w
  let rstr := leAt b 0x18 4
  let scl := leAt b 0x20 7
  let dst := leAt b 8 7
  if leAt b 7 1 != 0 || leAt b 15 1 != 0 || leAt b 0x1C 4 != 0 || leAt b 0x27 25 != 0 || (shapeFault w).isSome
      || decide (rstr < ceilDiv (h.n * memWidth h.fb) 8) || (h.sblk == 0 && scl != 0) || dst % 64 != 0 then none
  else some ⟨leAt b 0 7, dst, h, rstr, scl⟩

namespace TileImg

/-- Segments of the command: 64-byte blocks of the destination (R321). -/
def segs (g : TileImg) : Nat := g.shape.bytes / 64
def dstAt (g : TileImg) (b : Nat) : W64 := BitVec.ofNat 64 ((g.dst + 64 * b) % 2 ^ 56)
/-- The column that block `b` belongs to, and the place of its first byte in the column record. -/
def column (g : TileImg) (b : Nat) : Nat × Nat :=
  let o := 64 * (b - g.shape.scaleRows)
  (o / g.shape.colBytes, o % g.shape.colBytes)
/-- The rows of B that block `b` holds bits of. -/
def rows (g : TileImg) (b : Nat) : List Nat :=
  let w := memWidth g.shape.fb
  let r := (g.column b).2
  ((List.range g.shape.k).filter fun k => decide (8 * r < (k + 1) * w) && decide (k * w < 8 * (r + 64)))
/-- The bytes of memory that element (`k`, `n`) of B lies in. -/
def elemAt (g : TileImg) (k n : Nat) : W64 × Nat :=
  let w := memWidth g.shape.fb
  let lo := n * w / 8
  (BitVec.ofNat 64 ((g.src + k * g.rstr + lo) % 2 ^ 56), (n * w + w - 1) / 8 - lo + 1)
/-- What block `b` reads: addresses and byte counts. -/
def reads (g : TileImg) (b : Nat) : List (W64 × Nat) :=
  if b < g.shape.scaleRows then [(BitVec.ofNat 64 ((g.scl + 64 * b) % 2 ^ 56), 64)]
  else (g.rows b).map fun k => g.elemAt k (g.column b).1
/-- The 64 bytes of block `b` from what it read, in the order of `reads`. A byte is poisoned when an element in it is. -/
def block (g : TileImg) (b : Nat) (got : List (List PByte)) : List PByte :=
  if b < g.shape.scaleRows then got.headD []
  else
    let w := memWidth g.shape.fb
    let (n, r) := g.column b
    -- the value and the poison of each row's element
    let els := ((g.rows b).zip got).map fun e => (e.1, bits (leNat (e.2.map (·.1))) (n * w % 8) w, e.2.any (·.2))
    (List.range 64).map fun j =>
      let lo := 8 * (r + j)
      let mine := els.filter fun e => decide (lo < (e.1 + 1) * w) && decide (e.1 * w < lo + 8)
      let v := mine.foldl (fun a e => a + (if lo ≤ e.1 * w then bits (e.2.1 * 2 ^ (e.1 * w - lo)) 0 8 else bits e.2.1 (lo - e.1 * w) 8)) 0
      (BitVec.ofNat 8 v, mine.any fun e => e.2.2)

end TileImg

/-- The window or space that a command of R326 or R330 may name: global space, the own scratchpad or the pavilion window, without the
gaps between them (R205). -/
def engineSpace (a : Nat) : Bool :=
  decide (a < 2 ^ 55) || (decide (0xFF000000000000 ≤ a) && decide (a < 0xFF000000000000 + spSize))
    || (decide (0xFF010000000000 ≤ a) && decide (a < 0xFF010000000000 + 144 * 2 ^ 20) && decide (a % 2 ^ 20 < spSize))

/-- An image of `lzput` (R326). -/
structure PutImg where
  src : Nat
  slot : BitVec 6
  len : Nat
  deriving DecidableEq, Repr, Inhabited

/-- The image of `lzput`; `none` when it breaks a limit of R326. -/
def PutImg.parse (b : List Byte) : Option PutImg :=
  let src := leAt b 0 7
  let slot := leAt b 8 1
  let len := leAt b 12 4
  if leAt b 7 1 != 0 || decide (64 ≤ slot) || leAt b 9 3 != 0 || leAt b 16 48 != 0 || src % 64 != 0 || !engineSpace src
      || len % 64 != 0 || decide (len < 64) || decide (65536 < len) then none
  else some ⟨src, BitVec.ofNat 6 slot, len⟩

/-- An image of `xred` (R330). -/
structure RedImg where
  loc : Nat
  bf16 : Bool
  max : Bool
  rm : RMode
  zin : BitVec 4
  slotIn : Nat
  toLocal : Bool
  toRemote : Bool
  frin : Bool
  fslot : BitVec 6
  len : Nat
  sig : Nat
  gated : Bool
  sval : Nat
  deriving DecidableEq, Repr, Inhabited

/-- The image of `xred`; `none` when it breaks a limit of R330. -/
def RedImg.parse (b : List Byte) : Option RedImg :=
  let loc := leAt b 0 7
  let op := leAt b 7 1
  let rm := op / 16
  let zin := leAt b 8 1
  let slot := leAt b 9 1
  let dsel := leAt b 10 1
  let fslot := leAt b 11 1
  let len := leAt b 12 4
  let sig := leAt b 16 7
  let gate := leAt b 23 1
  if loc % 64 != 0 || !engineSpace loc || bit op 7 || bit op 2 || bit op 3
      || (if bit op 1 then rm != 0 else rm == 0 || decide (5 < rm))
      || decide (16 ≤ zin) || decide (64 ≤ slot) || decide (8 ≤ dsel) || dsel % 4 == 0 || decide (64 ≤ fslot)
      || len % 64 != 0 || decide (len < 64) || decide (65536 < len) || decide (2 ≤ gate)
      || (if gate = 1 then sig % 8 != 0 else sig != 0) || leAt b 32 32 != 0 then none
  else some ⟨loc, bit op 0, bit op 1, modeOf (BitVec.ofNat 3 rm), BitVec.ofNat 4 zin, slot, bit dsel 0, bit dsel 1, bit dsel 2,
    BitVec.ofNat 6 fslot, len, sig, gate == 1, leAt b 24 8⟩

/-! ## Zones -/

/-- Bytes of a zone's slot (R323). -/
def Zone.slotBytes (z : Zone) : Nat := 2 ^ (z.lsz.toNat + 6)

/-- Scratchpad offset of a slot. -/
def Zone.slotOff (z : Zone) (k : Nat) : Nat := z.base.toNat + k * z.slotBytes

/-- `InputZoneFits` of R331. -/
def RedImg.fits (g : RedImg) (c : Core) : Bool :=
  let z := c.zones.getD g.zin.toNat {}
  z.isOpen && decide (g.slotIn < z.cnt.toNat) && decide (g.len ≤ z.slotBytes)

/-! ## Ranges (R248, R249, R179) -/

/-- A range of scratchpad or tile store bytes that a pending command is still to read or write. -/
structure Piece where
  dst : Bool
  loc : Loc
  len : Nat
  deriving DecidableEq, Repr

/-- The scratchpad or tile store bytes at an effective address; global space is not compared. -/
def localLoc (s : State) (core : Nat) (ea : W64) : Option Loc :=
  match window s core ea with
  | .sp k o => some (.sp k o)
  | .ts o => some (.ts core o)
  | _ => none

/-- Two ranges share a byte. -/
def Loc.meets (a : Loc) (n : Nat) (b : Loc) (m : Nat) : Bool :=
  match a, b with
  | .sp k x, .sp j y => k == j && decide (x < y + m) && decide (y < x + n)
  | .ts k x, .ts j y => k == j && decide (x < y + m) && decide (y < x + n)
  | _, _ => false

/-- Two ranges share a byte, wherever they lie. -/
def Loc.shares (a : Loc) (n : Nat) (b : Loc) (m : Nat) : Bool :=
  match a, b with
  | .hbm x, .hbm y | .host x, .host y => decide (x < y + m) && decide (y < x + n)
  | _, _ => a.meets n b m

/-- The pieces of addresses and lengths. -/
def piecesOf (s : State) (core : Nat) (dst : Bool) (l : List (W64 × Nat)) : List Piece :=
  l.filterMap fun e => (localLoc s core e.1).map fun x => ⟨dst, x, e.2⟩

/-- A range without `n` bytes from `l`: what lies before them and after them. -/
def Piece.without (p : Piece) (l : Loc) (n : Nat) : List Piece :=
  let cut (x y : Nat) : List Piece :=
    (if x < y then [{ p with len := y - x }] else []) ++ (if y + n < x + p.len then [{ p with loc := p.loc.add (y + n - x), len := x + p.len - (y + n) }] else [])
  if !p.loc.meets p.len l n then [p]
  else match p.loc, l with
    | .sp _ x, .sp _ y | .ts _ x, .ts _ y => cut x y
    | _, _ => [p]

/-- A range of addresses as parts that lie in one aligned 64-byte block each. -/
def blockParts (ea : W64) (n : Nat) : List (W64 × Nat) :=
  let k := 64 - ea.toNat % 64
  if n ≤ k then [(ea, n)] else [(ea, k), (ea + BitVec.ofNat 64 k, n - k)]

/-- The number of the block of an address. -/
def blockNum (ea : W64) : Nat := ea.toNat / 64

/-- How far a command has come: its elements done, the source blocks that it has read already, the segments of 64 bytes that an `xred`
has reduced, and where the input slot of an `xred` lies, once it has arrived. -/
structure CmdAt where
  done : Nat := 0
  blocks : List Nat := []
  reduced : Nat := 0
  slot : Option Nat := none
  deriving DecidableEq, Repr, Inhabited

/-- Reads without what lies in blocks that have been read. -/
def CmdAt.unread (a : CmdAt) (l : List (W64 × Nat)) : List (W64 × Nat) :=
  if a.blocks.isEmpty then l else (l.flatMap fun e => blockParts e.1 e.2).filter fun e => !a.blocks.contains (blockNum e.1)

/-- What a command still reads and writes in scratchpads and the tile store. -/
def Cmd.ranges (s : State) (core : Nat) (c : Cmd) (at' : CmdAt) : List Piece :=
  match c.op with
  | .cpy | .cfill => match CopyImg.parse (c.op == .cfill) c.img with
    | none => []
    | some g =>
      let rest := (List.range (g.elems - at'.done)).map (at'.done + ·)
      (if c.op == .cfill then [] else piecesOf s core false (at'.unread (rest.map fun k => (g.srcAt k, g.size))))
        ++ piecesOf s core true (rest.map fun k => (g.dstAt k, g.size))
  | .cpyt => match TileImg.parse c.img with
    | none => []
    | some g =>
      let rest := (List.range (g.segs - at'.done)).map (at'.done + ·)
      piecesOf s core false (at'.unread (rest.flatMap g.reads)) ++ piecesOf s core true (rest.map fun k => (g.dstAt k, 64))
  | .lzput => match PutImg.parse c.img with
    | none => []
    | some g => piecesOf s core false [(BitVec.ofNat 64 (g.src + 64 * at'.done), g.len - 64 * at'.done)]
  | .xred => match RedImg.parse c.img with
    | none => []
    | some g =>
      let part (k : Nat) : List (W64 × Nat) := [(BitVec.ofNat 64 (g.loc + 64 * k), g.len - 64 * k)]
      let n := at'.reduced
      let z := (s.core core).zones.getD g.zin.toNat {}
      let input := at'.slot.or (if g.fits (s.core core) then some (z.slotOff g.slotIn) else none)
      piecesOf s core false (part n) ++ (if g.toLocal then piecesOf s core true (part at'.done) else [])
        ++ (match input with | some o => [⟨false, .sp core (o + 64 * n), g.len - 64 * n⟩] | none => [])
  | _ => []

/-- Pieces of a command without the signal word of a gated `xred`, which the range checker leaves out (R334). -/
def Cmd.compared (s : State) (core : Nat) (c : Cmd) (l : List Piece) : List Piece :=
  match if c.op == .xred then RedImg.parse c.img else none with
  | none => l
  | some g => match if g.gated then localLoc s core (BitVec.ofNat 64 g.sig) else none with
    | none => l
    | some w => l.flatMap fun p => p.without w 8

/-- How far a command of an engine has come. -/
def Pend.cmdAt (p : Pend) : CmdAt := ⟨p.done, p.blocks.map (·.1), p.buf.length / 64, p.slotAt⟩

/-- What the range checker compares of a command. -/
def Cmd.pieces (s : State) (core : Nat) (c : Cmd) (at' : CmdAt) : List Piece := c.compared s core (c.ranges s core at')

/-- The commands a core has pushed and that have not completed, each with what it still reads and writes (R248). -/
def pendingCmds (s : State) (core : Nat) : List (Cmd × List Piece) :=
  let c := s.core core
  (c.copyQ ++ c.units).map (fun p => (p.cmd, p.cmd.pieces s core p.cmdAt))
    ++ c.threads.toList.flatMap fun t => t.fifo.map fun m => (m, m.pieces s core {})

/-- The command in a command FIFO is younger than the vector access that runs in the lanes, of the same thread, and waits for it (R243). -/
def youngerPush (s : State) (core : Nat) (m : Cmd) : Bool :=
  match s.lane with
  | none => false
  | some e => decide (e.num < m.past) && (s.thread core e.thr).fifo.any (·.num == m.num)

/-- A pending command holds back an access: it is still to write one of its bytes, or to read one that a store would write (R249). -/
def cmdHolds (s : State) (core : Nat) (l : Loc) (n : Nat) (store : Bool) : Bool :=
  (pendingCmds s core).any fun e => !youngerPush s core e.1 && e.2.any fun p => (p.dst || store) && p.loc.meets p.len l n

/-- The range checker holds back a thread's access (R249); a location in the scratchpad of an island in a relock window holds
back every access from outside it (R358). -/
def heldBack (s : State) (core : Nat) (l : Loc) (n : Nat) (store : Bool) : Bool :=
  match l with
  | .hbm _ | .host _ => false
  | .ts .. => cmdHolds s core l n store
  | .sp k _ =>
    cmdHolds s core l n store
      || (isleOf s k != isleOf s core && (s.isleAt k).relock.isSome)

/-- A held selection: who holds it, its range, and the number of the core's next push when it was made. -/
structure Held where
  owner : ThreadName
  off : Nat
  len : Nat
  num : Nat
  deriving DecidableEq, Repr

/-- VALID, OFF and the shape of a selection word (R187). -/
def selValid (w : W64) : Bool := w.getLsbD 63
def selOff (w : W64) : Nat := bits w.toNat 26 22
def selShape (w : W64) : Shape := Shape.ofNat (bits w.toNat 0 26)

/-- The selections held on a core, by its threads and by tasks saved there (R179, R186). -/
def selections (s : State) (core : Nat) : List Held :=
  ((List.range 4).filterMap fun t =>
    let th := s.thread core t
    if selValid th.sel then some ⟨.live core t, selOff th.sel, (selShape th.sel).bytes, th.selNum⟩ else none)
  ++ s.parts.flatMap fun (e : Nat × Part) => e.2.saved.filterMap fun (x : Nat × Saved) =>
    if x.2.home = core ∧ selValid x.2.sel then some ⟨.saved e.1 x.1, selOff x.2.sel, (selShape x.2.sel).bytes, x.2.selNum⟩ else none

/-- A command may not yet make the accesses `work` (R248, R179): an earlier command is still to write one of the bytes, or to
read one that it writes, or another thread holds a selection that it would write into. -/
def cmdBlocked (s : State) (core : Nat) (c : Cmd) (owner : ThreadName) (work : List Piece) : Bool :=
  ((pendingCmds s core).any fun e => decide (e.1.num < c.num) && e.2.any fun p =>
    work.any fun w => (p.dst || w.dst) && p.loc.meets p.len w.loc w.len)
  || (selections s core).any fun h => h.owner != owner && decide (h.num ≤ c.num) &&
    work.any fun w => w.dst && (Loc.ts core h.off).meets h.len w.loc w.len

/-- The destination of a copy that a thread pushes overlaps the range that the thread holds selected (R179). -/
def intoOwn (s : State) (core thr : Nat) (c : Cmd) : Bool :=
  let w := (s.thread core thr).sel
  selValid w && (c.op == .cpy || c.op == .cpyt || c.op == .cfill)
    && (c.ranges s core {}).any fun p => p.dst && (Loc.ts core (selOff w)).meets (selShape w).bytes p.loc p.len

/-- A live barrier word in a command's destination (R320). -/
def intoLive (s : State) (core : Nat) (c : Cmd) : Bool := (c.ranges s core {}).any fun p => p.dst && touchesLive s p.loc p.len

/-! ## What a command has done and has still to do (R231, R240) -/

/-- What a command reads for its elements (for `cpyt`, `lzput` and `xred`, segments) `lo` to `hi - 1`, in parts of one block each. -/
def Cmd.readsOf (c : Cmd) (lo hi : Nat) : List (W64 × Nat) :=
  let each (f : Nat → List (W64 × Nat)) : List (W64 × Nat) :=
    ((List.range (hi - lo)).flatMap fun k => f (lo + k)).flatMap fun e => blockParts e.1 e.2
  match c.op with
  | .cpy => match CopyImg.parse false c.img with | none => [] | some g => each fun k => [(g.srcAt k, g.size)]
  | .cpyt => match TileImg.parse c.img with | none => [] | some g => each g.reads
  | .lzput => match PutImg.parse c.img with | none => [] | some g => each fun k => [(BitVec.ofNat 64 (g.src + 64 * k), 64)]
  | .xred => match RedImg.parse c.img with | none => [] | some g => each fun k => [(BitVec.ofNat 64 (g.loc + 64 * k), 64)]
  | _ => []

/-- What a command writes for its elements `lo` to `hi - 1`. -/
def Cmd.writesOf (c : Cmd) (lo hi : Nat) : List (W64 × Nat) :=
  let each (f : Nat → W64 × Nat) : List (W64 × Nat) := (List.range (hi - lo)).map fun k => f (lo + k)
  match c.op with
  | .cpy => match CopyImg.parse false c.img with | none => [] | some g => each fun k => (g.dstAt k, g.size)
  | .cfill => match CopyImg.parse true c.img with | none => [] | some g => each fun k => (g.dstAt k, g.size)
  | .cpyt => match TileImg.parse c.img with | none => [] | some g => each fun k => (g.dstAt k, 64)
  | .xred => match RedImg.parse c.img with
    | none => []
    | some g => if g.toLocal then each fun k => (BitVec.ofNat 64 (g.loc + 64 * k), 64) else []
  | _ => []

/-- All elements of a command (for `cpyt`, `lzput` and `xred`, segments). -/
def Cmd.total (c : Cmd) : Nat :=
  match c.op with
  | .cpy => ((CopyImg.parse false c.img).map CopyImg.elems).getD 0
  | .cfill => ((CopyImg.parse true c.img).map CopyImg.elems).getD 0
  | .cpyt => ((TileImg.parse c.img).map TileImg.segs).getD 0
  | .lzput => ((PutImg.parse c.img).map fun g => g.len / 64).getD 0
  | .xred => ((RedImg.parse c.img).map fun g => g.len / 64).getD 0
  | _ => 0

/-- Where the bytes at an address lie, whatever its permissions. -/
def placeOf (s : State) (core : Nat) (ea : W64) : Option Loc :=
  match window s core ea with
  | .none => none
  | .sp k o => some (.sp k o)
  | .ts o => some (.ts core o)
  | .global va => (s.partOf core).bind fun p => match walk s p va with
    | .leaf e => some (if 2 ^ 51 ≤ e.frame then .host (e.frame + va % 4096 - 2 ^ 51) else .hbm (e.frame + va % 4096))
    | _ => none

/-- What an `xred` whose slot has arrived reads of it for its segments `lo` to `hi - 1`. -/
def Pend.slotReads (p : Pend) (lo hi : Nat) : List (W64 × Nat) :=
  match p.slotAt with
  | none => []
  | some o => (List.range (hi - lo)).map fun k => (BitVec.ofNat 64 (0xFF000000000000 + o + 64 * (lo + k)), 64)

/-- Accesses that a command has made, and those it has still to make. -/
def Pend.begun (p : Pend) : List (W64 × Nat) :=
  let all := p.cmd.readsOf 0 p.cmd.total
  (if p.cmd.op == .xred then p.cmd.readsOf 0 (p.buf.length / 64) ++ p.slotReads 0 (p.buf.length / 64) else p.cmd.readsOf 0 p.done ++ all.filter fun e => p.blocks.any fun b => b.1 == blockNum e.1)
    ++ p.cmd.writesOf 0 p.done
def Pend.ahead (p : Pend) : List (W64 × Nat) :=
  (if p.cmd.op == .xred then p.cmd.readsOf (p.buf.length / 64) p.cmd.total ++ p.slotReads (p.buf.length / 64) p.cmd.total
    else (p.cmd.readsOf p.done p.cmd.total).filter fun e => !p.blocks.any fun b => b.1 == blockNum e.1)
    ++ p.cmd.writesOf p.done p.cmd.total

/-- A command of some core has accessed some bytes of a record, whose chunks lie at `l`, and is still to access others of them: the
record may not change as a unit now (R231; log 27, DEDUCED). -/
def midRecord (s : State) (l : List (Loc × Nat)) : Bool :=
  s.cores.any fun (e : Nat × Core) => (e.2.copyQ ++ e.2.units).any fun p =>
    let meets (q : W64 × Nat) : Bool := (placeOf s e.1 q.1).any fun m => l.any fun r => m.shares q.2 r.1 r.2
    p.begun.any meets && p.ahead.any meets

/-! ## Accesses that used a translation (R262, R264) -/

/-- A page of `lo` to `hi` is mapped by the leaf that an access to page `page` used. -/
def leafMeets (l : List (Nat × Nat)) (page : Nat) (e : TlbEntry) : Bool := l.any fun r => e.covers (e.key page) r.1 r.2

/-- An access of the partition that used a translation of one of the pages has not performed: one of a dispatched vector instruction,
or a read of the host window by a context or an engine. -/
def usesPages (s : State) (part : Nat) (l : List (Nat × Nat)) : Bool :=
  s.cores.any fun (e : Nat × Core) => s.partOf e.1 == some part && (
    (e.2.pipeM.any fun p => p.xl.any fun q => leafMeets l q.2.1 q.2.2)
    || ((e.2.threads.toList.map (·.hostAcc) ++ e.2.helpers.toList.map (·.hostAcc)).any fun a => match a with
      | some h => h.answer.isNone && h.xl.any fun q => leafMeets l q.1 q.2
      | none => false)
    || (e.2.copyQ ++ e.2.units).any fun p => p.phase == .host none && p.xl.any fun q => leafMeets l q.1 q.2)

end Sys2Proof.Machine
end

