-- ==== Sys2Proof/Machine/Observe.lean ====
section
/-! DEFINITION. What memory accesses are observed by: the energy counters (R362), the memory trace (R366, R369, R370) and data
breakpoints (R373). -/

namespace Sys2Proof.Machine
open Sys2Proof

/-! ## Energy (R362) -/

/-- Charge energy, in 2^-16 nJ, to a partition and to a launch queue of it; the counters wrap (R354). -/
def charge (s : State) (part : Nat) (queue : Option Nat) (w : Nat) : State :=
  if w = 0 then s
  else s.modPart part fun p => { p with
    energy := p.energy + BitVec.ofNat 80 w
    windowEnergy := p.windowEnergy + w
    queues := match queue with
      | none => p.queues
      | some q => p.queues.setIfInBounds q { p.queues.getD q {} with energy := (p.queues.getD q {}).energy + BitVec.ofNat 80 w } }

/-- A weight of the record, which has 24 fraction bits, in the 2^-16 nJ of the counters, rounded down (log 42, DESIGN CHOICE). -/
def coarse (w : Weights) : Weights :=
  { issue := w.issue / 256, groupA := w.groupA / 256, groupM := w.groupM / 256, groupX := w.groupX / 256, plane8 := w.plane8 / 256
    plane32 := w.plane32 / 256, plane64 := w.plane64 / 256, plane128 := w.plane128 / 256, sram := w.sram / 256, hbmLine := w.hbmLine / 256
    flit := w.flit / 256, island := w.island / 256, stack := w.stack / 256 }

/-- What an event of each class adds to a counter, by the record in force (R362). -/
def weights (s : State) : Weights := coarse ((s.lodge.record.map (·.weights)).getD {})

/-- The whole nJ of an energy counter (R354). -/
def wholeNj (e : BitVec 80) : W64 := e.extractLsb' 16 64

/-- Charge an event of a context to its task's queue and its partition; a helper's to the partition. -/
def chargeCtx (s : State) (x : Ctx) (w : Nat) : State :=
  match s.partOf x.core with
  | none => s
  | some p => charge s p (if x.isHelper then none else (s.thread x.core x.ctx).task.map fun (t : Task) => t.queue) w

/-- The weight of one access of at most 64 bytes. -/
def accessWeight (s : State) : Loc → Nat
  | .sp _ _ | .ts _ _ => (weights s).sram
  | .hbm _ => (weights s).hbmLine
  | .host _ => (weights s).flit

/-! ## The memory trace (R366, R369, R370) -/

/-- What a traced instruction is. -/
structure TraceKind where
  scalar : Bool
  store : Bool
  atomic : Bool
  w : Nat
  deriving DecidableEq, Repr

/-- The partition traces the instruction (R365, R369). -/
def traced (s : State) (x : Ctx) (k : TraceKind) : Bool :=
  match s.partOf x.core with
  | none => false
  | some p =>
    let c := (s.part p).trace.ctl
    !x.isHelper && (!k.scalar || c.getLsbD 11) && (if k.store || k.atomic then c.getLsbD 10 else c.getLsbD 9)

/-- Stage a record in a core; a full staging discards it and counts it (R269, R371). -/
def stage (s : State) (core part : Nat) (r : List Byte) : State :=
  if (s.core core).staging.length < 64 then s.modCore core fun c => { c with staging := c.staging ++ [(part, r)] }
  else s.modPart part fun p => { p with trace := { p.trace with lost := p.trace.lost + 1 } }

/-- The head of a record (R366) before a payload, padded to a multiple of 16 bytes. -/
def traceRec (type info : Nat) (who : BitVec 26) (pc seq time : W64) (payload : List Byte) : List Byte :=
  let n := ceilDiv (32 + payload.length) 16
  natLe 1 type ++ natLe 1 info ++ natLe 2 n ++ natLe 4 who.toNat ++ natLe 8 pc.toNat ++ natLe 8 seq.toNat ++ natLe 8 time.toNat
    ++ payload ++ List.replicate (16 * n - 32 - payload.length) 0

/-- INFO of R366. -/
def traceInfo (k : TraceKind) (stopped : Bool) : Nat :=
  (if k.store then 1 else 0) + (if k.atomic then 2 else 0) + (if stopped then 4 else 0) + 8 * k.w

/-- Stage the record of a scalar access (R369): TIME is REFT at its issue (R366). -/
def traceScalar (s : State) (x : Ctx) (pc : PC) (k : TraceKind) (ea : W64) : State :=
  if !traced s x k then s
  else match s.partOf x.core with
    | none => s
    | some p =>
      let t := s.thread x.core x.ctx
      stage s x.core p (traceRec 1 (traceInfo k false) (s.who x.core x.ctx) (pc.setWidth 64) t.seq (t.since.getD (s.reftAt x.core)) (natLe 8 ea.toNat))

/-- Offsets of a vector record: the type and the bytes that follow the mask (R370). -/
def traceOffsets : List (Nat × W64) → Nat × List Byte
  | [] => (2, natLe 8 0)
  | [_] => (2, natLe 8 0)
  | (i0, a0) :: (i1, a1) :: r =>
    let l := (i0, a0) :: (i1, a1) :: r
    -- an affine run: every address is the base plus a multiple of one stride
    let span : W64 := a1 - a0
    let gap : Nat := i1 - i0
    let stride : W64 := BitVec.ofInt 64 (span.toInt / (gap : Int))
    let affine := l.all fun e => e.2 == a0 + BitVec.ofNat 64 (e.1 - i0) * stride
    if affine then (2, natLe 8 stride.toNat)
    else
      let diffs := (l.zip (l.drop 1)).map fun e => (e.2.2 - e.1.2).toInt
      if diffs.all fun d => decide (-32768 ≤ d) && decide (d ≤ 32767) then (3, diffs.flatMap fun d => natLe 2 (ofSigned 16 d))
      else (4, (l.drop 1).flatMap fun e => natLe 8 e.2.toNat)

/-- Stage the record of a vector access over the elements it performed, with their addresses, in rising order (R369). -/
def traceVector (s : State) (x : Ctx) (pc : PC) (time : W64) (k : TraceKind) (start : Nat) (els : List (Nat × W64)) (stopped : Bool) : State :=
  if els.isEmpty || !traced s x k then s
  else match s.partOf x.core with
    | none => s
    | some p =>
      let t := s.thread x.core x.ctx
      let vl := t.vl.toNat
      let mask := els.foldl (fun m e => m + 2 ^ e.1) 0
      let o := traceOffsets els
      let payload := natLe 8 ((els.head?.map (fun (e : Nat × W64) => e.2)).getD 0).toNat ++ natLe 2 vl ++ natLe 2 start ++ natLe 4 0
        ++ natLe (8 * ceilDiv vl 64) mask ++ o.2
      stage s x.core p (traceRec o.1 (traceInfo k stopped) (s.who x.core x.ctx) (pc.setWidth 64) t.seq time payload)

/-! ## Data breakpoints (R373) -/

/-- A breakpoint of kind Data hits on a performed access with an address inside its range: the thread stops after the
instruction. A range is the addresses that agree with the match value under the mask (log 20, DESIGN CHOICE). -/
def brkData (s : State) (x : Ctx) (pc : PC) (eas : List W64) : State :=
  if x.isHelper then s
  else match s.partOf x.core with
    | none => s
    | some p =>
      let q := s.part p
      let who := s.who x.core x.ctx
      match (List.range 8).find? fun i =>
          let b := q.brk.getD i {}
          b.kind == .data && brkPasses b who (BitVec.allOnes 26) && eas.any fun a => (a ^^^ b.val) &&& b.mask == 0 with
      | none => s
      | some i => askStop (brkNote s p ⟨i, who, pc.setWidth 64, (s.thread x.core x.ctx).seq⟩) x.core x.ctx

/-- A breakpoint of kind PC hits at an instruction that a task thread is about to run, unless it has just been released from
one there (R373). -/
def brkPc (s : State) (x : Ctx) : Option State :=
  let t := s.thread x.core x.ctx
  if x.isHelper || t.brkSkip then none
  else match s.partOf x.core with
    | none => none
    | some p =>
      let q := s.part p
      let who := s.who x.core x.ctx
      match (List.range 8).find? fun i =>
          let b := q.brk.getD i {}
          b.kind == .pc && brkPasses b who (BitVec.allOnes 26) && (t.pc.setWidth 64 ^^^ b.val) &&& b.mask == 0 with
      | none => none
      | some i => some ((askStop (brkNote s p ⟨i, who, t.pc.setWidth 64, t.seq⟩) x.core x.ctx).modThread x.core x.ctx fun t =>
          { t with brkSkip := true })

end Sys2Proof.Machine
end

