-- ==== Sys2Proof/Machine/Issue.lean ====
section
/-! DEFINITION. Fetching and decoding at a PC (R33, R34), readiness (R270), the choice of the context that issues (R18, R19,
R271), and a cycle of a core (R356, R357, R364). -/

namespace Sys2Proof.Machine
open Sys2Proof

/-! ## Fetch (R33 step 1, R34) -/

/-- What a fetch gives: words, or the state in which a fault has been taken. -/
abbrev Fetch (α : Type) := Except State (α × State)

/-- Energy of a fetch that the instruction cache does not meet: one access for each 64 bytes (R362; log 42, DESIGN CHOICE). -/
def fetchCharge (s : State) (x : Ctx) (l : Loc) (pc : PC) : State :=
  if (s.core x.core).icache.any fun e => e.1 / 64 == pc.toNat / 64 then s else chargeCtx s x (accessWeight s l)

/-- Fetch one word for the instruction at the context's PC. A word the core has fetched before and that has changed since may
still be the old one (log 12, DEDUCED). -/
def fetchWord (s : State) (x : Ctx) (pc : PC) : Fetch (BitVec 32) :=
  let ea : W64 := pc.setWidth 64
  if window s x.core ea matches .ts _ then .error (accessFault s x .address .fetch ea 0xFFFF)
  else match locate s x.core .fetch ea with
    | .error e => .error (accessFault s x e .fetch ea 0xFFFF)
    | .ok (l, leaf) =>
      let s := noteLocated s x.core ea leaf
      let r := readLoc s l 4
      if r.2 then .error (takeFault s x .fatal { cls := 5, code := 1, addr := ea })
      else
        let now := BitVec.ofNat 32 (leNat r.1)
        match mapGet (s.core x.core).icache pc.toNat with
        | some old => .ok (if old = now then now else if Config.useOld s.clock (2 ^ 52 + pc.toNat) then old else now, s)
        | none => .ok (now, (fetchCharge s x l pc).modCore x.core fun c => { c with icache := mapSet c.icache pc.toNat now })

/-- Fetch the words of the instruction at the context's PC: three, or four with a prefix (R25). -/
def fetchWords (s : State) (x : Ctx) : Fetch (BitVec 32 × BitVec 32 × BitVec 32 × BitVec 32) :=
  let pc := s.pcAt x
  match fetchWord s x pc with
  | .error e => .error e
  | .ok (w0, s) =>
    match fetchWord s x (pc + 4) with
    | .error e => .error e
    | .ok (w1, s) =>
      match fetchWord s x (pc + 8) with
      | .error e => .error e
      | .ok (w2, s) =>
        if isPrefixWord w0 then
          match fetchWord s x (pc + 12) with
          | .error e => .error e
          | .ok (w3, s) => .ok ((w0, w1, w2, w3), s)
        else .ok ((w0, w1, w2, 0), s)

/-- The OPC that the record of a decoding fault carries: the one after a prefix, else word 0's (R343, log 18, DEDUCED). -/
def faultOpc (w0 w1 : BitVec 32) : Nat := (if isPrefixWord w0 then w1.extractLsb' 22 10 else w0.extractLsb' 22 10).toNat

/-- Steps 2 to 5 of R33 on fetched words, the feature check in its place (R50); the context check of R52 is made by `instr`,
`instrTo` and `vinstr` before the guard, and here before the fields so that step 5 is one fault. -/
def decodeAt (s : State) (x : Ctx) (w : BitVec 32 × BitVec 32 × BitVec 32 × BitVec 32) : Except State Instr :=
  let bad (code : Nat) : State := takeFault s x .precise { cls := 1, code := code, aux := faultOpc w.1 w.2.1 }
  match decodeOp w.1 w.2.1 w.2.2.1 w.2.2.2 with
  | .error _ => .error (bad 1)
  | .ok r =>
    if !(s.featmask x.core).getLsbD r.op.feature then .error (bad 2)
    else match r.finish with
      | .error _ => .error (bad 1)
      | .ok i => .ok i

/-- Fetch and decode at the context's PC (R33 steps 1 to 5). -/
def fetchInstr (s : State) (x : Ctx) : Fetch Instr :=
  match fetchWords s x with
  | .error e => .error e
  | .ok (w, s) => match decodeAt s x w with
    | .error e => .error e
    | .ok i => .ok (i, s)

/-! ## Readiness (R270) -/

/-- The scalar registers an instruction reads when it issues; what a vector or matrix instruction reads at its dispatch is not
among them (R67). -/
def scalarSources (s : State) (x : Ctx) (i : Instr) : List Reg :=
  match i with
  | .sel _ _ a b c => [if predBit (s.predsAt x) c then a else b]
  | .st _ d a _ _ | .sigst _ d a _ _ | .barinit _ d a _ | .barwait _ d a _ => [d, a]
  | .cas _ d a b _ _ _ => [d, a, b]
  | .vsettle .. | .cpy .. | .cpyt .. | .lzput .. | .xred .. | .lninc .. | .lnest .. => []
  | .cfill _ _ b _ => [b]
  | .tlbinv _ a b k => match k with | .page => [a] | .range => [a, b] | .all => []
  | .tginv _ a k => if k = .all then [] else [a]
  | _ => match encodeFields i with
    | none => []
    | some (o, _, f) =>
      if o.use.form = .V || (0x240 ≤ o.code && o.code ≤ 0x28F && o != .hfill && o != .hflt) || o = .vspill || o = .vfill || o = .msel || o = .vwhdr
      then []
      else (if o.use.a = .r then [f.a] else []) ++ (if o.use.b = .r then [f.b] else []) ++
        (if o.use.c = .r && o.use.form = .R then [f.rC] else [])

/-- The predicates that an instruction outside the pipes reads, beside its guard; in a pipe these fields name masks. -/
def predSources (i : Instr) : List PReg :=
  match encodeFields i with
  | none => []
  | some (o, _, f) =>
    if (pipeOf o).isSome then []
    else (match i with | .sel _ _ _ _ c => [c] | _ => []) ++ (if o.use.a = .p then [f.a.setWidth 3] else []) ++ (if o.use.b = .p then [f.b.setWidth 3] else [])

/-- No source of the instruction is marked busy by an older scalar instruction of its thread (R275). -/
def notBusy (t : Thread) (i : Instr) : Bool :=
  (inRanges (let f := t.footOf i; f.rd ++ singles f.scal)).all (fun r => !t.busyS.getLsbD r) && (predSources i).all fun p => !t.busyP.getLsbD p.toNat

/-- Instructions that push an engine command, and whether the command gives an output (R266, R312). -/
def pushes : Op → Bool
  | .cpy | .cpyt | .cfill | .lzres | .lzput | .lzclean | .xred => true
  | _ => false
def givesOutput : Op → Bool
  | .lzres | .lzclean => true
  | _ => false

/-- Room in the command FIFO, and for the output a command will give (R266). -/
def pushRoom (t : Thread) (o : Op) : Bool :=
  decide (t.fifo.length < 32) && (!givesOutput o || decide (t.outs.length + t.outRes < 16))

/-- A push waits while a half-slot of its 64-byte image is PENDING (R314). -/
def imagePending (t : Thread) (i : Instr) : Bool :=
  match i with
  | .cpy _ a _ | .cpyt _ a _ | .cfill _ a _ _ | .lzput _ a _ _ _ | .xred _ a _ _ _ => (List.range 32).any fun h => t.halfPres a.toNat h == .pend
  | _ => false

/-- What keeps the next instruction of a task thread from issuing (R270): HOLD, the scoreboard with the presence of its scalar
sources (R275), the order of R126 and R127, its full pipe queue, or a push's room and image (R266, R314). -/
inductive Block where
  | hold | board | order | pipe | push
  deriving DecidableEq, Repr

/-- A reason, when it holds. -/
def block (b : Bool) (k : Block) : List Block := if b then [k] else []

/-- An instruction outside the lanes may not pass older instructions of its thread: for the registers they share, or for its order. -/
def aheadBlocks (s : State) (x : Ctx) (i : Instr) (o : Op) : List Block :=
  if !s.inPipe x.core x.ctx || aheadFree s x i o then []
  else
    let t := s.thread x.core x.ctx
    block (waitsForElder s x (t.footOf i)) .board
      ++ block (!windowOpen t || afterFaults o && !t.undos.isEmpty || elderFirst s x i o || !waitsForElder s x (t.footOf i)) .order

/-- What keeps an instruction from issuing. -/
def blocks (s : State) (x : Ctx) (i : Instr) (o : Op) : List Block :=
  let t := s.thread x.core x.ctx
  block (i.ctl.hold && !holdOk s x) .hold ++ block (t.busyP.getLsbD i.ctl.g.toNat) .board ++ block (t.owed || !windowOpen t) .order
    ++ if !guardTrue s x i.ctl then []
      else block (!(scalarSources s x i).all (fun r => s.scalarPres x r != .pend) || !notBusy t i) .board
        ++ (match pipeOf o with
          | some q => block (decide (2 ≤ waiting (s.pipe x.core q))) .pipe ++ block (!vecAhead s x i) .board
          | none => aheadBlocks s x i o)
        ++ block (pushes o && !(pushRoom t o && !imagePending t i)) .push

/-- The next instruction of a context may issue (R270). -/
def mayIssue (s : State) (x : Ctx) (i : Instr) : Bool :=
  match i.op with
  | none => false
  | some o => x.isHelper || (blocks s x i o).isEmpty

/-- A record of the Mire is ready (R157): it has no link to a record still held, is no move record and no helper has it. -/
def recReady (mire : List MireRec) (e : MireRec) : Bool :=
  let ended : MOpnd → Bool := fun o => match o with
    | .link j _ _ _ _ => !mire.any (fun (r : MireRec) => r.id == j)
    | _ => true
  !e.move && !e.taken && !e.dead && ended e.a && ended e.b && ended e.c

/-- The oldest ready record (R157). -/
def oldestReady (c : Core) : Option MireRec := c.mire.find? (recReady c.mire)

/-- Slots of a zone that are ARRIVED (R328). -/
def arrivedMask (z : Zone) : W64 :=
  BitVec.ofNat 64 (((List.range z.slots.length).filter fun k => (z.slots.getD k {}).st == .arrived).foldl (fun m k => m + 2 ^ k) 0)

/-- Half-slots of registers `b` to `b + n - 1` of a thread that are PENDING. -/
def anyPending (t : Thread) (b n : Nat) : Bool :=
  (List.range n).any fun j => (t.v.getD (b + j) (Vector.replicate 128 {})).any fun w =>
    w.pres != 0 && (List.range 4).any fun i => w.pres.extractLsb' (2 * i) 2 == 1#2

/-- A record of a thread is in the Mire. -/
def hasRecord (c : Core) (t : Nat) : Bool := c.mire.any fun (r : MireRec) => r.thr == t && !r.dead

/-- Engine commands of a live thread that have not completed. -/
def outstanding (s : State) (core t : Nat) : Bool :=
  !(s.thread core t).fifo.isEmpty ||
    s.cores.any fun (e : Nat × Core) => (e.2.copyQ ++ e.2.units).any fun p => p.owner == .live core t

/-- An older vector access of the thread that has not performed shares bytes with the access, or the access is a store and an older vector
store belongs to an earlier strip: the younger one waits (R242). -/
def elderHolds (s : State) (x : Ctx) (l : Loc) (n : Nat) (store : Bool) : Bool :=
  !x.isHelper && (s.entries x.core x.ctx).any fun e =>
    (e.mem.any fun p => p.1.shares p.2 l n) || (store && e.stores && decide (e.strip < (s.thread x.core x.ctx).strip))

/-- A scalar access of `n` bytes is held back, by the range checker, a relock window or an older vector access (R239, R249, R358). -/
def rangeHolds (s : State) (x : Ctx) (ea : W64) (n : Nat) (store : Bool) : Bool :=
  match locate s x.core (if store then .write else .read) ea with
  | .error _ => false
  | .ok (l, _) => heldBack s x.core l n store || elderHolds s x l n store

/-- What a thread waits on has come about, so that its instruction may run again (R270). `barwait` is ended by a step of its
own, and a page by the host. -/
def waitOver (s : State) (core t : Nat) : Wait → Bool
  | .barwait _ _ | .page _ _ => false
  | .tags all m =>
    let g := (s.thread core t).tags
    if all then g &&& m == m else g &&& m != 0
  | .lzwait _ _ past all m z =>
    let zn := (s.core core).zones.getD z {}
    let a := arrivedMask zn &&& m
    past || !zn.isOpen || (if all then a == m else a != 0)
  | .settle all b n =>
    if all then !hasRecord (s.core core) t && !anyPending (s.thread core t) 0 64 else !anyPending (s.thread core t) b n
  | .epop => !(s.thread core t).outs.isEmpty
  | .queueRoom q => match s.partOf core with
    | none => true
    | some p => decide (((s.part p).queues.getD q {}).recs.length < 256) || !((s.part p).queues.getD q {}).enabled
  | .commands => !outstanding s core t
  | .range ea n st => !rangeHolds s ⟨core, t⟩ ea n st
  | .pages l => match s.partOf core with
    | none => true
    | some p => !usesPages s p l
  | .hostAccess => match (s.thread core t).hostAcc with
    | none => true
    | some a => a.answer.isSome

/-- A fetch of the context would read the scratchpad of another island that is in a relock window: it waits (R358). -/
def fetchHeld (s : State) (x : Ctx) : Bool :=
  let pc := s.pcAt x
  let held (k : Nat) : Bool :=
    let p := pc + BitVec.ofNat 56 (4 * k)
    (mapGet (s.core x.core).icache p.toNat).isNone && match locate s x.core .fetch (p.setWidth 64) with
      | .ok (.sp c _, _) => isleOf s c != isleOf s x.core && (s.isleAt c).relock.isSome
      | _ => false
  held 0 || held 1 || held 2 || (match fetchWord s x pc with
    | .ok (w, _) => isPrefixWord w && held 3
    | .error _ => false)

/-- A context is ready (R270). A fetch that will fault is ready: the fault is its step. A stop in progress lets an access to
the host window that has issued complete (R277 step 2). -/
def ctxReady (s : State) (x : Ctx) : Bool :=
  if x.isHelper then
    let h := s.helper x.core (x.ctx - 4)
    h.stall == 0 && (!h.idle || (oldestReady (s.core x.core)).isSome) &&
      !(match h.hostAcc with | some a => a.answer.isNone | none => false) &&
      !(match h.range with | some (ea, n, st) => rangeHolds s x ea n st | none => false) &&
      (h.idle || !fetchHeld s x && (match fetchInstr s x with
        | .ok (.hpop c _, _) => !guardTrue s x c || (oldestReady (s.core x.core)).isSome || h.held.isSome
        | _ => true))
  else
    let t := s.thread x.core x.ctx
    let live := match t.st with
      | .running => t.stop.isNone
      | .waiting w => waitOver s x.core x.ctx w && (t.stop.isNone || w == .hostAccess)
      | _ => false
    live && t.stall == 0 && t.task.isSome && !fetchHeld s x &&
      (match fetchInstr s x with
        | .error _ => !s.inPipe x.core x.ctx
        | .ok (i, _) => mayIssue s x i)

/-! ## The choice (R18, R19, R271) -/

/-- Among the ready contexts of a list, the one with the largest Wait, the lower number on a tie. -/
def longestWait (c : Core) (l : List Nat) : Option Nat :=
  l.foldl (fun best k => match best with
    | none => some k
    | some b => if c.wait.getD b 0 < c.wait.getD k 0 then some k else best) none

/-- The YLD mark of a context's last instruction. -/
def yldOf (c : Core) (k : Nat) : Bool := if 4 ≤ k then (c.helpers.getD (k - 4) {}).yld else (c.threads.getD k {}).yld

/-- `SelectIssue` of R271: the context and the core with the run bookkeeping. -/
def selectIssue (s : State) (core : Nat) : Option Nat × Core :=
  let c := s.core core
  let rdy := (List.range 6).filter fun k => ctxReady s ⟨core, k⟩
  let helpers := rdy.filter (4 ≤ ·)
  if (oldestReady c).isSome && !helpers.isEmpty && 7 ≤ c.sinceHelper then (longestWait c helpers, c)
  else if c.corecfg.getLsbD 0 then
    match ((List.range 6).map fun j => (c.glast + 1 + j) % 6).find? fun k => rdy.contains k with
    | none => (none, c)
    | some k => (some k, { c with glast := k })
  else
    let keep := match c.gcur with
      | none => false
      | some k => rdy.contains k && c.grun < 256 && !yldOf c k
    match c.gcur, keep with
    | some k, true => (some k, { c with grun := c.grun + 1 })
    | cur, _ =>
      match longestWait c (rdy.filter fun k => some k != cur) with
      | some k => (some k, { c with gcur := some k, grun := 1 })
      | none => match cur with
        | some k => if rdy.contains k then (some k, { c with gcur := some k, grun := 1 }) else (none, c)
        | none => (none, c)

/-! ## A cycle of a core (R354, R356, R357, R361, R364) -/

/-- INC of R357: 15 * 2^16 / f to the nearest integer. -/
def incOf (f : Nat) : Nat := (15 * 65536 * 2 + f) / (2 * f)

/-- The cycle counters of one island cycle (R356, R357). -/
def cycleCount (c : Core) (f : Nat) : Core :=
  let v := c.cycnFrac + incOf f
  { c with
    cyc := c.cyc + 1
    cycn := c.cycn + BitVec.ofNat 64 (v / 65536)
    cycnFrac := v % 65536
    evt := [Pipe.a, Pipe.m, Pipe.x].foldl (fun e q =>
      let l := match q with | .a => c.pipeA | .m => c.pipeM | .x => c.pipeX
      let k := match q with | .a => 4 | .m => 5 | .x => 6
      match l.head? with
      | none => e
      | some h =>
        -- an instruction that waits in its lanes counts under STLANE too; the planes of an `mmul` count as they pass
        let e := if h.why = .presence ∨ h.why = .mireRoom ∨ h.why = .range then e.setIfInBounds 10 (e.getD 10 0 + 1) else e
        if h.why = .queued ∨ h.why = .plane then e else e.setIfInBounds k (e.getD k 0 + 1)) c.evt }

/-- The STALL countdowns of an issue cycle (R29). -/
def stallDown (c : Core) : Core :=
  { c with
    threads := c.threads.map fun t => { t with stall := t.stall - 1 }
    helpers := c.helpers.map fun h => { h with stall := h.stall - 1 } }

/-- Some task context is not ready for `why` alone (R361). -/
def stalledFor (s : State) (core : Nat) (why : Block) : Bool :=
  (List.range 4).any fun t =>
    let th := s.thread core t
    let x : Ctx := ⟨core, t⟩
    th.st == .running && th.stall == 0 && th.stop.isNone && th.task.isSome && !fetchHeld s x &&
      (match fetchInstr s x with
        | .error _ => false
        | .ok (i, _) => match i.op with
          | none => false
          | some o => !(blocks s x i o).isEmpty && (blocks s x i o).all (· == why))

/-- PC breakpoints are met before the choice (R373): a task context that is ready at one does not issue there, and stops. -/
def meetBreakpoints (s : State) (core : Nat) : State :=
  (List.range 4).foldl (fun s t => match brkPc s ⟨core, t⟩ with
    | none => s
    | some u => if ctxReady s ⟨core, t⟩ then u else s) s

/-- No instruction of a core runs in a pipe: the core takes over the verify mode that the host has set (R347). -/
def takeVerify (c : Core) (on : Bool) : Core :=
  if (c.pipeA ++ c.pipeM ++ c.pipeX).all fun e => e.why == .queued then { c with verify := on } else c

/-- Results of scalar instructions come in a cycle of the core, and the marks of their destinations clear (R275): for each thread that has
marks when a free value says so, and in the end in any case (log 9, DEDUCED). -/
def resultsCome (s : State) (core : Nat) : State :=
  (List.range 4).foldl (fun s t =>
    let th := s.thread core t
    if th.busyS == 0 && th.busyP == 0 then s
    else
      let d := s.drawFree 1
      d.2.modThread core t fun t =>
        if d.1 = 0 ∨ Config.patience ≤ t.busyFor then { t with busyS := 0, busyP := 0, busyFor := 0 } else { t with busyFor := t.busyFor + 1 }) s

/-- One cycle of a core: the frame of 64 (R364), the counters, and in an issue cycle the choice of R271. `cur` of the state
that it gives is the context that issues. -/
def coreCycle (s : State) (core : Nat) : State :=
  let s := resultsCome s core
  let f := (s.isleAt core).freq
  let part := s.partOf core
  let duty := (part.map fun p => (s.part p).duty).getD 64
  let c := takeVerify (cycleCount (s.core core) f) ((part.map fun p => (s.part p).verify).getD false)
  let d := if c.frame = 0 then duty else c.frameDuty
  let n := c.frame
  let c := { c with frame := (n + 1) % 64, frameDuty := d }
  if (n + 1) * d / 64 ≤ n * d / 64 then { s.setCore core (evtAdd c 2 1) with cur := none }
  else
    let c := if stalledFor s core .board then evtAdd c 8 1 else c
    let c := if stalledFor s core .pipe then evtAdd c 9 1 else c
    let s := meetBreakpoints (s.setCore core c) core
    match selectIssue s core with
    | (none, c) =>
      let c := { c with wait := c.wait.map (· + 1), sinceHelper := c.sinceHelper + 1 }
      { s.setCore core (evtAdd (stallDown c) 1 1) with cur := none }
    | (some k, c) =>
      let c := { c with
        wait := (c.wait.map (· + 1)).setIfInBounds k 0
        sinceHelper := if 4 ≤ k then 0 else c.sinceHelper + 1 }
      { s.setCore core (stallDown c) with cur := some ⟨core, k⟩ }

/-- The context's instruction has issued before, and runs again after a wait. -/
def hasIssued (s : State) (x : Ctx) : Bool :=
  if x.isHelper then let h := s.helper x.core (x.ctx - 4); h.hostAcc.isSome || h.range.isSome
  else match (s.thread x.core x.ctx).st with
    | .waiting _ => true
    | _ => false

/-- Nothing of the chosen instruction has happened from `s` to `u`: it did not issue after all. -/
def stayed (s u : State) (x : Ctx) : Bool :=
  let t := s.thread x.core x.ctx
  let t' := u.thread x.core x.ctx
  !x.isHelper && t.pc == t'.pc && t.instret == t'.instret && t.vnum == t'.vnum && t.st == t'.st && t.stop == t'.stop

/-- The issue cycle in which context `x` was chosen in state `s`, whose outcome is `u`: an instruction issued, or none did (R361), with
the energy of an issue (R362). An instruction counts when it issues, and not again when it goes on after a wait; a fetch or a decoding that
fails issues none (log 42, DESIGN CHOICE). -/
def countIssue (s : State) (x : Ctx) (u : State) : State :=
  if hasIssued s x || stayed s u x then u.modCore x.core fun c => evtAdd c 1 1
  else
    let u := u.modCore x.core fun c => let c := evtAdd c 0 1; if x.isHelper then evtAdd c 12 1 else c
    match s.partOf x.core with
    | none => u
    | some p => charge u p (if x.isHelper then none else (s.thread x.core x.ctx).task.map fun (t : Task) => t.queue) (weights s).issue

/-- The destination that an instruction leaves busy, since its result comes later than the next cycle: a scalar floating-point
instruction's and a load's (R274, R275), a predicate's for a comparison. -/
def lateDest (i : Instr) : Option (Bool × Nat) :=
  match encodeFields i with
  | none => none
  | some (o, _, f) =>
    if (0x040 ≤ o.code && o.code ≤ 0x05F) || o == .ld then
      if o.use.d = .r then some (false, f.d.toNat) else if o.use.d = .p then some (true, f.d.toNat) else none
    else none

/-- A task thread that issued an instruction in `s`, which is complete in `u`, marks its late destination busy (R275). -/
def markBusy (s : State) (x : Ctx) (i : Instr) (u : State) : State :=
  if x.isHelper || !guardTrue s x i.ctl || (u.thread x.core x.ctx).instret == (s.thread x.core x.ctx).instret then u
  else match lateDest i with
    | none => u
    | some (false, r) => u.modThread x.core x.ctx fun t => { t with busyS := t.busyS ||| 1#64 <<< r }
    | some (true, r) => if r = 0 then u else u.modThread x.core x.ctx fun t => { t with busyP := t.busyP ||| 1#8 <<< r }

/-- No instruction issued: it could not be fetched or decoded. -/
def noIssue (x : Ctx) (u : State) : State := u.modCore x.core fun c => evtAdd c 1 1

/-- The outcome of a choice with the issue counted (R361). -/
def countOut (s : State) (x : Ctx) : Out → Out
  | .next u => .next (countIssue s x u)
  | o => o

/-- The outcome of the issue of instruction `i`, counted, with its late destination marked (R275, R361). -/
def issueOut (s : State) (x : Ctx) (i : Instr) : Out → Out
  | .next u => .next (markBusy s x i (countIssue s x u))
  | o => o

/-- A core has its supply: its site is enabled, and its pavilion belongs to a partition and is not scrubbing (R10, R209 to R211). -/
def powered (s : State) (core : Nat) : Bool :=
  let p := s.pav (pavOf core)
  s.enabled core && p.part.isSome && p.scrub.isNone

/-- A core's clock runs: its island is not in a relock window (R358). -/
def clocked (s : State) (core : Nat) : Bool := powered s core && (s.isleAt core).relock.isNone

/-- Another core of the island has taken one cycle more: this one has not yet taken the cycle under way (R356). -/
def behind (s : State) (core : Nat) : Bool :=
  s.cores.any fun (e : Nat × Core) => isleOf s e.1 == isleOf s core && powered s e.1 && decide ((s.core core).cyc.toNat < e.2.cyc.toNat)

/-- The core has still to take the cycle that was under way when its island's relock window began: it completes before the clocks stop
(R358). -/
def finishes (s : State) (core : Nat) : Bool := (s.isleAt core).relock.isSome && powered s core && behind s core

end Sys2Proof.Machine
end

