-- ==== Sys2Proof/Machine/Operands.lean ====
section
/-! DEFINITION. The operand forms of vector instructions: register groups and their checks (R59, R60), the format word (R67),
masks and prefixes (R129), presence of elements (R62, R131, R155), and the write of elements (R62, R155, R158, R162). -/

namespace Sys2Proof.Machine
open Sys2Proof

/-! ## Register groups (R59, R60) -/

/-- An operand of `len` elements of `w` bits, based at a register. -/
structure Grp where
  base : Reg
  w : Nat
  len : Nat
  deriving DecidableEq, Repr, Inhabited

namespace Grp

/-- `GroupSize` of R59. -/
def size (g : Grp) : Nat :=
  let n := ceilDiv (g.len * g.w) 8192
  if n ≤ 1 then 1 else if n ≤ 2 then 2 else if n ≤ 4 then 4 else 8
def tooLong (g : Grp) : Bool := decide (65536 < g.len * g.w)
/-- Two groups share a register. -/
def meets (a b : Grp) : Bool := decide (a.base.toNat < b.base.toNat + b.size) && decide (b.base.toNat < a.base.toNat + a.size)
/-- The register of element `i`, and its first bit there. -/
def reg (g : Grp) (i : Nat) : Nat := (g.base.toNat + i * g.w / 8192) % 64
def lo (g : Grp) (i : Nat) : Nat := i * g.w % 8192
/-- The first half-slot of element `i`, and how many it has or shares. -/
def half (g : Grp) (i : Nat) : Nat := g.lo i / 16
def halves (g : Grp) : Nat := if g.w < 16 then 1 else g.w / 16

end Grp

/-- The group-alignment fault for the first group whose base is no multiple of its size, and then VL-too-long; a group-overlap fault
comes after both. R181 and R191 give this order for `mmul` and the witness reductions; for every other instruction R33 step 7 gives
none, and the model takes the same (log 49, DESIGN CHOICE). -/
def alignGroups (gs : List Grp) : M Unit := do
  match gs.find? fun g => g.base.toNat % g.size != 0 with
  | some g => raise .precise { cls := 1, code := 4, aux := g.base.toNat }
  | none => pure ()
  match gs.find? Grp.tooLong with
  | some g => raise .precise { cls := 1, code := 6, aux := g.len }
  | none => pure ()

/-- The group-overlap fault of a destination (R60): `strict` forbids exact coincidence too. -/
def overlapFault {α : Type} (r : Reg) : M α := raise .precise { cls := 1, code := 5, aux := r.toNat }
def disjoint (strict : Bool) (d : Grp) (srcs : List Grp) : M Unit := do
  if srcs.any fun g => d.meets g && (strict || g.base != d.base || g.size != d.size) then overlapFault d.base

/-- VL-too-long and the group checks of an instruction (R59, R60). -/
def checkGroups (strict : Bool) (d : Grp) (srcs : List Grp) : M Unit := do
  alignGroups (d :: srcs)
  disjoint strict d srcs

/-! ## VL, VSTART, masks, the format word -/

/-- The issuing thread. -/
def thr : M Thread := do
  let s ← get
  return s.thread s.at'.core s.at'.ctx

/-- VL. -/
def vlen : M Nat := do return (← thr).vl.toNat

/-- An instruction that is not element-wise finds VSTART at 0, or is illegal (R70). -/
def vstartZero (o : Op) : M Unit := do
  if (← thr).vstart != 0 then illegal o

/-- The illegal-format fault (R67). -/
def badFormat {α : Type} (w : Nat) : M α := raise .precise { cls := 1, code := 3, aux := w % 2 ^ 32 }

/-- The format word's fields (R67). -/
structure FWord where
  w : Nat
  deriving DecidableEq, Repr, Inhabited

namespace FWord
def fa (f : FWord) : BitVec 6 := BitVec.ofNat 6 f.w
def fb (f : FWord) : BitVec 6 := BitVec.ofNat 6 (f.w / 2 ^ 6)
def fd (f : FWord) : BitVec 6 := BitVec.ofNat 6 (f.w / 2 ^ 12)
def fc (f : FWord) : BitVec 6 := BitVec.ofNat 6 (f.w / 2 ^ 18)
def sati (f : FWord) : Bool := bit f.w 24
def sca (f : FWord) : Bool := bit f.w 25
def scb (f : FWord) : Bool := bit f.w 26
end FWord

/-- Read the format word: its reserved bits are zero (R67). `more` are the scalar operands that the instruction reads with it. -/
def fmtWord (f : Reg) (more : List Reg := []) : M FWord := do
  dispWait (f :: more)
  let w := (← dispS f).toNat
  if 2 ^ 27 ≤ w then badFormat w
  return ⟨w⟩

/-- The sets of R130. -/
def isI (c : BitVec 6) : Bool := decide (0x10 ≤ c.toNat) && decide (c.toNat ≤ 0x17)
def isI4 (c : BitVec 6) : Bool := decide (0x10 ≤ c.toNat) && decide (c.toNat ≤ 0x19)
def isF (c : BitVec 6) : Bool := decide (c.toNat ≤ 2)
def isN (c : BitVec 6) : Bool := decide (1 ≤ c.toNat) && decide (c.toNat ≤ 6)
def isX (c : BitVec 6) : Bool := decide (c.toNat ≤ 6) || isI4 c
/-- INT8 to UINT32. -/
def isI32 (c : BitVec 6) : Bool := decide (0x10 ≤ c.toNat) && decide (c.toNat ≤ 0x15)

/-- The prefix of an instruction without one (R30). -/
def pfx (x : Option Pfx) : Pfx := x.getD {}

/-- Element `i` is active (R129). -/
def active (t : Thread) (p : Pfx) (i : Nat) : Bool := p.msk == 0 || maskBit (t.m.getD p.msk.toNat (Vector.replicate 32 0)) i

/-- The effective mode of a vector instruction (R97). -/
def vecMode (t : Thread) (p : Pfx) : RMode := if p.rm = .dyn then modeOf (t.fctl.extractLsb' 0 3) else p.rm

/-! ## Elements -/

/-- The bits of element `i` (R59, R87). -/
def elBits (t : Thread) (g : Grp) (i : Nat) : Nat := t.fieldBits (g.reg i) (g.lo i) g.w

/-- The foremost of POISONED, FAULTED, PENDING (R155). -/
def foremost (l : List Presence) : Presence :=
  if l.contains .pois then .pois else if l.contains .flt then .flt else if l.contains .pend then .pend else .pres

/-- The presence of element `i` that a read finds: that of its half-slots, an error in its word being poison (R62, R63). -/
def elPres (t : Thread) (g : Grp) (i : Nat) : Presence :=
  foremost ((List.range g.halves).map fun k => t.readPres (g.reg i) (g.half i + k))

/-- The presence that the register holds for element `i` (R62). -/
def elStored (t : Thread) (g : Grp) (i : Nat) : Presence :=
  foremost ((List.range g.halves).map fun k => t.halfPres (g.reg i) (g.half i + k))

/-- The first half-slot of element `i` in a state. -/
def halfIn (t : Thread) (g : Grp) (i : Nat) (p : Presence) : Nat :=
  ((List.range g.halves).find? fun k => t.halfPres (g.reg i) (g.half i + k) == p).getD 0 + g.half i

/-- The fault slot of a FAULTED element. -/
def elSlot (t : Thread) (g : Grp) (i : Nat) : Nat := (t.slotAt (g.reg i) (halfIn t g i .flt)).getD 0

/-- What a hole record captures of element `i` (R156): its bits, or a link to the record that will fill it. -/
def capture (s : State) (x : Ctx) (g : Grp) (i : Nat) : MOpnd :=
  let t := s.thread x.core x.ctx
  if elPres t g i == .pend then
    let h := halfIn t g i .pend
    match (s.core x.core).recAt x.ctx (g.reg i) h with
    | none => .val (BitVec.ofNat 64 (elBits t g i))
    | some r =>
      let lo := g.lo i
      let rlo := 16 * r.half
      let pos := rlo - lo
      let shift := lo - rlo
      .link r.id shift pos (min (g.w - pos) (16 * r.width - shift)) 0
  else .val (BitVec.ofNat 64 (elBits t g i))

/-- Wait for an element to leave PENDING; FAULTED, its helper fault is delivered (R131, R159). `start` is where the
instruction goes on. -/
def waitEl (start : Nat) (g : Grp) (i : Nat) : M Unit := do
  let t ← thr
  match elPres t g i with
  | .pend => park start .presence
  | .flt => deliver (g.reg i) (halfIn t g i .flt)
  | _ => pure ()

/-- The indices from `start` to VL - 1. -/
def indices (start vl : Nat) : List Nat := (List.range (vl - start)).map (start + ·)

/-- An element has bits in a 32-bit word of a register. -/
def liesIn (q : Grp × Nat) (r w : Nat) : Bool :=
  q.1.reg q.2 == r && decide (q.1.lo q.2 < 32 * w + 32) && decide (32 * w < q.1.lo q.2 + q.1.w)

/-- Words in error that an instruction's lanes read, for the elements `lane`, without using them for an active element, for which they
read `used` (R63): each is marked and EVT15 counts it, the first time. -/
def noteWords (lane used : List (Grp × Nat)) : M Unit := modify fun s =>
  let x := s.at'
  let t := s.thread x.core x.ctx
  if t.errs.isEmpty then s
  else
    let idle (e : Nat × Nat × Bool) : Bool := !e.2.2 && (lane.any fun q => liesIn q e.1 e.2.1) && !used.any fun q => liesIn q e.1 e.2.1
    let n := (t.errs.filter idle).length
    (s.setThread x.core x.ctx { t with errs := t.errs.map fun e => if idle e then (e.1, e.2.1, true) else e }).modCore x.core fun c => evtAdd c 15 n

/-- `noteWords` for an instruction whose lanes read elements `start` to `vl - 1` of `srcs`, element `i`, where active, in `reads i`. -/
def noteReads (p : Pfx) (start vl : Nat) (srcs : List Grp) (reads : Nat → List Grp) : M Unit := do
  let t ← thr
  if !t.errs.isEmpty then
    noteWords ((indices start vl).flatMap fun i => srcs.map fun g => (g, i))
      (((indices start vl).filter (active t p)).flatMap fun i => (reads i).map fun g => (g, i))

/-! ## Writing elements -/

/-- What an instruction does with one element of its destination. -/
inductive Put where
  /-- A value, PRESENT. -/
  | val (v : Nat)
  /-- POISONED: with the bits of a moved element, or undefined bits; `mark` sets the PMK bit (R74, R155). -/
  | pois (v : Option Nat) (mark : Bool)
  /-- FAULTED with a slot (R155). -/
  | flt (v slot : Nat)
  /-- A hole with its record. -/
  | hole (r : MireRec)
  deriving DecidableEq, Repr

/-- An element's index, what becomes of it, the flags it raises, and SRSTATE after it. -/
structure Elem where
  i : Nat
  put : Put
  flags : W64 := 0
  sr : W64 := 0
  deriving DecidableEq, Repr

/-- Set PMK bit `i`. -/
def State.setPmk (s : State) (x : Ctx) (i : Nat) : State :=
  s.modThread x.core x.ctx fun t => t.markPmk i

/-- The bits of a linked operand that its parent's fill does not cover are undefined (log 23, DEDUCED). -/
def freeRest (s : State) (o : MOpnd) : MOpnd × State :=
  match o with
  | .link id sh pos w _ => let p := s.drawFree 64; (.link id sh pos w p.1, p.2)
  | o => (o, s)

/-- The record that a hole of element `i` of `g` pushes, in its own element (R156). -/
def pushRec (s : State) (x : Ctx) (g : Grp) (i : Nat) (r : MireRec) : State :=
  let a := freeRest s r.a
  let b := freeRest a.2 r.b
  let c := freeRest b.2 r.c
  c.2.modCore x.core fun k => { evtAdd k 11 1 with
    mire := k.mire ++ [{ r with
      id := k.nextRec, thr := x.ctx, elem := i, reg := BitVec.ofNat 6 (g.reg i), half := g.half i, width := g.halves,
      a := a.1, b := b.1, c := c.1 }]
    nextRec := k.nextRec + 1 }

/-- Write one element of 16 bits or more (R155, R162). -/
def putWide (s : State) (x : Ctx) (g : Grp) (e : Elem) : State :=
  let k := x.core
  let r := g.reg e.i
  let lo := g.lo e.i
  match e.put with
  | .val v => s.writeWide k x.ctx r lo g.w v .pres
  | .pois v mark =>
    let p := s.drawFree 64
    let s := p.2.writeWide k x.ctx r lo g.w (v.getD p.1.toNat) .pois
    if mark then s.setPmk x e.i else s
  | .flt v slot =>
    let s := s.writeWide k x.ctx r lo g.w v .flt
    s.modThread k x.ctx fun t => match t.slots.getD slot none with
      | none => t
      | some sl => { t with slots := t.slots.setIfInBounds slot (some { sl with refs := sl.refs ++ [(BitVec.ofNat 6 r, g.half e.i, g.halves)] }) }
  | .hole rc => pushRec (s.writeWide k x.ctx r lo g.w (elBits (s.thread k x.ctx) g e.i) .pend) x g e.i rc

/-- Write the elements of 8 bits or fewer that one instruction writes into half-slot number `h` of its group (R62). A
half-slot holds `16 / w` of them. -/
def putHalf (s : State) (x : Ctx) (g : Grp) (h : Nat) (es : List Elem) : State :=
  let k := x.core
  let per := 16 / g.w
  let r := g.reg (h * per)
  let hs := g.half (h * per)
  let old := (s.thread k x.ctx).halfPres r hs
  let isPois (e : Elem) : Bool := match e.put with | .pois _ _ => true | _ => false
  let keep := decide (es.length < per) && old == .pois
  let st : Presence := if keep || es.any isPois then .pois else .pres
  let s := s.releaseHalves k x.ctx r hs 1
  let s := es.foldl (fun s e =>
    let p := s.drawFree g.w
    match e.put with
    | .val v => s.modThread k x.ctx fun t => t.setBits r (g.lo e.i) g.w v
    | .pois v mark =>
      let s := p.2.modThread k x.ctx fun t => t.setBits r (g.lo e.i) g.w (v.getD p.1.toNat)
      if mark then s.setPmk x e.i else s
    | _ => s) s
  s.modThread k x.ctx fun t =>
    es.foldl (fun t e => t.raiseHwm r (ceilDiv (g.lo e.i + g.w) 8)) (t.setHalf r hs st)

/-- Write elements of 8 bits or fewer, given in rising order, half-slot by half-slot (R62). -/
def putNarrow (s : State) (x : Ctx) (g : Grp) (es : List Elem) : State :=
  let per := 16 / g.w
  (es.map fun e => e.i / per).eraseDups.foldl (fun s h => putHalf s x g h (es.filter fun e => e.i / per == h)) s

/-- The words that the written elements `is` of `g` cover whole lose their errors (R63). -/
def clearWords (g : Grp) (is : List Nat) : M Unit := modify fun s =>
  let x := s.at'
  if (s.thread x.core x.ctx).errs.isEmpty then s
  else s.modThread x.core x.ctx fun t => t.clearErrs fun r w =>
    -- the bits of the word that the elements have
    32 ≤ (is.filter fun i => liesIn (g, i) r w).length * min g.w 32

/-- Registers of a group whose low word lies below element `n`. -/
def Grp.lowsBelow (g : Grp) (n : Nat) : List Nat := (List.range ((n * g.w + 8128) / 8192)).map (g.base.toNat + ·)

/-- The instruction in the lanes has written the low words of registers `l` (R275). -/
def noteLows (l : List Nat) : M Unit := modify fun s => { s with lane := s.lane.map fun e => { e with lows := l } }

/-- The instruction in the lanes keeps something across its waits. -/
def keepMemo (m : Memo) : M Unit := modify fun s => { s with lane := s.lane.map fun e => { e with memo := some m } }

/-- Element `e` leaves a hole. -/
def Elem.isHole (e : Elem) : Bool := match e.put with | .hole _ => true | _ => false

/-- Write elements of 16 bits or more in rising order. `size` elements make an element group; where the Mire has no room for
every record of a group, the instruction stalls there, with the earlier groups complete (R158). `fl` and `sr` are the flags
raised and SRSTATE so far. -/
def putGroups (g : Grp) (size : Nat) (draws : Bool) : (prev : Option Nat) → (fl sr : W64) → List Elem → M W64
  | _, fl, sr, [] => do
    if draws then modify fun s => s.modThread s.at'.core s.at'.ctx fun t => { t with srstate := sr }
    return fl
  | prev, fl, sr, e :: r => do
    let k := e.i / size
    let s ← get
    if prev != some k then
      clearWords g (((e :: r).filter fun q => q.i / size == k).map (·.i))
      let n := ((e :: r).filter fun q => q.i / size == k && q.isHole).length
      if n != 0 && decide (512 < (s.core s.at'.core).mire.length + n) then
        if draws then modify fun s => s.modThread s.at'.core s.at'.ctx fun t => { t with srstate := sr }
        flags fl
        noteLows (g.lowsBelow e.i)
        park e.i .mireRoom
    modify fun s => putWide s s.at' g e
    putGroups g size draws (some k) (fl ||| e.flags) e.sr r

/-- Cycles in which pipe `q` of the context's core runs an instruction (R361). -/
def busyCycles (q : Pipe) (n : Nat) : M Unit := modify fun s =>
  s.modCore s.at'.core fun c => evtAdd c (match q with | .a => 4 | .m => 5 | .x => 6) n

/-- Energy of `n` element groups of an instruction in a pipe (R362), each of which occupies it for a cycle (R273, R361). -/
def chargeGroups (q : Pipe) (n : Nat) : M Unit := do
  modify fun s =>
    let w := weights s
    chargeCtx s s.at' (n * (match q with | .a => w.groupA | .m => w.groupM | .x => w.groupX))
  busyCycles q n

/-- What an instruction whose widest operand has `w` bits takes of its pipe: the energy of its element groups from VSTART on, and
Ceil(VL * w / 1024) cycles (R273). -/
def chargeVec (q : Pipe) (w : Nat) : M Unit := do
  let t ← thr
  let vl := t.vl.toNat
  let k := weights (← get)
  let n := ceilDiv (vl - t.vstart.toNat % 2048) (max 1 (1024 / w))
  modify fun s => chargeCtx s s.at' (n * (match q with | .a => k.groupA | .m => k.groupM | .x => k.groupX))
  busyCycles q (ceilDiv (vl * w) 1024)

/-- Write the elements of an instruction whose widest operand has `wmax` bits, and raise their flags once (R84). -/
def putAll (g : Grp) (wmax : Nat) (draws : Bool) (es : List Elem) : M Unit := do
  let fl := es.foldl (fun f e => f ||| e.flags) 0
  if g.w < 16 then
    modify fun s => putNarrow s s.at' g es
    clearWords g (es.map (·.i))
    match es.getLast? with
    | some e => if draws then modify fun s => s.modThread s.at'.core s.at'.ctx fun t => { t with srstate := e.sr }
    | none => pure ()
    flags fl
  else
    let sr := (← thr).srstate
    flags (← putGroups g (max 1 (1024 / wmax)) draws none 0 sr es)

/-! ## Element-wise instructions (R129, R131, R132, R155) -/

/-- What a lane makes of one element: its code, flags, and whether R142 or R143 makes it hard. -/
structure Lane where
  code : Nat
  flags : W64 := 0
  hard : Bool := false
  deriving DecidableEq, Repr, Inhabited

/-- An element-wise instruction after its checks. -/
structure ElOp where
  op : Op
  sop : BitVec 2 := 0
  p : Pfx
  fa : BitVec 6
  fb : BitVec 6
  fd : BitVec 6
  sat : Bool := false
  d : Grp
  srcs : List Grp
  /-- It has a rounding step, and so draws in mode SR (R99). -/
  rounds : Bool := false
  /-- A floating-point instruction: enabled traps (R132). -/
  traps : Bool := false
  /-- Its destination may receive holes (R142). -/
  holes : Bool := false
  /-- `vmerge`: it moves what it reads (R131). -/
  move : Bool := false
  /-- Block scales of A and of B (R95). -/
  sca : Bool := false
  scb : Bool := false
  deriving Repr

/-- It waits for its sources (R131): a destination of 8 bits or fewer, or a move of elements that narrow. -/
def ElOp.waits (e : ElOp) : Bool := decide (e.d.w < 16)

/-- A scale of an element: its code, and whether it is POISONED. -/
abbrev Scale := Nat × Bool

/-- The record of an element's hole (R156). -/
def holeRec (s : State) (x : Ctx) (e : ElOp) (pc : PC) (mode : RMode) (ten : BitVec 5) (rnd i : Nat) (reads : List Grp)
    (sa sb : Nat) : MireRec :=
  let o := reads.map fun g => capture s x g i
  let ops := [o.getD 0 .none, o.getD 1 .none, o.getD 2 .none]
  { id := 0, thr := x.ctx, pc := pc, op := BitVec.ofNat 10 e.op.code, sop := e.sop, fa := e.fa, fb := e.fb, fd := e.fd,
    rm := mode.code, rnd := BitVec.ofNat 16 rnd, ten := ten, elem := i, reg := 0, half := 0, width := 0,
    a := ops.getD 0 .none, b := ops.getD 1 .none, c := ops.getD 2 .none,
    sa := BitVec.ofNat 8 sa, sb := BitVec.ofNat 8 sb, sca := e.sca, scb := e.scb, sat := e.sat, move := e.move, superseded := false,
    chained := ops.any (fun q => match q with | .link .. => true | _ => false), taken := false, dead := false }

/-- Zero of a format: LNS6 writes it as 0x10 (R88). -/
def zeroCode (fd : BitVec 6) : Nat := if fd = 0x06 then 0x10 else 0

/-- Bits [7:6] of an LNS6 container are written 0 (R87). -/
def moved (fd : BitVec 6) (v : Nat) : Nat := if fd = 0x06 then v % 64 else v

/-- What becomes of active element `i` (R155): `reads` are the sources it reads, `lane` computes from their bits. -/
def elemOf (s : State) (x : Ctx) (e : ElOp) (pc : PC) (mode : RMode) (i : Nat) (sr : W64) (reads : List Grp)
    (scale : Scale × Scale) (lane : Nat → List Nat → Rnd → Lane) : Elem :=
  let t := s.thread x.core x.ctx
  let dr := if e.rounds ∧ mode = .sr then srNext sr else (sr, 0)
  let ten := trapEnables t.fctl
  let ps := reads.map fun g => elPres t g i
  let record := holeRec s x e pc mode ten dr.2 i reads scale.1.1 scale.2.1
  if ps.contains .pois || scale.1.2 || scale.2.2 then
    let v := if e.move then (reads.head?.map fun g => moved e.fd (elBits t g i)) else none
    ⟨i, .pois v (!e.move), 0, dr.1⟩
  else match reads.find? fun g => elPres t g i == .flt with
    | some g =>
      let k := elSlot t g i
      ⟨i, .flt (if e.move then elBits t g i else placeholder e.fd ||| k) k, 0, dr.1⟩
    | none =>
      if ps.contains .pend then ⟨i, .hole record, 0, dr.1⟩
      else
        let l := lane i (reads.map fun g => elBits t g i) ⟨mode, dr.2⟩
        if e.holes && (l.hard || l.flags &&& ten.setWidth 64 != 0) then ⟨i, .hole record, 0, dr.1⟩
        else ⟨i, .val l.code, l.flags, dr.1⟩

/-- The elements that an instruction writes from `start` on, in rising order: active ones, and inactive ones that are zeroed
(R129). -/
def elemsOf (s : State) (x : Ctx) (e : ElOp) (pc : PC) (mode : RMode) (reads : Nat → List Grp) (scale : Nat → Scale × Scale)
    (lane : Nat → List Nat → Rnd → Lane) : List Nat → W64 → List Elem
  | [], _ => []
  | i :: r, sr =>
    let t := s.thread x.core x.ctx
    if active t e.p i then
      let q := elemOf s x e pc mode i sr (reads i) (scale i) lane
      q :: elemsOf s x e pc mode reads scale lane r q.sr
    else
      let rest := elemsOf s x e pc mode reads scale lane r sr
      if e.p.zp then ⟨i, .val (zeroCode e.fd), 0, sr⟩ :: rest else rest

/-- The PC of the instruction: its entry's in the lanes. -/
def pcNow : M PC := do
  let s ← get
  return match s.lane with
    | some e => e.pc
    | none => s.pcAt s.at'

/-- An element that would raise an enabled flag where no hole can hold it (R132): the flags are merged, and the trap is
precise. -/
def trapIf (fl : W64) : M Unit := do
  let t ← thr
  if fl &&& (trapEnables t.fctl).setWidth 64 != 0 then
    flags fl
    raise .precise { cls := 3, code := 1, aux := (fl &&& 31#64).toNat }

/-- Run an element-wise instruction with a vector destination from `start`. -/
def runElems (e : ElOp) (start : Nat) (reads : Nat → List Grp) (scale : Nat → Scale × Scale)
    (lane : Nat → List Nat → Rnd → Lane) : M Unit := do
  let t ← thr
  let vl := t.vl.toNat
  let idx := indices start vl
  if e.waits then
    for i in idx.filter (active t e.p) do
      for g in reads i do waitEl start g i
  noteReads e.p start vl e.srcs reads
  let s ← get
  let es := elemsOf s s.at' e (← pcNow) (vecMode t e.p) reads scale lane idx t.srstate
  if e.traps && !e.holes then trapIf (es.foldl (fun f q => f ||| q.flags) 0)
  let wmax := (e.d :: e.srcs).foldl (fun m g => max m g.w) 0
  putAll e.d wmax e.rounds es
  chargeVec .a wmax

/-- No block scales. -/
def noScale (_ : Nat) : Scale × Scale := ((0, false), (0, false))

/-- Run an instruction that writes a mask from vector elements (R64): `test` gives the bit and the flags from the sources'
bits. -/
def runMask (p : Pfx) (d : PReg) (srcs : List Grp) (start : Nat) (test : List Nat → Bool × W64) : M Unit := do
  let t ← thr
  let vl := t.vl.toNat
  let idx := indices start vl
  let act := idx.filter (active t p)
  for i in act do
    for g in srcs do waitEl start g i
  noteReads p start vl srcs fun _ => srcs
  let bad (i : Nat) : Bool := srcs.any fun g => elPres t g i == .pois
  let res := act.map fun i => (i, if bad i then (false, (0 : W64)) else test (srcs.map fun g => elBits t g i))
  let fl := res.foldl (fun f q => f ||| q.2.2) 0
  trapIf fl
  let old := t.m.getD d.toNat (Vector.replicate 32 0)
  let m := if p.zp then idx.foldl (fun m i => if active t p i then m else setMaskBit m i false) old else old
  let m := res.foldl (fun m q => setMaskBit m q.1 q.2.1) m
  modify fun s => s.modThread s.at'.core s.at'.ctx fun t =>
    (act.filter bad).foldl (fun t i => t.markPmk i) { t with m := t.m.setIfInBounds d.toNat m }
  flags fl
  chargeVec .a (srcs.foldl (fun m g => max m g.w) 1)

end Sys2Proof.Machine
end

