-- ==== Sys2Proof/Machine/VectorMem.lean ====
section
/-! DEFINITION. Vector loads and stores (12 R225 to R229), spills and fills (07 R134, R135). -/

namespace Sys2Proof.Machine
open Sys2Proof

/-! ## What an instruction accesses -/

/-- One access of an element: the field it belongs to, its address and its bytes. -/
structure Acc where
  f : Nat
  ea : W64
  n : Nat
  deriving DecidableEq, Repr

/-- A vector memory instruction after its checks: the accesses of each element, and its data group in each field. Field 1 of a
spill frame is its presence codes (R134). -/
structure MemOp where
  store : Bool
  /-- Bits of an element in memory. -/
  mw : Nat
  /-- W code of R225. -/
  k : Nat
  p : Pfx
  gs : List Grp
  accs : Nat → List Acc
  /-- The indices of `vldx` and `vstx`, which decide where an element lies (R225). -/
  ix : Option Grp := none
  /-- Unit-stride: the bytes of its elements follow each other (R240). -/
  run : Bool := false
  frame : Bool := false

/-- The first bit of element `i` in the bytes of its accesses (R87, R93). -/
def MemOp.shift (m : MemOp) (i : Nat) : Nat := if m.mw = 4 then 4 * (i % 2) else if m.mw = 6 then 6 * (i % 4) % 8 else 0

/-- The data group of a field. -/
def MemOp.grp (m : MemOp) (f : Nat) : Grp := m.gs.getD f default

/-- Elements in an element group (R128). -/
def MemOp.size (m : MemOp) : Nat := max 1 (1024 / (m.grp 0).w)

/-- W codes of R225; register and memory widths. -/
def vwCode : VW → Nat
  | .b => 0 | .h => 1 | .w => 2 | .d => 3 | .n => 4 | .l6 => 5
def vwReg : VW → Nat
  | .b | .l6 => 8 | .h => 16 | .w => 32 | .d => 64 | .n => 4
def vwMem : VW → Nat
  | .l6 => 6 | k => vwReg k
def sizeVW : Size → VW
  | .b => .b | .h => .h | .w => .w | .d => .d

/-- The accesses of element `i` of a run from `ea` (R225, R229): one byte at a time where elements share bytes. -/
def runAccs (k : VW) (ea : W64) (i : Nat) : List Acc :=
  match k with
  | .n => [⟨0, ea + BitVec.ofNat 64 (i / 2), 1⟩]
  | .l6 =>
    let b := 6 * (i % 4)
    (List.range ((b + 5) / 8 - b / 8 + 1)).map fun j => ⟨0, ea + BitVec.ofNat 64 (3 * (i / 4) + b / 8 + j), 1⟩
  | k => [⟨0, ea + BitVec.ofNat 64 (i * (vwReg k / 8)), vwReg k / 8⟩]

/-! ## Checking accesses in rising order (R228) -/

/-- Why the checks of an instruction's elements end. -/
inductive MemEnd where
  | wait (why : LaneWait)
  /-- A read of the host window has to issue. -/
  | host (pa n : Nat) (ea : W64)
  | fault (c : Cause)
  | access (e : AccErr) (ea : W64)
  | helper (r h : Nat)
  /-- A POISONED index. -/
  | poison
  deriving DecidableEq, Repr

/-- A checked access of element `i`: where it lies, and what the host answered. -/
structure Got where
  i : Nat
  a : Acc
  loc : Loc
  ans : Option Completion
  deriving DecidableEq, Repr

/-- Where an access of element `i` lies: by the translation its instruction made for it when it was dispatched, else by one made now
(R126, R286). -/
def laneLocate (s : State) (core : Nat) (kind : Access) (i : Nat) (ea : W64) : Except AccErr (Loc × Option TlbEntry) :=
  let made := (s.lane.bind fun e => e.xl.find? fun p => p.1 == i && p.2.1 == ea.toNat / 4096).map (·.2.2)
  match window s core ea, made with
  | .global va, some e =>
    let pa := e.frame + va % 4096
    .ok (if 2 ^ 51 ≤ pa then .host (pa - 2 ^ 51) else .hbm pa, some e)
  | _, _ => locate s core kind ea

/-- What an active element's index does to its access (R159, R346). -/
def indexEnd (m : MemOp) (t : Thread) (i : Nat) : Option MemEnd :=
  m.ix.bind fun g => match elPres t g i with
    | .pend => some (.wait .presence)
    | .flt => some (.helper (g.reg i) (halfIn t g i .flt))
    | .pois => some .poison
    | .pres => none

/-- Bits of an element of a run in one access of it. -/
def MemOp.accBits (m : MemOp) (i : Nat) (a : Acc) : Nat :=
  if m.mw = 6 then
    let first := min 6 (8 - m.shift i)
    if a.ea = ((m.accs i).headD a).ea then first else 6 - first
  else m.mw

/-- Bits of the presence codes of element `i` in its code byte: the first, and how many (R134). -/
def codeBits (g : Grp) (i : Nat) : Nat × Nat := (2 * (g.w * i / 16 % 4), 2 * g.halves)

/-- The bits that one access of element `i` writes of its bytes, as a mask: those of an LNS6 run past its last element are written too, as
zeros (R93, R134, R229). -/
def MemOp.accMask (m : MemOp) (vl i : Nat) (a : Acc) : Nat :=
  let ones (lo n : Nat) : Nat := (2 ^ n - 1) * 2 ^ lo
  if m.frame && a.f == 1 then
    let b := codeBits (m.grp 0) i
    ones b.1 b.2
  else if m.mw = 4 then ones (m.shift i) 4
  else if m.mw = 6 then
    let first := decide (a.ea = ((m.accs i).headD a).ea)
    let bits := if first then ones (m.shift i) (m.accBits i a) else ones 0 (m.accBits i a)
    -- the first bit of this byte in the 24-bit group, and where the run ends there
    let q := 8 * (6 * (i % 4) / 8) + (if first then 0 else 8)
    let ends := 6 * vl - 24 * (i / 4)
    bits ||| (if ends < q + 8 then ones (ends - q) (q + 8 - ends) else 0)
  else ones 0 (8 * a.n)

/-- A store's accesses `work` leave a bit unwritten of the bytes of `a`, which are then read and written back (R229, R134). -/
def MemOp.mends (m : MemOp) (vl : Nat) (work : List (Nat × Acc)) (a : Acc) : Bool :=
  let mine := work.filter fun e => e.2.ea == a.ea && e.2.f == a.f
  m.store && mine.foldl (fun v e => v ||| m.accMask vl e.1 e.2) 0 != 2 ^ (8 * a.n) - 1

/-- Check one access. `got` are the answers of the host that are there, `k` how many of them earlier accesses took; `known` says
that an earlier access of the group has read its byte, `mends` that a store reads it (R229). Where one element meets several causes the
access decides before the presence of the data that a store would write (R228 orders misalignment only; log 25, DEDUCED). -/
def checkAcc (m : MemOp) (s : State) (x : Ctx) (got : List Completion) (k i : Nat) (a : Acc) (mends : Bool) (known : Loc → Bool) : Except MemEnd (State × Got) :=
  let fault (code aux : Nat) : Except MemEnd (State × Got) := .error (.fault { cls := 2, code := code, aux := aux, addr := a.ea, elem := i })
  match indexEnd m (s.thread x.core x.ctx) i with
  | some e => .error e
  | none =>
  if a.ea.toNat % a.n != 0 then fault 2 0
  else match window s x.core a.ea with
    | .ts _ => fault 1 0
    | _ => match laneLocate s x.core (if m.store then .write else .read) i a.ea with
      | .error e => .error (.access e a.ea)
      | .ok (l, leaf) =>
        let s := noteLocated s x.core a.ea leaf
        let t := s.thread x.core x.ctx
        let g := m.grp (if m.frame then 0 else a.f)
        let p := elPres t g i
        if m.store && touchesLive s l a.n then fault 9 0
        else if m.store && p == .flt then .error (.helper (g.reg i) (halfIn t g i .flt))
        else if m.store && p == .pend then .error (.wait .presence)
        else if heldBack s x.core l a.n m.store then .error (.wait .range)
        else match l with
          | .host pa =>
            if m.store && (!mends || known l) then .ok (s, ⟨i, a, l, none⟩)
            else match got[k]? with
              | none => .error (.host pa a.n a.ea)
              | some (.error st) => fault 7 st
              | some q => .ok (s, ⟨i, a, l, some q⟩)
          | _ => .ok (s, ⟨i, a, l, none⟩)

/-- Check accesses until one ends the checks: the state (with the translations used), what has passed, and the element and
reason of the end. `all` are those that the instruction performs together. -/
def scanAccs (m : MemOp) (x : Ctx) (vl : Nat) (all : List (Nat × Acc)) (got : List Completion) : List (Nat × Acc) → State → Nat → List Got → State × List Got × Option (Nat × MemEnd)
  | [], s, _, out => (s, out, none)
  | (i, a) :: r, s, k, out =>
    match checkAcc m s x got k i a (m.mends vl all a) (fun l => out.any fun g => g.loc == l) with
    | .error e => (s, out, some (i, e))
    | .ok (s, g) => scanAccs m x vl all got r s (if g.ans.isSome then k + 1 else k) (out ++ [g])

/-! ## Performing them -/

/-- The bytes that an access reads, and whether they are poisoned (R208, R224). -/
def gotBytes (s : State) (g : Got) : List Byte × Bool :=
  match g.ans with
  | some (.data b) => ((b ++ List.replicate g.a.n 0).take g.a.n, false)
  | some _ => (List.replicate g.a.n 0, true)
  | none => readLoc s g.loc g.a.n

/-- What a load makes of element `i` from the accesses of one field (R226, R229), or of a spill frame (R135). -/
def loadedElem (m : MemOp) (s : State) (f i : Nat) (gs : List Got) : Elem :=
  let mine := (gs.filter fun g => g.i == i && (g.a.f == f || m.frame)).map fun g => (g.a.f, gotBytes s g)
  let data := (mine.filter fun e => e.1 == f).flatMap fun e => e.2.1
  let v := bits (leNat data) (m.shift i) m.mw
  let b := codeBits (m.grp 0) i
  let code := if m.frame then bits (leNat ((mine.filter fun e => e.1 == 1).flatMap fun e => e.2.1)) b.1 b.2 else 0
  if mine.any fun e => e.2.2 then ⟨i, .pois none true, 0, 0⟩
  else if code != 0 then ⟨i, .pois (some v) true, 0, 0⟩
  else ⟨i, .val v, 0, 0⟩

/-- Replace bits `lo` to `lo + n - 1` of a number. -/
def putBits (old lo n v : Nat) : Nat := old - bits old lo n * 2 ^ lo + v % 2 ^ n * 2 ^ lo

/-- What the host answered for a byte that a store writes back in part is what the byte holds (R229). -/
def takeHostByte (s : State) (g : Got) : State :=
  match g.loc, g.ans with
  | .host pa, some (.data b) => { s with host := Memory.write s.host pa ((b ++ List.replicate g.a.n 0).take g.a.n) }
  | _, _ => s

/-- Write one access of element `i` of a store (R227, R229, R135); `gs` are all of its group: a byte that several elements share is
poisoned when one of them is. -/
def storeAcc (m : MemOp) (x : Ctx) (pc : PC) (vl : Nat) (gs : List Got) (s : State) (g : Got) : State :=
  let s := takeHostByte s g
  let t := s.thread x.core x.ctx
  let d := m.grp (if m.frame then 0 else g.a.f)
  let p := elPres t d g.i
  let hot := p == .pois || (decide (m.mw < 8) && gs.any fun q => q.loc == g.loc && elPres t d q.i == .pois)
  let w (s : State) (v : Nat) : State :=
    storeAt s x.core x.ctx (pc.setWidth 64) g.a.ea g.loc (natLe g.a.n v) ((hot && !m.frame) || g.ans == some .poisoned)
  let old := leNat (readLoc s g.loc g.a.n).1
  if m.frame ∧ g.a.f = 1 then
    let b := codeBits d g.i
    w s (putBits old b.1 b.2 (if p == .pois then 2 ^ b.2 - 1 else 0))
  else if m.frame ∧ p = .pois then
    let q := s.drawFree d.w
    w q.2 q.1.toNat
  else
    let v := elBits t d g.i
    if m.mw = 4 then w s (putBits old (m.shift g.i) 4 v)
    else if m.mw = 6 then
      -- bit `q` of the 24-bit group is bit 0 of this byte; bits past the last element of the run are 0 (R93)
      let lo := 6 * (g.i % 4)
      let q := 8 * (lo / 8) + (if g.a.ea = ((m.accs g.i).headD g.a).ea then 0 else 8)
      let ends := 6 * vl - 24 * (g.i / 4)
      let old := if ends < q + 8 then old % 2 ^ (ends - q) else old
      if lo < q then w s (putBits old 0 (lo + 6 - q) (v % 64 / 2 ^ (q - lo)))
      else w s (putBits old (lo - q) (min 6 (8 - (lo - q))) v)
    else w s v



/-- Unit-stride groups write each block that their elements cover whole as one access (R240): its granules without poisoned
data are cleared (R208). -/
def wholeBlocks (m : MemOp) (x : Ctx) (gs : List Got) (s : State) : State :=
  if !m.run then s
  else
    let t := s.thread x.core x.ctx
    let data := gs.filter fun g => g.a.f == 0
    (data.map fun g => g.loc.block).eraseDups.foldl (fun s b =>
      let mine := data.filter fun g => g.loc.block == b
      let n := (mine.map fun g => m.accBits g.i g.a).foldl (· + ·) 0
      let hot (j : Nat) : Bool := mine.any fun g =>
        decide (g.loc.inBlock ≤ j) && decide (j < g.loc.inBlock + g.a.n) && !m.frame && elPres t (m.grp 0) g.i == .pois
      match b with
      | .host _ => s
      | _ => if n < 512 then s
        else
          let bs := (readLoc s b 64).1
          writeBlock s b [(0, (bs.zip (List.range 64)).map fun e => (e.1, hot e.2))]) s

/-- Perform the accesses of checked elements: the elements `idx` of the group below the stop, of which the inactive ones follow
ZP (R226, R227). -/
def performGroup (m : MemOp) (idx : List Nat) (gs : List Got) : M Unit := do
  let t ← thr
  let s ← get
  let x := s.at'
  let pc ← pcNow
  let w := ((gs.map fun g => g.loc.block).eraseDups.map (accessWeight s)).foldl (· + ·) 0
  if m.store then modify fun s => wholeBlocks m x gs (gs.foldl (storeAcc m x pc t.vl.toNat gs) s)
  else
    for f in List.range m.gs.length do
      putAll (m.grp f) (m.grp f).w false (idx.filterMap fun i =>
        if active t m.p i then some (loadedElem m s f i gs) else if m.p.zp then some ⟨i, .val (if m.mw = 6 then zeroCode 0x06 else 0), 0, 0⟩ else none)
  modify fun s => chargeCtx s x w
  chargeGroups .m 1

/-! ## Running it -/

/-- The active elements from `lo` to `hi - 1`. -/
def activeRun (t : Thread) (m : MemOp) (lo hi : Nat) : List Nat := (indices lo hi).filter (active t m.p)

/-- What observes elements `lo` to `hi - 1` of an instruction: the trace and data breakpoints (R369, R373). -/
def memSeen (m : MemOp) (lo hi : Nat) (stopped : Bool) (s : State) : State :=
  let x := s.at'
  let t := s.thread x.core x.ctx
  let els := (activeRun t m lo hi).map fun i => (i, ((m.accs i).headD ⟨0, 0, 1⟩).ea)
  let (pc, time) := match s.lane with
    | some e => (e.pc, e.time)
    | none => (s.pcAt x, s.reftAt x.core)
  brkData (traceVector s x pc time ⟨false, m.store, false, m.k⟩ lo els stopped) x pc
    ((activeRun t m lo hi).flatMap fun i => (m.accs i).map (·.ea))

/-- Stop at element `i` (R228): the elements below it are performed, VSTART is its index. -/
def memStop {α : Type} (m : MemOp) (i : Nat) (e : MemEnd) : M α := do
  let lo := (← thr).vstart.toNat
  modify fun s => memSeen m lo i true s
  modify fun s => s.modThread s.at'.core s.at'.ctx fun t => { t with vstart := BitVec.ofNat 64 i }
  match e with
  | .fault c => raise .precise c
  | .access e ea => stopWith fun s => accessFault s s.at' e (if m.store then .write else .read) ea i
  | .helper r h => deliver r h
  | .poison => poisonFault (elem := i)
  | .wait _ | .host .. => notIssued

/-- The answers of the host for the group that is being read. -/
def hostGot (t : Thread) : List Completion :=
  match t.hostAcc with
  | none => []
  | some a => a.got ++ a.answer.toList

/-- Forget them. -/
def hostDone : M Unit := modify fun s => s.modThread s.at'.core s.at'.ctx fun t => { t with hostAcc := none }

/-- Where a list of accesses lies, with the translations they use, and whether none of them can fault any more: each is aligned
and translates, no data or index it needs is PENDING, FAULTED or a POISONED index, and the host answers none of them. -/
def mapAccs (m : MemOp) (x : Ctx) (vl : Nat) (all : List (Nat × Acc)) :
    List (Nat × Acc) → State → List (Nat × Nat × TlbEntry) → List (Loc × Nat) → Bool → State × List (Nat × Nat × TlbEntry) × List (Loc × Nat) × Bool
  | [], s, xl, mem, safe => (s, xl, mem, safe)
  | (i, a) :: r, s, xl, mem, safe =>
    if (indexEnd m (s.thread x.core x.ctx) i).isSome || a.ea.toNat % a.n != 0 || (window s x.core a.ea matches .ts _) then (s, xl, mem, false)
    else match laneLocate s x.core (if m.store then .write else .read) i a.ea with
      | .error _ => (s, xl, mem, false)
      | .ok (l, leaf) =>
        let xl := xl ++ (leaf.map fun e => (i, a.ea.toNat / 4096, e)).toList
        let p := elPres (s.thread x.core x.ctx) (m.grp (if m.frame then 0 else a.f)) i
        let sound := !(m.store && (touchesLive s l a.n || p == .flt || p == .pend)) && !((l matches .host _) && (!m.store || m.mends vl all a))
        mapAccs m x vl all r (noteLocated s x.core a.ea leaf) xl (mem ++ [(l, a.n)]) (safe && sound)

/-- Park at element `from'`: the instruction holds the translations of its other elements, and where their accesses lie (R126, R286). -/
def memPark (m : MemOp) (from' : Nat) (why : LaneWait) : M Unit := do
  let s ← get
  let x := s.at'
  let t := s.thread x.core x.ctx
  let work := ((indices from' t.vl.toNat).filter (active t m.p)).flatMap fun i => (m.accs i).map fun a => (i, a)
  let (s', xl, mem, safe) := mapAccs m x t.vl.toNat work work s [] [] true
  let held (e : PipeEntry) : PipeEntry := { e with xl := xl, mem := mem, safe := safe }
  set { s' with lane := s.lane.map held }
  if !m.store then noteLows (m.gs.flatMap fun g => g.lowsBelow from')
  park from' why

/-- The checks of accesses that end in a fault end anew for those of the elements below it: alone they may leave more bits of a byte
unwritten, and read it (R228, R229). -/
def scanBelow (m : MemOp) (x : Ctx) (vl : Nat) (got : List Completion) (work : List (Nat × Acc)) (s : State) : State × List Got × Option (Nat × MemEnd) :=
  let r := scanAccs m x vl work got work s 0 []
  match r.2.2 with
  | none | some (_, .wait _) | some (_, .host ..) => r
  | some (i, e) =>
    let below := work.filter fun a => a.1 < i
    let q := scanAccs m x vl below got below s 0 []
    match q.2.2 with
    | some (_, .host ..) => q
    | _ => (r.1, q.2.1, some (i, e))

/-- Run the elements `idx` of one element group: all of them, or those below a stop; while one waits, none (R159, R249). -/
def memGroup (m : MemOp) (idx : List Nat) : M Unit := do
  let s ← get
  let x := s.at'
  let t := s.thread x.core x.ctx
  let work := (idx.filter (active t m.p)).flatMap fun i => (m.accs i).map fun a => (i, a)
  let got := hostGot t
  let (s', gs, e) := scanBelow m x t.vl.toNat got work s
  set s'
  let from' := idx.headD 0
  match e with
  | none => do
    performGroup m idx gs
    hostDone
  | some (_, .wait why) => memPark m from' why
  | some (i, .host pa n ea) => do
    -- a read that has issued is waited for; the next one issues once its answer is there
    let waiting := match t.hostAcc with | some a => a.answer.isNone | none => false
    if !waiting then
      let leaf := match laneLocate s' x.core .read i ea with | .ok (_, some e) => some (ea.toNat / 4096, e) | _ => none
      modify fun s => s.modThread x.core x.ctx fun t => { t with hostAcc := some ⟨pa, n, leaf, none, got⟩ }
    memPark m from' .host
  | some (i, e) => do
    performGroup m (idx.filter (· < i)) gs
    hostDone
    memStop m i e

/-- The element groups of elements `start` to VL - 1. -/
def memGroups (size start vl : Nat) : List (List Nat) :=
  ((List.range (ceilDiv vl size)).map fun k => (List.range size).filterMap fun j =>
    let i := k * size + j
    if start ≤ i ∧ i < vl then some i else none).filter fun l => !l.isEmpty

/-- Run a vector memory instruction from `start`. -/
def runMem (m : MemOp) (start : Nat) : M Unit := do
  let vl ← vlen
  let read := m.ix.toList ++ if m.store then m.gs else []
  noteReads m.p start vl read fun _ => read
  for l in memGroups m.size start vl do memGroup m l
  let lo := (← thr).vstart.toNat
  modify fun s => memSeen m lo vl false s

/-! ## The forms (R225) -/

/-- The effective address, its register read at dispatch (R60, R216). -/
def vecEa (a : Reg) (off : BitVec 48) : M W64 := do return (← dispS a) + off.signExtend 64

/-- `vld` and `vst`. -/
def unitOp (store : Bool) (x : Option Pfx) (d a : Reg) (k : VW) (off : BitVec 48) : M MemOp := do
  let g : Grp := ⟨d, vwReg k, ← vlen⟩
  alignGroups [g]
  let ea ← vecEa a off
  return { store := store, mw := vwMem k, k := vwCode k, p := pfx x, gs := [g], accs := runAccs k ea, run := true }

/-- `vlds` and `vsts`. -/
def strideOp (store : Bool) (x : Option Pfx) (d a b : Reg) (k : Size) (off : BitVec 48) : M MemOp := do
  let w := vwReg (sizeVW k)
  let g : Grp := ⟨d, w, ← vlen⟩
  alignGroups [g]
  dispWait [a, b]
  let ea ← vecEa a off
  let st ← dispS b
  return { store := store, mw := w, k := vwCode (sizeVW k), p := pfx x, gs := [g],
           accs := fun i => [⟨0, ea + BitVec.ofNat 64 i * st, w / 8⟩] }

/-- `vldx` and `vstx`: an element's index is waited for, and a POISONED one is fatal, in the order of the elements (R345). -/
def indexOp (store : Bool) (x : Option Pfx) (d a b : Reg) (k : Size) (i64 : Bool) (off : BitVec 48) : M MemOp := do
  let w := vwReg (sizeVW k)
  let vl ← vlen
  let g : Grp := ⟨d, w, vl⟩
  let ix : Grp := ⟨b, if i64 then 64 else 32, vl⟩
  if store then alignGroups [g, ix] else checkGroups true g [ix]
  let ea ← vecEa a off
  let t ← thr
  return { store := store, mw := w, k := vwCode (sizeVW k), p := pfx x, gs := [g], ix := some ix,
           accs := fun i => [⟨0, ea + BitVec.ofNat 64 (elBits t ix i), w / 8⟩] }

/-- `vldseg` and `vstseg` (R225): `nf` fields, each in a group of its own. A group fault of the first field comes before the illegal
instruction of fields that pass register 63: R33 step 7 gives no order (log 49, DESIGN CHOICE). -/
def segOp (o : Op) (store : Bool) (x : Option Pfx) (d a : Reg) (k : Size) (nf : Nat) (off : BitVec 48) : M MemOp := do
  let w := vwReg (sizeVW k)
  let vl ← vlen
  let g : Grp := ⟨d, w, vl⟩
  alignGroups [g]
  let n := g.size
  if 64 < d.toNat + nf * n then illegal o
  let ea ← vecEa a off
  return { store := store, mw := w, k := vwCode (sizeVW k), p := pfx x,
           gs := (List.range nf).map fun f => ⟨d + BitVec.ofNat 6 (f * n), w, vl⟩,
           accs := fun i => (List.range nf).map fun f => ⟨f, ea + BitVec.ofNat 64 ((i * nf + f) * (w / 8)), w / 8⟩ }

/-- Bytes rounded up to a multiple of 64. -/
def align64 (n : Nat) : Nat := ceilDiv n 64 * 64

/-- `FrameBytes` of R134. -/
def frameBytes (vl w : Nat) : Nat :=
  let data := ceilDiv (vl * w) 8
  align64 data + align64 (ceilDiv (ceilDiv data 2 * 2) 8)

/-- `vspill` and `vfill`: an element has its bytes and the byte of its presence codes. A frame that is not 64-byte aligned is
a misaligned access of every element. -/
def frameOp (store : Bool) (d a : Reg) (k : Size) (off : BitVec 48) : M MemOp := do
  let w := vwReg (sizeVW k)
  let vl ← vlen
  let g : Grp := ⟨d, w, vl⟩
  alignGroups [g]
  let ea ← vecEa a off
  let codes := align64 (ceilDiv (vl * w) 8)
  return { store := store, mw := w, k := vwCode (sizeVW k), p := {}, gs := [g], frame := true, run := store,
           accs := fun i => if ea.toNat % 64 != 0 then [⟨0, ea, 64⟩] else
             [⟨0, ea + BitVec.ofNat 64 (i * (w / 8)), w / 8⟩, ⟨1, ea + BitVec.ofNat 64 (codes + i * w / 16 / 4), 1⟩] }

/-- `vld` (R225, R226, R229). -/
def execVld (c : Ctl) (x : Option Pfx) (d a : Reg) (k : VW) (off : BitVec 48) (s : State) : Out :=
  vinstr (.vld c x d a k off) .vld .m true (fun start => do runMem (← unitOp false x d a k off) start) s

/-- `vlds` (R225, R226). -/
def execVlds (c : Ctl) (x : Option Pfx) (d a b : Reg) (k : Size) (off : BitVec 48) (s : State) : Out :=
  vinstr (.vlds c x d a b k off) .vlds .m true (fun start => do runMem (← strideOp false x d a b k off) start) s

/-- `vldx` (R225, R226). -/
def execVldx (c : Ctl) (x : Option Pfx) (d a b : Reg) (k : Size) (i64 : Bool) (off : BitVec 48) (s : State) : Out :=
  vinstr (.vldx c x d a b k i64 off) .vldx .m true (fun start => do runMem (← indexOp false x d a b k i64 off) start) s

/-- `vldseg` (R225, R226). -/
def execVldseg (c : Ctl) (x : Option Pfx) (d a : Reg) (k : Size) (nf : BitVec 3) (off : BitVec 48) (s : State) : Out :=
  vinstr (.vldseg c x d a k nf off) .vldseg .m true (fun start => do
    runMem (← segOp .vldseg false x d a k (nf.toNat + 1) off) start) s

/-- `vst` (R225, R227, R229, R240). -/
def execVst (c : Ctl) (x : Option Pfx) (d a : Reg) (k : VW) (off : BitVec 48) (s : State) : Out :=
  vinstr (.vst c x d a k off) .vst .m true (fun start => do runMem (← unitOp true x d a k off) start) s

/-- `vsts` (R225, R227). -/
def execVsts (c : Ctl) (x : Option Pfx) (d a b : Reg) (k : Size) (off : BitVec 48) (s : State) : Out :=
  vinstr (.vsts c x d a b k off) .vsts .m true (fun start => do runMem (← strideOp true x d a b k off) start) s

/-- `vstx` (R225, R227). -/
def execVstx (c : Ctl) (x : Option Pfx) (d a b : Reg) (k : Size) (i64 : Bool) (off : BitVec 48) (s : State) : Out :=
  vinstr (.vstx c x d a b k i64 off) .vstx .m true (fun start => do runMem (← indexOp true x d a b k i64 off) start) s

/-- `vstseg` (R225, R227). -/
def execVstseg (c : Ctl) (x : Option Pfx) (d a : Reg) (k : Size) (nf : BitVec 3) (off : BitVec 48) (s : State) : Out :=
  vinstr (.vstseg c x d a k nf off) .vstseg .m true (fun start => do
    runMem (← segOp .vstseg true x d a k (nf.toNat + 1) off) start) s

/-! ## VL, spill frames (R133 to R135) -/

/-- Set VL and VTYPE (R133): the request is cut to 2,048, and VSTART is 0. -/
def setVl (d : Reg) (n blk : Nat) : M Unit := do
  let v : W64 := BitVec.ofNat 64 (min n 2048)
  modify fun s => s.modThread s.at'.core s.at'.ctx fun t => { t with vl := v, vtype := BitVec.ofNat 64 blk, vstart := 0, strip := t.strip + 1 }
  wrS d v

/-- `setvl` (R133). -/
def execSetvl (c : Ctl) (d a b : Reg) (s : State) : Out :=
  instr (.setvl c d a b) .setvl (do
    control [a, b]
    let k := (← sval b).toNat
    if 3 ≤ k then illegal .setvl
    setVl d (← sval a).toNat k) s

/-- `setvli` (R133). -/
def execSetvli (c : Ctl) (d : Reg) (imm : BitVec 56) (s : State) : Out :=
  instr (.setvli c d imm) .setvli (do
    let k := imm.toNat / 2 ^ 12
    if 3 ≤ k then illegal .setvli
    setVl d (imm.toNat % 2 ^ 12) k) s

/-- `vlq` (R134). -/
def execVlq (c : Ctl) (d : Reg) (k : Size) (s : State) : Out :=
  instr (.vlq c d k) .vlq (do
    wrS d (BitVec.ofNat 64 (frameBytes (← vlen) (vwReg (sizeVW k))))) s

/-- `vspill` (R135). -/
def execVspill (c : Ctl) (d a : Reg) (k : Size) (off : BitVec 48) (s : State) : Out :=
  vinstr (.vspill c d a k off) .vspill .m true (fun start => do runMem (← frameOp true d a k off) start) s

/-- The bits of a group from bit `lo` on are undefined (R135), and PRESENT (R5): an element that has bits there is taken out of
PENDING and FAULTED, and a half-slot that lies there whole is PRESENT. -/
def freeTail (s : State) (x : Ctx) (g : Grp) (lo : Nat) : State :=
  (List.range (128 * g.size)).foldl (fun s j =>
    let r := (g.base.toNat + j / 128) % 64
    let from' := lo - 64 * j
    if 64 ≤ from' then s
    else
      let h := 4 * (j % 128)
      let first := ceilDiv from' 16
      let s := s.releaseHalves x.core x.ctx r (h + from' / 16) (4 - from' / 16)
      let q := s.drawFree 64
      q.2.modThread x.core x.ctx fun t =>
          (t.setBits r (64 * (j % 128) + from') (64 - from') q.1.toNat).setHalves r (h + first) (4 - first) .pres) s

/-- At VL = 0 no presence state changes (R66), and the whole group lies beyond the data (R135): the bits of half-slots that are PRESENT or
POISONED are undefined, and PENDING and FAULTED ones stay (log 26, DEDUCED). -/
def freeBitsOnly (s : State) (x : Ctx) (g : Grp) : State :=
  (List.range (512 * g.size)).foldl (fun s j =>
    let r := (g.base.toNat + j / 512) % 64
    match (s.thread x.core x.ctx).halfPres r (j % 512) with
    | .pres | .pois =>
      let q := s.drawFree 16
      q.2.modThread x.core x.ctx fun t => t.setBits r (16 * (j % 512)) 16 q.1.toNat
    | _ => s) s

/-- `vfill` (R135); at VL = 0 it leaves presence as it is (R66; log 26, DEDUCED). -/
def execVfill (c : Ctl) (d a : Reg) (k : Size) (off : BitVec 48) (s : State) : Out :=
  vinstr (.vfill c d a k off) .vfill .m true (fun start => do
    let m ← frameOp false d a k off
    runMem m start
    let g := m.grp 0
    modify fun s => if g.len = 0 then freeBitsOnly s s.at' g else freeTail s s.at' g (g.len * g.w)) s

/-- The accesses of a vector memory instruction, for the record of one that is pre-empted in its pipe (R277, R369). -/
def memOpOf (i : Instr) : M (Option MemOp) := do
  match i with
  | .vld _ x d a k off => return some (← unitOp false x d a k off)
  | .vlds _ x d a b k off => return some (← strideOp false x d a b k off)
  | .vldx _ x d a b k w off => return some (← indexOp false x d a b k w off)
  | .vldseg _ x d a k nf off => return some (← segOp .vldseg false x d a k (nf.toNat + 1) off)
  | .vst _ x d a k off => return some (← unitOp true x d a k off)
  | .vsts _ x d a b k off => return some (← strideOp true x d a b k off)
  | .vstx _ x d a b k w off => return some (← indexOp true x d a b k w off)
  | .vstseg _ x d a k nf off => return some (← segOp .vstseg true x d a k (nf.toNat + 1) off)
  | .vspill _ d a k off => return some (← frameOp true d a k off)
  | .vfill _ d a k off => return some (← frameOp false d a k off)
  | _ => return none

end Sys2Proof.Machine
end

