-- ==== Sys2Proof/Machine/BlockMem.lean ====
section
/-! DEFINITION. Block records: `vldmx` and `vstmx` (12 R230, R231, 05 R96). -/

namespace Sys2Proof.Machine
open Sys2Proof

/-- A block-record instruction after its checks. -/
structure BlkOp where
  store : Bool
  /-- Bits of an element in memory. -/
  mw : Nat
  /-- The transposing bit. -/
  tr : Bool
  p : Pfx
  d : Grp
  sc : Grp
  /-- Address of record `r`. -/
  at' : Nat → W64

/-- Bytes of a record's elements, and of the record (R96). -/
def BlkOp.elBytes (m : BlkOp) : Nat := 128 * m.mw
def BlkOp.bytes (m : BlkOp) : Nat := m.elBytes + 64

/-- Register position of element `e` of a record. -/
def BlkOp.pos (m : BlkOp) (e : Nat) : Nat := if m.tr then 32 * (e % 32) + e / 32 else e

/-- The memory width of a format that `vldmx` and `vstmx` accept (R230). -/
def blkWidth (c : BitVec 6) : Option Nat :=
  if c = 3 ∨ c = 4 then some 8 else if c = 5 then some 4 else if c = 6 then some 6 else none

/-- The checks of R230, in its order, and the overlap of scales and data. -/
def blkOp (o : Op) (store : Bool) (x : Option Pfx) (d a b rc f : Reg) (tr : Bool) : M BlkOp := do
  let t ← thr
  let vl := t.vl.toNat
  if t.vtype != 2 || (vl != 0 && vl != 1024 && vl != 2048) || t.vstart.toNat % 1024 != 0 then illegal o
  dispWait [f, a, b]
  let w := (← dispS f).toNat
  let fw : FWord := ⟨w⟩
  let code := if store then fw.fa else fw.fd
  match (if 2 ^ 27 ≤ w then none else blkWidth code) with
  | none => badFormat w
  | some mw =>
    let sa ← dispS a
    let sb ← dispS b
    if sa.toNat % 64 != 0 then raise .precise { cls := 2, code := 2, addr := sa }
    if sb.toNat % 64 != 0 then raise .precise { cls := 2, code := 2, addr := sa + sb }
    let g : Grp := ⟨d, codeWidth code, vl⟩
    let sc : Grp := ⟨rc, 8, vl / 1024⟩
    let m : BlkOp := ⟨store, mw, tr, pfx x, g, sc, fun r => sa + BitVec.ofNat 64 r * sb⟩
    if store && vl == 2048 && decide (sb.toInt.natAbs < m.bytes) then illegal o
    alignGroups [g]
    if g.meets ⟨rc, 8, 1⟩ then overlapFault d
    return m

/-- A chunk of 64 bytes of a record: its number, and where it lies. -/
abbrev Chunk := Nat × Loc

/-- Check the chunks of record `r` (R216, R228). -/
def scanChunks (m : BlkOp) (x : Ctx) (r : Nat) : List Nat → State → List Chunk → State × Except MemEnd (List Chunk)
  | [], s, out => (s, .ok out)
  | j :: l, s, out =>
    let ea := m.at' r + BitVec.ofNat 64 (64 * j)
    let fault (code : Nat) : State × Except MemEnd (List Chunk) := (s, .error (.fault { cls := 2, code := code, addr := ea, elem := 1024 * r }))
    match window s x.core ea with
    | .ts _ => fault 1
    | _ => match laneLocate s x.core (if m.store then .write else .read) r ea with
      | .error e => (s, .error (.access e ea))
      | .ok (.host _, _) => fault 1
      | .ok (lc, leaf) =>
        if m.store && touchesLive s lc 64 then fault 9
        else if heldBack s x.core lc 64 m.store then (s, .error (.wait .range))
        else scanChunks m x r l (noteLocated s x.core ea leaf) (out ++ [(j, lc)])

/-- The elements and the scale of record `r` that a store reads: the end they put to its checks (R230). -/
def blkReady (m : BlkOp) (t : Thread) (r : Nat) : Option MemEnd :=
  let els := (List.range 1024).map fun k => (m.d, 1024 * r + k)
  let all := els ++ [(m.sc, r)]
  if all.any fun e => elPres t e.1 e.2 == .pend then some (.wait .presence)
  else (all.find? fun e => elPres t e.1 e.2 == .flt).map fun e => .helper (e.1.reg e.2) (halfIn t e.1 e.2 .flt)

/-- Check the records of a list: those that pass, with their chunks, and what ends the checks. A store waits while a command of an engine
is amid the record, so that it sees one side whole (R231; log 27, DEDUCED). -/
def scanRecs (m : BlkOp) (x : Ctx) : List Nat → State → List (Nat × List Chunk) → State × List (Nat × List Chunk) × Option (Nat × MemEnd)
  | [], s, out => (s, out, none)
  | r :: l, s, out =>
    match scanChunks m x r (List.range (m.bytes / 64)) s [] with
    | (s, .error e) => (s, out, some (r, e))
    | (s, .ok cs) => match if m.store then blkReady m (s.thread x.core x.ctx) r else none with
      | some e => (s, out, some (r, e))
      | none =>
        if m.store && midRecord s (cs.map fun c => (c.2, 64)) then (s, out, some (r, .wait .range))
        else scanRecs m x l s (out ++ [(r, cs)])

/-- The bytes of element `e` of a record: the first, and how many; and its first bit there (R87, R93, R96). -/
def BlkOp.place (m : BlkOp) (e : Nat) : Nat × Nat × Nat :=
  let b := e * m.mw
  (b / 8, (b + m.mw - 1) / 8 - b / 8 + 1, b % 8)

/-- Read the records that passed: each element with its presence, and each scale (R230). The scale of the first record is kept for the
second, which one instruction may read after a wait: the two share a half-slot (R62). -/
def loadRecs (m : BlkOp) (recs : List (Nat × List Chunk)) : M Unit := do
  let s ← get
  let t ← thr
  let els := recs.flatMap fun rc =>
    let bytes := rc.2.flatMap fun c => readBytes s c.2 64
    let at' (k : Nat) : Elem :=
      -- the position of an element is its own inverse
      let pl := m.place (m.pos k)
      let mine := (bytes.drop pl.1).take pl.2.1
      let i := 1024 * rc.1 + k
      if mine.any (·.2) then ⟨i, .pois none true, 0, 0⟩ else ⟨i, .val (bits (leNat (mine.map (·.1))) pl.2.2 m.mw), 0, 0⟩
    (List.range 1024).filterMap fun k =>
      let i := 1024 * rc.1 + k
      if active t m.p i then some (at' k) else if m.p.zp then some ⟨i, .val (if m.mw = 6 then zeroCode 0x06 else 0), 0, 0⟩ else none
  let scale (r v : Nat) (bad : Bool) : Elem := ⟨r, if bad then .pois none true else .val v, 0, 0⟩
  let scales := recs.map fun rc =>
    let b := ((rc.2[m.elBytes / 64]?).map fun c => (readBytes s c.2 1).headD (0, false)).getD (0, false)
    scale rc.1 b.1.toNat b.2
  let kept := match s.lane.bind (·.memo) with
    | some (.scale v bad) => [scale 0 v bad]
    | _ => []
  putAll m.d m.d.w false els
  if !recs.isEmpty then putAll m.sc 8 false (kept ++ scales)
  match scales.head? with
  | some ⟨0, .val v, _, _⟩ => keepMemo (.scale v false)
  | some ⟨0, .pois _ _, _, _⟩ => keepMemo (.scale 0 true)
  | _ => pure ()

/-- The bytes of record `r` as a store writes it: its elements, its scale, zeros (R230). A byte is poisoned when an element or
the scale in it is. -/
def recBytes (m : BlkOp) (t : Thread) (r : Nat) : List PByte :=
  let el (e : Nat) : Nat × Bool :=
    let i := 1024 * r + m.pos e
    (elBits t m.d i, elPres t m.d i == .pois)
  let els := (List.range m.elBytes).map fun j =>
    -- the elements that byte `j` holds bits of
    let lo := 8 * j / m.mw
    let hi := (8 * j + 7) / m.mw
    let l := (List.range (hi - lo + 1)).map fun q => (lo + q, el (lo + q))
    let v := l.foldl (fun v e =>
      v + (if 8 * j ≤ e.1 * m.mw then bits (e.2.1 % 2 ^ m.mw * 2 ^ (e.1 * m.mw - 8 * j)) 0 8 else bits (e.2.1 % 2 ^ m.mw) (8 * j - e.1 * m.mw) 8)) 0
    ((BitVec.ofNat 8 v, l.any fun e => e.2.2) : PByte)
  let sc : PByte := (BitVec.ofNat 8 (elBits t m.sc r), elPres t m.sc r == .pois)
  els ++ sc :: List.replicate 63 (0, false)

/-- Write the records that passed, each as one indivisible write (R231). -/
def storeRecs (m : BlkOp) (t : Thread) (recs : List (Nat × List Chunk)) (s : State) : State :=
  recs.foldl (fun s rc =>
    let b := recBytes m t rc.1
    rc.2.foldl (fun s c => writeBlock s c.2 [(0, (b.drop (64 * c.1)).take 64)]) s) s

/-- Energy of the records performed (R362). -/
def blkCharge (recs : List (Nat × List Chunk)) (s : State) : State :=
  chargeCtx s s.at' (((recs.flatMap fun rc => rc.2.map fun c => accessWeight s c.2)).foldl (· + ·) 0)

/-- What observes records `lo / 1024` to `hi / 1024 - 1`, which one instruction performed: the trace (a record is an element, R369) and
data breakpoints (R373). -/
def blkSeen (m : BlkOp) (lo hi : Nat) (stopped : Bool) (s : State) : State :=
  let x := s.at'
  let (pc, time) := match s.lane with
    | some e => (e.pc, e.time)
    | none => (s.pcAt x, s.reftAt x.core)
  let k := if m.mw = 4 then 4 else if m.mw = 6 then 5 else 0
  let l := indices (lo / 1024) (hi / 1024)
  brkData (traceVector s x pc time ⟨false, m.store, false, k⟩ lo (l.map fun r => (r, m.at' r)) stopped) x pc (l.map m.at')

/-- Where the chunks of records lie, with the translations they use, and whether they can no longer fault (R126, R286). -/
def mapChunks (m : BlkOp) (x : Ctx) :
    List (Nat × W64) → State → List (Nat × Nat × TlbEntry) → List (Loc × Nat) → Bool → State × List (Nat × Nat × TlbEntry) × List (Loc × Nat) × Bool
  | [], s, xl, mem, safe => (s, xl, mem, safe)
  | (i, ea) :: r, s, xl, mem, safe =>
    if window s x.core ea matches .ts _ then (s, xl, mem, false)
    else match laneLocate s x.core (if m.store then .write else .read) i ea with
      | .error _ | .ok (.host _, _) => (s, xl, mem, false)
      | .ok (l, leaf) =>
        let xl := xl ++ (leaf.map fun e => (i, ea.toNat / 4096, e)).toList
        mapChunks m x r (noteLocated s x.core ea leaf) xl (mem ++ [(l, 64)]) (safe && !(m.store && touchesLive s l 64))

/-- Park at `start`, as `memPark` does. -/
def blkPark (m : BlkOp) (start : Nat) (recs : List Nat) (why : LaneWait) : M Unit := do
  let s ← get
  let x := s.at'
  let eas := recs.flatMap fun r => (List.range (m.bytes / 64)).map fun j => (r, m.at' r + BitVec.ofNat 64 (64 * j))
  let (s', xl, mem, safe) := mapChunks m x eas s [] [] true
  let sound := safe && !(m.store && recs.any fun r => (blkReady m (s.thread x.core x.ctx) r).isSome)
  let held (e : PipeEntry) : PipeEntry := { e with xl := xl, mem := mem, safe := sound }
  set { s' with lane := s'.lane.map held }
  if !m.store then noteLows (m.d.lowsBelow start)
  park start why

/-- Run a block-record instruction: every record, or those below a stop or a wait (R228, R249). -/
def runBlk (m : BlkOp) (start : Nat) : M Unit := do
  let vl ← vlen
  let s ← get
  let x := s.at'
  let (s', recs, e) := scanRecs m x (indices (start / 1024) (vl / 1024)) s []
  set s'
  let perform : M Unit := do
    if m.store then modify (storeRecs m (s'.thread x.core x.ctx) recs) else loadRecs m recs
    modify (blkCharge recs)
    chargeGroups .m (recs.length * m.d.w)
  let lo := (s'.thread x.core x.ctx).vstart.toNat
  match e with
  | none => do
    perform
    modify (blkSeen m lo vl false)
  | some (r, .wait why) => do
    perform
    blkPark m (1024 * r) (indices r (vl / 1024)) why
  | some (r, e) => do
    perform
    modify (blkSeen m lo (1024 * r) true)
    modify fun s => s.modThread x.core x.ctx fun t => { t with vstart := BitVec.ofNat 64 (1024 * r) }
    match e with
    | .fault c => raise .precise c
    | .access e ea => stopWith fun s => accessFault s x e (if m.store then .write else .read) ea (1024 * r)
    | .helper r h => deliver r h
    | .wait _ | .host .. | .poison => notIssued

/-- What observes elements `lo` to `hi - 1` of a vector memory instruction that stops in its pipe (R277, R369, R373). -/
def instrSeen (i : Instr) (lo hi : Nat) : M Unit := do
  match i with
  | .vldmx _ x d a b rc f t => modify (blkSeen (← blkOp .vldmx false x d a b rc f t) lo hi true)
  | .vstmx _ x d a b rc f t => modify (blkSeen (← blkOp .vstmx true x d a b rc f t) lo hi true)
  | _ => match ← memOpOf i with
    | some m => modify (memSeen m lo hi true)
    | none => pure ()

/-- `vldmx` (R230). -/
def execVldmx (c : Ctl) (x : Option Pfx) (d a b rc f : Reg) (t : Bool) (s : State) : Out :=
  vinstr (.vldmx c x d a b rc f t) .vldmx .m true (fun start => do
    runBlk (← blkOp .vldmx false x d a b rc f t) start) s

/-- `vstmx` (R230, R231). -/
def execVstmx (c : Ctl) (x : Option Pfx) (d a b rc f : Reg) (t : Bool) (s : State) : Out :=
  vinstr (.vstmx c x d a b rc f t) .vstmx .m true (fun start => do
    runBlk (← blkOp .vstmx true x d a b rc f t) start) s

end Sys2Proof.Machine
end

