-- ==== Sys2Proof/Machine/Control.lean ====
section
/-! DEFINITION. Branches, loop nests, yield, traps, service calls and `eret` (06 R116 to R123). -/

namespace Sys2Proof.Machine
open Sys2Proof

/-! ## Branches, calls and returns (R116, R117) -/

/-- Go to a computed target: misaligned, the misaligned-target fault at the instruction's own PC (R117). -/
def goTo (t : W64) : M (Option PC) := do
  if t &&& 3 != 0 then raise .precise { cls := 2, code := 3, addr := (t.setWidth 56).setWidth 64 }
  return some (t.setWidth 56)

/-- `br` (R116). -/
def execBr (c : Ctl) (tgt : BitVec 56) (s : State) : Out :=
  instrTo (.br c tgt) .br (do
    let s ← get
    return some (s.pcAt s.at' + tgt)) s

/-- `jmp` (R116, R117, R104). -/
def execJmp (c : Ctl) (a : Reg) (tgt : BitVec 56) (s : State) : Out :=
  instrTo (.jmp c a tgt) .jmp (do
    control [a]
    goTo ((← sval a) + tgt.signExtend 64)) s

/-- `call` (R116): D receives PC + 12. -/
def execCall (c : Ctl) (d : Reg) (tgt : BitVec 56) (s : State) : Out :=
  instrTo (.call c d tgt) .call (do
    let s ← get
    let pc := s.pcAt s.at'
    wrS d ((pc + 12).setWidth 64)
    return some (pc + tgt)) s

/-- `ret` (R116, R117, R104). -/
def execRet (c : Ctl) (a : Reg) (s : State) : Out :=
  instrTo (.ret c a) .ret (do
    control [a]
    goTo (← sval a)) s

/-! ## Loop nests (R118 to R121) -/

/-- Opcodes that no body of a nest may hold (R120). -/
def bodyBars (opc : BitVec 10) : Bool :=
  match Op.ofCode opc.toNat with
  | some .br | some .jmp | some .call | some .ret | some .trap | some .svc | some .eret | some .lnest | some .lninc
  | some .texit | some .tsusp | some .icinv => true
  | _ => false

/-- Read the words of `n` instructions from `pc`: the address after them, and whether one is barred. A fetch fault falls at
the `lnest` (R120). -/
def bodyScan (x : Ctx) : (n : Nat) → (pc : PC) → (bad : Bool) → M (PC × Bool)
  | 0, pc, bad => return (pc, bad)
  | n + 1, pc, bad => do
    let word (pc : PC) : M (BitVec 32) := fun s => match fetchWord s x pc with
      | .error e => if mustWait s x then .error .retry else .error (.ends e)
      | .ok r => .ok r
    let w0 ← word pc
    let w1 ← word (pc + 4)
    let _ ← word (pc + 8)
    if isPrefixWord w0 then
      let _ ← word (pc + 12)
      bodyScan x n (pc + 16) (bad || bodyBars (w1.extractLsb' 22 10))
    else bodyScan x n (pc + 12) (bad || bodyBars (w0.extractLsb' 22 10))

/-- Registers `r` to `r + n - 1`. -/
def regRun (r : Reg) (n : Nat) : List Reg := (List.range n).map fun j => r + BitVec.ofNat 6 j

/-- A list of numbers without a repetition. -/
def noRepeat : List Reg → Bool
  | [] => true
  | r :: l => !l.contains r && noRepeat l

/-- `lnest` (R119, R120). Counts and strides are read in the order of R119, in which an index register that has been cleared
reads 0. Every body word is fetched before any is judged: a fetch fault wins over a barred opcode, and both over the presence of a
source (log 49, DESIGN CHOICE). -/
def execLnest (c : Ctl) (d a : Reg) (imm : BitVec 8) (s : State) : Out :=
  instrTo (.lnest c d a imm) .lnest (do
    let s ← get
    let x := s.at'
    let lev := imm.toNat % 8
    let blen := imm.toNat / 8
    let pend : List (Nat × Bind) := (List.range 4).filterMap fun k => ((s.bindsAt x).getD k none).map fun b => (k, b)
    let idxRegs := regRun d lev
    let boundRegs := pend.map fun b => b.2.reg
    if lev == 0 || lev == 7 || blen == 0 || decide (16 < blen) || (s.nestAt x).isSome
        || decide (63 < d.toNat + lev - 1) || decide (63 < a.toNat + lev - 1)
        || (pend.any fun b => decide (63 < b.2.stride.toNat + lev - 1)) || !noRepeat (idxRegs ++ boundRegs) then
      illegal .lnest
    let start := s.pcAt x + 12
    let scan ← bodyScan x blen start false
    if scan.2 then illegal .lnest
    -- a register that reads 0 because the nest has cleared it is no source
    let cntRegs := (List.range lev).map fun l => (a + BitVec.ofNat 6 l, idxRegs.take l)
    let strRegs := pend.flatMap fun b => (regRun b.2.stride lev).map fun r => (r, idxRegs)
    let srcs := ((cntRegs ++ strRegs).filter fun e => !e.2.contains e.1).map (·.1)
    control (srcs ++ boundRegs)
    let s ← get
    let rd (e : Reg × List Reg) : W64 := if e.2.contains e.1 then 0 else s.scalar x e.1
    let cnt := cntRegs.map rd
    let binds := pend.map fun b => (⟨b.1, b.2.reg, b.2.stride, s.scalar x b.2.reg, (regRun b.2.stride lev).map fun r => rd (r, idxRegs)⟩ : NestBind)
    for r in idxRegs do wrS r 0
    modify fun s => s.setBindsAt x (Vector.replicate 4 none)
    if cnt.contains 0 then return some scan.1
    modify fun s => s.setNestAt x (some ⟨lev, blen, d, start, scan.1, cnt, List.replicate lev 0, binds⟩)
    return some start) s

/-- `lninc` (R118): a pending binding; it reads no register. -/
def execLninc (c : Ctl) (d a : Reg) (k : BitVec 2) (s : State) : Out :=
  instr (.lninc c d a k) .lninc (modify fun s =>
    s.setBindsAt s.at' ((s.bindsAt s.at').setIfInBounds k.toNat (some ⟨d, a⟩))) s

/-! ## Yield, traps and service calls (R122, R123) -/

/-- `yield` (R122): the effect of YLD = 1 (R29), whatever its H field holds. -/
def execYield (c : Ctl) (s : State) : Out := instr (.yield { c with yld := true }) .yield (pure ()) s

/-- `nop` (R122). -/
def execNop (c : Ctl) (s : State) : Out := instr (.nop c) .nop (pure ()) s

/-- `trap` (R122, R123): the software-trap fault; in a helper, a fault of its own code. -/
def execTrap (c : Ctl) (imm : BitVec 16) (s : State) : Out :=
  instr (.trap c imm) .trap (raise .precise { cls := 3, code := 2, aux := imm.toNat }) s

/-- `svc` (R122, R123): the thread stops with its service owed. -/
def execSvc (c : Ctl) (imm : BitVec 16) (s : State) : Out :=
  instr (.svc c imm) .svc (raise .precise { cls := 3, code := 3, aux := imm.toNat }) s

/-- A helper whose record's owner has ended by a fatal fault only releases it and becomes IDLE (R173). `hold` says that the
helper holds such a record. -/
def holdsDead (s : State) (x : Ctx) : Bool :=
  match (s.helper x.core (x.ctx - 4)).held with
  | none => false
  | some id => (s.core x.core).mire.any fun r => r.id == id && r.dead

/-- Release a dead record (R173). -/
def releaseDead (s : State) (x : Ctx) : State :=
  match (s.helper x.core (x.ctx - 4)).held with
  | none => s
  | some id =>
    (s.modCore x.core fun c => { c with mire := c.mire.filter fun r => r.id != id }).modHelper x.core (x.ctx - 4) fun h =>
      { h with held := none, idle := true, ret := .none }

/-- `eret` (R122, R160, R166, R173): a helper that holds a return address goes to it and releases it, or becomes IDLE when
that address is IDLE; with a record still held it is illegal. -/
def execEret (c : Ctl) (s : State) : Out :=
  instrTo (.eret c) .eret (do
    let s ← get
    let x := s.at'
    if !x.isHelper then illegal .eret
    let h := s.helper x.core (x.ctx - 4)
    if holdsDead s x then
      set (releaseDead s x)
      return some h.pc
    if h.held.isSome then illegal .eret
    match h.ret with
    | .none => illegal .eret
    | .idle =>
      set (s.modHelper x.core (x.ctx - 4) fun h => { h with ret := .none, idle := true })
      return some h.pc
    | .addr pc =>
      set (s.modHelper x.core (x.ctx - 4) fun h => { h with ret := .none })
      return some pc) s

end Sys2Proof.Machine
end

