-- ==== Sys2Proof/Machine/Csr.lean ====
section
/-! DEFINITION. The control registers and counters by number (04 R55, R56; 25 R355), `tlbinv` (R262) and `icinv` (R125). -/

namespace Sys2Proof.Machine
open Sys2Proof

/-! ## Reading by number (R55, R355) -/

/-- MIRESTAT (R79): move records count as held and never as ready (R386). -/
def mireStat (c : Core) : W64 :=
  let n := c.mire.length
  BitVec.ofNat 64 ((if 512 ≤ n then 2 ^ 20 else 0) + (c.mire.filter (recReady c.mire)).length * 2 ^ 10 + n)

/-- A register or counter that reads alike in a task thread and a helper. -/
def csrCommon (s : State) (x : Ctx) (n : Nat) : Option W64 :=
  let c := s.core x.core
  let p := (s.partOf x.core).map s.part
  match n with
  | 0x000 => some (s.fctlAt x)
  | 0x001 => some (s.istatAt x)
  | 0x00B => some (s.thid x.core x.ctx)
  | 0x010 => some c.corecfg
  | 0x011 => some ((s.featmask x.core).setWidth 64)
  | 0x012 => some (mireStat c)
  | 0x100 => some c.cyc
  | 0x101 => some c.cycn
  | 0x102 => some (if x.isHelper then (s.helper x.core (x.ctx - 4)).cycnf else (s.thread x.core x.ctx).cycnf)
  | 0x103 => some (s.reftAt x.core)
  | 0x104 => some (if x.isHelper then (s.helper x.core (x.ctx - 4)).instret else (s.thread x.core x.ctx).instret)
  | 0x105 => some (BitVec.ofNat 64 ((p.map fun (q : Part) => q.duty).getD 64))
  | 0x106 => some (wholeNj ((p.map fun (q : Part) => q.energy).getD 0))
  | _ => if 0x110 ≤ n ∧ n ≤ 0x11F then some (c.evt.getD (n - 0x110) 0) else none

/-- A register that only a task thread may read. -/
def csrTask (s : State) (x : Ctx) (n : Nat) : Option W64 :=
  let t := s.thread x.core x.ctx
  match n with
  | 0x002 => some t.vl
  | 0x003 => some t.vtype
  | 0x004 => some t.vstart
  | 0x005 => some t.hwm
  | 0x006 => some t.mprog
  | 0x007 => some t.tags
  | 0x008 => some t.cerr
  | 0x009 => some t.srstate
  | 0x00A => some t.hentry
  | 0x107 => match t.task with
    | none => some 0
    | some tk => some (wholeNj ((s.part tk.part).queues.getD tk.queue {}).energy)
  | _ => if 0x020 ≤ n ∧ n ≤ 0x03F then some (t.pmk.getD (n - 0x020) 0) else none

/-- What `csrr` reads, if the context may (R55, R355). -/
def csrRead (s : State) (x : Ctx) (n : Nat) : Option W64 :=
  match csrCommon s x n with
  | some v => some v
  | none =>
    if x.isHelper then (if n = 0x00A then some (s.helper x.core (x.ctx - 4)).hent else none)
    else csrTask s x n

/-- `csrr` (R124, R55, R355). A read of CYCN latches its fraction for the context. -/
def execCsrr (c : Ctl) (d : Reg) (imm : BitVec 12) (s : State) : Out :=
  instr (.csrr c d imm) .csrr (do
    let s ← get
    let x := s.at'
    match csrRead s x imm.toNat with
    | none => illegal .csrr
    | some v =>
      if imm = 0x101 then
        let f : W64 := BitVec.ofNat 64 (s.core x.core).cycnFrac
        modify fun s =>
          if x.isHelper then s.modHelper x.core (x.ctx - 4) fun h => { h with cycnf := f }
          else s.modThread x.core x.ctx fun t => { t with cycnf := f }
      wrS d v) s

/-! ## Writing by number (R6, R55, R56, R68, R75) -/

/-- Write a register that is RW in the context; `none` when it is not. -/
def csrStore (s : State) (x : Ctx) (n : Nat) (v : W64) : Option State :=
  if x.isHelper then
    match n with
    | 0x000 => some (s.modHelper x.core (x.ctx - 4) fun h => { h with fctl := fctlStore v })
    | 0x001 => some (s.setIstatAt x (v &&& istatMask))
    | _ => none
  else
    let set (f : Thread → Thread) : Option State := some (s.modThread x.core x.ctx f)
    match n with
    | 0x000 => set fun t => { t with fctl := fctlStore v }
    | 0x001 => set fun t => { t with istat := v &&& istatMask }
    | 0x004 => set fun t => { t with vstart := v &&& 0x7FF }
    | 0x006 => set fun t => { t with mprog := v &&& ~~~0xF0#64 }
    | 0x009 => set fun t => { t with srstate := if v = 0 then 0x5DEECE66D1CE4E5B else v }
    | 0x00A => set fun t => { t with hentry := v &&& 0xFFFFFFFFFFFFFC }
    | _ => none

/-- The three writes share their shape: `f` combines the old value and A. On a PMK word `csrw` and `csrc` clear the bits that
are 1 in A, and `csrs` is illegal (R55). -/
def csrWrite (i : Instr) (o : Op) (a : Reg) (imm : BitVec 12) (f : W64 → W64 → W64) (s : State) : Out :=
  instr i o (do
    let s ← get
    let x := s.at'
    let n := imm.toNat
    let pmk := !x.isHelper && decide (0x020 ≤ n) && decide (n ≤ 0x03F)
    if (pmk && o == .csrs) || (!pmk && (csrStore s x n 0).isNone) then illegal o
    control [a]
    let v ← sval a
    if pmk then
      modify fun s => s.modThread x.core x.ctx fun t =>
        { t with pmk := t.pmk.setIfInBounds (n - 0x020) (t.pmk.getD (n - 0x020) 0 &&& ~~~v) }
    else
      modify fun s => (csrStore s x n (f ((csrRead s x n).getD 0) v)).getD s) s

/-- `csrw` (R124). -/
def execCsrw (c : Ctl) (a : Reg) (imm : BitVec 12) (s : State) : Out := csrWrite (.csrw c a imm) .csrw a imm (fun _ v => v) s

/-- `csrs` (R124). -/
def execCsrs (c : Ctl) (a : Reg) (imm : BitVec 12) (s : State) : Out := csrWrite (.csrs c a imm) .csrs a imm (fun o v => o ||| v) s

/-- `csrc` (R124). -/
def execCsrc (c : Ctl) (a : Reg) (imm : BitVec 12) (s : State) : Out := csrWrite (.csrc c a imm) .csrc a imm (fun o v => o &&& ~~~v) s

/-! ## Invalidations (R125, R262) -/

/-- The byte ranges, first to last, of `n` bytes from `a`; a range that passes 2^64 goes on at address 0 (log 49, DESIGN CHOICE: R125 and
R262 say nothing of it). -/
def byteRanges (a n : W64) : List (Nat × Nat) :=
  if n = 0 then []
  else if a.toNat + n.toNat ≤ 2 ^ 64 then [(a.toNat, a.toNat + n.toNat - 1)]
  else [(a.toNat, 2 ^ 64 - 1), (0, a.toNat + n.toNat - 2 ^ 64 - 1)]

/-- Drop the cached code words of a core that hold any byte of a range. -/
def dropCode (c : Core) (lo hi : Nat) : Core := { c with icache := c.icache.filter fun e => decide (e.1 + 3 < lo) || decide (hi < e.1) }

/-- The pages of byte ranges. -/
def pageRanges (l : List (Nat × Nat)) : List (Nat × Nat) := l.map fun r => (r.1 / 4096, r.2 / 4096)

/-- The pages that an invalidation of the host names: those of a number of bytes from an address, or all (R264). -/
def hostPages : Option (Nat × Nat) → List (Nat × Nat)
  | none => [(0, 2 ^ 52)]
  | some (a, n) => pageRanges (byteRanges (BitVec.ofNat 64 a) (BitVec.ofNat 64 n))

/-- Drop the translations of ranges of pages in every TLB of a partition (R262). -/
def dropPages (s : State) (part : Nat) (l : List (Nat × Nat)) : State := l.foldl (fun s r => tlbDrop s part r.1 r.2) s

/-- The pages that `tlbinv` names (R262). -/
def tlbPages (k : TlbKind) (va n : W64) : List (Nat × Nat) :=
  match k with
  | .page => pageRanges [(va.toNat, va.toNat)]
  | .range => pageRanges (byteRanges va n)
  | .all => [(0, 2 ^ 52)]

/-- `tlbinv` (R262): it waits until no access that used one of the translations is still to perform; then every TLB of the partition
drops them. -/
def execTlbinv (c : Ctl) (a b : Reg) (k : TlbKind) (s : State) : Out :=
  instr (.tlbinv c a b k) .tlbinv (do
    control (match k with | .page => [a] | .range => [a, b] | .all => [])
    let l := tlbPages k (← sval a) (← sval b)
    let s ← get
    match s.partOf s.at'.core with
    | none => pure ()
    | some p =>
      if usesPages s p l then waitOn (.pages l)
      set (dropPages s p l)) s

/-- `icinv` (R125): the cached words of the range go, in this core or in every core of the partition. -/
def execIcinv (c : Ctl) (a b : Reg) (t : Bool) (s : State) : Out :=
  instr (.icinv c a b t) .icinv (do
    control [a, b]
    let va ← sval a
    let n ← sval b
    modify fun s =>
      let x := s.at'
      let part := s.partOf x.core
      let drop (c : Core) : Core := (byteRanges va n).foldl (fun c r => dropCode c r.1 r.2) c
      if t then { s with cores := s.cores.map fun (e : Nat × Core) => if s.partOf e.1 == part then (e.1, drop e.2) else e }
      else s.modCore x.core drop) s

end Sys2Proof.Machine
end

