-- ==== Sys2Proof/Machine/Cycle.lean ====
section
/-! DEFINITION. The steps of a core's clock and of its pipes: ISSUE_CYCLE, IDLE_HELPER_POP and the steps that hand an
instruction to the lanes. -/

namespace Sys2Proof.Machine
open Sys2Proof

/-- ISSUE_CYCLE (R271): one cycle of a core whose clock runs; the context chosen issues in the same step. -/
def execIssueCycle (core : Nat) (s : State) : Out :=
  .next (if clocked s core || finishes s core then coreCycle s core else s)

/-- Hand the head of a pipe to the lanes. -/
def handHead (s : State) (core : Nat) (q : Pipe) (ok : PipeEntry → Bool) : State :=
  match s.pipe core q with
  | [] => s
  | e :: _ => if ok e then { s with lane := some e, cur := some ⟨core, e.thr⟩ } else s

/-- An error strikes (log 13, DESIGN CHOICE). A register word in error is poison for the reads of active elements until it is written
whole (R63), a record in error and those that take an operand from it end POISONED, with what a helper makes of it discarded (R155),
and a granule in error is poison for its reads (R208). An error corrected in HBM or in the memory-side cache counts for the package
(R202, R354). -/
def strike (s : State) (core : Nat) : Upset → State
  | .corrected => s.modCore core fun c => evtAdd c 14 1
  | .packageCorrected => { s with corrected := s.corrected + 1 }
  | .icache a => s.modCore core fun c => { c with icache := c.icache.filter (·.1 != a) }
  | .planes => s.modCore core fun c => { c with latched := none }
  | .word thr r w =>
    if thr < 4 ∧ w < 256 then s.modThread core thr fun t =>
      { t with errs := if t.errs.any fun e => e.1 == r.toNat && e.2.1 == w then t.errs else t.errs ++ [(r.toNat, w, false)] }
    else s
  | .record id => match (s.core core).mire.find? fun r => r.id == id && !r.dead with
    | none => s
    | some e =>
      let ds := descendants (s.core core).mire id
      let kids := (s.core core).mire.filter fun r => ds.contains r.id
      let s := s.modCore core fun c => { c with mire :=
        (c.mire.filter fun r => !(ds.contains r.id) && (r.id != id || r.taken)).map fun r => if r.id = id then { r with dead := true } else r }
      (e :: kids).foldl (poisonRec · core ·) s
  | .scratchpad w => if w < 0x10000 then s.modCore core fun c => { c with pois := setIns c.pois w } else s
  | .tile w => if w < 0x80000 then s.modCore core fun c => { c with tsBad := setIns c.tsBad w } else s
  | .line l => if l < 0x9000000000 / 64 then { s with hbmPois := setIns s.hbmPois l } else s
  | .mismatch g again => s.modCore core fun c => { c with flaws := c.flaws ++ [⟨g, again⟩] }

/-- PIPE_DISPATCH (R272, R273): the head of a pipe queue that has not been dispatched, after an error, where one strikes. -/
def execPipeDispatch (core : Nat) (q : Pipe) (upset : Option Upset) (s : State) : Out :=
  let s := match upset with
    | none => s
    | some u => strike s core u
  .next (handHead s core q fun e => e.why == .queued && dispatchable s core e)

/-- LANE_WAIT_RELEASE (R131, R159, R182, R249): the head of a pipe that waits for presence, for a range, for the host or for older
instructions of its thread, or an `mmul` that goes on to its next plane. -/
def execLaneWaitRelease (core : Nat) (q : Pipe) (s : State) : Out :=
  .next (handHead s core q fun e =>
    e.why == .presence || e.why == .range || e.why == .host || e.why == .plane || (e.why == .elder && !s.hasElder core e.thr e.num))

/-- MIRE_STALL_RESUME (R158): the head of a pipe queue that waits for room in the Mire. -/
def execMireStallResume (core : Nat) (q : Pipe) (s : State) : Out := .next (handHead s core q fun e => e.why == .mireRoom)

end Sys2Proof.Machine
end

