-- ==== Sys2Proof/Machine/ScalarMem.lean ====
section
/-! DEFINITION. Scalar loads and stores, atomics, fences, barriers and `sigst` (12 R216 to R224, R232 to R234). -/

namespace Sys2Proof.Machine
open Sys2Proof

/-! ## One scalar access -/

/-- The effective address of a form M instruction (R216): a poisoned address register is fatal. -/
def eaOf (a : Reg) (off : BitVec 48) : M W64 := do
  control [a]
  return (← sval a) + off.signExtend 64

/-- Where a scalar access of `n` bytes lies: misalignment first (R217), then the windows it may reach (R216), translation and
permission, and the range checker (R249). -/
def scalarAt (kind : Access) (global : Bool) (n : Nat) (store : Bool) (ea : W64) : M Loc := do
  if ea.toNat % n != 0 then raise .precise { cls := 2, code := 2, addr := ea }
  let s ← get
  let x := s.at'
  match window s x.core ea with
  | .ts _ => raise .precise { cls := 2, code := 1, addr := ea }
  | .global _ => if !global then raise .precise { cls := 2, code := 1, addr := ea }
  | _ => pure ()
  match locate s x.core kind ea with
  | .error e => stopWith fun s => accessFault s x e kind ea 0xFFFF
  | .ok (l, leaf) =>
    set (noteLocated s x.core ea leaf)
    if heldBack s x.core l n store || elderHolds s x l n store then waitOn (.range ea n store)
    return l

/-- What the context's access to the host window has come to: its answer, or the access issues and is waited for (R224, R238). -/
def hostAnswer (pa n : Nat) (ea : W64) : M Completion := do
  let s ← get
  let x := s.at'
  let acc := if x.isHelper then (s.helper x.core (x.ctx - 4)).hostAcc else (s.thread x.core x.ctx).hostAcc
  let put (a : Option HostAcc) : M Unit := modify fun s =>
    if x.isHelper then s.modHelper x.core (x.ctx - 4) fun h => { h with hostAcc := a }
    else s.modThread x.core x.ctx fun t => { t with hostAcc := a }
  match acc.bind (·.answer) with
  | some q => do
    put none
    return q
  | none => do
    if acc.isNone then put (some ⟨pa, n, usedLeaf s x.core ea, none, []⟩)
    waitOn .hostAccess

/-- Read `n` bytes of a location for a scalar: the bytes and whether they are poisoned (R208, R224). -/
def scalarRead (l : Loc) (n : Nat) (ea : W64) : M (List Byte × Bool) := do
  match l with
  | .host pa =>
    match ← hostAnswer pa n ea with
    | .data b => return ((b ++ List.replicate n 0).take n, false)
    | .poisoned => return (List.replicate n 0, true)
    | .error st => raise .precise { cls := 2, code := 7, aux := st, addr := ea }
  | _ => return readLoc (← get) l n

/-- What observes a scalar access that has performed: energy, trace and data breakpoints. -/
def scalarSeen (k : TraceKind) (l : Loc) (ea : W64) : M Unit := modify fun s =>
  let x := s.at'
  let pc := s.pcAt x
  brkData (traceScalar (chargeCtx s x (accessWeight s l)) x pc k ea) x pc [ea]

/-- A loaded scalar that was poisoned: POISONED in a task thread (R208), a fault of the helper's own code in a helper (R161). -/
def loadPoison (d : Reg) (ea : W64) : M Unit := do
  if (← ctx).isHelper then poisonFault (addr := ea)
  wrPoison d

/-- A thread's store or atomic that touches a live barrier word is refused (R218, R220, R234). -/
def refuseLive (l : Loc) (n : Nat) (ea : W64) : M Unit := do
  if touchesLive (← get) l n then raise .precise { cls := 2, code := 9, addr := ea }

/-- Write the bytes of a scalar store. -/
def scalarWrite (l : Loc) (bs : List Byte) (poison : Bool) (ea : W64) : M Unit := modify fun s =>
  let x := s.at'
  storeAt s x.core x.ctx ((s.pcAt x).setWidth 64) ea l bs poison

/-! ## Loads and stores (R218, R234) -/

/-- Bytes of an access size. -/
def sizeBytes : Size → Nat
  | .b => 1 | .h => 2 | .w => 4 | .d => 8

/-- `ld` (R218). -/
def execLd (c : Ctl) (d a : Reg) (k : Size) (sx : Bool) (off : BitVec 48) (s : State) : Out :=
  instr (.ld c d a k sx off) .ld (do
    let ea ← eaOf a off
    let n := sizeBytes k
    let l ← scalarAt .read true n false ea
    let r ← scalarRead l n ea
    if r.2 then loadPoison d ea
    else
      let v := leNat r.1
      wrS d (BitVec.ofNat 64 (if sx then ofSigned 64 (toSigned (8 * n) v) else v))
    scalarSeen ⟨true, false, false, k.code.toNat⟩ l ea) s

/-- A scalar store of `n` bytes: `st` and `sigst`. -/
def storeScalar (i : Instr) (o : Op) (d a : Reg) (off : BitVec 48) (n w : Nat) (s : State) : Out :=
  instr i o (do
    ready [d, a]
    let ea ← eaOf a off
    let l ← scalarAt .write true n true ea
    refuseLive l n ea
    let p ← anyPoison [d]
    scalarWrite l (natLe n (← sval d).toNat) p ea
    scalarSeen ⟨true, true, false, w⟩ l ea) s

/-- `st` (R218). -/
def execSt (c : Ctl) (d a : Reg) (k : Size) (off : BitVec 48) (s : State) : Out :=
  storeScalar (.st c d a k off) .st d a off (sizeBytes k) k.code.toNat s

/-- `sigst` (R234): a store of 8 bytes that is a release at its scope, which the order of steps already gives (log 7, DEDUCED). -/
def execSigst (c : Ctl) (d a : Reg) (sc : Scope) (off : BitVec 48) (s : State) : Out :=
  storeScalar (.sigst c d a sc off) .sigst d a off 8 3 s

/-! ## Atomics (R219 to R222) -/

/-- The new value of an atomic of `w` bits (R220). -/
def amoNew (o : AmoOp) (w old b : Nat) : Nat :=
  match o with
  | .add => (old + b) % 2 ^ w
  | .swap => b
  | .and => old &&& b
  | .or => old ||| b
  | .xor => old ^^^ b
  | .min => if toSigned w old ≤ toSigned w b then old else b
  | .max => if toSigned w old ≤ toSigned w b then b else old
  | .maxu => max old b

/-- An AtomicOp that issues to the host window with a poisoned operand leaves with EP set, and enters a host-poison record (R208, R222). -/
def atomicSent (l : Loc) (n : Nat) (ea : W64) (poison : Bool) : M Unit := modify fun s =>
  let x := s.at'
  let t := s.thread x.core x.ctx
  match l with
  | .host pa =>
    if poison && !x.isHelper && t.hostAcc.isNone then
      let f := s.drawFree (8 * n)
      postCore { f.2 with hostTx := f.2.hostTx ++ [.atomic pa (natLe n f.1.toNat)] } x.core x.ctx (t.pc.setWidth 64)
        { cls := 5, code := 3, addr := ea, seq := t.seq }
    else s
  | _ => s

/-- What an atomic writes: an AtomicOp is no posted store, and host memory holds no poison (R208, R222). -/
def atomicWrite (l : Loc) (bs : List Byte) (poison : Bool) : M Unit := modify fun s =>
  match l with
  | .host _ => if poison then s else writeLoc s l bs false
  | _ => writeLoc s l bs poison

/-- An atomic: `new` gives the value to write from the old one, and `poison` says that it is poisoned; it writes nothing when that is
`none` or when the old value is poisoned (R220, R221). `hostOk` says that it may be carried to the host window (R222). -/
def atomic (d a : Reg) (dbl : Bool) (off : BitVec 48) (hostOk : Bool) (poison : Bool) (new : Nat → Option Nat) : M Unit := do
  let ea ← eaOf a off
  let n := if dbl then 8 else 4
  let l ← scalarAt .amo true n true ea
  match l with
  | .host _ => if !hostOk then raise .precise { cls := 2, code := 8, addr := ea }
  | _ => pure ()
  refuseLive l n ea
  atomicSent l n ea poison
  let r ← scalarRead l n ea
  if r.2 then loadPoison d ea
  else
    let old := leNat r.1
    match new old with
    | none => pure ()
    | some v => atomicWrite l (natLe n v) poison
    wrS d (BitVec.ofNat 64 (ofSigned 64 (toSigned (8 * n) old)))
  scalarSeen ⟨true, false, true, if dbl then 3 else 2⟩ l ea

/-- `amo` (R220, R222). -/
def execAmo (c : Ctl) (d a b : Reg) (o : AmoOp) (dbl : Bool) (ord : BitVec 4) (off : BitVec 48) (s : State) : Out :=
  instr (.amo c d a b o dbl ord off) .amo (do
    ready [a, b]
    let w := if dbl then 64 else 32
    let p ← anyPoison [b]
    let v := (← sval b).toNat % 2 ^ w
    atomic d a dbl off (o == .add || o == .swap) p fun old => some (amoNew o w old v)) s

/-- `cas` (R221, R222): a poisoned expected value is fatal. -/
def execCas (c : Ctl) (d a b : Reg) (dbl : Bool) (ord : BitVec 4) (off : BitVec 48) (s : State) : Out :=
  instr (.cas c d a b dbl ord off) .cas (do
    ready [d, a, b]
    control [d]
    let w := if dbl then 64 else 32
    let p ← anyPoison [b]
    let exp := (← sval d).toNat % 2 ^ w
    let v := (← sval b).toNat % 2 ^ w
    atomic d a dbl off true p fun old => if old = exp then some v else none) s

/-- `fence` (R223): it changes no register; every access has performed at its step, so it orders nothing more (log 7, DEDUCED). -/
def execFence (c : Ctl) (sc : Scope) (k : FenceKind) (s : State) : Out := instr (.fence c sc k) .fence (pure ()) s

/-! ## Barriers (R232, R233) -/

/-- The scratchpad word of a barrier instruction. -/
def barrierAt (kind : Access) (ea : W64) : M (Nat × Nat) := do
  match ← scalarAt kind false 8 (kind != .read) ea with
  | .sp k o => return (k, o)
  | _ => raise .precise { cls := 2, code := 1, addr := ea }

/-- The word is live. -/
def isLive (s : State) (k o : Nat) : Bool := (s.core k).live.contains (o / 8)

/-- A barrier word's fields: PHASE, ARRIVED, TARGET (R232). -/
def barPhase (w : Nat) : Nat := bits w 32 32
def barArrived (w : Nat) : Nat := bits w 16 16
def barTarget (w : Nat) : Nat := bits w 0 16

/-- The word after one more arrival (R233, R327). -/
def barArrive (w : Nat) : Nat :=
  let n := (barArrived w + 1) % 2 ^ 16
  if n = barTarget w then ((barPhase w + 1) % 2 ^ 32) * 2 ^ 32 + barTarget w
  else barPhase w * 2 ^ 32 + n * 2 ^ 16 + barTarget w

/-- The barrier-state fault (R233). -/
def barState {α : Type} (ea : W64) : M α := raise .precise { cls := 2, code := 0xA, addr := ea }

/-- The word of a live barrier that is read: not live, the barrier-state fault; poisoned, fatal (R233). -/
def barRead (k o : Nat) (ea : W64) : M Nat := do
  if !isLive (← get) k o then barState ea
  let r := readLoc (← get) (.sp k o) 8
  if r.2 then poisonFault (addr := ea)
  return leNat r.1

/-- What observes a barrier instruction. -/
def barSeen (k o : Nat) (ea : W64) : M Unit := scalarSeen ⟨true, false, true, 3⟩ (.sp k o) ea

/-- `barinit` (R233). -/
def execBarinit (c : Ctl) (d a : Reg) (off : BitVec 48) (s : State) : Out :=
  instr (.barinit c d a off) .barinit (do
    ready [d, a]
    let ea ← eaOf a off
    control [d]
    let (k, o) ← barrierAt .write ea
    let v := (← sval d).toNat
    if isLive (← get) k o || v == 0 || decide (2 ^ 16 ≤ v) then barState ea
    scalarWrite (.sp k o) (natLe 8 v) false ea
    modify fun s => s.modCore k fun c => { c with live := setIns c.live (o / 8) }
    barSeen k o ea) s

/-- The waits of `barwait` on a word end as the word is written or freed, whatever becomes of the word after that (R233). -/
def endBarwaits (s : State) (k o : Nat) : State :=
  let done (c t : Nat) : Option Bool := match (s.thread c t).st with
    | .waiting (.barwait ea ph) =>
      if window s c ea != .sp k o then none
      else if !isLive s k o then some true
      else if BitVec.ofNat 32 (barPhase (leNat (readLoc s (.sp k o) 8).1)) != ph then some false
      else none
    | _ => none
  s.cores.foldl (fun s e => (List.range 4).foldl (fun s t => match done e.1 t with
    | some b => s.modThread e.1 t fun th => { th with barEnd := th.barEnd.or (some b) }
    | none => s) s) s

/-- How the wait of the thread's `barwait` ended, if it has. -/
def takeBarEnd : M (Option Bool) := do
  let s ← get
  let x := s.at'
  let r := if x.isHelper then none else (s.thread x.core x.ctx).barEnd
  if r.isSome then modify fun s => s.modThread x.core x.ctx fun t => { t with barEnd := none }
  return r

/-- `bararr` (R233). -/
def execBararr (c : Ctl) (d a : Reg) (off : BitVec 48) (s : State) : Out :=
  instr (.bararr c d a off) .bararr (do
    let ea ← eaOf a off
    let (k, o) ← barrierAt .amo ea
    let w ← barRead k o ea
    scalarWrite (.sp k o) (natLe 8 (barArrive w)) false ea
    modify fun s => endBarwaits s k o
    wrS d (BitVec.ofNat 64 (barPhase w))
    barSeen k o ea) s

/-- `barwait` (R233): waits for the phase to differ from s[D][31:0]. -/
def execBarwait (c : Ctl) (d a : Reg) (off : BitVec 48) (s : State) : Out :=
  instr (.barwait c d a off) .barwait (do
    ready [d, a]
    let ea ← eaOf a off
    control [d]
    let (k, o) ← barrierAt .read ea
    match ← takeBarEnd with
    | some true => barState ea
    | some false => pure ()
    | none =>
      let w ← barRead k o ea
      let ph := (← sval d).setWidth 32
      if BitVec.ofNat 32 (barPhase w) = ph then waitOn (.barwait ea ph)
    barSeen k o ea) s

/-- `barfree` (R233); the arrival barrier of an open zone stays (R323). -/
def execBarfree (c : Ctl) (a : Reg) (off : BitVec 48) (s : State) : Out :=
  instr (.barfree c a off) .barfree (do
    let ea ← eaOf a off
    let (k, o) ← barrierAt .write ea
    let s ← get
    if !isLive s k o || (s.core k).zones.any (fun z => z.isOpen && z.bar.toNat == o) then barState ea
    scalarWrite (.sp k o) (natLe 8 0) false ea
    modify fun s => endBarwaits (s.modCore k fun c => { c with live := setDel c.live (o / 8) }) k o
    barSeen k o ea) s

/-- A waiting `barwait` may run again: its word's phase differs, or the word is no longer live (R233). -/
def barwaitOver (s : State) (core thr : Nat) : Bool :=
  match (s.thread core thr).st with
  | .waiting (.barwait ea ph) => (s.thread core thr).barEnd.isSome || match window s core ea with
    | .sp k o => !isLive s k o || BitVec.ofNat 32 (barPhase (leNat (readLoc s (.sp k o) 8).1)) != ph
    | _ => true
  | _ => false

/-- BARWAIT_RELEASE (R233): the wait of a `barwait` ends. -/
def execBarwaitRelease (core thr : Nat) (s : State) : Out :=
  .next (if barwaitOver s core thr then s.modThread core thr fun t => { t with st := .running } else s)

end Sys2Proof.Machine
end

