-- ==== Sys2Proof/Machine/Engines.lean ====
section
/-! DEFINITION. Engine commands: pushes and their images (20 R312 to R314), tags and outputs (R315, R316, R322), acceptance and
the copies (R317 to R321). -/

namespace Sys2Proof.Machine
open Sys2Proof

/-! ## Pushes (R312 to R314) -/

/-- A half-slot of the 64-byte image in register `a` with a presence; an error in a word that the push reads is poison (R63). -/
def imageHalf (s : State) (x : Ctx) (a : Reg) (p : Presence) : Option Nat :=
  let t := s.thread x.core x.ctx
  (List.range 32).find? fun h => (if p = .pois then t.readPres a.toNat h else t.halfPres a.toNat h) == p

/-- Read the image of a push, and make ready the scalars `bs` that it reads with it: any PENDING one holds the push, then the lowest
half-slot that is FAULTED or POISONED decides, and after the image the scalars: a helper fault is delivered, and poison is fatal (R314,
R345). -/
def imageBytes (a : Reg) (bs : List Reg) : M (List Byte) := do
  let s ← get
  let x := s.at'
  if (imageHalf s x a .pend).isSome || bs.any fun r => s.scalarPres x r == .pend then notIssued
  match imageHalf s x a .flt, imageHalf s x a .pois with
  | some h, some k => if h < k then deliver a.toNat h else poisonFault k
  | some h, none => deliver a.toNat h
  | none, some k => poisonFault k
  | none, none => pure ()
  control bs
  return (List.range 8).flatMap fun k => natLe 8 ((s.thread x.core x.ctx).word a.toNat k).bits.toNat

/-- The engine-command fault of an image or a site that breaks its limits (R314). -/
def engineFault {α : Type} (o : Op) : M α := raise .precise { cls := 2, code := 0xC, aux := o.code }

/-- A push waits for room in its FIFOs (R266). -/
def pushStart (o : Op) : M Unit := do
  let s ← get
  if !pushRoom (s.thread s.at'.core s.at'.ctx) o then notIssued

/-- Push a command: the next sequence number (R313), its place in the core's push order (R248), and whether it is to be rejected for the
range that its thread holds selected (R179). -/
def pushCmd (o : Op) (img : List Byte) (tag : Option (BitVec 6)) (zone : BitVec 4) (site : Site) (fill : W64) : M Unit := modify fun s =>
  let x := s.at'
  let t := s.thread x.core x.ctx
  let c : Cmd := { op := o, img, tag, zone, site, fill, seq := t.seq + 1, pc := t.pc, num := (s.core x.core).nextCmd, past := t.vnum }
  let c := { c with own := intoOwn s x.core x.ctx c }
  let s := s.modCore x.core fun k => { k with nextCmd := k.nextCmd + 1 }
  s.modThread x.core x.ctx fun t => { t with
    seq := t.seq + 1, fifo := t.fifo ++ [c], outRes := if givesOutput o then t.outRes + 1 else t.outRes }

/-- The site check of form S (R42, R43): on the own chip an enabled core of the issuing partition, on another a site of the
grid. -/
def siteOk (s : State) (core : Nat) (t : Site) : Bool :=
  t.inGrid && (t.chip != s.chip || (s.enabled t.core && s.partOf t.core == s.partOf core))

/-- A site that breaks it raises the address fault (R42). -/
def checkSite (t : Site) : M Unit := do
  let s ← get
  if !siteOk s s.at'.core t then raise .precise { cls := 2, code := 1 }

/-- `cpy` (R312, R314, R317). -/
def execCpy (c : Ctl) (a : Reg) (tag : BitVec 6) (s : State) : Out :=
  instr (.cpy c a tag) .cpy (do
    pushStart .cpy
    let b ← imageBytes a []
    if (CopyImg.parse false b).isNone then engineFault .cpy
    pushCmd .cpy b (some tag) 0 {} 0) s

/-- `cpyt` (R312, R314, R321). -/
def execCpyt (c : Ctl) (a : Reg) (tag : BitVec 6) (s : State) : Out :=
  instr (.cpyt c a tag) .cpyt (do
    pushStart .cpyt
    let b ← imageBytes a []
    if (TileImg.parse b).isNone then engineFault .cpyt
    pushCmd .cpyt b (some tag) 0 {} 0) s

/-- `cfill` (R312, R314, R317, R320): the fill value is read at the push. -/
def execCfill (c : Ctl) (a b : Reg) (tag : BitVec 6) (s : State) : Out :=
  instr (.cfill c a b tag) .cfill (do
    pushStart .cfill
    let img ← imageBytes a [b]
    if (CopyImg.parse true img).isNone then engineFault .cfill
    pushCmd .cfill img (some tag) 0 {} (← sval b)) s

/-- `lzres` (R312, R325). -/
def execLzres (c : Ctl) (site : Site) (zone : BitVec 4) (s : State) : Out :=
  instr (.lzres c site zone) .lzres (do
    pushStart .lzres
    checkSite site
    pushCmd .lzres [] none zone site 0) s

/-- `lzput` (R312, R314, R326). -/
def execLzput (c : Ctl) (a : Reg) (site : Site) (zone : BitVec 4) (tag : BitVec 6) (s : State) : Out :=
  instr (.lzput c a site zone tag) .lzput (do
    pushStart .lzput
    checkSite site
    let b ← imageBytes a []
    if (PutImg.parse b).isNone then engineFault .lzput
    pushCmd .lzput b (some tag) zone site 0) s

/-- `lzclean` (R312, R328). -/
def execLzclean (c : Ctl) (zone : BitVec 4) (s : State) : Out :=
  instr (.lzclean c zone) .lzclean (do
    pushStart .lzclean
    pushCmd .lzclean [] none zone {} 0) s

/-- `xred` (R312, R314, R330): without REMOTE the site is ignored; LEN above the slots of an open input zone breaks the
limits of the image. -/
def execXred (c : Ctl) (a : Reg) (site : Site) (zone : BitVec 4) (tag : BitVec 6) (s : State) : Out :=
  instr (.xred c a site zone tag) .xred (do
    pushStart .xred
    let b ← imageBytes a []
    match RedImg.parse b with
    | none => engineFault .xred
    | some g =>
      let s ← get
      let z := (s.core s.at'.core).zones.getD g.zin.toNat {}
      if z.isOpen && decide (z.slotBytes < g.len) then engineFault .xred
      if g.toRemote then checkSite site
      pushCmd .xred b (some tag) zone site 0) s

/-! ## Tags and outputs at issue (R315, R316, R322) -/

/-- `cwany` (R316). -/
def execCwany (c : Ctl) (d a : Reg) (s : State) : Out :=
  instr (.cwany c d a) .cwany (do
    control [a]
    let m ← sval a
    let s ← get
    let g := (s.thread s.at'.core s.at'.ctx).tags &&& m
    if m != 0 && g == 0 then waitOn (.tags false m)
    wrS d g) s

/-- `cwall` (R316). -/
def execCwall (c : Ctl) (d a : Reg) (s : State) : Out :=
  instr (.cwall c d a) .cwall (do
    control [a]
    let m ← sval a
    let s ← get
    let t := s.thread s.at'.core s.at'.ctx
    if t.tags &&& m != m then waitOn (.tags true m)
    wrS d (t.cerr &&& m)) s

/-- `cffr` (R316). -/
def execCffr (c : Ctl) (d a : Reg) (s : State) : Out :=
  instr (.cffr c d a) .cffr (do
    control [a]
    let m ← sval a
    let s ← get
    let g := (s.thread s.at'.core s.at'.ctx).tags &&& m
    wrS d (if g = 0 then BitVec.allOnes 64 else trailingZeros g)) s

/-- `ctclr` (R315, R316). -/
def execCtclr (c : Ctl) (a : Reg) (s : State) : Out :=
  instr (.ctclr c a) .ctclr (do
    control [a]
    let m ← sval a
    modify fun s => s.modThread s.at'.core s.at'.ctx fun t => { t with tags := t.tags &&& ~~~m, cerr := t.cerr &&& ~~~m }) s

/-- `epop` (R322). -/
def execEpop (c : Ctl) (d : Reg) (s : State) : Out :=
  instr (.epop c d) .epop (do
    let s ← get
    let x := s.at'
    match (s.thread x.core x.ctx).outs with
    | [] => waitOn .epop
    | v :: r =>
      set (s.modThread x.core x.ctx fun t => { t with outs := r })
      wrS d v.1) s

/-- An output of R322. -/
def outputWord (kind : Nat) (seq : W64) (value : Nat) : W64 :=
  BitVec.ofNat 64 (kind * 2 ^ 56 + seq.toNat % 2 ^ 24 * 2 ^ 32 + value % 256)

/-- A command gives its output and completes. -/
def outputDone (s : State) (core : Nat) (p : Pend) (kind value : Nat) : State :=
  complete (giveOutput s p.owner p.cmd.seq (outputWord kind p.cmd.seq value)) core p

/-! ## Commands in the engines -/

/-- A command that an engine of the core holds. -/
def findPend (s : State) (core id : Nat) : Option Pend :=
  let c := s.core core
  (c.copyQ ++ c.units).find? fun p => p.id == id

/-- Change a command that an engine of the core holds. -/
def modPend (s : State) (core id : Nat) (f : Pend → Pend) : State :=
  let g (l : List Pend) : List Pend := l.map fun p => if p.id = id then f p else p
  s.modCore core fun c => { c with copyQ := g c.copyQ, units := g c.units }

/-- Cause of R319 of an access that has no location; a missing page has none. -/
def accCause : AccErr → Option Nat
  | .address => some 1
  | .table _ => some 2
  | .permission => some 3
  | .missing _ => none

/-- A page that is not present holds a command (R260): a request of kind A, unless one for the page is open. -/
def pageHold (s : State) (core : Nat) (p : Pend) (page : Nat) (kind : Access) (ea : W64) : State :=
  let s := modPend s core p.id fun q => { q with phase := .page page }
  let w := PageWaiter.cmd core p.id
  match (s.part p.part).pageReqs.find? (fun (r : PageReq) => r.page == page) with
  | some _ => s.modPart p.part fun q => { q with
      pageReqs := q.pageReqs.map fun r => if r.page = page then { r with waiters := r.waiters ++ [w] } else r }
  | none =>
    let c : Cause := { cls := 8, code := 1, aux := kind.kindCode, addr := ea, seq := p.cmd.seq }
    let s := post s p.part true (c.record s (s.thid core (ownerThr p.owner)) (p.cmd.pc.setWidth 64) .async false)
    s.modPart p.part fun q => { q with pageReqs := q.pageReqs ++ [⟨page, [w]⟩] }

/-- The parts of an access that lie in one page each. -/
def pageParts (ea : W64) (n : Nat) : List (W64 × Nat) :=
  let k := 4096 - ea.toNat % 4096
  if n ≤ k then [(ea, n)] else [(ea, k), (ea + BitVec.ofNat 64 k, n - k)]

/-- Locate accesses in order (R260): the state with the translations used, and their places; or the first that has none. -/
def locateAll (core : Nat) : List (Access × W64 × Nat) → State → List (Loc × Nat) → State × Except (AccErr × Access × W64) (List (Loc × Nat))
  | [], s, out => (s, .ok out)
  | (k, ea, n) :: r, s, out =>
    match locate s core k ea with
    | .error e => (s, .error (e, k, ea))
    | .ok (l, leaf) => locateAll core r (noteLocated s core ea leaf) (out ++ [(l, n)])

/-- A location lies in the scratchpad of an island in a relock window (R358). -/
def relockHeld (s : State) : Loc → Bool
  | .sp k _ => (s.isleAt k).relock.isSome
  | _ => false

/-- What the reads of a command from the host window have come to (R224): the bytes are there, with their poison; or the
state in which the command waits, has ended, or (`none`) goes on waiting. The completion's bytes are those of the reads `rd`, in order;
`eas` are addresses in their pages. -/
def hostReads (s : State) (core : Nat) (p : Pend) (seg : Nat) (eas : List W64) (rd : List (Loc × Nat)) : Except (Option State) (State × Bool) :=
  let hs := rd.filterMap fun e => match e.1 with | .host pa => some (pa, e.2) | _ => none
  if hs.isEmpty then .ok (s, false)
  else match p.phase with
    | .host none => .error none
    | .host (some (.error _)) => .error (some (completeErr s core p 7 seg))
    | .host (some .poisoned) => .ok (s, true)
    | .host (some (.data b)) =>
      .ok ((hs.foldl (fun (q : State × List Byte) e =>
        ({ q.1 with host := Memory.write q.1.host e.1 ((q.2 ++ List.replicate e.2 0).take e.2) }, q.2.drop e.2)) (s, b)).1, false)
    | _ => .error (some (modPend s core p.id fun q => { q with phase := .host none, xl := eas.filterMap (usedLeaf s core) }))

/-- Read a 64-byte block: each byte with its poison; those of the host are poisoned when the completion was. -/
def readBlock (s : State) (hostBad : Bool) (l : Loc) : List PByte :=
  match l with
  | .host _ => (readBytes s l 64).map fun b => (b.1, hostBad)
  | _ => readBytes s l 64

/-- Energy of a command's accesses, one for each block (R362). -/
def engineCharge (s : State) (p : Pend) (blocks : List Loc) : State :=
  charge s p.part (some p.queue) ((blocks.eraseDups.map (accessWeight s)).foldl (· + ·) 0)

/-- Segments of 64 bytes that the core's commands move (R361): written by a copy or an `xred`, or sent to a zone (log 42, DESIGN CHOICE). -/
def segsMoved (s : State) (core n : Nat) : State := s.modCore core fun c => evtAdd c 13 n

/-- An engine's write of parts of a 64-byte block (R208, R240). A write to the host window is posted (R224), and one that leaves with
EP set enters a host-poison record. -/
def engineWrite (s : State) (core : Nat) (p : Pend) (ea : W64) (l : Loc) (parts : List (Nat × List PByte)) : State :=
  let s := segsMoved (writeBlock s l parts) core 1
  match l with
  | .host _ =>
    let pc := p.cmd.pc.setWidth 64
    let thr := ownerThr p.owner
    let s := s.modCore core fun c => { c with posted := c.posted ++ [⟨thr, pc, p.cmd.seq, ea⟩] }
    if parts.any fun e => e.2.any (·.2) then postCore s core thr pc { cls := 5, code := 3, addr := ea, seq := p.cmd.seq } else s
  | _ => s

/-! ## Segments of a copy (R318, R321, R326) -/

/-- One segment: what it reads and writes, in the order of translation, and the place of the command after it. -/
structure SegWork where
  reads : List (W64 × Nat)
  dsts : List (W64 × Nat)
  /-- Reads and writes alternate. -/
  pairs : Bool
  size : Nat
  next : Nat

/-- The elements of the segment that begins at element `done`: those whose destinations follow in its 64-byte block (R318). -/
def CopyImg.segElems (g : CopyImg) (done : Nat) : List Nat :=
  let b (k : Nat) : Nat := (g.dstAt k).toNat / 64
  ((List.range (g.elems - done)).map (done + ·)).takeWhile fun k => b k == b done

/-- The next segment of a command of which `done` elements (for `cpyt` and `lzput`, segments) are done. -/
def Cmd.seg (c : Cmd) (done : Nat) : Option SegWork :=
  match c.op with
  | .cpy => (CopyImg.parse false c.img).map fun g =>
    let l := g.segElems done
    ⟨l.map fun k => (g.srcAt k, g.size), l.map fun k => (g.dstAt k, g.size), true, g.size, done + l.length⟩
  | .cfill => (CopyImg.parse true c.img).map fun g =>
    let l := g.segElems done
    ⟨[], l.map fun k => (g.dstAt k, g.size), false, g.size, done + l.length⟩
  | .cpyt => (TileImg.parse c.img).map fun g => ⟨g.reads done, [(g.dstAt done, 64)], false, 1, done + 1⟩
  | .lzput => (PutImg.parse c.img).map fun g => ⟨[(BitVec.ofNat 64 (g.src + 64 * done), 64)], [], false, 64, done + 1⟩
  | _ => none

/-- The accesses of a segment in the order of translation, each within a page. -/
def SegWork.order (w : SegWork) : List (Access × W64 × Nat) :=
  let r := w.reads.map fun e => (pageParts e.1 e.2).map fun q => (Access.read, q.1, q.2)
  let d := w.dsts.map fun e => (pageParts e.1 e.2).map fun q => (Access.write, q.1, q.2)
  if w.pairs then ((r.zip d).map fun e => e.1 ++ e.2).flatten else r.flatten ++ d.flatten

/-! ## Reading the source (R240, R318) -/

/-- The blocks that located reads lie in: their numbers and places. -/
def blocksOf (rd : List ((W64 × Nat) × Loc)) : List (Nat × Loc) :=
  (rd.flatMap fun e =>
    let k := 64 - e.1.1.toNat % 64
    (blockNum e.1.1, e.2.block) :: if e.1.2 ≤ k then [] else [(blockNum e.1.1 + 1, (e.2.add k).block)]).eraseDups

/-- The parts of a block that a command is still to read, as offsets and lengths. -/
def Cmd.covers (c : Cmd) (done b : Nat) : List (Nat × Nat) :=
  (((c.readsOf done c.total).filter fun e => blockNum e.1 == b).map fun e => (e.1.toNat % 64, e.2)).eraseDups

/-- The bytes of a read, from the blocks that the command has. -/
def fromBlocks (bl : List (Nat × List PByte)) (ea : W64) (n : Nat) : List PByte :=
  (List.range n).map fun i =>
    let a := ea.toNat + i
    (((bl.find? fun b => b.1 == a / 64).map fun b => b.2).getD []).getD (a % 64) (0, false)

/-- A read takes bytes that lie in the command's own destination: what they give the destination is undefined (R318). -/
def ownSource (s : State) (core : Nat) (c : Cmd) (ea : W64) (n : Nat) : Bool :=
  let dst : List (W64 × Nat) := match c.op with
    | .cpy => match CopyImg.parse false c.img with
      | none => []
      | some g => (List.range g.elems).map fun k => (g.dstAt k, g.size)
    | .cpyt => match TileImg.parse c.img with
      | none => []
      | some g => (List.range g.segs).map fun b => (g.dstAt b, 64)
    | _ => []
  let bytes := (List.range n).filterMap fun i => placeOf s core (ea + BitVec.ofNat 64 i)
  dst.any fun d => (List.range d.2).any fun i => match placeOf s core (d.1 + BitVec.ofNat 64 i) with
    | none => false
    | some l => bytes.contains l

/-- The bytes of each read of a segment; those of the command's own destination are free values (log 5, DESIGN CHOICE). -/
def segRead (core : Nat) (c : Cmd) (bl : List (Nat × List PByte)) : List (W64 × Nat) → State → List (List PByte) → State × List (List PByte)
  | [], s, out => (s, out)
  | (ea, n) :: r, s, out =>
    let b := fromBlocks bl ea n
    if ownSource s core c ea n then
      let p := s.drawFree (8 * n)
      segRead core c bl r p.2 (out ++ [(natLe n p.1.toNat).zip (b.map (·.2))])
    else segRead core c bl r s (out ++ [b])

/-- The bytes of each destination piece. -/
def Cmd.segBytes (c : Cmd) (done : Nat) (w : SegWork) (got : List (List PByte)) : List (List PByte) :=
  match c.op with
  | .cfill => w.dsts.map fun e => (natLe e.2 c.fill.toNat).map fun b => (b, false)
  | .cpyt => match TileImg.parse c.img with
    | none => []
    | some g => [g.block done got]
  | _ => got

/-! ## Routes to other chips (R329, R384) -/

/-- A message can go to a chip: it is this chip, or its mask has a link that is up and no failure of the route is on record. -/
def routeOk (s : State) (chip : Nat) : Bool :=
  chip == s.chip.toNat || (!s.deadRoutes.contains chip &&
    match mapGet s.routes chip with
    | none => false
    | some m => (List.range 18).any fun l => m.getLsbD l && s.links.getD l .down == .up)

/-- Send a message over a peer link, of one flit (R362; log 42, DESIGN CHOICE); without a route it is lost. -/
def sendPeer (s : State) (part : Option Nat) (queue : Option Nat) (chip : Nat) (m : PeerMsg) : State :=
  if !routeOk s chip then s
  else
    let s := { s with peerTx := s.peerTx ++ [m] }
    match part with
    | none => s
    | some p => charge s p queue (weights s).flit

/-! ## Gang members (R305) -/

/-- Send a message to every other member of a gang of a partition. -/
def gangSend (s : State) (part : Nat) (g : Gang) (from' : Nat) (lost : Bool) (m : GangMsg → PeerMsg) : State :=
  (List.range g.members.length).foldl (fun s k =>
    if k = g.idx then s else sendPeer s (some part) none (g.members.getD k 0) (m ⟨g.gid, g.members.getD k 0, k, from', lost⟩)) s

/-- The gang-member-lost fault aborts an instance (R305). -/
def gangLost (s : State) (part : Nat) (i : Inst) (g : Gang) (member : Nat) : State :=
  let c : Cause := { cls := 6, code := 7, aux := g.gid, aux2 := BitVec.ofNat 64 member }
  abortInstance (post s part true (c.record s (partIdent part) 0 .fatal false)) part i.id

/-- An operation of a task toward another chip has failed (R305): where that chip holds a member of the task's committed gang,
the instance aborts and the other members are told. -/
def gangOpFailed (s : State) (p : Pend) (chip : Nat) : State :=
  match (s.part p.part).insts.find? (·.id == p.inst) with
  | none => s
  | some i => match i.gang with
    | none => s
    | some g => match g.members.idxOf? chip with
      | none => s
      | some m => if g.committed then gangLost (gangSend s p.part g m true .abort) p.part i g m else s

/-- A command toward another chip ends because its route has failed (R319, R325). -/
def routeLost (s : State) (core : Nat) (p : Pend) : State :=
  let s := if p.cmd.op = .lzres then outputDone s core p 2 4 else completeErr s core p 8 0
  gangOpFailed s p p.cmd.site.chip.toNat

/-! ## COPY_SEGMENT (R318 to R321, R326) -/

/-- A put whose bytes are all read goes to its destination (R326). -/
def sendLand (s : State) (core : Nat) (p : Pend) (slot : BitVec 6) (bytes : List Byte) (bad : List Nat) : State :=
  if !routeOk s p.cmd.site.chip.toNat then routeLost s core p
  else
    let q : Land := ⟨Site.ofCore s.chip core, s.fabricOf p.part, p.id, p.cmd.site, p.cmd.zone, slot, bytes, bad⟩
    let s := segsMoved (modPend s core p.id fun r => { r with phase := .forwarded }) core (bytes.length / 64)
    if p.cmd.site.chip = s.chip then { s with net := s.net ++ [.landing q] }
    else charge { s with peerTx := s.peerTx ++ [.land q] } p.part (some p.queue) ((weights s).flit * (bytes.length / 64))

/-- Numbers of the 8-byte granules of bytes that hold poison. -/
def badGranules (bs : List PByte) : List Nat :=
  (List.range (ceilDiv bs.length 8)).filter fun k => ((bs.drop (8 * k)).take 8).any (·.2)

/-- Perform a segment whose accesses are located and free to go; `bl` are the source blocks that it reads now. -/
def segPerform (s : State) (core : Nat) (p : Pend) (w : SegWork) (bl : List (Nat × Loc × List PByte)) (dl : List (Loc × Nat)) : State :=
  let blocks := p.blocks ++ bl.map fun e => (e.1, e.2.2)
  let (s, got) := segRead core p.cmd blocks w.reads s []
  let out := p.cmd.segBytes p.done w got
  let s := engineCharge s p (bl.map (fun e => e.2.1) ++ dl.map fun e => e.1.block)
  let s := match dl with
    | [] => s
    | (l, _) :: _ => engineWrite s core p (w.dsts.headD (0, 0)).1 l.block ((dl.map fun e => e.1.inBlock).zip out)
  let p' := { p with done := w.next, segs := p.segs + 1, phase := .run, blocks := blocks
                     buf := if p.cmd.op = .lzput then p.buf ++ (out.flatten.map (·.1)) else p.buf,
                     bad := if p.cmd.op = .lzput then p.bad ++ (badGranules out.flatten).map (· + 8 * p.segs) else p.bad }
  let s := modPend s core p.id fun _ => p'
  if w.next < p.cmd.total then s
  else match p.cmd.op with
    | .lzput => match PutImg.parse p.cmd.img with
      | none => s
      | some g => sendLand s core p' g.slot p'.buf p'.bad
    | _ => complete s core p'

/-- What the next segment of a command does: nothing (`none`) while it is held. -/
def copyTry (s : State) (core id : Nat) : Option State :=
  if !clocked s core then none
  else match findPend s core id with
    | none => none
    | some p =>
      let live := match p.phase with | .run | .host (some _) => true | _ => false
      if !live then none
      else match p.cmd.seg p.done with
        | none => none
        | some w =>
          if (w.reads ++ w.dsts).any fun e => e.1.toNat % w.size != 0 then some (completeErr s core p 4 p.segs)
          else if p.cmd.op = .cpyt && w.dsts.any fun e => !(window s core e.1 matches .ts _) then some (completeErr s core p 1 p.segs)
          else
            let order := w.order
            match locateAll core order s [] with
            | (s, .error (e, k, ea)) => some (match e, accCause e with
              | .missing pg, _ => pageHold s core p pg k ea
              | _, some c => completeErr s core p c p.segs
              | _, none => s)
            | (s, .ok locs) =>
              let tagged := order.zip locs
              let dl := (tagged.filter fun e => e.1.1 == .write).map (·.2)
              -- the source blocks that the command has not read yet, with what it takes from them
              let fresh := (blocksOf ((tagged.filter fun e => e.1.1 == .read).map fun e => (e.1.2, e.2.1))).filter fun b => !p.blocks.any fun q => q.1 == b.1
              let rd := fresh.flatMap fun b => (p.cmd.covers p.done b.1).map fun q => (b.2.add q.1, q.2)
              let work := rd.map (fun e => Piece.mk false e.1 e.2) ++ dl.map (fun e => Piece.mk true e.1 e.2)
              if (rd ++ dl).any (fun e => relockHeld s e.1) || cmdBlocked s core p.cmd p.owner work then none
              else if dl.any fun e => touchesLive s e.1 e.2 then some (completeErr s core p 5 p.segs)
              else match hostReads s core p p.segs ((order.filter fun e => e.1 == .read).map fun e => e.2.1) rd with
                | .error r => r
                | .ok (s, hostBad) => some (segPerform s core p w (fresh.map fun b => (b.1, b.2, readBlock s hostBad b.2)) dl)

/-- COPY_SEGMENT (R318): a command of the copy engine, or a put that reads its source, moves its next segment. -/
def execCopySegment (core id : Nat) (s : State) : Out := .next ((copyTry s core id).getD s)

/-! ## ENGINE_COMMAND_ACCEPT (R266, R320) -/

/-- Commands of the copy queue (R265): frozen ones have left it. -/
def copyQueued (c : Core) : List Pend := c.copyQ.filter fun p => p.phase != .frozen

/-- A command that takes an entry of the copy queue (R265, R330). -/
def usesCopyQ : Op → Bool
  | .cpy | .cpyt | .cfill | .xred => true
  | _ => false

/-- The head of a thread's FIFO may be accepted (R266). -/
def acceptRoom (s : State) (core thr : Nat) (o : Op) : Bool :=
  let q := copyQueued (s.core core)
  !usesCopyQ o || (decide (q.length < 1024) && decide ((q.filter fun p => p.owner == .live core thr).length < 256))

/-- Make every ORPHANED slot FREE (R328): the zone, and how many there were. -/
def Zone.clean (z : Zone) : Zone × Nat :=
  if !z.isOpen then (z, 0)
  else ({ z with slots := z.slots.map fun k => if k.st = .orphaned then {} else k }, (z.slots.filter fun k => k.st == .orphaned).length)

/-- What an accepted command does at once: the checks of R320, an empty command's end (R318), a request's departure (R325),
and `lzclean` (R328). -/
def onAccept (s : State) (core : Nat) (p : Pend) : State :=
  match p.cmd.op with
  | .cpy | .cpyt | .cfill =>
    if intoLive s core p.cmd then completeErr s core p 5 0
    else if p.cmd.own then completeErr s core p 6 0
    else if p.cmd.total = 0 then complete s core p
    else s
  | .xred => if intoLive s core p.cmd then completeErr s core p 5 0 else s
  | .lzres =>
    if !routeOk s p.cmd.site.chip.toNat then routeLost s core p
    else
      let q : ResReq := ⟨Site.ofCore s.chip core, s.fabricOf p.part, p.id, p.cmd.site, p.cmd.zone⟩
      let s := modPend s core p.id fun r => { r with phase := .sent }
      if p.cmd.site.chip = s.chip then { s with net := s.net ++ [.reservationRequest q] }
      else sendPeer s (some p.part) (some p.queue) p.cmd.site.chip.toNat (.req q)
  | .lzclean =>
    let r := ((s.core core).zones.getD p.cmd.zone.toNat {}).clean
    let s := s.modCore core fun c => { c with zones := c.zones.setIfInBounds p.cmd.zone.toNat r.1 }
    outputDone s core p 3 r.2
  | _ => s

/-- A push is a release: its command is not accepted before the older vector accesses of its thread are complete (R243; log 8, DEDUCED). -/
def released (s : State) (core thr : Nat) (c : Cmd) : Bool := (s.entries core thr).all fun e => decide (c.past ≤ e.num) || !e.isIn [.m]

/-- What an acceptance does; nothing (`none`) while there is no room, or the push is not yet released. -/
def acceptTry (s : State) (core thr : Nat) : Option State :=
  let t := s.thread core thr
  match t.fifo, t.task with
  | c :: r, some tk =>
    if !clocked s core || t.st == .frozen || !acceptRoom s core thr c.op || !released s core thr c then none
    else
      let s := s.modThread core thr fun t => { t with fifo := r }
      let gated := match RedImg.parse c.img with
        | some g => c.op == .xred && g.gated
        | none => false
      let p : Pend := { id := c.num, cmd := c, owner := .live core thr, part := tk.part, inst := tk.inst, queue := tk.queue,
                        done := 0, segs := 0, phase := .run, gated := gated }
      let s := s.modCore core fun k => if usesCopyQ c.op then { k with copyQ := k.copyQ ++ [p] } else { k with units := k.units ++ [p] }
      some (onAccept s core p)
  | _, _ => none

/-- ENGINE_COMMAND_ACCEPT (R266, R320). -/
def execEngineCommandAccept (core thr : Nat) (s : State) : Out := .next ((acceptTry s core thr).getD s)

end Sys2Proof.Machine
end

