-- ==== Sys2Proof/Machine/Zones.lean ====
section
/-! DEFINITION. Landing zones (20 R323 to R329, 23 R336, R337) and the collective engine (R330, R331, R334). -/

namespace Sys2Proof.Machine
open Sys2Proof

/-! ## Zones at issue (R323, R328) -/

/-- A zone of a core. -/
def Core.zone (c : Core) (z : Nat) : Zone := c.zones.getD z {}
/-- Replace a zone of a core. -/
def setZone (s : State) (core z : Nat) (v : Zone) : State := s.modCore core fun c => { c with zones := c.zones.setIfInBounds z v }

/-- The zone-state fault (R323, R328). -/
def zoneFault {α : Type} (zone : BitVec 4) : M α := raise .precise { cls := 2, code := 0xB, aux := zone.toNat }

/-- The zone of an instruction that needs it open. -/
def openZone (zone : BitVec 4) : M Zone := do
  let s ← get
  let z := (s.core s.at'.core).zone zone.toNat
  if !z.isOpen then zoneFault zone
  return z

/-- The zone that `lzopen` opens with a geometry and an acceptance; `none` where R323 forbids it. -/
def openedZone (c : Core) (ga ba : Nat) : Option Zone :=
  let cnt := bits ga 24 7
  let lsz := bits ga 20 4
  let base := bits ga 0 19
  let bar := bits ba 0 19
  let size := 2 ^ (lsz + 6)
  let last := base + cnt * size
  if ga / 2 ^ 31 != 0 || bit ga 19 || ba / 2 ^ 42 != 0 || bits ba 30 2 != 0 || bit ba 19 || cnt == 0 || decide (64 < cnt)
      || decide (10 < lsz) || base % size != 0 || decide (spSize < last) || (decide (bar < last) && decide (base < bar + 8))
      || bar % 8 != 0 || !c.live.contains (bar / 8) then none
  else some {
    isOpen := true, cnt := BitVec.ofNat 7 cnt, lsz := BitVec.ofNat 4 lsz, base := BitVec.ofNat 19 base,
    mask := BitVec.ofNat 10 (bits ba 32 10), accept := BitVec.ofNat 10 (bits ba 20 10), bar := BitVec.ofNat 19 bar,
    slots := List.replicate cnt {} }

/-- `lzopen` (R323). -/
def execLzopen (c : Ctl) (a b : Reg) (zone : BitVec 4) (s : State) : Out :=
  instr (.lzopen c a b zone) .lzopen (do
    control [a, b]
    let ga := (← sval a).toNat
    let ba := (← sval b).toNat
    let s ← get
    let core := s.at'.core
    match if ((s.core core).zone zone.toNat).isOpen then none else openedZone (s.core core) ga ba with
    | none => zoneFault zone
    | some z => set (setZone s core zone.toNat z)) s

/-- `lzclose` (R324, R328). -/
def execLzclose (c : Ctl) (zone : BitVec 4) (s : State) : Out :=
  instr (.lzclose c zone) .lzclose (do
    let _ ← openZone zone
    modify fun s => setZone s s.at'.core zone.toNat {}) s

/-- `lzwait` (R328). The limit counts from the instruction's first check. -/
def execLzwait (c : Ctl) (d a b : Reg) (t : Bool) (zone : BitVec 4) (s : State) : Out :=
  instr (.lzwait c d a b t zone) .lzwait (do
    control [a, b]
    let m ← sval a
    let lim ← sval b
    let z ← openZone zone
    let s ← get
    let arr := arrivedMask z &&& m
    let (start, past) := match (s.thread s.at'.core s.at'.ctx).st with
      | .waiting (.lzwait start _ past _ _ _) => (start, past)
      | _ => (s.reftAt s.at'.core, false)
    if !(if t then arr != 0 else arr == m) && !past && decide (s.reftAt s.at'.core - start < lim) then
      waitOn (.lzwait start lim false (!t) m zone.toNat)
    wrS d arr) s

/-- The limit of a waiting `lzwait` has passed. -/
def lzwaitDue (s : State) (core thr : Nat) : Bool :=
  match (s.thread core thr).st with
  | .waiting (.lzwait start lim past _ _ _) => clocked s core && !past && decide (lim ≤ s.reftAt core - start)
  | _ => false

/-- LZWAIT_TIMEOUT (R328): the limit of a waiting `lzwait` has passed. -/
def execLzwaitTimeout (core thr : Nat) (s : State) : Out :=
  .next (if lzwaitDue s core thr then s.modThread core thr fun t => { t with st := match t.st with
    | .waiting (.lzwait start lim _ all m z) => .waiting (.lzwait start lim true all m z)
    | st => st }
  else s)

/-- `lzfree` (R324, R328): every older access of the thread has performed at its step (log 7, DEDUCED). -/
def execLzfree (c : Ctl) (a : Reg) (zone : BitVec 4) (s : State) : Out :=
  instr (.lzfree c a zone) .lzfree (do
    control [a]
    let m ← sval a
    let z ← openZone zone
    let slots := z.slots.mapIdx fun k (q : ZSlot) => if m.getLsbD k && q.st = .arrived then {} else q
    modify fun s => setZone s s.at'.core zone.toNat { z with slots := slots }) s

/-! ## Orphans (R324, R329) -/

/-- A slot becomes ORPHANED: its bytes are undefined (R324); live barrier words among them keep their value (R204, R327). -/
def orphan (s : State) (core z slot : Nat) : State :=
  let v := (s.core core).zone z
  let s := setZone s core z { v with slots := v.slots.modify slot fun q => { q with st := .orphaned } }
  let p := s.drawFree (8 * v.slotBytes)
  let off := v.slotOff slot
  p.2.modCore core fun c => { c with
    sp := (natLe v.slotBytes p.1.toNat).zipIdx.foldl (fun m e => if c.live.contains ((off + e.2) / 8) then m else Memory.set m (off + e.2) e.1) c.sp }

/-- Every RESERVED slot of a chip's holders becomes ORPHANED (R329). -/
def orphanChip (s : State) (chip : Nat) : State :=
  s.cores.foldl (fun s (e : Nat × Core) => (List.range 16).foldl (fun s z =>
    (List.range 64).foldl (fun s k =>
      let q := ((s.core e.1).zone z).slots.getD k {}
      if q.st = .reserved ∧ q.holder.chip.toNat = chip then orphan s e.1 z k else s) s) s) s

/-- The route to a chip has failed on this chip's side (R329): reserved slots of its cores are orphaned, and the commands
toward it that are not acknowledged end. An `xred` is concerned once it has sent its forward. -/
def routeFailed (s : State) (chip : Nat) : State :=
  let s := orphanChip { s with deadRoutes := setIns s.deadRoutes chip } chip
  s.cores.foldl (fun s (e : Nat × Core) =>
    (e.2.copyQ ++ e.2.units).foldl (fun s p =>
      let toward := p.cmd.site.chip.toNat = chip ∧ (p.cmd.op = .lzput ∨ (p.cmd.op = .lzres ∧ p.phase = .sent) ∨ (p.cmd.op = .xred ∧ p.phase = .forwarded))
      if toward ∧ (findPend s e.1 p.id).isSome then routeLost s e.1 p else s) s) s

/-! ## At the destination (R325, R327, R337) -/

/-- The site takes requests of a sender's fabric partition (R43, R325). -/
def destOk (s : State) (dst : Site) (fabric : Nat) : Bool :=
  dst.chip == s.chip && dst.inGrid && s.enabled dst.core &&
    match s.partOf dst.core with
    | none => false
    | some p => s.fabricOf p == fabric

/-- A message to a zone waits at the edge of an island in a relock window (R358). -/
def edgeHeld (s : State) (dst : Site) : Bool := (s.isleAt dst.core).relock.isSome

/-- A message stays in the crossing FIFO at the edge of its island (R358). -/
def atEdge (s : State) (dst : Site) (m : Instr) : State :=
  match isleOf s dst.core with
  | none => s
  | some k => s.setIsle k { s.isle k with edge := (s.isle k).edge ++ [m] }

/-- A zone of a core answers a sender on this chip or another. -/
def sendBack (s : State) (core : Nat) (chip : BitVec 10) (own : Instr) (peer : PeerMsg) : State :=
  if chip = s.chip then { s with net := s.net ++ [own] } else sendPeer s (s.partOf core) none chip.toNat peer

/-- What a reservation request finds: the slot granted, or the reason of R322. -/
def grant (s : State) (q : ResReq) : Except Nat Nat :=
  let z := (s.core q.dst.core).zone q.zone.toNat
  if !destOk s q.dst q.fabric then .error 3
  else if !z.isOpen then .error 2
  else if q.src.chip &&& z.mask != z.accept &&& z.mask then .error 3
  else match (List.range z.slots.length).find? fun k => (z.slots.getD k {}).st == .free with
    | none => .error 1
    | some k => .ok k

/-- RESERVATION_REQUEST (R324, R325, R337). A grant whose answer has no route back leaves the slot ORPHANED (R325). -/
def execReservationRequest (q : ResReq) (s : State) : Out :=
  .next (
    if edgeHeld s q.dst then atEdge s q.dst (.reservationRequest q)
    else
      let core := q.dst.core
      let z := (s.core core).zone q.zone.toNat
      let (s, a) : State × ResAns := match grant s q with
        | .error r => (s, ⟨q.src, q.id, false, r⟩)
        | .ok k => (setZone s core q.zone.toNat { z with slots := z.slots.set k ⟨.reserved, q.src⟩ }, ⟨q.src, q.id, true, k⟩)
      let s := if a.granted && !routeOk s q.src.chip.toNat then orphan s core q.zone.toNat a.value else s
      sendBack s core q.src.chip (.reservationAnswer a) (.ans a))

/-- RESERVATION_ANSWER (R322, R325): the output of the request. -/
def execReservationAnswer (q : ResAns) (s : State) : Out :=
  .next (match findPend s q.dst.core q.id with
    | none => s
    | some p => if q.dst.chip = s.chip ∧ p.phase = .sent then outputDone s q.dst.core p (if q.granted then 1 else 2) q.value else s)

/-- Pieces of 64 bytes, each with its first byte's place. -/
def chunks64 : (n : Nat) → List PByte → Nat → List (Nat × List PByte)
  | 0, _, _ => []
  | n + 1, bs, k => (64 * k, bs.take 64) :: chunks64 n (bs.drop 64) (k + 1)

/-- Why a put or forward is refused (R327): the cause of R319. -/
def landRefused (s : State) (q : Land) : Option Nat :=
  let z := (s.core q.dst.core).zone q.zone.toNat
  let k := z.slots.getD q.slot.toNat {}
  if !destOk s q.dst q.fabric || !z.isOpen || k.st != .reserved || k.holder != q.src || decide (z.slotBytes < q.bytes.length) then some 9
  else if touchesLive s (.sp q.dst.core (z.slotOff q.slot.toNat)) q.bytes.length then some 5
  else none

/-- Whose energy a landing is (R362): the queue of a command of this chip, or of the zone's partition for another chip's. -/
def landCharge (s : State) (q : Land) : State :=
  let w := (weights s).sram * (q.bytes.length / 64)
  if q.src.chip = s.chip then
    match findPend s q.src.core q.id with
    | none => s
    | some p => charge s p.part (some p.queue) w
  else match s.partOf q.dst.core with
    | none => s
    | some p => charge s p none w

/-- The arrival (R250, R327): the slot's bytes, its state and the barrier word, which keeps its poison. -/
def land (s : State) (q : Land) : State :=
  let core := q.dst.core
  let z := (s.core core).zone q.zone.toNat
  let off := z.slotOff q.slot.toNat
  let bytes := q.bytes.zipIdx.map fun e => (e.1, q.pois.contains (e.2 / 8))
  let s := (chunks64 (ceilDiv q.bytes.length 64) bytes 0).foldl (fun s e => writeBlock s (.sp core (off + e.1)) [(0, e.2)]) s
  let s := setZone s core q.zone.toNat { z with slots := z.slots.modify q.slot.toNat fun k => { k with st := .arrived } }
  let b := readLoc s (.sp core z.bar.toNat) 8
  endBarwaits (writeLoc (landCharge s q) (.sp core z.bar.toNat) (natLe 8 (barArrive (leNat b.1))) b.2) core z.bar.toNat

/-- LANDING (R250, R324, R327, R337). -/
def execLanding (q : Land) (s : State) : Out :=
  .next (
    if edgeHeld s q.dst then atEdge s q.dst (.landing q)
    else
      let c := landRefused s q
      let s := match c with
        | none => land s q
        | some 5 => orphan s q.dst.core q.zone.toNat q.slot.toNat
        | some _ => s
      let a : Ack := ⟨q.src, q.id, c.getD 0⟩
      sendBack s q.dst.core q.src.chip (.putAck a) (.ack a))

/-- FRIN (R331): the input slot of an `xred` becomes FREE. -/
def freeInput (s : State) (core : Nat) (p : Pend) : State :=
  match if p.cmd.op = .xred then RedImg.parse p.cmd.img else none with
  | none => s
  | some g =>
    let z := (s.core core).zone g.zin.toNat
    if g.frin && z.isOpen && (z.slots.getD g.slotIn {}).st == .arrived then
      setZone s core g.zin.toNat { z with slots := z.slots.set g.slotIn {} }
    else s

/-- PUT_ACK (R326, R331): the end of a put or a forward. -/
def execPutAck (q : Ack) (s : State) : Out :=
  .next (match findPend s q.dst.core q.id with
    | none => s
    | some p =>
      if q.dst.chip = s.chip ∧ p.phase = .forwarded then
        if q.cause = 0 then complete (freeInput s q.dst.core p) q.dst.core p else completeErr s q.dst.core p q.cause 0
      else s)

/-! ## The collective engine (R330, R331, R334) -/

/-- The commands of the collective engine that may go on. -/
def redReady (s : State) (core id : Nat) : Option (Pend × RedImg) :=
  match findPend s core id with
  | none => none
  | some p => match p.cmd.op, p.phase with
    | .xred, .run | .xred, .host (some _) => (RedImg.parse p.cmd.img).map fun g => (p, g)
    | _, _ => none

/-- The end of an access of an `xred` that has no place. -/
def redNoPlace (s : State) (core : Nat) (p : Pend) (e : AccErr) (k : Access) (ea : W64) (seg : Nat) : State :=
  match e, accCause e with
  | .missing pg, _ => pageHold s core p pg k ea
  | _, some c => completeErr s core p c seg
  | _, none => s

/-- A read of the signal word: nothing (`none`) while it has not met its value (R331). The range checker does not hold it
(R334); poison does not change what is compared. -/
def gateTry (s : State) (core id : Nat) : Option State :=
  match redReady s core id with
  | none => none
  | some (p, g) =>
    if !p.gated then none
    else
      let ea : W64 := BitVec.ofNat 64 g.sig
      match locate s core .read ea with
      | .error e => some (redNoPlace s core p e .read ea 0)
      | .ok (l, leaf) =>
        let s := noteLocated s core ea leaf
        if relockHeld s l then none
        else match hostReads s core p 0 [ea] [(l, 8)] with
          | .error r => r
          | .ok (s, _) =>
            if g.sval ≤ leNat (readLoc s l 8).1 then
              some (modPend (charge s p.part (some p.queue) (accessWeight s l)) core id fun q => { q with gated := false, phase := .run })
            else match p.phase with
              | .host _ => some (modPend s core id fun q => { q with phase := .run })
              | _ => none

/-- XRED_GATE_READ (R331, R334). -/
def execXredGateRead (core id : Nat) (s : State) : Out := .next ((gateTry s core id).getD s)

/-- The result of 64 bytes of LOC and of the slot (R331): no flag, and poison where either is poisoned. -/
def reduce64 (g : RedImg) (a b : List PByte) : List PByte :=
  let f := (ffmtOf (if g.bf16 then 0x01 else 0x00)).getD fp32
  let w := if g.bf16 then 2 else 4
  let at' (l : List PByte) (i : Nat) : Nat := leNat (((l.drop (i * w)).take w).map (·.1))
  let out := (List.range (64 / w)).flatMap fun i =>
    let x := at' a i
    let y := at' b i
    natLe w (if g.max then (f.minMax true x y).code else (f.add ⟨g.rm, 0⟩ (f.decode x) (f.decode y)).code)
  (out.zip (a.zip b)).map fun e => (e.1, e.2.1.2 || e.2.2.2)

/-- Where a run over segments ends: it goes on with a state, or stops with one, or (`none`) stops where nothing has moved. -/
abbrev Flow := Except (Option State) State

/-- Reduce segments `ks` into the command's buffer. `moved` says that the step has changed something. -/
def redRead (core id : Nat) (g : RedImg) (slotOff : Nat) : List Nat → Bool → State → Flow
  | [], _, s => .ok s
  | k :: r, moved, s =>
    match findPend s core id with
    | none => .error (some s)
    | some p =>
      let held : Flow := .error (if moved then some s else none)
      let ea : W64 := BitVec.ofNat 64 (g.loc + 64 * k)
      match locate s core .read ea with
      | .error e => .error (some (redNoPlace s core p e .read ea k))
      | .ok (l, leaf) =>
        let sl : Loc := .sp core (slotOff + 64 * k)
        if relockHeld s l || relockHeld s sl || cmdBlocked s core p.cmd p.owner (p.cmd.compared s core [⟨false, l, 64⟩, ⟨false, sl, 64⟩]) then held
        else match hostReads (noteLocated s core ea leaf) core p k [ea] [(l, 64)] with
          | .error none => held
          | .error (some s) => .error (some s)
          | .ok (s, hostBad) =>
            let out := reduce64 g (readBlock s hostBad l) (readBytes s sl 64)
            let s := engineCharge s p [l, sl]
            let s := modPend s core id fun q => { q with
              phase := .run, buf := q.buf ++ out.map (·.1), bad := q.bad ++ (badGranules out).map (· + 8 * k) }
            redRead core id g slotOff r true s

/-- Write segments `ks` of the result to LOC (R320, R331). -/
def redWrite (core id : Nat) (g : RedImg) : List Nat → Bool → State → Flow
  | [], _, s => .ok s
  | k :: r, moved, s =>
    match findPend s core id with
    | none => .error (some s)
    | some p =>
      let ea : W64 := BitVec.ofNat 64 (g.loc + 64 * k)
      match locate s core .write ea with
      | .error e => .error (some (redNoPlace s core p e .write ea k))
      | .ok (l, leaf) =>
        if relockHeld s l || cmdBlocked s core p.cmd p.owner (p.cmd.compared s core [⟨true, l, 64⟩]) then .error (if moved then some s else none)
        else if touchesLive s l 64 then .error (some (completeErr s core p 5 k))
        else
          let s := noteLocated s core ea leaf
          let out := ((p.buf.drop (64 * k)).take 64).zipIdx.map fun e => (e.1, p.bad.contains (8 * k + e.2 / 8))
          let s := engineWrite (engineCharge s p [l]) core p ea l [(0, out)]
          let s := modPend s core id fun q => { q with done := k + 1, segs := k + 1 }
          redWrite core id g r true s

/-- After its reads and local writes: the forward, or the end (R331). -/
def redEnd (core id : Nat) (g : RedImg) (s : State) : State :=
  match findPend s core id with
  | none => s
  | some p =>
    if g.toRemote then sendLand s core p g.fslot p.buf p.bad
    else complete (freeInput s core p) core p

/-- Run an `xred` whose slot lies at `off`: all its reads, then its local writes, then its forward or its end. -/
def redRun (s : State) (core id : Nat) (p : Pend) (g : RedImg) (off : Nat) (moved : Bool) : Option State :=
  let n := g.len / 64
  let from' (k : Nat) : List Nat := (List.range (n - k)).map (k + ·)
  let read := p.buf.length / 64
  match redRead core id g off (from' read) moved s with
  | .error r => r
  | .ok s => match if g.toLocal then redWrite core id g (from' p.done) (moved || decide (read < n)) s
      else .ok (modPend s core id fun q => { q with done := n, segs := n }) with
    | .error r => r
    | .ok s => some (redEnd core id g s)

/-- What the collective engine does with an `xred` whose gate is met; nothing (`none`) while it waits. -/
def redTry (s : State) (core id : Nat) : Option State :=
  match redReady s core id with
  | none => none
  | some (p, g) =>
    if p.gated then none
    else match p.slotAt with
      | some off => redRun s core id p g off false
      | none =>
        let z := (s.core core).zone g.zin.toNat
        if !g.fits (s.core core) then some (completeErr s core p 9 0)
        else match (z.slots.getD g.slotIn {}).st with
          | .orphaned => some (completeErr s core p 0xA 0)
          | .arrived =>
            let off := z.slotOff g.slotIn
            redRun (modPend s core id fun q => { q with slotAt := some off }) core id p g off true
          | _ => none

/-- XRED_REDUCE (R331). -/
def execXredReduce (core id : Nat) (s : State) : Out := .next ((redTry s core id).getD s)

end Sys2Proof.Machine
end

