-- ==== Sys2Proof/Machine/Graph.lean ====
section
/-! DEFINITION. Graph images, launch records and instances (19 R288 to R294, R340), buffers and claims (R295, R296), and gang
launches (R304, R305). -/

namespace Sys2Proof.Machine
open Sys2Proof

/-! ## Reading through a partition's tables (R291) -/

/-- Read `n` bytes at a virtual address, page by page; `none` when a byte has no readable place or is poisoned. -/
def readVirt (s : State) (part : Nat) : (fuel : Nat) → (va n : Nat) → Option (List Byte)
  | 0, _, n => if n = 0 then some [] else none
  | f + 1, va, n =>
    if n = 0 then some []
    else
      let k := min n (4096 - va % 4096)
      match if 2 ^ 55 ≤ va then .error .address else locatePart s part .read (BitVec.ofNat 64 va) with
      | .error _ => none
      | .ok l =>
        let r := readLoc s l k
        if r.2 then none else (readVirt s part f (va + k) (n - k)).map (r.1 ++ ·)

/-- Read `n` bytes at `va`. -/
def virtBytes (s : State) (part va n : Nat) : Option (List Byte) := readVirt s part (n / 4096 + 2) va n

/-! ## Pavilions of a partition -/

/-- The pavilions of a partition in ascending order, those that still scrub for it included (R12, R41). -/
def homePavs (s : State) (part : Nat) : List Nat :=
  (s.pavs.filter fun e => e.2.part == some part || e.2.scrub == some (some part)).map (·.1)

/-- A pin that satisfies R42 and names this chip (R290, R291). -/
def pinOk (s : State) (part : Nat) (t : Site) : Bool :=
  t.chip == s.chip && t.inGrid && s.enabled t.core && (homePavs s part).contains (pavOf t.core)

/-- The tender classes of a partition as its pavilion `home` holds them; while that one scrubs, those of its other pavilions (R211,
R310). -/
def classesAt (s : State) (part home : Nat) : Vector ClassRec 16 :=
  if (s.pav home).part = some part then (s.pav home).classes
  else match s.pavsOf part with
    | [] => Vector.replicate 16 {}
    | v :: _ => (s.pav v).classes

/-! ## Images (R288 to R291) -/

/-- A buffer entry of an image (R289). -/
def parseBuf (e : List Byte) : Option Buf :=
  let fl := leAt e 16 1
  let sw := leAt e 12 4
  if fl / 4 != 0 || leAt e 17 15 != 0 || leAt e 8 4 == 0 || sw / 2 ^ 23 != 0 || (!bit fl 1 && sw != 0) then none
  else some { full := bit fl 0, size := leAt e 8 4, loc1 := bit fl 1, addr := BitVec.ofNat 64 (leAt e 0 8), site := Site.ofNat sw }

/-- 16-bit numbers of a list of bytes. -/
def halves16 : (n : Nat) → List Byte → List Nat
  | 0, _ => []
  | n + 1, b => leAt b 0 2 :: halves16 n (b.drop 2)

/-- A node entry of an image (R290) with its list of buffers. -/
def parseNode (s : State) (part home qprio nbufs : Nat) (e : List Byte) (list : List Byte) : Option Node :=
  let nin := leAt e 40 1
  let nout := leAt e 41 1
  let place := leAt e 16 4
  let nfl := leAt e 20 4
  let tend := bit place 23
  let pin := Site.ofNat (place % 2 ^ 23)
  let l := halves16 (nin + nout) list
  let cls := bits place 24 4
  if leAt e 0 8 % 4 != 0 || leAt e 8 8 / 2 ^ 16 != 0 || place / 2 ^ 28 != 0 || (if tend then place % 2 ^ 23 != 0 else cls != 0)
      || nfl / 8 != 0 || decide (16 < nin) || decide (16 < nout) || leAt e 42 2 != 0 || leAt e 48 16 != 0 || leAt e 44 4 % 2 != 0
      || (l.eraseDups.length != l.length) || (l.any fun b => decide (nbufs ≤ b))
      || (if tend then !((classesAt s part home).getD cls {}).valid else !pinOk s part pin) then none
  else some {
    code := BitVec.ofNat 64 (leAt e 0 8), feat := BitVec.ofNat 16 (leAt e 8 8), tend := tend, cls := cls, pin := pin,
    prio := max qprio (nfl % 4), mov := bit nfl 2, seed := BitVec.ofNat 64 (leAt e 24 8), hent := BitVec.ofNat 64 (leAt e 32 8),
    ins := l.take nin, outs := l.drop nin }

/-- Entries of `k` bytes of a table. -/
def entries (k : Nat) : (n : Nat) → List Byte → List (List Byte)
  | 0, _ => []
  | n + 1, b => b.take k :: entries k n (b.drop k)

/-- Every element, when all are there. -/
def allSome {α : Type} : List (Option α) → Option (List α)
  | [] => some []
  | none :: _ => none
  | some a :: r => (allSome r).map (a :: ·)

/-- The image at `va`: its nodes and buffers, when R291 accepts it. -/
def parseImage (s : State) (part home qprio va : Nat) : Option (List Node × List Buf) := do
  let h ← if va % 64 = 0 then virtBytes s part va 64 else none
  let nn := leAt h 8 4
  let nb := leAt h 12 4
  let no := leAt h 16 8
  let bo := leAt h 24 8
  if leAt h 0 4 != 0x47415247 || leAt h 4 4 != 1 || nn == 0 || decide (4096 < nn) || decide (65536 < nb) || no % 64 != 0 || bo % 64 != 0
      || leAt h 32 32 != 0 then none
  let nt ← virtBytes s part (va + no) (64 * nn)
  let bt ← virtBytes s part (va + bo) (32 * nb)
  let bufs ← allSome ((entries 32 nb bt).map parseBuf)
  let nodes ← allSome ((entries 64 nn nt).map fun e => do
    let l ← virtBytes s part (va + leAt e 44 4) (2 * (leAt e 40 1 + leAt e 41 1))
    parseNode s part home qprio nb e l)
  return (nodes, bufs)

/-! ## Claims and retirement (R16, R295, R296) -/

/-- A node may claim its buffers (R295). -/
def nodeReady (bufs : List Buf) (n : Node) : Bool :=
  n.st == .pending &&
    (n.ins.all fun b => let u := bufs.getD b default; u.full && !u.wr) &&
    (n.outs.all fun b => let u := bufs.getD b default; !u.full && !u.wr && u.rd == 0)

/-- Claim a node's buffers (R295). -/
def claim (bufs : List Buf) (n : Node) : List Buf :=
  let b := n.ins.foldl (fun l k => l.modify k fun u => { u with rd := u.rd + 1 }) bufs
  n.outs.foldl (fun l k => l.modify k fun u => { u with wr := true }) b

/-- Append to a pavilion's dispatcher, or put in front of its priority's FIFO. -/
def enqueueD (s : State) (pav prio : Nat) (head : Bool) (e : DEntry) : State :=
  s.modPav pav fun p =>
    let l := p.disp.getD prio []
    { p with disp := p.disp.setIfInBounds prio (if head then e :: l else l ++ [e]) }

/-- Change an instance. -/
def modInst (s : State) (part inst : Nat) (f : Inst → Inst) : State :=
  s.modPart part fun p => { p with insts := p.insts.map fun i => if i.id = inst then f i else i }

/-- Find an instance. -/
def findInst (s : State) (part inst : Nat) : Option Inst := (s.part part).insts.find? (·.id == inst)

/-- The pavilion whose dispatcher takes a node (R297). -/
def nodePav (i : Inst) (n : Node) : Nat := if n.tend then i.home else pavOf n.pin.core

/-- Test and claim the nodes of an instance in ascending index (R295); an uncommitted gang member has no eligible node (R304), nor has
an instance that is to be aborted (R294). -/
def claimNodes (s : State) (part inst : Nat) : State :=
  match findInst s part inst with
  | none => s
  | some i =>
    if i.aborted || (match i.gang with | some g => !g.committed | none => false) then s
    else (List.range i.nodes.length).foldl (fun s k =>
      match findInst s part inst with
      | none => s
      | some i =>
        let n := i.nodes.getD k default
        if nodeReady i.bufs n then
          let s := modInst s part inst fun i => { i with bufs := claim i.bufs n, nodes := i.nodes.modify k fun n => { n with st := .eligible } }
          enqueueD s (nodePav i n) n.prio false (.fresh part inst k)
        else s) s

/-- What a retirement does to the buffers (R296). -/
def retireBufs (bufs : List Buf) (n : Node) : List Buf :=
  let b := n.ins.foldl (fun l k => l.modify k fun u => { u with rd := u.rd - 1, full := false }) bufs
  n.outs.foldl (fun l k => l.modify k fun u =>
    { u with wr := false, full := true, gen := if u.full then u.gen else u.gen + 1 }) b

/-- Retire a node of an instance: one step with the claims it enables; after the last, the instance ends with status 0 (R294 to
R296). -/
def retireNode (s : State) (part inst node : Nat) : State :=
  match findInst s part inst with
  | none => s
  | some i =>
    let n := i.nodes.getD node default
    let s := modInst s part inst fun i => { i with
      bufs := retireBufs i.bufs n, nodes := i.nodes.modify node fun n => { n with st := .retired } }
    let s := claimNodes s part inst
    match findInst s part inst with
    | none => s
    | some i => if i.nodes.all fun n => n.st == .retired then endInstance s part inst 0 else s

/-! ## Launch records (R267, R292) -/

/-- A launch record for a queue: discarded and counted when the queue is full or disabled (R267). -/
def enqueueLaunch (s : State) (part queue : Nat) (rec : List Byte) : State :=
  let q := (s.part part).queues.getD queue {}
  let setQ (s : State) (v : LQueue) : State := s.modPart part fun p => { p with queues := p.queues.setIfInBounds queue v }
  if !q.enabled || decide (256 ≤ q.recs.length) then
    let c : Cause := { cls := 6, code := 9, aux := queue }
    post (setQ s { q with overflow := q.overflow + 1 }) part false (c.record s (partIdent part) 0 .async false)
  else setQ s { q with recs := q.recs ++ [rec] }

/-- LAUNCH_RECORD_WRITE (R292): one write of 64 bytes to a queue's window; anything else changes nothing (log 11, DESIGN CHOICE). -/
def execLaunchRecordWrite (part queue : Nat) (rec : List Byte) (s : State) : Out :=
  .next (if rec.length = 64 ∧ queue < 64 ∧ s.reaches part then enqueueLaunch s part queue rec else s)

/-! ## Gang launches (R304, R305) -/

/-- 1 ms and 10 ms in ticks. -/
def ms : Nat := 1000000

/-- An instance that a gang message is for. -/
def gangInst (s : State) (q : GangMsg) : Option (Nat × Inst × Gang) :=
  if q.chip ≠ s.chip.toNat then none
  else s.parts.findSome? fun (e : Nat × Part) => e.2.insts.findSome? fun i => match i.gang with
    | none => none
    | some g => if g.gid = q.gang ∧ g.idx = q.toIdx then some (e.1, i, g) else none

/-- Change the gang side of an instance. -/
def modGang (s : State) (part inst : Nat) (f : Gang → Gang) : State :=
  modInst s part inst fun i => { i with gang := i.gang.map f }

/-- A member has prepared (R304): the leader sends a prepare to every other member; another waits for it. -/
def gangPrepared (s : State) (part inst : Nat) (g : Gang) : State :=
  let now := s.reft.toNat
  if g.idx = 0 then
    modGang (gangSend s part g 0 false .prepare) part inst fun g => { g with asked := true, deadline := some (now + ms) }
  else modGang s part inst fun g => { g with deadline := some (now + 10 * ms) }

/-- GANG_PREPARE (R304): a prepared member answers; a prepare that comes before its member is prepared waits for it. -/
def execGangPrepare (q : GangMsg) (s : State) : Out :=
  .next (match gangInst s q with
    | none => if q.chip = s.chip.toNat then { s with net := s.net ++ [.gangPrepare q] } else s
    | some (p, i, g) =>
      if g.committed || g.idx == 0 then s
      else
        let lead := g.members.getD 0 0
        let s := sendPeer s (some p) none lead (.gangAck ⟨g.gid, lead, 0, g.idx, false⟩)
        modGang s p i.id fun g => { g with acked := true, deadline := some (s.reft.toNat + 10 * ms) })

/-- GANG_ACK (R304): with every acknowledgement, the leader sends commit to every member, itself included. -/
def execGangAck (q : GangMsg) (s : State) : Out :=
  .next (match gangInst s q with
    | none => s
    | some (p, i, g) =>
      if g.idx != 0 || g.committed || !(decide (0 < q.fromIdx) && decide (q.fromIdx < g.members.length)) then s
      else
        let acks := setIns g.acks q.fromIdx
        let s := modGang s p i.id fun g => { g with acks := acks }
        if acks.length + 1 < g.members.length || g.acks.contains q.fromIdx then s
        else
          let s := modGang (gangSend s p g 0 false .commit) p i.id fun g => { g with deadline := none }
          { s with net := s.net ++ [.gangCommit ⟨g.gid, s.chip.toNat, 0, 0, false⟩] })

/-- GANG_COMMIT (R304): dispatch begins on this chip. -/
def execGangCommit (q : GangMsg) (s : State) : Out :=
  .next (match gangInst s q with
    | none => s
    | some (p, i, g) => if g.committed then s
      else claimNodes (modGang s p i.id fun g => { g with committed := true, deadline := none }) p i.id)

/-- GANG_ABORT (R305): before its commit a prepared instance ends with status 3; after it, or when a member has raised the
gang-member-lost fault, with that fault. -/
def execGangAbort (q : GangMsg) (s : State) : Out :=
  .next (match gangInst s q with
    | none => s
    | some (p, i, g) => if g.committed || q.lost then gangLost s p i g q.fromIdx else endInstance s p i.id 3)

/-- The deadline of a gang's instance has passed. -/
def gangDue (s : State) (g : Gang) : Bool :=
  match g.deadline with
  | none => false
  | some d => decide (d ≤ s.reft.toNat)

/-- GANG_PREPARE_TIMEOUT (R305): the leader lacks an acknowledgement 1 ms after its prepare. -/
def execGangPrepareTimeout (part inst : Nat) (s : State) : Out :=
  .next (match findInst s part inst with
    | none => s
    | some i => match i.gang with
      | none => s
      | some g => if g.idx = 0 ∧ !g.committed ∧ gangDue s g then endInstance (gangSend s part g 0 false .abort) part inst 3 else s)

/-- GANG_COMMIT_TIMEOUT (R305): a member has no commit and no abort after 10 ms; it misses the leader. -/
def execGangCommitTimeout (part inst : Nat) (s : State) : Out :=
  .next (match findInst s part inst with
    | none => s
    | some i => match i.gang with
      | none => s
      | some g => if g.idx ≠ 0 ∧ !g.committed ∧ gangDue s g then gangLost s part i g 0 else s)

/-! ## The front end (R291 to R294, R340) -/

/-- What the front end makes of a record: refused, held (R211, R340), or an instance with its member list. -/
inductive Launch where
  | refused
  | held
  | ready (home : Nat) (nodes : List Node) (bufs : List Buf) (gang : Option Gang)

/-- A member list (R292). -/
def memberList (s : State) (part mlist n : Nat) : Option (List Nat) := (virtBytes s part mlist (2 * n)).map fun b => (halves16 n b).map (· % 1024)

/-- Check a record and its image (R291, R292). A launch is held while a task of it is pinned to a pavilion that scrubs, or every
pavilion of the partition scrubs (R211). -/
def checkLaunch (s : State) (part qprio : Nat) (r : List Byte) : Launch :=
  let home := leAt r 24 1
  let lfl := leAt r 25 1
  let gid := leAt r 28 4
  let mlist := leAt r 32 8
  let midx := leAt r 40 2
  let mcnt := leAt r 42 2
  let pavs := homePavs s part
  let gang := bit lfl 0
  if home / 32 != 0 || lfl / 2 != 0 || leAt r 26 2 != 0 || leAt r 44 20 != 0 || decide (pavs.length ≤ home) || decide (1024 ≤ midx)
      || decide (2048 ≤ mcnt) || (!gang && (gid != 0 || mlist != 0 || midx != 0 || mcnt != 0)) then .refused
  else
    let members : Option (List Nat) :=
      if !gang then some []
      else if mcnt < 2 ∨ 1024 < mcnt ∨ mcnt ≤ midx then none
      else match memberList s part mlist mcnt with
        | none => none
        | some l => if l.getD midx 0 = s.chip.toNat ∧ l.eraseDups.length = l.length then some l else none
    match members with
    | none => .refused
    | some ms =>
      let h := pavs.getD home 0
      let scrubs (v : Nat) : Bool := (s.pav v).scrub.isSome
      if pavs.all scrubs then .held
      else match parseImage s part h qprio (leAt r 0 8) with
      | none => .refused
      | some (nodes, bufs) =>
        let live := ((s.part part).insts.map fun i => i.bufs.length).foldl (· + ·) 0
        if 262144 < live + bufs.length then .held
        else if nodes.any fun n => !n.tend && scrubs (pavOf n.pin.core) then .held
        else .ready h nodes bufs (if gang then some { gid := gid, members := ms, idx := midx } else none)

/-- The queues in the order of R293. -/
def queueOrder (p : Part) : List Nat :=
  (List.range 4).flatMap fun k => (List.range 64).filter fun q => (p.queues.getD q {}).enabled && (p.queues.getD q {}).prio == k

/-- The queue whose oldest record the front end takes next, with what it makes of it: the first one that is not held. -/
def nextLaunch (s : State) (part : Nat) : Option (Nat × List Byte × Launch) :=
  let p := s.part part
  if 256 ≤ p.insts.length then none
  else (queueOrder p).findSome? fun q => match (p.queues.getD q {}).recs with
    | [] => none
    | r :: _ => match checkLaunch s part (p.queues.getD q {}).prio r with
      | .held => none
      | l => some (q, r, l)

/-- Code that the host wrote before a launch is visible to every core of it: words fetched earlier are dropped (R34). -/
def freshCode (s : State) (part : Nat) : State :=
  let w := (s.part part).hostWrote
  if w.isEmpty then s
  else
    let stale (k pc : Nat) : Bool := (placeOf s k (BitVec.ofNat 64 pc)).any fun l => w.any fun h => l.shares 4 h.1 h.2
    let fresh (e : Nat × Core) : Nat × Core :=
      if s.partOf e.1 == some part then (e.1, { e.2 with icache := e.2.icache.filter fun c => !stale e.1 c.1 }) else e
    State.modPart { s with cores := s.cores.map fresh } part fun p => { p with hostWrote := [] }

/-- LAUNCH_INSTANTIATE (R291, R293): the next record becomes an instance, or ends with status 2. -/
def execLaunchInstantiate (part : Nat) (s : State) : Out :=
  .next (match nextLaunch s part with
    | none => s
    | some (q, r, l) =>
      let s := s.modPart part fun p => { p with queues := p.queues.setIfInBounds q { p.queues.getD q {} with recs := (p.queues.getD q {}).recs.drop 1 } }
      let caddr : W64 := BitVec.ofNat 64 (leAt r 8 8)
      let cval : W64 := BitVec.ofNat 64 (leAt r 16 8)
      match l with
      | .ready home nodes bufs gang =>
        let s := freshCode s part
        let id := (s.part part).nextInst
        let i : Inst := { id := id, queue := q, qprio := ((s.part part).queues.getD q {}).prio, home := home, caddr := caddr, cval := cval,
                          nodes := nodes, bufs := bufs, gang := gang }
        let s := s.modPart part fun p => { p with insts := p.insts ++ [i], nextInst := id + 1 }
        match gang with
        | none => claimNodes s part id
        | some g => gangPrepared s part id g
      | _ => completionWrite s part caddr cval 2)

end Sys2Proof.Machine
end

