-- ==== Sys2Proof/Machine/Trans.lean ====
section
/-! DEFINITION. The exact functions of 07 R141 that have no finite form: reciprocal roots, powers and logarithms of two, sine,
cosine and hyperbolic tangent, as magnitudes that rounding can take (log 14, DEDUCED). -/

namespace Sys2Proof.Machine
open Sys2Proof

/-! ## Fixed point

A number in fixed point is an integer over `2^prec`. The results below are exact, or lie strictly above the magnitude they
give and below the next one. -/

/-- Fraction bits of the series. -/
def prec : Nat := 720

/-- ln 2 over 2^800. -/
def ln2Const : Nat :=
  0xB17217F7D1CF79ABC9E3B39803F2F6AF40F343267298B62D8A0D175B8BAAFA2BE7B876206DEBAC98559552FB4AFA1B10ED2EAE35C138214427573B291169B8253E96CA16224AE8C51ACBDA11317C387EB9EA9BC3B136603B256FA0EC7657F74B72CE87B1

/-- Pi over 2^1024. -/
def piConst : Nat :=
  0x3243F6A8885A308D313198A2E03707344A4093822299F31D0082EFA98EC4E6C89452821E638D01377BE5466CF34E90C6CC0AC29B7C97C50DD3F84D5B5B54709179216D5D98979FB1BD1310BA698DFB5AC2FFD72DBD01ADFB7B8E1AFED6A267E96BA7C9045F12C7F9924A19947B3916CF70801F2E2858EFC16636920D871574E69

/-- ln 2 in fixed point. -/
def ln2Fix : Nat := ln2Const / 2 ^ (800 - prec)

/-- `m * 2^e` over `2^p`, toward zero. -/
def toFix (p m : Nat) (e : Int) : Nat :=
  let k : Int := e + p
  if 0 ≤ k then m * 2 ^ k.toNat else m / 2 ^ (-k).toNat

/-- A magnitude in fixed point that is no exact value; the bits below are dropped. -/
def fixMag (v : Nat) (e : Int) : Mag := ⟨v / 2 ^ 16, e - prec + 16, true⟩

/-- Sum of `t^k / k!` from a term on. -/
def expSeries (t : Nat) : (fuel : Nat) → (k term acc : Nat) → Nat
  | 0, _, _, acc => acc
  | n + 1, k, term, acc =>
    let next := term * t / (k * 2 ^ prec)
    expSeries t n (k + 1) next (acc + next)

/-- exp of a fixed-point number below 1. -/
def expFix (t : Nat) : Nat := expSeries t 160 1 (2 ^ prec) (2 ^ prec)

/-- Sum of `z^(2k+1) / (2k+1)` from a term on. -/
def atanhSeries (z2 : Nat) : (fuel : Nat) → (k pow acc : Nat) → Nat
  | 0, _, _, acc => acc
  | n + 1, k, pow, acc => atanhSeries z2 n (k + 2) (pow * z2 / 2 ^ prec) (acc + pow / k)

/-- ln of `m / 2^l`, a number from 1 to 2. -/
def lnFix (m l : Nat) : Nat :=
  let z := (m - 2 ^ l) * 2 ^ prec / (m + 2 ^ l)
  2 * atanhSeries (z * z / 2 ^ prec) 240 1 z 0

/-- Sum of the alternating series of sine or cosine from a term on. -/
def trigSeries (t2 : Nat) : (fuel : Nat) → (k : Nat) → (term acc : Int) → Int
  | 0, _, _, acc => acc
  | n + 1, k, term, acc =>
    let next := - (term * t2 / (2 ^ prec * ((k + 1) * (k + 2)) : Nat))
    trigSeries t2 n (k + 2) next (acc + next)

/-- Sine and cosine of a fixed-point number below 2. -/
def sinFix (t : Nat) : Nat := (trigSeries (t * t / 2 ^ prec) 80 1 t t).toNat
def cosFix (t : Nat) : Nat := (trigSeries (t * t / 2 ^ prec) 80 0 (2 ^ prec : Nat) (2 ^ prec : Nat)).toNat

/-! ## The functions -/

/-- 2 to a finite value. -/
def exp2Mag (neg : Bool) (m : Nat) (e : Int) : Mag :=
  if decide (12 < (Nat.log2 m : Int) + e) && m != 0 then ⟨1, if neg then -8192 else 8192, true⟩
  else
    let x : Int := if neg then - (toFix prec m e : Int) else toFix prec m e
    let n := x / (2 ^ prec : Nat)
    let f := (x % (2 ^ prec : Nat)).toNat
    if f = 0 then ⟨1, n, false⟩ else fixMag (expFix (f * ln2Fix / 2 ^ prec)) n

/-- The base-2 logarithm of a positive value, with its sign. -/
def log2Mag (m : Nat) (e : Int) : Bool × Mag :=
  let l := Nat.log2 m
  let n : Int := l + e
  if m = 2 ^ l then (n < 0, ⟨n.natAbs, 0, false⟩)
  else
    let f := lnFix m l * 2 ^ prec / ln2Fix
    if 0 ≤ n then (false, fixMag (n.natAbs * 2 ^ prec + f) 0)
    else (true, fixMag (n.natAbs * 2 ^ prec - f - 1) 0)

/-- The quadrant of a magnitude modulo a full turn, and the angle in it. -/
def quadrant (m : Nat) (e : Int) : Nat × Nat :=
  let half := piConst / 2
  let x := toFix 1024 m e
  (x / half % 4, x % half / 2 ^ (1024 - prec))

/-- Sine or cosine of a finite value that is not zero, with its sign. -/
def trigMag (cosine neg : Bool) (m : Nat) (e : Int) : Bool × Mag :=
  let (q, r) := quadrant m e
  let q := if cosine then q + 1 else q
  let v := if q % 2 = 0 then sinFix r else cosFix r
  ((q / 2 % 2 == 1) != (neg && !cosine), fixMag v 0)

/-- The hyperbolic tangent of a positive magnitude. -/
def tanhMag (m : Nat) (e : Int) : Mag :=
  if 8 < (Nat.log2 m : Int) + e then ⟨2 ^ prec - 1, -(prec : Int), true⟩
  else
    let x := 2 * toFix prec m e
    let n := x / ln2Fix
    let y := expFix (x % ln2Fix) * 2 ^ n
    fixMag ((y - 2 ^ prec) * 2 ^ prec / (y + 2 ^ prec)) 0

/-- The reciprocal square root of a positive value. -/
def rsqrtMag (bits m : Nat) (e : Int) : Mag :=
  -- 1 / sqrt(m * 2^e) = sqrt(2^t / m) / 2^((t + e) / 2) for t + e even
  let t := 2 * bits + Nat.log2 m + 2
  let t := if (t + e) % 2 = 0 then t else t + 1
  let q := isqrt (2 ^ t / m)
  ⟨q, - ((t + e) / 2), q * q * m != 2 ^ t⟩

/-! ## The band of R144 -/

/-- A result lies within 2^-21 ulp of a boundary of the mode, where the lane's approximation may find the band (log 14, DEDUCED). From
twice the greatest power of two of the format on, there is no boundary: such a result overflows in the lane (R142). -/
def inBand (f : FFmt) (mode : RMode) (x : Mag) : Bool :=
  let lead : Int := (Nat.log2 x.m : Int) + x.e
  if !x.sticky || decide ((f.bias : Int) < lead) then false
  else
    let q := max lead (1 - (f.bias : Int)) - f.fbits - 40
    let v := if q ≤ x.e then x.m * 2 ^ (x.e - q).toNat else x.m / 2 ^ (q - x.e).toNat
    let period := if mode = .sr then 2 ^ 24 else 2 ^ 40
    let p := (v + (if mode = .rne ∨ mode = .rmm ∨ mode = .dyn then 2 ^ 39 else 0)) % period
    decide (p < 2 ^ 19) || decide (period < p + 2 ^ 19)

end Sys2Proof.Machine
end

