-- ==== Sys2Proof/Machine/VectorInt.lean ====
section
/-! DEFINITION. Vector integer arithmetic, compares, merges and conversions (07 R136 to R140), and mask instructions (R148). -/

namespace Sys2Proof.Machine
open Sys2Proof

/-! ## Shapes -/

/-- The integer format of a code the checks have passed. -/
def intFmt (c : BitVec 6) : IFmt := (ifmtOf c).getD ⟨false, 64⟩

/-- A vector integer instruction on A and B at FA (R130, R136): `f` computes a code and flags from the format and both codes. -/
def vint2 (i : Instr) (o : Op) (x : Option Pfx) (d a b f : Reg) (sat : Bool) (op : IFmt → Bool → Nat → Nat → Nat × W64) (s : State) : Out :=
  vinstr i o .a true (fun start => do
    let w ← fmtWord f
    if !isI w.fa || w.fb != w.fa || w.fd != w.fa then badFormat w.w
    let vl ← vlen
    let n := codeWidth w.fa
    let ga : Grp := ⟨a, n, vl⟩
    let gb : Grp := ⟨b, n, vl⟩
    let gd : Grp := ⟨d, n, vl⟩
    checkGroups false gd [ga, gb]
    let ft := intFmt w.fa
    let st := sat && w.sati
    let e : ElOp := { op := o, p := pfx x, fa := w.fa, fb := w.fa, fd := w.fa, sat := st, d := gd, srcs := [ga, gb] }
    runElems e start (fun _ => [ga, gb]) noScale fun _ v _ =>
      let r := op ft st (v.getD 0 0) (v.getD 1 0)
      ⟨r.1, r.2, false⟩) s

/-! ## Lanes (R136, R137) -/

/-- An exact result of the two values, delivered under R86. -/
def iExact (f : Int → Int → Int) (ft : IFmt) (sat : Bool) (a b : Nat) : Nat × W64 := ft.deliver sat (f (ft.val a) (ft.val b))

/-- Bits [2w-1:w] of the exact product. -/
def iMulh (ft : IFmt) (_ : Bool) (a b : Nat) : Nat × W64 :=
  (ofSigned (2 * ft.width) (ft.val a * ft.val b) / 2 ^ ft.width, 0)

/-- `Divide` of R106 at width w (R137): quotient, remainder, flags. -/
def iDivide (ft : IFmt) (a b : Nat) : Nat × Nat × W64 :=
  let x := ft.val a
  let y := ft.val b
  if y = 0 then (2 ^ ft.width - 1, ft.wrap x, flagIDZ)
  else if ft.signed ∧ x = ft.lo ∧ y = -1 then (ft.wrap x, 0, flagIOV)
  else (ft.wrap (x.tdiv y), ft.wrap (x.tmod y), 0)

/-- Minimum or maximum by the signedness of FA. -/
def iMinMax (big : Bool) (ft : IFmt) (_ : Bool) (a b : Nat) : Nat × W64 :=
  (if decide (ft.val a < ft.val b) != big then a else b, 0)

/-- A shift by B mod w: `f` has the width, the operand and the amount. -/
def iShift (f : Nat → Nat → Nat → Nat) (ft : IFmt) (_ : Bool) (a b : Nat) : Nat × W64 :=
  (f ft.width a (b % ft.width) % 2 ^ ft.width, 0)

/-- A bitwise operation. -/
def iBits (f : Nat → Nat → Nat) (_ : IFmt) (_ : Bool) (a b : Nat) : Nat × W64 := (f a b, 0)

/-! ## The instructions -/

/-- `vadd` (R136). -/
def execVadd (c : Ctl) (x : Option Pfx) (d a b f : Reg) (s : State) : Out :=
  vint2 (.vadd c x d a b f) .vadd x d a b f true (iExact fun p q => p + q) s

/-- `vsub` (R136). -/
def execVsub (c : Ctl) (x : Option Pfx) (d a b f : Reg) (s : State) : Out :=
  vint2 (.vsub c x d a b f) .vsub x d a b f true (iExact fun p q => p - q) s

/-- `vmul` (R136). -/
def execVmul (c : Ctl) (x : Option Pfx) (d a b f : Reg) (s : State) : Out :=
  vint2 (.vmul c x d a b f) .vmul x d a b f true (iExact fun p q => p * q) s

/-- `vmulh` (R136). -/
def execVmulh (c : Ctl) (x : Option Pfx) (d a b f : Reg) (s : State) : Out :=
  vint2 (.vmulh c x d a b f) .vmulh x d a b f false iMulh s

/-- `vdiv` (R137). -/
def execVdiv (c : Ctl) (x : Option Pfx) (d a b f : Reg) (s : State) : Out :=
  vint2 (.vdiv c x d a b f) .vdiv x d a b f false (fun ft _ p q => ((iDivide ft p q).1, (iDivide ft p q).2.2)) s

/-- `vrem` (R137). -/
def execVrem (c : Ctl) (x : Option Pfx) (d a b f : Reg) (s : State) : Out :=
  vint2 (.vrem c x d a b f) .vrem x d a b f false (fun ft _ p q => (iDivide ft p q).2) s

/-- `vmin` (R136). -/
def execVmin (c : Ctl) (x : Option Pfx) (d a b f : Reg) (s : State) : Out :=
  vint2 (.vmin c x d a b f) .vmin x d a b f false (iMinMax false) s

/-- `vmax` (R136). -/
def execVmax (c : Ctl) (x : Option Pfx) (d a b f : Reg) (s : State) : Out :=
  vint2 (.vmax c x d a b f) .vmax x d a b f false (iMinMax true) s

/-- `vand` (R136). -/
def execVand (c : Ctl) (x : Option Pfx) (d a b f : Reg) (s : State) : Out :=
  vint2 (.vand c x d a b f) .vand x d a b f false (iBits Nat.land) s

/-- `vor` (R136). -/
def execVor (c : Ctl) (x : Option Pfx) (d a b f : Reg) (s : State) : Out :=
  vint2 (.vor c x d a b f) .vor x d a b f false (iBits Nat.lor) s

/-- `vxor` (R136). -/
def execVxor (c : Ctl) (x : Option Pfx) (d a b f : Reg) (s : State) : Out :=
  vint2 (.vxor c x d a b f) .vxor x d a b f false (iBits Nat.xor) s

/-- `vshl` (R136). -/
def execVshl (c : Ctl) (x : Option Pfx) (d a b f : Reg) (s : State) : Out :=
  vint2 (.vshl c x d a b f) .vshl x d a b f false (iShift fun _ p k => p * 2 ^ k) s

/-- `vshr` (R136). -/
def execVshr (c : Ctl) (x : Option Pfx) (d a b f : Reg) (s : State) : Out :=
  vint2 (.vshr c x d a b f) .vshr x d a b f false (iShift fun _ p k => p / 2 ^ k) s

/-- `vsra` (R136): it replicates bit w - 1 whatever the signedness of FA. -/
def execVsra (c : Ctl) (x : Option Pfx) (d a b f : Reg) (s : State) : Out :=
  vint2 (.vsra c x d a b f) .vsra x d a b f false (iShift fun w p k => ofSigned w (toSigned w p / (2 ^ k : Int))) s

/-- `vsadd` (R136): always saturated. -/
def execVsadd (c : Ctl) (x : Option Pfx) (d a b f : Reg) (s : State) : Out :=
  vint2 (.vsadd c x d a b f) .vsadd x d a b f false (fun ft _ p q => iExact (fun p q => p + q) ft true p q) s

/-- `vssub` (R136): always saturated. -/
def execVssub (c : Ctl) (x : Option Pfx) (d a b f : Reg) (s : State) : Out :=
  vint2 (.vssub c x d a b f) .vssub x d a b f false (fun ft _ p q => iExact (fun p q => p - q) ft true p q) s

/-! ## Widening (R140) -/

/-- The code of an integer format of width 2w, signed when FA or FB is. -/
def wideCode (fa fb : BitVec 6) : BitVec 6 :=
  let sg := (intFmt fa).signed || (intFmt fb).signed
  let n := 2 * codeWidth fa
  BitVec.ofNat 6 ((if n = 16 then 0x12 else if n = 32 then 0x14 else 0x16) + (if sg then 0 else 1))

/-- `vwmul` and `vwmacc`: A and B of one width, the product in 2w bits, for `acc` added to D and delivered under R86. -/
def vwiden (i : Instr) (o : Op) (x : Option Pfx) (d a b f : Reg) (acc : Bool) (s : State) : Out :=
  vinstr i o .a true (fun start => do
    let w ← fmtWord f
    if !isI32 w.fa || !isI32 w.fb || codeWidth w.fa != codeWidth w.fb || w.fd != wideCode w.fa w.fb || (acc && w.fc != w.fd) then
      badFormat w.w
    let vl ← vlen
    let n := codeWidth w.fa
    let ga : Grp := ⟨a, n, vl⟩
    let gb : Grp := ⟨b, n, vl⟩
    let gd : Grp := ⟨d, 2 * n, vl⟩
    checkGroups true gd [ga, gb]
    let st := acc && w.sati
    let e : ElOp := { op := o, p := pfx x, fa := w.fa, fb := w.fb, fd := w.fd, sat := st, d := gd, srcs := [ga, gb] }
    runElems e start (fun _ => if acc then [ga, gb, gd] else [ga, gb]) noScale fun _ v _ =>
      let p := (intFmt w.fa).val (v.getD 0 0) * (intFmt w.fb).val (v.getD 1 0)
      let r := (intFmt w.fd).deliver st (if acc then (intFmt w.fd).val (v.getD 2 0) + p else p)
      ⟨r.1, r.2, false⟩) s

/-- `vwmul` (R140). -/
def execVwmul (c : Ctl) (x : Option Pfx) (d a b f : Reg) (s : State) : Out := vwiden (.vwmul c x d a b f) .vwmul x d a b f false s

/-- `vwmacc` (R140). -/
def execVwmacc (c : Ctl) (x : Option Pfx) (d a b f : Reg) (s : State) : Out := vwiden (.vwmacc c x d a b f) .vwmacc x d a b f true s

/-! ## Compare, merge, convert (R138, R139) -/

/-- The conditions of `vcmp`. -/
def vcmpHolds (k : VCmp) (a b : Int) : Bool :=
  match k with
  | .eq => a == b
  | .ne => a != b
  | .lt => decide (a < b)
  | .ge => decide (b ≤ a)

/-- `vcmp` (R138). -/
def execVcmp (c : Ctl) (x : Option Pfx) (d : PReg) (a b f : Reg) (k : VCmp) (s : State) : Out :=
  vinstr (.vcmp c x d a b f k) .vcmp .a true (fun start => do
    let w ← fmtWord f
    if !isI w.fa || w.fb != w.fa then badFormat w.w
    let vl ← vlen
    let ga : Grp := ⟨a, codeWidth w.fa, vl⟩
    let gb : Grp := ⟨b, codeWidth w.fa, vl⟩
    alignGroups [ga, gb]
    let ft := intFmt w.fa
    runMask (pfx x) d [ga, gb] start fun v => (vcmpHolds k (ft.val (v.getD 0 0)) (ft.val (v.getD 1 0)), 0)) s

/-- `vmerge` (R139): only the chosen element is read; it moves with its presence (R131). -/
def execVmerge (c : Ctl) (x : Option Pfx) (d a b : Reg) (rc : PReg) (f : Reg) (s : State) : Out :=
  vinstr (.vmerge c x d a b rc f) .vmerge .a true (fun start => do
    let w ← fmtWord f
    if !isX w.fa || w.fb != w.fa || w.fd != w.fa then badFormat w.w
    let t ← thr
    let n := codeWidth w.fa
    let ga : Grp := ⟨a, n, t.vl.toNat⟩
    let gb : Grp := ⟨b, n, t.vl.toNat⟩
    let gd : Grp := ⟨d, n, t.vl.toNat⟩
    checkGroups false gd [ga, gb]
    let sel := t.m.getD rc.toNat (Vector.replicate 32 0)
    let e : ElOp := { op := .vmerge, p := pfx x, fa := w.fa, fb := w.fa, fd := w.fa, d := gd, srcs := [ga, gb], move := true }
    runElems e start (fun i => if maskBit sel i then [ga] else [gb]) noScale fun _ v _ => ⟨moved w.fd (v.getD 0 0), 0, false⟩) s

/-- `vcvt` (R139). -/
def execVcvt (c : Ctl) (x : Option Pfx) (d a f : Reg) (s : State) : Out :=
  vinstr (.vcvt c x d a f) .vcvt .a true (fun start => do
    let w ← fmtWord f
    if !isI4 w.fa || !isI4 w.fd then badFormat w.w
    let vl ← vlen
    let ga : Grp := ⟨a, codeWidth w.fa, vl⟩
    let gd : Grp := ⟨d, codeWidth w.fd, vl⟩
    checkGroups (decide (ga.w < gd.w)) gd [ga]
    let e : ElOp := { op := .vcvt, p := pfx x, fa := w.fa, fb := 0, fd := w.fd, sat := w.sati, d := gd, srcs := [ga] }
    runElems e start (fun _ => [ga]) noScale fun _ v _ =>
      let r := (intFmt w.fd).deliver w.sati ((intFmt w.fa).val (v.getD 0 0))
      ⟨r.1, r.2, false⟩) s

/-! ## Masks (R148) -/

/-- A mask register. -/
def maskReg (t : Thread) (k : PReg) : Mask := t.m.getD k.toNat (Vector.replicate 32 0)

/-- A mask instruction that writes all 2,048 bits of mD. -/
def maskOp (i : Instr) (o : Op) (d : PReg) (f : Thread → Mask) (s : State) : Out :=
  vinstr i o .a true (fun _ => do
    vstartZero o
    modify fun s => s.modThread s.at'.core s.at'.ctx fun t => { t with m := t.m.setIfInBounds d.toNat (f t) }
    chargeGroups .a 1) s

/-- A mask instruction that writes sD. -/
def maskScalar (i : Instr) (o : Op) (d : Reg) (f : Thread → Nat) (s : State) : Out :=
  vinstr i o .a true (fun _ => do
    vstartZero o
    wrS d (BitVec.ofNat 64 (f (← thr)))
    chargeGroups .a 1) s

/-- `mand` (R148). -/
def execMand (c : Ctl) (d a b : PReg) (s : State) : Out :=
  maskOp (.mand c d a b) .mand d (fun t => Vector.ofFn fun k => (maskReg t a)[k] &&& (maskReg t b)[k]) s

/-- `mor` (R148). -/
def execMor (c : Ctl) (d a b : PReg) (s : State) : Out :=
  maskOp (.mor c d a b) .mor d (fun t => Vector.ofFn fun k => (maskReg t a)[k] ||| (maskReg t b)[k]) s

/-- `mxor` (R148). -/
def execMxor (c : Ctl) (d a b : PReg) (s : State) : Out :=
  maskOp (.mxor c d a b) .mxor d (fun t => Vector.ofFn fun k => (maskReg t a)[k] ^^^ (maskReg t b)[k]) s

/-- `mnot` (R148). -/
def execMnot (c : Ctl) (d a : PReg) (s : State) : Out :=
  maskOp (.mnot c d a) .mnot d (fun t => (maskReg t a).map fun w => ~~~w) s

/-- `mpop` (R148). -/
def execMpop (c : Ctl) (d : Reg) (a : PReg) (s : State) : Out :=
  maskScalar (.mpop c d a) .mpop d (fun t => ((List.range t.vl.toNat).filter (maskBit (maskReg t a))).length) s

/-- `mffs` (R148). -/
def execMffs (c : Ctl) (d : Reg) (a : PReg) (s : State) : Out :=
  maskScalar (.mffs c d a) .mffs d (fun t => ((List.range t.vl.toNat).find? (maskBit (maskReg t a))).getD (2 ^ 64 - 1)) s

/-- Word `k` of the mask whose bits below `n` are set. -/
def lowMask (n k : Nat) : W64 := BitVec.ofNat 64 (2 ^ min 64 (n - 64 * k) - 1)

/-- `mset` (R148). -/
def execMset (c : Ctl) (d : PReg) (a : Reg) (s : State) : Out :=
  vinstr (.mset c d a) .mset .a true (fun _ => do
    vstartZero .mset
    let n := min (← dispS a).toNat 2048
    modify fun s => s.modThread s.at'.core s.at'.ctx fun t => { t with m := t.m.setIfInBounds d.toNat (Vector.ofFn fun k => lowMask n k.val) }
    chargeGroups .a 1) s

end Sys2Proof.Machine
end

