-- ==== Sys2Proof/Machine/VectorFp.lean ====
section
/-! DEFINITION. Vector floating point: results, the easy range of the lanes, conversions with block scales, and the widening
multiply-add (07 R141 to R147; 05 R94, R95). -/

namespace Sys2Proof.Machine
open Sys2Proof

/-! ## Results (R141) -/

/-- 1. -/
def oneVal : FVal := .fin false 1 0

/-- Round(1/sqrt A). -/
def FFmt.rsqrt (f : FFmt) (r : Rnd) (a : FVal) : FRes :=
  match a with
  | .nan _ => f.nanRes [a] false
  | .inf n => if n then f.nanRes [] true else ⟨f.signed false 0, 0⟩
  | .fin n m e =>
    if m = 0 then { f.deliver false r (.inf n) with flags := flagDZ }
    else if n then f.nanRes [] true
    else f.round false r false (rsqrtMag (f.fbits + 24) m e)

/-- Round(2^A). -/
def FFmt.exp2 (f : FFmt) (r : Rnd) (a : FVal) : FRes :=
  match a with
  | .nan _ => f.nanRes [a] false
  | .inf n => if n then ⟨f.signed false 0, 0⟩ else f.deliver false r a
  | .fin n m e => f.round false r false (exp2Mag n m e)

/-- Round(log2 A). -/
def FFmt.log2 (f : FFmt) (r : Rnd) (a : FVal) : FRes :=
  match a with
  | .nan _ => f.nanRes [a] false
  | .inf n => if n then f.nanRes [] true else f.deliver false r a
  | .fin n m e =>
    if m = 0 then { f.deliver false r (.inf true) with flags := flagDZ }
    else if n then f.nanRes [] true
    else let p := log2Mag m e; f.round false r p.1 p.2

/-- Round(sin A) and Round(cos A). -/
def FFmt.trig (f : FFmt) (cosine : Bool) (r : Rnd) (a : FVal) : FRes :=
  match a with
  | .nan _ => f.nanRes [a] false
  | .inf _ => f.nanRes [] true
  | .fin n m e =>
    if m = 0 then (if cosine then f.round false r false ⟨1, 0, false⟩ else ⟨f.signed n 0, 0⟩)
    else let p := trigMag cosine n m e; f.round false r p.1 p.2

/-- Round(tanh A). -/
def FFmt.tanh (f : FFmt) (r : Rnd) (a : FVal) : FRes :=
  match a with
  | .nan _ => f.nanRes [a] false
  | .inf n => f.round false r n ⟨1, 0, false⟩
  | .fin n m e => if m = 0 then ⟨f.signed n 0, 0⟩ else f.round false r n (tanhMag m e)

/-- A value times the block scale of a code; code 0xFF makes it a NaN (R94). -/
def scaled (v : FVal) (c : Nat) : FVal :=
  if c = 255 then .nan v.isSig
  else match v with
    | .fin n m e => .fin n m (e + (c : Int) - 127)
    | w => w

/-- The exact product of `vfwma` and `mmul` with its scales (R147, R89): `none` is invalid. -/
def scaledProduct (fa fb : BitVec 6) (a b ca cb : Nat) : Option FVal :=
  if fa = 0x06 ∧ fb = 0x06 then some (scaled (scaled (lnsProduct a b) ca) cb)
  else
    let x := scaled (valueOf fa a) ca
    let y := scaled (valueOf fb b) cb
    if x.isNan || y.isNan then some (.nan (x.isSig || y.isSig)) else exactMul x y

/-- Round(D + p) of `vfwma` (R147). -/
def wmaResult (r : Rnd) (p : Option FVal) (d : FVal) : FRes :=
  match p with
  | none => fp32.nanRes [d] true
  | some v => if v.isNan || d.isNan then fp32.nanRes [v, d] false else fp32.add r d v

/-- `vfcvt` of a value (R146): the block scale of the source has been applied, that of the result is divided out. -/
def cvtValue (fd : BitVec 6) (r : Rnd) (v : FVal) : FRes := convertTo fd r v

/-- The result of a vector floating-point instruction on operand codes, with the block scales of A and B (127 is 1). -/
def fpResult (o : Op) (sop : BitVec 2) (fa fb fd : BitVec 6) (v : List Nat) (sa sb : Nat) (r : Rnd) : FRes :=
  let f := (ffmtOf fa).getD fp32
  let a := v.getD 0 0
  let b := v.getD 1 0
  let c := v.getD 2 0
  let A := f.decode a
  let B := f.decode b
  let C := f.decode c
  match o with
  | .vfadd => f.add r A B
  | .vfsub => f.add r A B.negate
  | .vfmul => f.mul r A B
  | .vfdiv => f.div r A B
  | .vfma => f.fma r A B C
  | .vfnma => f.fma r A.negate B C
  | .vfrcp => f.div r oneVal A
  | .vfsqrt => f.sqrt r A
  | .vfrsqrt => f.rsqrt r A
  | .vfexp2 => f.exp2 r A
  | .vflog2 => f.log2 r A
  | .vfsin => f.trig false r A
  | .vfcos => f.trig true r A
  | .vftanh => f.tanh r A
  | .vfmin => f.minMax false a b
  | .vfmax => f.minMax true a b
  | .vfsgn => ⟨f.signOp ((Sgn.ofCode ((sop.setWidth 8) <<< 3)).getD .cp) a b, 0⟩
  | .vfclass => ⟨f.classify a, 0⟩
  | .vfcvt => cvtValue fd r (if sa = 127 then valueOf fa a else scaled (valueOf fa a) sa)
  | .vfwma => wmaResult r (scaledProduct fa fb a b sa sb) (fp32.decode c)
  | _ => ⟨0, 0⟩

/-! ## The easy range (R142 to R144) -/

/-- A code of a format is subnormal. -/
def FFmt.subnormal (f : FFmt) (v : Nat) : Bool :=
  let mag := v % 2 ^ (f.ebits + f.fbits)
  mag != 0 && decide (mag < 2 ^ f.fbits)

/-- A finite magnitude that is not zero lies below the smallest normal of a format (R142 b). -/
def FFmt.below (f : FFmt) (m : Nat) (e : Int) : Bool := m != 0 && decide ((Nat.log2 m : Int) + e < 1 - (f.bias : Int))

/-- Expo of R143. -/
def expo (m : Nat) (e : Int) : Int := (Nat.log2 m : Int) + e

/-- A sum of two finite terms is hard: cancellation by more than 8 (R143), or a result below the normals. -/
def sumHard (f : FFmt) (a b : FVal) : Bool :=
  match a, b with
  | .fin n m e, .fin k p g =>
    let s := exactSum n m e k p g
    if s.1 = 0 then false
    else (m != 0 && p != 0 && n != k && decide (8 < max (expo m e) (expo p g) - expo s.1.natAbs s.2)) || f.below s.1.natAbs s.2
  | _, _ => false

/-- Zero or negative, minus infinity included. -/
def zeroOrNeg : FVal → Bool
  | .nan _ => false
  | .inf n => n
  | .fin n m _ => n || m == 0

/-- The band of R144 for a result that is no exact case. -/
def bandHard (o : Op) (fc : BitVec 6) (f : FFmt) (mode : RMode) (code : Nat) (x : Mag) : Bool :=
  f.below x.m x.e || (inBand f mode x && Config.laneHard o.code fc.toNat (BitVec.ofNat 64 code))

/-- Conditions (b) and (d) of R142 for an instruction on formats that are all FA. -/
def opHard (o : Op) (fc : BitVec 6) (f : FFmt) (mode : RMode) (v : List Nat) : Bool :=
  let a := v.getD 0 0
  let A := f.decode a
  let B := f.decode (v.getD 1 0)
  let C := f.decode (v.getD 2 0)
  match o, A with
  | .vfadd, _ => sumHard f A B
  | .vfsub, _ => sumHard f A B.negate
  | .vfmul, .fin _ m e => (match B with | .fin _ p g => f.below (m * p) (e + g) | _ => false)
  | .vfma, _ => (match exactMul A B with | some p => !A.isNan && !B.isNan && sumHard f p C | none => false)
  | .vfnma, _ => (match exactMul A B with | some p => !A.isNan && !B.isNan && sumHard f p.negate C | none => false)
  | .vfdiv, _ =>
    B.isZero || (match A, B with
      -- |A / B| < 2^emin
      | .fin _ m e, .fin _ p g => m != 0 && decide (FVal.cmp (.fin false m e) (.fin false p (g + 1 - (f.bias : Int))) < 0)
      | _, _ => false)
  | .vfrcp, .fin _ m e => m == 0 || decide (FVal.cmp oneVal (.fin false m (e + 1 - (f.bias : Int))) < 0)
  | .vfsqrt, _ => zeroOrNeg A
  | .vfrsqrt, _ => zeroOrNeg A
  | .vfexp2, .fin n m e => bandHard o fc f mode a (exp2Mag n m e)
  | .vflog2, .fin _ m e => zeroOrNeg A || bandHard o fc f mode a (log2Mag m e).2
  | .vflog2, _ => zeroOrNeg A
  | .vfsin, .inf _ => true
  | .vfcos, .inf _ => true
  | .vfsin, .fin n m e =>
    m != 0 && (decide (piConst * 2 ^ 14 < toFix 1024 m e) || bandHard o fc f mode a (trigMag false n m e).2)
  | .vfcos, .fin n m e =>
    m != 0 && (decide (piConst * 2 ^ 14 < toFix 1024 m e) || bandHard o fc f mode a (trigMag true n m e).2)
  | .vftanh, .fin _ m e => m != 0 && bandHard o fc f mode a (tanhMag m e)
  | _, _ => false

/-- Condition (a) of R142: a source in FP32, BF16 or FP16 is subnormal. -/
def srcSubnormal (fc : BitVec 6) (v : Nat) : Bool :=
  isF fc && (match ffmtOf fc with | some f => f.subnormal v | none => false)

/-! ## Shapes -/

/-- A vector FP instruction whose operands and result have one format of F (R130, R141). -/
def vfp (i : Instr) (o : Op) (x : Option Pfx) (d : Reg) (srcs : List Reg) (f : Reg) (sop : BitVec 2) (rounds : Bool) (s : State) : Out :=
  vinstr i o .a true (fun start => do
    let w ← fmtWord f
    if !isF w.fa || w.fd != w.fa || (2 ≤ srcs.length && w.fb != w.fa) || (3 ≤ srcs.length && w.fc != w.fa) then badFormat w.w
    let vl ← vlen
    let n := codeWidth w.fa
    let gs := srcs.map fun r => (⟨r, n, vl⟩ : Grp)
    let gd : Grp := ⟨d, n, vl⟩
    checkGroups false gd gs
    let ft := (ffmtOf w.fa).getD fp32
    let plain := o == .vfmin || o == .vfmax || o == .vfsgn
    let e : ElOp := { op := o, sop := sop, p := pfx x, fa := w.fa, fb := if 2 ≤ srcs.length then w.fb else 0, fd := w.fa, d := gd,
                      srcs := gs, rounds := rounds, traps := true, holes := true }
    runElems e start (fun _ => gs) noScale fun _ v r =>
      let q := fpResult o sop w.fa w.fa w.fa v 127 127 r
      ⟨q.code, q.flags, !plain && (v.any ft.subnormal || opHard o w.fa ft r.mode v)⟩) s

/-! ## The instructions (R141) -/

/-- `vfadd` (R141). -/
def execVfadd (c : Ctl) (x : Option Pfx) (d a b f : Reg) (s : State) : Out := vfp (.vfadd c x d a b f) .vfadd x d [a, b] f 0 true s

/-- `vfsub` (R141). -/
def execVfsub (c : Ctl) (x : Option Pfx) (d a b f : Reg) (s : State) : Out := vfp (.vfsub c x d a b f) .vfsub x d [a, b] f 0 true s

/-- `vfmul` (R141). -/
def execVfmul (c : Ctl) (x : Option Pfx) (d a b f : Reg) (s : State) : Out := vfp (.vfmul c x d a b f) .vfmul x d [a, b] f 0 true s

/-- `vfma` (R141). -/
def execVfma (c : Ctl) (x : Option Pfx) (d a b rc f : Reg) (s : State) : Out := vfp (.vfma c x d a b rc f) .vfma x d [a, b, rc] f 0 true s

/-- `vfnma` (R141). -/
def execVfnma (c : Ctl) (x : Option Pfx) (d a b rc f : Reg) (s : State) : Out := vfp (.vfnma c x d a b rc f) .vfnma x d [a, b, rc] f 0 true s

/-- `vfdiv` (R141). -/
def execVfdiv (c : Ctl) (x : Option Pfx) (d a b f : Reg) (s : State) : Out := vfp (.vfdiv c x d a b f) .vfdiv x d [a, b] f 0 true s

/-- `vfrcp` (R141). -/
def execVfrcp (c : Ctl) (x : Option Pfx) (d a f : Reg) (s : State) : Out := vfp (.vfrcp c x d a f) .vfrcp x d [a] f 0 true s

/-- `vfsqrt` (R141). -/
def execVfsqrt (c : Ctl) (x : Option Pfx) (d a f : Reg) (s : State) : Out := vfp (.vfsqrt c x d a f) .vfsqrt x d [a] f 0 true s

/-- `vfrsqrt` (R141). -/
def execVfrsqrt (c : Ctl) (x : Option Pfx) (d a f : Reg) (s : State) : Out := vfp (.vfrsqrt c x d a f) .vfrsqrt x d [a] f 0 true s

/-- `vfexp2` (R141). -/
def execVfexp2 (c : Ctl) (x : Option Pfx) (d a f : Reg) (s : State) : Out := vfp (.vfexp2 c x d a f) .vfexp2 x d [a] f 0 true s

/-- `vflog2` (R141). -/
def execVflog2 (c : Ctl) (x : Option Pfx) (d a f : Reg) (s : State) : Out := vfp (.vflog2 c x d a f) .vflog2 x d [a] f 0 true s

/-- `vfsin` (R141). -/
def execVfsin (c : Ctl) (x : Option Pfx) (d a f : Reg) (s : State) : Out := vfp (.vfsin c x d a f) .vfsin x d [a] f 0 true s

/-- `vfcos` (R141). -/
def execVfcos (c : Ctl) (x : Option Pfx) (d a f : Reg) (s : State) : Out := vfp (.vfcos c x d a f) .vfcos x d [a] f 0 true s

/-- `vftanh` (R141). -/
def execVftanh (c : Ctl) (x : Option Pfx) (d a f : Reg) (s : State) : Out := vfp (.vftanh c x d a f) .vftanh x d [a] f 0 true s

/-- `vfmin` (R141). -/
def execVfmin (c : Ctl) (x : Option Pfx) (d a b f : Reg) (s : State) : Out := vfp (.vfmin c x d a b f) .vfmin x d [a, b] f 0 false s

/-- `vfmax` (R141). -/
def execVfmax (c : Ctl) (x : Option Pfx) (d a b f : Reg) (s : State) : Out := vfp (.vfmax c x d a b f) .vfmax x d [a, b] f 0 false s

/-- `vfsgn` (R141, R145). -/
def execVfsgn (c : Ctl) (x : Option Pfx) (d a b f : Reg) (k : Sgn) (s : State) : Out :=
  vfp (.vfsgn c x d a b f k) .vfsgn x d [a, b] f (k.code.extractLsb' 3 2) false s

/-- `vfcmp` (R145). -/
def execVfcmp (c : Ctl) (x : Option Pfx) (d : PReg) (a b f : Reg) (k : FCmp) (s : State) : Out :=
  vinstr (.vfcmp c x d a b f k) .vfcmp .a true (fun start => do
    let w ← fmtWord f
    if !isF w.fa || w.fb != w.fa then badFormat w.w
    let vl ← vlen
    let ga : Grp := ⟨a, codeWidth w.fa, vl⟩
    let gb : Grp := ⟨b, codeWidth w.fa, vl⟩
    alignGroups [ga, gb]
    let ft := (ffmtOf w.fa).getD fp32
    runMask (pfx x) d [ga, gb] start fun v => fcmpHolds k (ft.decode (v.getD 0 0)) (ft.decode (v.getD 1 0))) s

/-- `vfclass` (R145). -/
def execVfclass (c : Ctl) (x : Option Pfx) (d a f : Reg) (s : State) : Out :=
  vinstr (.vfclass c x d a f) .vfclass .a true (fun start => do
    let w ← fmtWord f
    if !isF w.fa || (w.fd != 0x13 && w.fd != 0x15) then badFormat w.w
    let vl ← vlen
    let ga : Grp := ⟨a, codeWidth w.fa, vl⟩
    let gd : Grp := ⟨d, codeWidth w.fd, vl⟩
    checkGroups (decide (ga.w < gd.w)) gd [ga]
    let e : ElOp := { op := .vfclass, p := pfx x, fa := w.fa, fb := 0, fd := w.fd, d := gd, srcs := [ga] }
    runElems e start (fun _ => [ga]) noScale fun _ v _ => ⟨(fpResult .vfclass 0 w.fa 0 w.fd v 127 127 ⟨.rne, 0⟩).code, 0, false⟩) s

/-! ## Block scales (R94, R95, R66) -/

/-- Elements per scale. -/
def blockLen (t : Thread) : Nat := if t.vtype.toNat % 4 = 2 then 1024 else 32

/-- VTYPE.BLK. -/
def blk (t : Thread) : Nat := t.vtype.toNat % 4

/-- A scale operand (R66). -/
def scaleGrp (t : Thread) (r : Reg) : Grp := ⟨r, 8, ceilDiv t.vl.toNat (blockLen t)⟩

/-- The scale of element `i` in a scale operand, or 1. -/
def scaleOf (t : Thread) (g : Option Grp) (i : Nat) : Scale :=
  match g with
  | none => (127, false)
  | some g => let j := i / blockLen t; (elBits t g j, elPres t g j == .pois)

/-- Wait for the scales of the active elements; a scale is an element of 8 bits, so that no record can link to it (R156, log 24, DESIGN CHOICE). -/
def waitScales (start : Nat) (t : Thread) (p : Pfx) (g : Option Grp) : M Unit := do
  match g with
  | none => pure ()
  | some g =>
    for j in ((indices start t.vl.toNat).filter (active t p)).map (· / blockLen t) |>.eraseDups do
      waitEl start g j

/-- The words in error of scales that only inactive elements would use (R63). -/
def noteScales (start : Nat) (t : Thread) (p : Pfx) (g : Option Grp) : M Unit := do
  match g with
  | none => pure ()
  | some g =>
    let of (l : List Nat) : List (Grp × Nat) := (l.map (· / blockLen t)).eraseDups.map fun j => (g, j)
    noteWords (of (indices start t.vl.toNat)) (of ((indices start t.vl.toNat).filter (active t p)))

/-- Emax of R95. -/
def emax (c : BitVec 6) : Int := if c = 3 then 8 else if c = 4 then 15 else if c = 5 then 2 else 3

/-- The scale code of a block (R95) from the values of its active elements. -/
def chooseScale (fd : BitVec 6) (vs : List FVal) : Nat :=
  let tops := vs.filterMap fun v => match v with
    | .fin _ m e => if m = 0 then none else some (expo m e)
    | _ => none
  match tops with
  | [] => 127
  | e :: r => (max (-127) (min 127 (r.foldl max e - emax fd)) + 127).toNat

/-- A value with a block scale divided out. -/
def unscaled (v : FVal) (c : Nat) : FVal :=
  match v with
  | .fin n m e => .fin n m (e - (c : Int) + 127)
  | w => w

/-! ## Conversions (R146) -/

/-- The pairs of formats that `vfcvt` converts. -/
def cvtPair (fa fd : BitVec 6) : Bool :=
  (decide (fa.toNat ≤ 6) && decide (fd.toNat ≤ 6)) || (isI fa && isF fd) || (isF fa && isI fd)

/-- Scales that result scaling gives the blocks with an active element (R95): block number and code. POISONED elements take no
part (log 24, DESIGN CHOICE). -/
def resultScales (t : Thread) (p : Pfx) (start : Nat) (ga : Grp) (ge : Option Grp) (fa fd : BitVec 6) : List (Nat × Nat) :=
  let act := (indices start t.vl.toNat).filter (active t p)
  (act.map (· / blockLen t)).eraseDups.map fun j =>
    let vs := (act.filter fun i => i / blockLen t == j && elPres t ga i != .pois && !(scaleOf t ge i).2).map fun i =>
      let c := (scaleOf t ge i).1
      if ge.isSome then scaled (valueOf fa (elBits t ga i)) c else valueOf fa (elBits t ga i)
    (j, chooseScale fd vs)

/-- `vfcvt` (R146). Whether its two destinations, the data in vD and the result scales in vB, may share a register, the spec does not
say: the model raises no fault, and writes the scales after the data (log 24, DESIGN CHOICE). -/
def execVfcvt (c : Ctl) (x : Option Pfx) (d a b f : Reg) (s : State) : Out :=
  vinstr (.vfcvt c x d a b f) .vfcvt .a true (fun start => do
    let w ← fmtWord f
    let p := pfx x
    let t ← thr
    if !cvtPair w.fa w.fd || (w.sca && !blockScalable w.fa) || (w.scb && !blockScalable w.fd) || w.sca != p.ev
        || ((w.sca || w.scb) && blk t == 0) || w.scb != (b != 0) then badFormat w.w
    let vl := t.vl.toNat
    let ga : Grp := ⟨a, codeWidth w.fa, vl⟩
    let gd : Grp := ⟨d, codeWidth w.fd, vl⟩
    let ge := if w.sca then some (scaleGrp t p.e) else none
    let gb := if w.scb then some (scaleGrp t b) else none
    let wide := decide (ga.w < gd.w)
    alignGroups (gd :: ga :: ge.toList ++ gb.toList)
    disjoint wide gd (ga :: ge.toList)
    for g in gb.toList do disjoint wide g (ga :: ge.toList)
    -- the scale and then the data of each element, where the instruction waits for it; the lowest element decides (R345)
    for i in (indices start vl).filter (active t p) do
      for g in ge.toList do waitEl start g (i / blockLen t)
      if w.scb || decide (gd.w < 16) then waitEl start ga i
    noteScales start t p ge
    let sc := if w.scb then resultScales t p start ga ge w.fa w.fd else []
    let toF := isF w.fd
    let ft := (ffmtOf w.fd).getD fp32
    let e : ElOp := { op := .vfcvt, p := p, fa := w.fa, fb := 0, fd := w.fd, sat := w.sati, d := gd, srcs := [ga], rounds := true,
                      traps := true, holes := toF, sca := w.sca }
    runElems e start (fun _ => [ga]) (fun i => (scaleOf t ge i, (127, false))) fun i v r =>
      let v0 := v.getD 0 0
      let src := if w.sca then scaled (valueOf w.fa v0) (scaleOf t ge i).1 else valueOf w.fa v0
      let y := match mapGet sc (i / blockLen t) with
        | some k => unscaled src k
        | none => src
      let q := cvtValue w.fd r y
      let hard := toF && (srcSubnormal w.fa v0 || (match src with | .fin _ m g => ft.below m g | _ => false))
      ⟨q.code, q.flags, hard⟩
    for g in gb.toList do
      modify fun s => putNarrow s s.at' g (sc.map fun q => ⟨q.1, .val q.2, 0, 0⟩)
      clearWords g (sc.map (·.1))) s

/-! ## Widening multiply-add (R147) -/

/-- `vfwma` (R147). -/
def execVfwma (c : Ctl) (x : Option Pfx) (d a b rc f : Reg) (s : State) : Out :=
  vinstr (.vfwma c x d a b rc f) .vfwma .a true (fun start => do
    let w ← fmtWord f
    let p := pfx x
    let t ← thr
    if !isN w.fa || !isN w.fb || w.fc != 0 || w.fd != 0 || (w.sca && !blockScalable w.fa) || (w.scb && !blockScalable w.fb)
        || w.sca != p.ev || ((w.sca || w.scb) && blk t == 0) || (!w.scb && rc != 0) then badFormat w.w
    let vl := t.vl.toNat
    let ga : Grp := ⟨a, codeWidth w.fa, vl⟩
    let gb : Grp := ⟨b, codeWidth w.fb, vl⟩
    let gd : Grp := ⟨d, 32, vl⟩
    let ge := if w.sca then some (scaleGrp t p.e) else none
    let gc := if w.scb then some (scaleGrp t rc) else none
    checkGroups true gd (ga :: gb :: ge.toList ++ gc.toList)
    waitScales start t p ge
    waitScales start t p gc
    noteScales start t p ge
    noteScales start t p gc
    let e : ElOp := { op := .vfwma, p := p, fa := w.fa, fb := w.fb, fd := 0, d := gd, srcs := [ga, gb], rounds := true,
                      traps := true, holes := true, sca := w.sca, scb := w.scb }
    runElems e start (fun _ => [ga, gb, gd]) (fun i => (scaleOf t ge i, scaleOf t gc i)) fun i v r =>
      let q := fpResult .vfwma 0 w.fa w.fb 0 v (scaleOf t ge i).1 (scaleOf t gc i).1 r
      let acc := v.getD 2 0
      let hard := fp32.subnormal acc || (match scaledProduct w.fa w.fb (v.getD 0 0) (v.getD 1 0) (scaleOf t ge i).1 (scaleOf t gc i).1 with
        | some k => sumHard fp32 k (fp32.decode acc)
        | none => false)
      ⟨q.code, q.flags, hard⟩) s

end Sys2Proof.Machine
end

