-- ==== Sys2Proof/Machine/Holes.lean ====
section
/-! DEFINITION. Helpers taking and ending hole records, settling, and the inspection of presence (08 R157 to R172, R386,
R387). -/

namespace Sys2Proof.Machine
open Sys2Proof

/-! ## The end of a record by a fill (R166, R168, R386) -/

/-- An operand after record `id` was filled with `v`. -/
def MOpnd.filled (o : MOpnd) (id v : Nat) : MOpnd :=
  match o with
  | .link j sh pos w rest =>
    if j = id then .val (BitVec.ofNat 64 (rest.toNat - bits rest.toNat pos w * 2 ^ pos + bits v sh w * 2 ^ pos)) else o
  | o => o

/-- Give record `e` its fill: its element, and the operands linked to it. -/
def fillOne (s : State) (k : Nat) (e : MireRec) (v : Nat) : State :=
  (putRaw s k e v .pres).modCore k fun c => { c with
    mire := (c.mire.filter fun r => r.id != e.id).map fun r =>
      { r with a := r.a.filled e.id v, b := r.b.filled e.id v, c := r.c.filled e.id v } }

/-- Move records whose parent has ended end with it (R386). -/
def endMoves : (fuel : Nat) → (s : State) → (k : Nat) → State
  | 0, s, _ => s
  | n + 1, s, k =>
    match (s.core k).mire.find? fun r => r.move && (match r.a with | .val _ => true | _ => false) with
    | none => s
    | some r => match r.a with
      | .val v => endMoves n (fillOne s k r v.toNat) k
      | _ => s

/-- `Hfill` of R166 with A cut to the element: a flag whose trap the record enables turns it into a fault (R168). -/
def fillRecord (s : State) (k : Nat) (e : MireRec) (v : W64) (fl : W64) : State :=
  let v := v.toNat % 2 ^ (16 * e.width)
  if fl &&& e.ten.setWidth 64 != 0 then hfltRecord s k e (BitVec.ofNat 64 v) ((fl &&& 31).setWidth 16)
  else endMoves (s.core k).mire.length (fillOne (s.modThread k e.thr fun t => t.mergeFlags fl) k e v) k

/-! ## Operands (R165) -/

/-- A floating-point code widened to binary32, a NaN with its payload; an integer extended by its format. -/
def widened (c : BitVec 6) (v : Nat) : W64 :=
  match fmtOf c with
  | some (.int f) => BitVec.ofInt 64 (f.val v)
  | some (.fp f) =>
    match f.decode v with
    | .nan _ =>
      let sign := v / 2 ^ (f.width - 1) % 2
      BitVec.ofNat 64 (sign * 2 ^ 31 + 0x7F800000 + v % 2 ^ f.fbits * 2 ^ (23 - f.fbits))
    | x => BitVec.ofNat 64 (convertTo 0x00 ⟨.rne, 0⟩ x).code
  | _ => BitVec.ofNat 64 (convertTo 0x00 ⟨.rne, 0⟩ (valueOf c v)).code

/-- The bits of an operand that has no link. -/
def MOpnd.value : MOpnd → Option W64
  | .val v => Option.some v
  | _ => Option.none

/-- What `hopnd` delivers of a record. -/
def recOperand (e : MireRec) (k : Opnd) : W64 :=
  let of (o : MOpnd) (c : BitVec 6) : W64 := match o.value with | none => 0 | some v => widened c v.toNat
  match k with
  | .a => of e.a e.fa
  | .b => of e.b e.fb
  | .c => of e.c e.fd
  | .sa => if e.sca then e.sa.setWidth 64 else 0
  | .sb => if e.scb then e.sb.setWidth 64 else 0
  | .pc => e.pc.setWidth 64
  | .p =>
    if e.op.toNat = Op.vfwma.code then
      let v (o : MOpnd) : Nat := (o.value.getD 0).toNat
      match scaledProduct e.fa e.fb (v e.a) (v e.b) e.sa.toNat e.sb.toNat with
      | some p => BitVec.ofNat 64 (fp64.deliver false ⟨.rne, 0⟩ p).code
      | none => 0x7FF8000000000000
    else 0

/-! ## The default helper library (R387) -/

/-- The result of an integer record. -/
def intResult (o : Op) (fa fb fd : BitVec 6) (sat : Bool) (v : List Nat) : Nat × W64 :=
  let f := intFmt fa
  let a := v.getD 0 0
  let b := v.getD 1 0
  match o with
  | .vadd => iExact (fun p q => p + q) f sat a b
  | .vsub => iExact (fun p q => p - q) f sat a b
  | .vmul => iExact (fun p q => p * q) f sat a b
  | .vmulh => iMulh f sat a b
  | .vdiv => ((iDivide f a b).1, (iDivide f a b).2.2)
  | .vrem => (iDivide f a b).2
  | .vmin => iMinMax false f sat a b
  | .vmax => iMinMax true f sat a b
  | .vand => iBits Nat.land f sat a b
  | .vor => iBits Nat.lor f sat a b
  | .vxor => iBits Nat.xor f sat a b
  | .vshl => iShift (fun _ p k => p * 2 ^ k) f sat a b
  | .vshr => iShift (fun _ p k => p / 2 ^ k) f sat a b
  | .vsra => iShift (fun w p k => ofSigned w (toSigned w p / (2 ^ k : Int))) f sat a b
  | .vsadd => iExact (fun p q => p + q) f true a b
  | .vssub => iExact (fun p q => p - q) f true a b
  | .vwmul => (intFmt fd).deliver false (f.val a * (intFmt fb).val b)
  | .vwmacc => (intFmt fd).deliver sat ((intFmt fd).val (v.getD 2 0) + f.val a * (intFmt fb).val b)
  | .vcvt => (intFmt fd).deliver sat (f.val a)
  | _ => (0, 0)

/-- The result and the flags of a record: what R97 and R84 give its element. -/
def libraryResult (e : MireRec) : Nat × W64 :=
  let v := [e.a, e.b, e.c].filterMap fun o => o.value.map (·.toNat)
  match Op.ofCode e.op.toNat with
  | none => (0, 0)
  | some o =>
    if o.code < 0x180 then intResult o e.fa e.fb e.fd e.sat v
    else
      let q := fpResult o e.sop e.fa e.fb e.fd v e.sa.toNat e.sb.toNat ⟨modeOf e.rm, e.rnd.toNat⟩
      (q.code, q.flags)

/-- What the library leaves in the registers it uses is not known: its scalar registers, predicates and flags are free. -/
def libraryScratch (s : State) (x : Ctx) : State :=
  let s' := (List.range 64).foldl (fun (q : State × Vector W64 64) r =>
    let p := q.1.drawFree 64
    (p.2, q.2.setIfInBounds r p.1)) (s, Vector.replicate 64 0)
  let p := s'.1.drawFree 8
  let f := p.2.drawFree 64
  f.2.modHelper x.core (x.ctx - 4) fun h => { h with s := s'.2, p := setPred p.1 0 true ||| 1, istat := f.1 &&& istatMask }

/-! ## Taking a record (R160, R163, R164) -/

/-- The descriptor of a record (R164). -/
def descriptor (e : MireRec) : W64 :=
  BitVec.ofNat 64 ((if e.rm = 6 then e.rnd.toNat * 2 ^ 48 else 0) + e.op.toNat * 2 ^ 38 + e.fd.toNat * 2 ^ 32 + e.rm.toNat * 2 ^ 29
    + e.sop.toNat * 2 ^ 27 + (if e.chained then 2 ^ 26 else 0) + e.elem * 2 ^ 15 + e.fa.toNat * 2 ^ 9 + e.thr * 2 ^ 7 + e.ten.toNat * 4)

/-- Take the oldest ready record: `some` PC to go to, or none when the helper becomes IDLE again in the same step. Where the
owner's HENTRY is the default library's entry, the library fills the record in this step and returns (R387). -/
def takeRecord (s : State) (x : Ctx) (e : MireRec) (d : Reg) (back : Ret) : State × Option PC :=
  let entry : PC := (s.thread x.core e.thr).hentry.setWidth 56
  let s := s.modCore x.core fun c => { c with mire := c.mire.map fun r => if r.id = e.id then { r with taken := true } else r }
  let s := s.modHelper x.core (x.ctx - 4) fun h => { h with
    s := h.s.setIfInBounds d.toNat (descriptor e), held := some e.id, ret := back, rnd := e.rnd, hent := entry.setWidth 64, idle := false }
  let lib := match s.partOf x.core with
    | none => false
    | some p => (s.part p).libEntry == some entry
  if lib then
    let q := libraryResult e
    let s := libraryScratch (fillRecord s x.core e (BitVec.ofNat 64 q.1) q.2) x
    match back with
    | .addr pc => (s.modHelper x.core (x.ctx - 4) fun h => { h with held := none, ret := .none }, some pc)
    | _ => (s.modHelper x.core (x.ctx - 4) fun h => { h with held := none, ret := .none, idle := true }, none)
  else (s, some entry)

/-- `hpop` (R163, R173): with a record still held it is illegal; while no record is ready the helper is not ready. -/
def execHpop (c : Ctl) (d : Reg) (s : State) : Out :=
  instrTo (.hpop c d) .hpop (do
    let s ← get
    let x := s.at'
    let h := s.helper x.core (x.ctx - 4)
    if holdsDead s x then
      set (releaseDead s x)
      return some h.pc
    if h.held.isSome then illegal .hpop
    match oldestReady (s.core x.core) with
    | none => notIssued
    | some e =>
      let r := takeRecord s x e d (.addr (h.pc + 12))
      set r.1
      return some (r.2.getD h.pc)) s

/-- IDLE_HELPER_POP (R160): an IDLE helper performs `hpop s1` with IDLE as its return address. -/
def execIdleHelperPop (core h : Nat) (s : State) : Out :=
  .next (
    let x : Ctx := ⟨core, 4 + h⟩
    if h < 2 ∧ (s.helper core h).idle then
      match oldestReady (s.core core) with
      | none => s
      | some e =>
        let r := takeRecord s x e 1 .idle
        r.1.modHelper core h fun q => { q with pc := r.2.getD q.pc, instret := q.instret + 1 }
    else s)

/-! ## Helper instructions (R165, R166) -/

/-- The record a helper holds. -/
def heldRec (s : State) (x : Ctx) : Option MireRec :=
  match (s.helper x.core (x.ctx - 4)).held with
  | none => none
  | some id => (s.core x.core).mire.find? fun r => r.id == id

/-- `hopnd` (R165). -/
def execHopnd (c : Ctl) (d : Reg) (k : Opnd) (s : State) : Out :=
  instr (.hopnd c d k) .hopnd (do
    let s ← get
    match heldRec s s.at' with
    | none => illegal .hopnd
    | some e => wrS d (recOperand e k)) s

/-- What `hfill` and `hflt` share: a record of an owner that has ended is only released (R173), none is illegal, and the one
held ends. -/
def endRecord (o : Op) (f : State → Nat → MireRec → State) : M Unit := do
  let s ← get
  let x := s.at'
  if holdsDead s x then set (releaseDead s x)
  else match heldRec s x with
    | none => illegal o
    | some e => set ((f s x.core e).modHelper x.core (x.ctx - 4) fun h => { h with held := none })

/-- `hfill` (R166, R168). -/
def execHfill (c : Ctl) (a b : Reg) (s : State) : Out :=
  instr (.hfill c a b) .hfill (do
    let v ← sval a
    let fl ← sval b
    endRecord .hfill fun s k e => fillRecord s k e v (fl &&& 31)) s

/-- `hflt` (R166). -/
def execHflt (c : Ctl) (a b : Reg) (s : State) : Out :=
  instr (.hflt c a b) .hflt (do
    let v ← sval a
    let cause ← sval b
    endRecord .hflt fun s k e => hfltRecord s k e (BitVec.ofNat 64 (v.toNat % 2 ^ (16 * e.width))) (cause.setWidth 16)) s

/-! ## Settling (R169, R170) -/

/-- The oldest held slot of a list of slot numbers, by the time of its `hflt`. -/
def oldestSlot (t : Thread) (l : List Nat) : Option Nat :=
  let age (k : Nat) : Nat := ((t.slots.getD k none).map (·.age)).getD 0
  l.foldl (fun best k => match best with
    | none => some k
    | some b => if age k < age b then some k else best) none

/-- The slots that a settle delivers: those of FAULTED elements in registers `b` to `b + n - 1`, or every held one. -/
def dueSlots (t : Thread) (all : Bool) (b n : Nat) : List Nat :=
  (List.range 8).filter fun k => match t.slots.getD k none with
    | none => false
    | some sl => all || sl.refs.any fun e => decide (b ≤ e.1.toNat) && decide (e.1.toNat < b + n)

/-- Wait for holes and deliver the oldest slot that is due (R169); `texit` and `tsusp` settle so first (R167). -/
def settle (all : Bool) (b n : Nat) : M Unit := do
  let s ← get
  let x := s.at'
  let w : Wait := .settle all b n
  if !waitOver s x.core x.ctx w then waitOn w
  let t := s.thread x.core x.ctx
  match oldestSlot t (dueSlots t all b n) with
  | none => pure ()
  | some k => stopWith fun s => deliverSlot s x k

/-- Registers that a reach covers. -/
def reachRegs : Reach → Nat
  | .all => 64 | .g1 => 1 | .g2 => 2 | .g4 => 4 | .g8 => 8

/-- `vsettle` (R169). -/
def execVsettle (c : Ctl) (a : Reg) (k : Reach) (s : State) : Out :=
  instr (.vsettle c a k) .vsettle (do
    let n := reachRegs k
    if k != .all && a.toNat % n != 0 then raise .precise { cls := 1, code := 4, aux := a.toNat }
    settle (k == .all) (if k = .all then 0 else a.toNat) n) s

/-! ## Presence and poison (R171, R172) -/

/-- `vpres` (R171): bits at and above VL stay. -/
def execVpres (c : Ctl) (d : PReg) (a : Reg) (k : Size) (st : Presence) (s : State) : Out :=
  vinstr (.vpres c d a k st) .vpres .a true (fun _ => do
    vstartZero .vpres
    let t ← thr
    let vl := t.vl.toNat
    let g : Grp := ⟨a, 8 * sizeBytes k, vl⟩
    alignGroups [g]
    let m := (List.range vl).foldl (fun m i => setMaskBit m i (elStored t g i == st)) (maskReg t d)
    modify fun s => s.modThread s.at'.core s.at'.ctx fun t => { t with m := t.m.setIfInBounds d.toNat m }
    chargeVec .a g.w) s

/-- `mpoison` (R172): the data bits stay, and a FAULTED element loses its slot reference. It changes only presence, and HWM stays: the
spec does not say whether that is a write in the sense of R71 (log 49, DESIGN CHOICE). -/
def execMpoison (c : Ctl) (d : Reg) (a : PReg) (k : Size) (s : State) : Out :=
  vinstr (.mpoison c d a k) .mpoison .a true (fun _ => do
    vstartZero .mpoison
    let t ← thr
    let vl := t.vl.toNat
    let g : Grp := ⟨d, 8 * sizeBytes k, vl⟩
    alignGroups [g]
    let sel := (List.range vl).filter (maskBit (maskReg t a))
    if sel.any fun i => elStored t g i == .pend then park 0 .presence
    modify fun s => sel.foldl (fun s i =>
      let x := s.at'
      let s := s.releaseHalves x.core x.ctx (g.reg i) (g.half i) g.halves
      s.modThread x.core x.ctx fun t => (t.setHalves (g.reg i) (g.half i) g.halves .pois).markPmk i) s
    chargeVec .a g.w) s

end Sys2Proof.Machine
end

