-- ==== Sys2Proof/Machine/Links.lean ====
section
/-! DEFINITION. Peer links, routes and fabric settings (R384). -/

namespace Sys2Proof.Machine
open Sys2Proof

/-- A mask of links holds one that is up. -/
def anyUp (s : State) (m : BitVec 18) : Bool := (List.range 18).any fun l => m.getLsbD l && s.links.getD l .down == .up

/-- LINK_UP (R375, R384): a link trains, from the end of stage 5 on. A slot that was orphaned stays so, and a route that failed stays failed until its mask
is written again. There are no peer links in minimal mode (R377). -/
def execLinkUp (link : Nat) (s : State) : Out :=
  .next (if link < 18 ∧ !s.lodge.min ∧ 5 ≤ s.lodge.stage then { s with links := s.links.setIfInBounds link .up } else s)

/-- Every route that has no link left fails (R329, R384). -/
def failRoutes (s : State) : State :=
  s.routes.foldl (fun s (e : Nat × BitVec 18) =>
    if anyUp s e.2 || s.deadRoutes.contains e.1 || e.1 == s.chip.toNat then s else routeFailed s e.1) s

/-- LINK_FAILURE_DECLARED (R384): this chip declares its end of a link failed. -/
def execLinkFailureDeclared (link : Nat) (s : State) : Out :=
  .next (if s.links.getD link .down = .up then failRoutes { s with links := s.links.setIfInBounds link .failed } else s)

/-- A command goes toward another chip: a reservation, a put, or a reduction whose result goes on (R325, R326, R330). -/
def Cmd.toPeer (c : Cmd) (chip : BitVec 10) : Bool :=
  c.site.chip != chip && (c.op == .lzput || c.op == .lzres || (c.op == .xred && (RedImg.parse c.img).any fun g => g.toRemote))

/-- A zone is open, or a command toward another chip is outstanding: from its push on (R313). -/
def fabricBusy (s : State) : Bool :=
  s.cores.any fun (e : Nat × Core) => (e.2.zones.any fun z => z.isOpen)
    || ((e.2.copyQ ++ e.2.units).any fun p => p.cmd.toPeer s.chip) || (e.2.threads.any fun t => t.fifo.any fun c => c.toPeer s.chip)

/-- FABRIC_SETTINGS_WRITE (R325, R384). A mask written anew makes its route usable again, if it holds a link that is up. A chip
identifier that changes while the fabric is in use fails every route. -/
def execFabricSettingsWrite (q : FabricWrite) (s : State) : Out :=
  .next (match q with
    | .chip id =>
      if 1024 ≤ id ∨ id = s.chip.toNat then s
      else
        let s := if fabricBusy s then s.routes.foldl (fun s (e : Nat × BitVec 18) => routeFailed s e.1) s else s
        { s with chip := BitVec.ofNat 10 id }
    | .route chip links =>
      if 1024 ≤ chip then s
      else failRoutes { s with routes := mapSet s.routes chip links, deadRoutes := s.deadRoutes.filter fun c => c != chip }
    | .partId part ident => s.modFn part fun f => { f with fabric := ident })

end Sys2Proof.Machine
end

