-- ==== Sys2Proof/Machine/Power.lean ====
section
/-! DEFINITION. Island frequencies, power caps, the governor (R358, R363) and the trace unit (R365 to R372). -/

namespace Sys2Proof.Machine
open Sys2Proof

/-! ## Island frequency (R11, R358) -/

/-- A relock window begins; the island cycle under way counts whole (R358). -/
def startRelock (s : State) (k code : Nat) : State :=
  s.setIsle k { s.isle k with relock := some (s.reft.toNat + 1024), next := code, held := none }

/-- FREQUENCY_WRITE (R358): a code from 6 to 18. A write that is equal to the current frequency does nothing; one made during a
window is held, and replaces the one held before it. -/
def execFrequencyWrite (k code : Nat) (s : State) : Out :=
  .next (
    let i := s.isle k
    if code < 6 ∨ 18 < code ∨ 512 ≤ k ∨ !s.lodge.ready then s
    else match i.relock with
      | some _ => s.setIsle k { i with held := some code }
      | none => if code = i.freq then s else startRelock s k code)

/-- The window of an island has passed. -/
def relockDue (s : State) (k : Nat) : Bool :=
  match (s.isle k).relock with
  | none => false
  | some t => decide (t ≤ s.reft.toNat)

/-- RELOCK_END (R358): the island runs at the new frequency, and a held write is taken as a fresh one. What waits at its edge stays
there, to be taken first. -/
def execRelockEnd (k : Nat) (s : State) : Out :=
  .next (if !relockDue s k then s
    else
      let i := s.isle k
      let s := s.setIsle k { i with freq := i.next, relock := none, held := none }
      match i.held with
      | none => s
      | some h => if h = i.next then s else startRelock s k h)

/-! ## Caps and the governor (R363) -/

/-- CAP_WRITE (R363, R383): whole watts from 0 to 4,000. -/
def execCapWrite (part cap : Nat) (s : State) : Out :=
  .next (if (mapGet s.parts part).isNone ∨ 4000 < cap then s else s.modPart part fun p => { p with cap := cap })

/-- The duty after an evaluation. `e` is the energy of the window in units of 2^-16 nJ; a watt of P is 10,000 nJ (R363). -/
def newDuty (duty cap e : Nat) : Nat :=
  let w := 10000 * 2 ^ 16
  if cap = 0 then 64
  else if cap * w < e then max 1 (duty * cap * w / e)
  else if e * 16 < cap * w * 15 then min 64 (duty + 1)
  else duty

/-- An evaluation is due. -/
def governorDue (s : State) (part : Nat) : Bool :=
  s.refOn && (match mapGet s.parts part with | none => false | some p => decide (p.nextEval ≤ s.reft.toNat))

/-- GOVERNOR_EVALUATION (R363), at each multiple of 10,000 ticks. -/
def execGovernorEvaluation (part : Nat) (s : State) : Out :=
  .next (if !governorDue s part then s
    else s.modPart part fun p => { p with
      duty := newDuty p.duty p.cap p.windowEnergy
      power := p.windowEnergy * 1000 / (10000 * 2 ^ 16)
      windowEnergy := 0
      nextEval := (s.reft.toNat / 10000 + 1) * 10000 })

/-! ## Static energy (R362) -/

/-- A tick of the relock windows: the cores of the islands in one count it (R361). -/
def relockTicks (s : State) : State :=
  if s.isles.any fun (e : Nat × Isle) => e.2.relock.isSome then
    let count (e : Nat × Core) : Nat × Core := if (s.isleAt e.1).relock.isSome then (e.1, evtAdd e.2 3 1) else e
    { s with cores := s.cores.map count }
  else s

/-- The static energy of one tick: the islands of every partition. -/
def staticEnergy (s : State) : State :=
  let w := (weights s).island
  if w = 0 then s else s.parts.foldl (fun s (e : Nat × Part) => charge s e.1 none (w * 16 * (s.pavsOf e.1).length)) s

/-! ## The trace ring (R365, R371, R372) -/

/-- The address of the entry at which a walk ends. -/
def lastEntry (s : State) (va : Nat) : (level : Nat) → (table : Nat) → Nat
  | 0, table => table + 8 * vaIndex va 0
  | l + 1, table =>
    let a := table + 8 * vaIndex va (l + 1)
    match readEntry s a with
    | none => a
    | some e => if bit e 0 && !bit e 1 && bits e 5 7 == 0 && decide (pfn e < hbmEnd) then lastEntry s va l (pfn e) else a

/-- TRSTAT.CAUSE of a walk that fails: 1 not present, 2 permission, 3 page-table error, 4 poison. -/
def traceCause (s : State) (part va : Nat) : AccErr → Nat
  | .missing _ => 1
  | .permission => 2
  | _ =>
    let root := (s.part part).root.toNat
    if va < 2 ^ 55 && bit root 0 && decide (bits root 12 40 * 4096 < hbmEnd) && linePoisoned s (lastEntry s va 4 (bits root 12 40 * 4096)) then 4 else 3

/-- The frames of the 4 KiB pages of a 64 KiB page, for writing. -/
def traceFrames (s : State) (part page : Nat) : (n : Nat) → Except Nat (List Nat)
  | 0 => .ok []
  | n + 1 =>
    match traceFrames s part page n with
    | .error c => .error c
    | .ok l =>
      let va := 65536 * page + 4096 * n
      match locatePart s part .write (BitVec.ofNat 64 va) with
      | .error e => .error (traceCause s part va e)
      | .ok (.hbm a) => .ok (l ++ [a])
      | .ok (.host a) => .ok (l ++ [2 ^ 51 + a])
      | .ok _ => .error 3

/-- A frame number as a location. -/
def frameLoc (f off : Nat) : Loc := if 2 ^ 51 ≤ f then .host (f - 2 ^ 51 + off) else .hbm (f + off)

/-- Pieces of bytes from a virtual address, one per 4 KiB page. -/
def traceSplit : (fuel : Nat) → Nat → List Byte → List (Nat × List Byte)
  | 0, _, _ => []
  | n + 1, va, bs => if bs.isEmpty then [] else
      let k := 4096 - va % 4096
      (va, bs.take k) :: traceSplit n (va + k) (bs.drop k)

/-- Write pieces to the ring, translating each 64 KiB page that is crossed into (R372). -/
def tracePut (s : State) (part : Nat) : List (Nat × List Byte) → Option (Nat × List Nat) → List (Loc × List Byte) → Except Nat (Option (Nat × List Nat) × List (Loc × List Byte))
  | [], xl, out => .ok (xl, out)
  | (va, bs) :: r, xl, out =>
    let page := va / 65536
    let got : Except Nat (List Nat) := match xl with
      | some (p, l) => if p = page then .ok l else traceFrames s part page 16
      | none => traceFrames s part page 16
    match got with
    | .error c => .error c
    | .ok l => tracePut s part r (some (page, l)) (out ++ [(frameLoc (l.getD (va % 65536 / 4096) 0) (va % 4096), bs)])

/-- A record is discarded (R371). -/
def traceLose (s : State) (part : Nat) : State := s.modPart part fun p => { p with trace := { p.trace with lost := p.trace.lost + 1 } }

/-- Write one record to the ring of a partition: whole at TRWR, or from offset 0 when it would cross the end, with zeros in the
bytes it leaves there (R365). It is discarded while HALT is 1, and when TRWR would go past TRRD (R371). -/
def traceWrite (s : State) (part : Nat) (rec : List Byte) : State :=
  let t := (s.part part).trace
  let size := t.size.toNat
  let wr := t.wr.toNat
  let rd := t.rd.toNat
  let wrap := decide (size < wr + rec.length)
  let need := if wrap then (size - wr) + rec.length else rec.length
  let used := if rd ≤ wr then wr - rd else size - rd + wr
  if t.ctl.getLsbD 0 || decide (size ≤ used + need) then traceLose s part
  else
    let base := t.base.toNat
    let parts := if wrap then traceSplit 64 (base + wr) (List.replicate (size - wr) 0) ++ traceSplit 64 base rec
      else traceSplit 64 (base + wr) rec
    match tracePut s part parts t.xl [] with
    | .error c => traceLose (s.modPart part fun p => { p with trace := { p.trace with
        ctl := p.trace.ctl ||| 1, stat := BitVec.ofNat 64 c, xl := none } }) part
    | .ok (xl, out) =>
      let s := out.foldl (fun s e => writeLoc s e.1 e.2 false) s
      s.modPart part fun p => { p with trace := { p.trace with
        xl := xl, wr := BitVec.ofNat 64 (if wrap then rec.length else (wr + rec.length) % size) } }

/-- A staged record is in a core. -/
def traceStaged (s : State) (core : Nat) : Bool := !(s.core core).staging.isEmpty

/-- TRACE_RECORD_WRITE (R365, R371, R372): the oldest staged record of a core goes to its ring. -/
def execTraceRecordWrite (core : Nat) (s : State) : Out :=
  .next (match (s.core core).staging with
    | [] => s
    | (part, rec) :: r => traceWrite (s.modCore core fun c => { c with staging := r }) part rec)

/-- Write every staged record of a partition, then drop the cached translation (R365). -/
def traceFlush (s : State) (part : Nat) : State :=
  let s := s.cores.foldl (fun s (e : Nat × Core) =>
    let mine : List (Nat × List Byte) := e.2.staging.filter fun r => r.1 == part
    mine.foldl (fun s r => traceWrite s part r.2)
      (s.modCore e.1 fun c => { c with staging := c.staging.filter fun r => r.1 != part })) s
  s.modPart part fun p => { p with trace := { p.trace with xl := none } }

/-- TRCTL_FLUSH (R365), which the host writes in the window of the partition's function (R380). -/
def execTrctlFlush (part : Nat) (s : State) : Out :=
  .next (if s.reaches part then traceFlush s part else s)

/-! ## Samples (R367, R368) -/

/-- The sample period: 2^K ticks. -/
def tracePeriod (t : Trace) : Nat := 2 ^ bits t.ctl.toNat 3 5

/-- Cores of the partition that have not latched the sample of tick `time` and whose die's copy of REFT has reached that tick. -/
def latchDue (s : State) (part : Nat) (time : W64) : List Nat :=
  (s.coresOf part).filter fun c => !((s.part part).trace.latched.any fun e => e.1 == c) && decide (time.toNat ≤ (s.reftAt c).toNat)

/-- Every core of the partition has latched. -/
def allLatched (s : State) (part : Nat) : Bool :=
  (s.coresOf part).all fun c => (s.part part).trace.latched.any fun e => e.1 == c

/-- A sample is due: the host die's tick has come, or that of a core, or every core has latched (R367). -/
def sampleDue (s : State) (part : Nat) : Bool :=
  match mapGet s.parts part with
  | none => false
  | some p => match p.trace.taking with
    | none => s.refOn && p.trace.ctl.getLsbD 2 && decide (p.trace.nextSample ≤ s.reft.toNat)
    | some (time, _) => !(latchDue s part time).isEmpty || allLatched s part

/-- A core sample of tick T (R368). -/
def coreSample (s : State) (core duty : Nat) (time : W64) : List Byte :=
  let c := s.core core
  traceRec 0x10 0 (s.who core 7) 0 0 time (
    natLe 8 c.cyc.toNat ++ natLe 8 c.cycn.toNat ++ natLe 8 c.cycnFrac ++ natLe 8 duty
      ++ c.evt.toList.flatMap (fun e => natLe 8 e.toNat)
      ++ c.threads.toList.flatMap (fun t => natLe 8 t.instret.toNat) ++ c.helpers.toList.flatMap (fun h => natLe 8 h.instret.toNat)
      ++ c.threads.toList.flatMap (fun t => if t.task.isSome then natLe 8 t.pc.toNat ++ natLe 8 t.seq.toNat else natLe 16 0))

/-- The partition sample of tick T (R368). Its WHO names no thread, and R366 gives it no value: it is free. -/
def partSample (p : Part) (who : BitVec 26) (time : W64) : List Byte :=
  traceRec 0x11 0 who 0 0 time (
    natLe 8 (wholeNj p.energy).toNat ++ natLe 8 p.duty ++ natLe 8 p.cap ++ natLe 8 p.power
      ++ p.queues.toList.flatMap (fun q => natLe 8 (wholeNj q.energy).toNat))

/-- The host die's tick T: it latches the partition's record (R367). -/
def beginSample (s : State) (part : Nat) : State :=
  let k := tracePeriod (s.part part).trace
  let time : W64 := BitVec.ofNat 64 (s.reft.toNat / k * k)
  let w := s.drawFree 26
  w.2.modPart part fun p => { p with trace := { p.trace with
    nextSample := (s.reft.toNat / k + 1) * k, taking := some (time, partSample p w.1 time), latched := [] } }

/-- The cores whose tick T has come latch their counters (R367). -/
def latchCores (s : State) (part : Nat) (time : W64) : State :=
  let new := (latchDue s part time).map fun c => (c, coreSample s c (s.part part).duty time)
  s.modPart part fun p => { p with trace := { p.trace with latched := p.trace.latched ++ new } }

/-- Every core has latched: the records are staged, and the partition's is written; where they cannot all be staged, the whole sample is
lost (R367). -/
def endSample (s : State) (part : Nat) (rec : List Byte) : State :=
  let l := (s.part part).trace.latched.filter fun e => (s.coresOf part).contains e.1
  let s := s.modPart part fun p => { p with trace := { p.trace with taking := none, latched := [] } }
  if l.any fun e => decide (64 ≤ (s.core e.1).staging.length) then
    s.modPart part fun p => { p with trace := { p.trace with lost := p.trace.lost + BitVec.ofNat 64 (l.length + 1) } }
  else traceWrite (l.foldl (fun s e => stage s e.1 part e.2) s) part rec

/-- TRACE_SAMPLE (R367, R368): the host die latches the partition's record at tick T of its own REFT, and each core latches at tick T of its
die's copy; when all have, the sample is staged. -/
def execTraceSample (part : Nat) (s : State) : Out :=
  .next (if !sampleDue s part then s
    else
      let s := if (s.part part).trace.taking.isNone then beginSample s part else s
      match (s.part part).trace.taking with
      | none => s
      | some (time, rec) =>
        let s := latchCores s part time
        if allLatched s part then endSample s part rec else s)

end Sys2Proof.Machine
end

