-- ==== Sys2Proof/Machine/Manage.lean ====
section
/-! DEFINITION. The host's management windows and its aperture (R253, R264, R380 to R382), completions of host-window accesses
(R224, R238), and scalar results (R275). -/

namespace Sys2Proof.Machine
open Sys2Proof

/-- The partition exists. -/
def partIs (s : State) (part : Nat) : Bool := (mapGet s.parts part).isSome

/-! ## Translation (R253, R264, R339) -/

/-- TRANSLATION_ROOT_WRITE (R253): ROOT and EN; the other bits read 0. Translations cached under the old root stay (R339). -/
def execTranslationRootWrite (part : Nat) (val : W64) (s : State) : Out :=
  .next (if s.reaches part then s.modPart part fun p => { p with root := val &&& 0xFFFFFFFFFF001 } else s)

/-- HOST_INVALIDATE (R264): as `tlbinv.range` from an address over a number of bytes, or as `tlbinv.all`, with its completion. While an
access that used one of the translations is still to perform, nothing happens: the command stands in the agenda until then (`held`). -/
def execHostInvalidate (part : Nat) (range : Option (Nat × Nat)) (s : State) : Out :=
  .next (
    let l := hostPages range
    if !s.reaches part || usesPages s part l then s
    else
      let s := dropPages s part l
      { s with hostTx := s.hostTx ++ [.invalidated part] })

/-- ZEROING_COMMAND (R382): a range of HBM aligned to 64 KiB becomes zero, without poison. -/
def execZeroingCommand (pa len : Nat) (s : State) : Out :=
  .next (if pa % 65536 ≠ 0 ∨ len % 65536 ≠ 0 ∨ hbmEnd < pa + len ∨ s.lodge.min then s
    else { s with
      hbm := s.hbm.filter fun c => decide (c.1 < pa) || decide (pa + len ≤ c.1)
      hbmPois := s.hbmPois.filter fun k => decide (64 * k < pa) || decide (pa + len ≤ 64 * k) })

/-! ## The aperture (R380, R381) -/

/-- APBASE_WRITE (R381): bits [54:30]. An enabled function has the register, whether or not its partition has been formed. -/
def execApbaseWrite (part : Nat) (val : W64) (s : State) : Out :=
  .next (if s.fnOn part then s.modFn part fun f => { f with apbase := val &&& 0x7FFFFFC0000000 } else s)

/-- The locations of an access of the aperture, one per page it touches. -/
def apertureLocs (s : State) (part : Nat) (kind : Access) : List (W64 × Nat) → Option (List (Loc × Nat))
  | [] => some []
  | (ea, n) :: r =>
    match locatePart s part kind ea, apertureLocs s part kind r with
    | .ok l, some ls => some ((l, n) :: ls)
    | _, _ => none

/-- Write the bytes of a host access to its locations. -/
def apertureWrite : List (Loc × Nat) → List Byte → State → State
  | [], _, s => s
  | (l, n) :: r, bs, s => apertureWrite r (bs.drop n) (writeLoc s l (bs.take n) false)

/-- The energy of a host access through the function of a partition (R362). -/
def apertureCharge (s : State) (part : Nat) (locs : List (Loc × Nat)) : State :=
  locs.foldl (fun s e => charge s part none (accessWeight s e.1 * ceilDiv e.2 64)) s

/-- Remember what the host wrote for the partition's next launch (R34). -/
def noteHostWrite (s : State) (part : Nat) (locs : List (Loc × Nat)) : State :=
  s.modPart part fun p => { p with hostWrote := p.hostWrote ++ locs }

/-- The bytes that a host access reads, with their poison, in a completion. -/
def answerHost (s : State) (part : Nat) (locs : List (Loc × Nat)) : State :=
  let got := locs.map fun e => readLoc s e.1 e.2
  { s with hostTx := s.hostTx ++ [.read part (got.flatMap (·.1)) (got.any (·.2))] }

/-- The kind and the bytes of a host access for which `len` bytes are asked. -/
def hostKind (len : Nat) : HostOp → Access × Nat
  | .read => (.read, len)
  | .write b => (.write, b.length)
  | .fetchAdd _ | .swap _ | .cas .. => (.amo, len)

/-- A host access that BAR 4 takes: 1 to 4,096 bytes inside it, or an AtomicOp of 4 or 8 bytes at a multiple of its size (R379, R380). -/
def hostFits (off : Nat) (k : Access × Nat) : Bool :=
  decide (off + k.2 ≤ 2 ^ 40) && (if k.1 == .amo then (k.2 == 4 || k.2 == 8) && off % k.2 == 0 else k.2 != 0 && decide (k.2 ≤ 4096))

/-- What an AtomicOp of `n` bytes leaves where it finds `old` (R379). -/
def hostAtomic (n old : Nat) : HostOp → Nat
  | .fetchAdd v => (old + v.toNat) % 256 ^ n
  | .swap v => v.toNat % 256 ^ n
  | .cas a v => if old = a.toNat % 256 ^ n then v.toNat % 256 ^ n else old
  | .read | .write _ => old

/-- Perform a host access at its locations. An AtomicOp completes with what it found, and one that finds poison writes nothing, as
an atomic of a core does (R208, R222). -/
def apertureDo (s : State) (part n : Nat) (locs : List (Loc × Nat)) (op : HostOp) : State :=
  match op with
  | .read => answerHost s part locs
  | .write b => noteHostWrite (apertureWrite locs b s) part locs
  | .fetchAdd .. | .swap .. | .cas .. =>
    let got := locs.map fun e => readLoc s e.1 e.2
    let t := answerHost s part locs
    if got.any (·.2) then t else noteHostWrite (apertureWrite locs (natLe n (hostAtomic n (leNat (got.flatMap (·.1))) op)) t) part locs

/-- APERTURE_ACCESS (R207, R379 to R381): an access at an offset of BAR 4. One that expects an answer and does not translate, or whose
function has no partition, completes with Completer Abort; such a write is dropped, with a host-store record of the partition. -/
def execApertureAccess (part off len : Nat) (op : HostOp) (s : State) : Out :=
  .next (
    let (kind, n) := hostKind len op
    if !s.fnOn part || !hostFits off (kind, n) then s
    else
      let va : W64 := (s.fn part).apbase + BitVec.ofNat 64 off
      match if partIs s part then apertureLocs s part kind (pageParts va n) else none with
      | some ls => apertureCharge (apertureDo s part n ls op) part ls
      | none =>
        if kind != .write then { s with hostTx := s.hostTx ++ [.completerAbort part] }
        else if !partIs s part then s
        else
          let c : Cause := { cls := 2, code := 0xD, addr := va }
          post s part false (c.record s (partIdent part) 0 .async false))

/-! ## Cores and modes (R78, R347, R349) -/

/-- CORECFG_WRITE (R78): the policy holds from the next issue cycle, and the count of R18 starts again. -/
def execCorecfgWrite (core : Nat) (val : W64) (s : State) : Out :=
  .next (if (s.partOf core).any s.reaches && s.enabled core then s.modCore core fun c => { c with corecfg := val &&& 1, grun := 0 } else s)

/-- VERIFY_MODE_SET (R347): the mode of a partition, which each core takes over at an instruction boundary at which nothing of it runs. -/
def execVerifyModeSet (part : Nat) (on : Bool) (s : State) : Out :=
  .next (if partIs s part then s.modPart part fun p => { p with verify := on } else s)

/-- SUSPECT_CLEAR (R349). -/
def execSuspectClear (core : Nat) (s : State) : Out :=
  .next (if (mapGet s.cores core).isSome then s.modCore core fun c => { c with suspect := false } else s)

/-! ## Other management registers (R380) -/

/-- A write to TRCTL (R365): K outside 10 to 20 stores 20; with HALT 1 the unit drops its translation (R372); FLUSH flushes. -/
def writeTrctl (s : State) (part : Nat) (v : W64) : State :=
  let k := bits v.toNat 3 5
  let k := if 10 ≤ k ∧ k ≤ 20 then k else 20
  let store (s : State) (halt : W64) : State := s.modPart part fun p => { p with trace := { p.trace with
    ctl := (v &&& 0xE04) ||| halt ||| BitVec.ofNat 64 (8 * k) } }
  let s := store s (v &&& 1)
  -- a walk that fails in the flush sets HALT (R372)
  let s := if v.getLsbD 8 then traceFlush s part else s
  s.modPart part fun p =>
    { p with trace := { p.trace with
      xl := if v.getLsbD 0 then none else p.trace.xl
      nextSample := (s.reft.toNat / 2 ^ k + 1) * 2 ^ k } }

/-- Change the trace unit of a partition. -/
def modTrace (s : State) (part : Nat) (f : Trace → Trace) : State := s.modPart part fun p => { p with trace := f p.trace }

/-- Change a launch queue of a partition. -/
def modQueue (s : State) (part queue : Nat) (f : LQueue → LQueue) : State :=
  s.modPart part fun p => { p with queues := p.queues.setIfInBounds queue (f (p.queues.getD queue {})) }

/-- The partition a management write is for; none for the physical function's. -/
def mgmtPart : MgmtWrite → Option Nat
  | .saveBase p _ | .saveCnt p _ | .queueCtl p _ _ _ | .lshare p _ | .breakpoint p _ _ | .trctl p _ | .trbase p _ | .trsize p _ | .trrd p _
  | .clearTrlost p | .clearEnergy p | .clearQueueEnergy p _ => some p
  | .installRecord _ _ | .installImages _ _ | .linkIde _ => none

/-- The effect of a management write (R280, R293, R332, R338, R354, R365, R373, R377). -/
def mgmtWrite (s : State) : MgmtWrite → State
  | .saveBase p v => if v.toNat % 131072 = 0 then s.modPart p fun q => { q with saveBase := v } else s
  | .saveCnt p v => s.modPart p fun q => { q with saveCnt := v }
  | .queueCtl p k en prio => if k < 64 ∧ prio < 4 then modQueue s p k fun q => { q with enabled := en, prio := prio } else s
  | .lshare p v => s.modPart p fun q => { q with lshare := v &&& 0xFFF }
  | .breakpoint p k b => s.modPart p fun q => { q with brk := q.brk.setIfInBounds k b }
  | .trctl p v => writeTrctl s p v
  | .trbase p v => if v.toNat % 65536 = 0 then modTrace s p fun t => { t with base := v, xl := none } else s
  | .trsize p v => if v.toNat % 65536 = 0 then modTrace s p fun t => { t with size := v } else s
  | .trrd p v => modTrace s p fun t => { t with rd := v }
  | .clearTrlost p => modTrace s p fun t => { t with lost := 0 }
  | .clearEnergy p => s.modPart p fun q => { q with energy := 0 }
  | .clearQueueEnergy p k => modQueue s p k fun q => { q with energy := 0 }
  | .installRecord r signed => { s with lodge := { s.lodge with recordNew := some r, recordSigned := signed, installed := true } }
  | .installImages l signed => { s with lodge := { s.lodge with images := l, signed := signed, installed := true } }
  | .linkIde on => { s with linkIde := on }

/-- MANAGEMENT_REGISTER_WRITE (R380): a write to a function's window; a partition's is reached through its enabled function. -/
def execManagementRegisterWrite (q : MgmtWrite) (s : State) : Out :=
  .next (match mgmtPart q with
    | none => mgmtWrite s q
    | some p => if s.reaches p then mgmtWrite s q else s)

/-! ## Completions of host-window accesses (R208, R224, R238) -/

/-- The access of a context that waits for its completion. -/
def waitingAcc (s : State) (core thr : Nat) : Option HostAcc :=
  (if 4 ≤ thr then (s.helper core (thr - 4)).hostAcc else (s.thread core thr).hostAcc).filter fun a => a.answer.isNone

/-- Give a context's access its completion; bytes that were read are host memory's (log 3, DESIGN CHOICE). -/
def answerAcc (s : State) (core thr : Nat) (a : HostAcc) (q : Completion) : State :=
  let a' : HostAcc := { a with answer := some q }
  let s := match q with
    | .data b => { s with host := Memory.write s.host a.addr ((b ++ List.replicate a.len 0).take a.len) }
    | _ => s
  if 4 ≤ thr then s.modHelper core (thr - 4) fun h => { h with hostAcc := some a' }
  else s.modThread core thr fun t => { t with hostAcc := some a' }

/-- Give an engine command's read its completion. -/
def answerCmd (s : State) (core id : Nat) (q : Completion) : State :=
  modPend s core id fun p => if p.phase = .host none then { p with phase := .host (some q) } else p

/-- A context has a store on its way to the host window, of which nothing is known yet; `thr` is its number, 7 that of a saved task. -/
def isPosted (thr : Nat) (q : Posted) : Bool := q.thr == thr

/-- The oldest posted store of a context is known to have been performed, or to have failed: a host-store record names it (R224, R341). -/
def postedEnd (s : State) (core thr : Nat) (failed : Bool) : State :=
  match (s.core core).posted.find? (isPosted thr) with
  | none => s
  | some q =>
    let s := s.modCore core fun c => { c with posted := c.posted.erase q }
    if failed then postCore s core thr q.pc { cls := 2, code := 0xD, addr := q.ea, seq := q.seq } else s

/-- MEMORY_ACCESS_PERFORMED (R208, R224, R238): the completion of a read or an atomic of the host window, for context 0 to 5 of
a core, or for the engine command of number `thr - 6`; or the end of the oldest posted store of a context. -/
def execMemoryAccessPerformed (core thr : Nat) (q : Report) (s : State) : Out :=
  .next (match q with
    | .completion a =>
      if 6 ≤ thr then answerCmd s core (thr - 6) a
      else match waitingAcc s core thr with
        | some w => answerAcc s core thr w a
        | none => s
    | .stored => postedEnd s core thr false
    | .storeFailed => postedEnd s core thr true)

/-- PCIE_COMPLETION_TIMEOUT (R224): no completion within the timeout is a failed access; its completion status has no value. -/
def execPcieCompletionTimeout (core thr : Nat) (s : State) : Out :=
  .next (
    let st := s.drawFree 32
    if 6 ≤ thr then answerCmd s core (thr - 6) (.error st.1.toNat)
    else match waitingAcc s core thr with
      | some a => answerAcc st.2 core thr a (.error st.1.toNat)
      | none => s)

/-! ## The scalar scoreboard (R275) -/

/-- SCALAR_RESULT_WRITE (R275): the result of a scalar instruction whose destination, a scalar register or a predicate, is marked busy is
there, and its mark clears. The register has held it since the issue step, where nothing can read it while it is busy (log 9, DEDUCED). -/
def execScalarResultWrite (core thr : Nat) (d : Reg) (pred : Bool) (s : State) : Out :=
  .next (if 4 ≤ thr then s
    else s.modThread core thr fun t =>
      if pred then { t with busyP := t.busyP &&& ~~~(1#8 <<< d.toNat) } else { t with busyS := t.busyS &&& ~~~(1#64 <<< d.toNat) })

end Sys2Proof.Machine
end

