-- ==== Sys2Proof/Machine/Matrix.lean ====
section
/-! DEFINITION. The matrix unit: selections, the latch of planes, and `mmul` (09 R174 to R189, 05 R102). -/

namespace Sys2Proof.Machine
open Sys2Proof

/-! ## Selections (R178, R179, R187) -/

/-- MPROG.PART := 0 (R72). -/
def clearPart (t : Thread) : Thread := { t with mprog := t.mprog &&& ~~~0x8#64 }

/-- `msel` (R178): the new selection replaces the old one; the planes are latched later (R180). -/
def execMsel (c : Ctl) (a b : Reg) (s : State) : Out :=
  vinstr (.msel c a b) .msel .x false (fun _ => do
    vstartZero .msel
    dispWait [a, b]
    let off ← dispS a
    let w ← dispS b
    match shapeFault w.toNat with
    | some true => illegal .msel
    | some false => badFormat w.toNat
    | none => pure ()
    let h := Shape.ofNat w.toNat
    if off.toNat % 64 != 0 || decide (tsSize < off.toNat + h.bytes) then raise .precise { cls := 2, code := 1, addr := off }
    modify fun s => s.modThread s.at'.core s.at'.ctx fun t => { clearPart t with
      sel := 0x8000000000000000 ||| (off <<< 26) ||| w
      selNum := (s.core s.at'.core).nextCmd }
    busyCycles .x 1) s

/-- `mstat` (R187). -/
def execMstat (c : Ctl) (d : Reg) (s : State) : Out :=
  vinstr (.mstat c d) .mstat .x false (fun _ => do
    vstartZero .mstat
    wrS d (← thr).sel
    busyCycles .x 1) s

/-- `mclr` (R187). -/
def execMclr (c : Ctl) (s : State) : Out :=
  vinstr (.mclr c) .mclr .x false (fun _ => do
    vstartZero .mclr
    modify fun s => s.modThread s.at'.core s.at'.ctx fun t => { clearPart t with sel := 0 }
    busyCycles .x 1) s

/-! ## The latch (R179, R180, R183) -/

/-- The planes hold the selection of a thread. -/
def latchedFor (s : State) (core thr : Nat) : Bool :=
  let t := s.thread core thr
  match (s.core core).latched with
  | none => false
  | some l => selValid t.sel && l.thr == thr && l.sel == t.sel && l.num == t.selNum

/-- A command pushed before the selection is still to write its range (R179). -/
def latchBlocked (s : State) (core thr : Nat) : Bool :=
  let t := s.thread core thr
  (pendingCmds s core).any fun e => decide (e.1.num < t.selNum) && e.2.any fun p =>
    p.dst && p.loc.meets p.len (.ts core (selOff t.sel)) (selShape t.sel).bytes

/-- An `mmul` has begun and not ended: its thread is the only one whose planes may be latched (R180). -/
def rowOf (s : State) (core : Nat) : Option Nat :=
  match s.pipe core .x with
  | e :: _ => if e.row.isSome then some e.thr else none
  | [] => none

/-- PLANE_LATCH can happen: a thread's selection is not the one latched, earlier copies into it are done, and no `mmul` of another
thread is under way. -/
def canLatch (s : State) (core thr : Nat) : Bool :=
  selValid (s.thread core thr).sel && !latchedFor s core thr && !latchBlocked s core thr && (rowOf s core).all (· == thr)

/-- PLANE_LATCH (R180): the planes take the tile of the thread's selection; an `mmul` of it that waits for them goes on. -/
def execPlaneLatch (core thr : Nat) (s : State) : Out :=
  .next (
    if canLatch s core thr then
      let t := s.thread core thr
      let got := readBytes s (.ts core (selOff t.sel)) (selShape t.sel).bytes
      let bad := (List.range got.length).filter fun j => ((got[j]?).map (·.2)).getD false
      let s := s.modCore core fun c => { c with latched := some ⟨thr, t.sel, t.selNum, got.map (·.1), bad⟩ }
      handHead s core .x fun e => e.why == .latch && e.thr == thr
    else s)

/-- The first byte of column `n`'s record in the tile (R176). -/
def Shape.column (h : Shape) (n : Nat) : Nat := 64 * h.scaleRows + n * h.colBytes

/-- B[k][n] (R176). -/
def tileElem (h : Shape) (tile : List Byte) (k n : Nat) : Nat :=
  let w := memWidth h.fb
  bits (leAt tile (h.column n + k * w / 8) (ceilDiv (k * w % 8 + w) 8)) (k * w % 8) w

/-- The byte of the scale header that holds the scale of B[k][n] (R176). -/
def scaleByte (h : Shape) (k n : Nat) : Nat := 64 * (k / 32) + (if h.sblk = 1 then n else n / 32 * 32)

/-- The scale of B[k][n]. -/
def tileScale (h : Shape) (tile : List Byte) (k n : Nat) : Nat := if h.sblk = 0 then 127 else leAt tile (scaleByte h k n) 1

/-- An uncorrectable byte was latched for column `n` (R183). -/
def badColumn (h : Shape) (bad : List Nat) (n : Nat) : Bool :=
  bad.any fun j =>
    (decide (h.column n ≤ j) && decide (j < h.column n + h.planes * h.planeBytes))
      || (h.sblk != 0 && (List.range h.scaleRows).any fun g => j == scaleByte h (32 * g) n)

/-! ## Group sums (R102, R184) -/

/-- Round(S(g, n)): the exact sum of scaled products, rounded once. R102 and R184 give no order of the terms: a group with a NaN raises
NV only for a signalling or invalid term, and not for infinities of both signs beside a quiet NaN (log 49, DESIGN CHOICE). -/
def groupSum (fa fb : BitVec 6) (r : Rnd) (terms : List (Nat × Nat)) (ca cb : Nat) : FRes :=
  let ps := terms.map fun e => scaledProduct fa fb e.1 e.2 ca cb
  let nan := ps.any fun p => match p with | none => true | some v => v.isNan
  let invalid := ca == 255 || cb == 255 || ps.any fun p => match p with | none => true | some v => v.isSig
  let inf (n : Bool) : Bool := ps.any fun p => p == some (.inf n)
  if nan then ⟨fp32.nan, if invalid then flagNV else 0⟩
  else if inf true && inf false then ⟨fp32.nan, flagNV⟩
  else if inf true || inf false then fp32.deliver false r (.inf (inf true))
  else
    let fin := ps.filterMap fun p => match p with | some (.fin n m e) => some (n, m, e) | _ => none
    let low := fin.foldl (fun (l : Int) t => min l t.2.2) 0
    let v := fin.foldl (fun (a : Int) t => a + signedAt t.1 t.2.1 t.2.2 low) 0
    fp32.roundInt false r (r.mode == .rdn) v low

/-- The row of an `mmul` after its checks and reads. -/
structure Row where
  fa : BitVec 6
  int : Bool
  sat : Bool
  mode : RMode
  h : Shape
  tile : List Byte
  a : List Nat
  ca : List Nat
  /-- Result columns that are active, and those that are poisoned. -/
  on : List Nat
  pois : List Nat

/-- The accumulators by column, the flags, and SRSTATE. -/
structure Acc' where
  a : NMap Nat
  fl : W64
  sr : W64

/-- One group for column `n` (R102). -/
def rowColumn (w : Row) (g n : Nat) (q : Acc') : Acc' :=
  let ks := (List.range 16).filterMap fun j => if 16 * g + j < w.h.k then some (16 * g + j) else none
  let terms := ks.map fun k => (w.a.getD k 0, tileElem w.h w.tile k n)
  let acc := (mapGet q.a n).getD 0
  if w.int then
    if w.pois.contains n then q
    else
      let f := intFmt w.fa
      let fb := intFmt w.h.fb
      let d := intFmt 0x14
      let p := terms.foldl (fun (x : Int) e => x + f.val e.1 * fb.val e.2) 0
      let r := d.deliver w.sat (d.val acc + p)
      { q with a := mapSet q.a n r.1, fl := q.fl ||| r.2 }
  else
    let (sr1, r1) := if w.mode = .sr then srNext q.sr else (q.sr, 0)
    let (sr2, r2) := if w.mode = .sr then srNext sr1 else (sr1, 0)
    if w.pois.contains n then { q with sr := sr2 }
    else
      let s1 := groupSum w.fa w.h.fb ⟨w.mode, r1⟩ terms (w.ca.getD (g / 2) 127) (tileScale w.h w.tile (16 * g) n)
      let s2 := fp32.add ⟨w.mode, r2⟩ (fp32.decode acc) (fp32.decode s1.code)
      ⟨mapSet q.a n s2.code, q.fl ||| s1.flags ||| s2.flags, sr2⟩

/-- Groups from `g` on, up to the end of the plane or of the row: the group after the last one done (R182, R185). -/
def rowPlane (w : Row) : (n : Nat) → (g : Nat) → Acc' → Nat × Acc'
  | 0, g, q => (g, q)
  | n + 1, g, q =>
    let q := w.on.foldl (fun q c => rowColumn w g c q) q
    if (16 * (g + 1)) % kblock w.h.fb == 0 then (g + 1, q) else rowPlane w n (g + 1) q

/-! ## `mmul` (R181 to R185) -/

/-- The pairs of R181: the group that a format of A, or of B, belongs to. -/
def mmulClass (c : BitVec 6) : Option Nat :=
  match c.toNat with
  | 0 => some 0
  | 1 | 2 => some 1
  | 3 | 4 => some 2
  | 5 => some 3
  | 6 => some 4
  | 0x10 | 0x11 => some 5
  | _ => none

/-- The weight of a plane (R362). -/
def planeWeight (s : State) (fb : BitVec 6) : Nat :=
  let w := weights s
  match kblock fb with
  | 8 => w.plane8
  | 32 => w.plane32
  | 64 => w.plane64
  | _ => w.plane128

/-- WriteColumns of R182. -/
def writeColumns (x : Option Pfx) (d : Reg) (w : Row) (q : Acc') : M Unit := do
  putAll ⟨d, 32, 64⟩ 32 false ((List.range w.h.n).filterMap fun n =>
    if w.on.contains n then some ⟨n, if w.pois.contains n then .pois none true else .val ((mapGet q.a n).getD 0), 0, 0⟩
    else if (pfx x).zp then some ⟨n, .val 0, 0, 0⟩ else none)
  modify fun s => s.modThread s.at'.core s.at'.ctx fun t => { t with srstate := q.sr }
  flags q.fl

/-- The checks of R181 in their order: the format word by itself, then, with a valid selection, against it; the selection and VL;
the groups. AUX of a group-overlap fault is vD, whichever register overlaps (log 28, DESIGN CHOICE). -/
def mmulChecks (t : Thread) (p : Pfx) (w : FWord) (d a : Reg) (accum : Bool) : M Unit := do
  let cl := mmulClass w.fa
  let out : BitVec 6 := if cl = some 5 then 0x14 else 0x00
  let h := selShape t.sel
  if cl.isNone || (mmulClass w.fb).isNone || w.fd != out || (accum && w.fc != out) || (w.sca && (!blockScalable w.fa || blk t != 1))
      || (w.scb && !blockScalable w.fb) || w.sca != p.ev
      || (selValid t.sel && (w.fb != h.fb || w.scb != (h.sblk != 0) || mmulClass h.fb != cl)) then badFormat w.w
  if !selValid t.sel || t.vl.toNat != h.k then raise .precise { cls := 1, code := 7 }
  let ga : Grp := ⟨a, codeWidth w.fa, h.k⟩
  alignGroups [ga]
  let gd : Grp := ⟨d, 32, 64⟩
  let ge : Grp := ⟨p.e, 8, ceilDiv h.k 32⟩
  if gd.meets ga || (w.sca && (ge.meets ga || p.e == d)) then overlapFault d

/-- Where an `mmul` of `groups` groups begins: its group, and its accumulators by column (R182). -/
def rowStart (t : Thread) (gd : Grp) (on : List Nat) (int fromD : Bool) (g0 : Nat) : RowRun :=
  { g := g0, acc := on.map fun n => (n, if fromD then elBits t gd n else if int then 0 else 0x80000000), fl := 0, sr := t.srstate }

/-- `mmul` (R181 to R185): it runs plane by plane, and stops at a boundary between two planes when a stop is asked for. -/
def execMmul (c : Ctl) (x : Option Pfx) (d a f : Reg) (accum : Bool) (s : State) : Out :=
  vinstr (.mmul c x d a f accum) .mmul .x true (fun _ => do
    vstartZero .mmul
    let w ← fmtWord f
    let t ← thr
    let p := pfx x
    mmulChecks t p w d a accum
    let h := selShape t.sel
    let ga : Grp := ⟨a, codeWidth w.fa, h.k⟩
    let gd : Grp := ⟨d, 32, 64⟩
    let ge : Grp := ⟨p.e, 8, ceilDiv h.k 32⟩
    let pc ← pcNow
    let resume := t.mprog.getLsbD 3 && t.mprog.toNat / 256 == pc.toNat
    let fromD := resume || accum
    let on := (List.range h.n).filter (active t p)
    for i in List.range h.k do waitEl 0 ga i
    if w.sca then
      for j in List.range ge.len do waitEl 0 ge j
    if fromD then
      for n in on do waitEl 0 gd n
    let s ← get
    let k := s.at'
    if !latchedFor s k.core k.ctx then park 0 .latch
    if fromD then noteWords ((List.range h.n).map fun n => (gd, n)) (on.map fun n => (gd, n))
    let l := ((s.core k.core).latched).getD ⟨0, 0, 0, [], []⟩
    let all := ((List.range h.k).any fun i => elPres t ga i == .pois) || (w.sca && (List.range ge.len).any fun j => elPres t ge j == .pois)
    let row : Row := {
      fa := w.fa, int := mmulClass w.fa == some 5, sat := w.sati, mode := vecMode t p, h := h, tile := l.bytes
      a := (List.range h.k).map (elBits t ga)
      ca := if w.sca then (List.range ge.len).map (elBits t ge) else []
      on := on
      pois := on.filter fun n => all || badColumn h l.bad n || (fromD && elPres t gd n == .pois) }
    let groups := ceilDiv h.k 16
    let run := (s.lane.bind (·.row)).getD (rowStart t gd on row.int fromD (if resume then t.mprog.toNat % 8 * kblock h.fb / 16 else 0))
    -- a stop asked for since the last plane takes effect at its end (R185)
    let halt := (s.lane.bind (·.row)).isSome && t.stop.isSome && run.fl &&& (trapEnables t.fctl).setWidth 64 == 0
    let (g, q) := rowPlane row (if halt then 0 else groups - run.g) run.g ⟨run.acc, run.fl, run.sr⟩
    let planes := ceilDiv (min (16 * g) h.k) (kblock h.fb) - 16 * run.g / kblock h.fb
    modify fun s => chargeCtx s k (planes * planeWeight s h.fb)
    let passes := if verifyOn (← get) k then 2 * planes else planes
    modify fun s => s.modCore k.core fun c => evtAdd c 7 passes
    busyCycles .x passes
    -- a stop does not hold at the boundary where an enabled trap is due: the row goes on to it (R184)
    let trap := q.fl &&& (trapEnables t.fctl).setWidth 64 != 0
    if g < groups && (t.stop.isNone || trap) then
      modify fun s => { s with lane := s.lane.map fun e => { e with row := some ⟨g, q.a, q.fl, q.sr⟩ } }
      park 0 .plane
    trapIf q.fl
    -- MPROG held a value that no stop of this thread left: the active columns are undefined, and nothing else changes (R185)
    let q ← if resume && !t.rowStops.contains t.mprog then do
        let s ← get
        let r := on.foldl (fun (r : State × NMap Nat) n => let v := r.1.drawFree 32; (v.2, mapSet r.2 n v.1.toNat)) (s, q.a)
        set r.1
        pure { q with a := r.2 }
      else pure q
    writeColumns x d row q
    if g < groups then
      -- a stop at a plane boundary (R185): the instruction becomes the stop point
      let v := pc.setWidth 64 <<< 8 ||| 8 ||| BitVec.ofNat 64 (16 * g / kblock h.fb)
      modify fun s => s.modThread k.core k.ctx fun t => { t with mprog := v, rowStops := if t.rowStops.contains v then t.rowStops else v :: t.rowStops }
      let s ← get
      endWith (discardYounger s k)
    else modify fun s => s.modThread k.core k.ctx clearPart) s

end Sys2Proof.Machine
end

