-- ==== Sys2Proof/Machine/Permute.lean ====
section
/-! DEFINITION. Permutes and single-element moves (07 R149 to R153). -/

namespace Sys2Proof.Machine
open Sys2Proof

/-! ## Moving elements (R131, R155, R386) -/

/-- What a permute writes to a destination element. -/
inductive Pick where
  /-- The source element of a number, with its presence. -/
  | from (j : Nat)
  /-- Zero, PRESENT. -/
  | zero
  /-- Poison that was consumed as an index. -/
  | poison
  deriving DecidableEq, Repr

/-- Wait for the source elements of a move of elements of 8 bits or fewer (R131). -/
def waitPicks (ga : Grp) : List (Nat × Pick) → M Unit
  | [] => pure ()
  | (_, .from j) :: r => do
    waitEl 0 ga j
    waitPicks ga r
  | _ :: r => waitPicks ga r

/-- The element that a move writes (R155, R386). -/
def movedElem (s : State) (x : Ctx) (o : Op) (fa : BitVec 6) (pc : PC) (ga gd : Grp) (i : Nat) : Pick → Elem
  | .zero => ⟨i, .val (zeroCode fa), 0, 0⟩
  | .poison => ⟨i, .pois none true, 0, 0⟩
  | .from j =>
    let t := s.thread x.core x.ctx
    let v := moved fa (elBits t ga j)
    match elPres t ga j with
    | .pois => ⟨i, .pois (some v) false, 0, 0⟩
    | .flt => ⟨i, .flt v (elSlot t ga j), 0, 0⟩
    | .pres => ⟨i, .val v, 0, 0⟩
    | .pend =>
      let e : ElOp := { op := o, p := {}, fa := fa, fb := 0, fd := fa, d := gd, srcs := [ga], move := true }
      let r := holeRec s x e pc (vecMode t {}) (trapEnables t.fctl) 0 i [] 127 127
      ⟨i, .hole { r with a := capture s x ga j, chained := true }, 0, 0⟩

/-- Write the picked elements from `start` on. -/
def moveAll (o : Op) (fa : BitVec 6) (ga gd : Grp) (start : Nat) (l : List (Nat × Pick)) : M Unit := do
  if gd.w < 16 then waitPicks ga l
  noteWords ((List.range ga.len).map fun i => (ga, i)) (l.filterMap fun q => match q.2 with | .from j => some (ga, j) | _ => none)
  let s ← get
  let pc ← pcNow
  putAll gd gd.w false ((l.filter fun q => start ≤ q.1).map fun q => movedElem s s.at' o fa pc ga gd q.1 q.2)
  chargeVec .x gd.w

/-- The destination elements below VL that a permute writes: `f` says what an active one takes, and nothing leaves it
unchanged; inactive ones follow ZP (R129). -/
def picks (t : Thread) (p : Pfx) (f : Nat → Option Pick) : List (Nat × Pick) :=
  (List.range t.vl.toNat).filterMap fun i =>
    if active t p i then (f i).map fun q => (i, q) else if p.zp then some (i, .zero) else none

/-- The checks that the moves of whole groups share: VSTART, the format word, the groups, which share no register (R153), in this order,
to which R33 step 7 gives none, and a length L after them (log 49, DESIGN CHOICE). -/
def moveHead (o : Op) (d a f : Reg) (more : List Grp) (sc : List Reg := []) : M (FWord × Grp × Grp) := do
  vstartZero o
  let w ← fmtWord f sc
  if !isX w.fa || w.fd != w.fa then badFormat w.w
  let vl ← vlen
  let ga : Grp := ⟨a, codeWidth w.fa, vl⟩
  let gd : Grp := ⟨d, codeWidth w.fa, vl⟩
  checkGroups true gd (ga :: more)
  return (w, ga, gd)

/-! ## The permutes -/

/-- `vslide` (R149): `down` when the flag is set. -/
def execVslide (c : Ctl) (x : Option Pfx) (d a b f : Reg) (down : Bool) (s : State) : Out :=
  vinstr (.vslide c x d a b f down) .vslide .x true (fun start => do
    let (w, ga, gd) ← moveHead .vslide d a f [] [b]
    let k := (← dispS b).toNat
    let vl ← vlen
    moveAll .vslide w.fa ga gd start (picks (← thr) (pfx x) fun i =>
      if down then some (if i + k < vl then .from (i + k) else .zero) else if k ≤ i then some (.from (i - k)) else none)) s

/-- `vperm` (R150): the index operand is waited for, and a POISONED index poisons its element. -/
def execVperm (c : Ctl) (x : Option Pfx) (d a b f : Reg) (s : State) : Out :=
  vinstr (.vperm c x d a b f) .vperm .x true (fun start => do
    vstartZero .vperm
    let w ← fmtWord f
    if !isX w.fa || w.fd != w.fa || (w.fb != 0x13 && w.fb != 0x15) then badFormat w.w
    let t ← thr
    let vl := t.vl.toNat
    let ga : Grp := ⟨a, codeWidth w.fa, vl⟩
    let gb : Grp := ⟨b, codeWidth w.fb, vl⟩
    let gd : Grp := ⟨d, codeWidth w.fa, vl⟩
    checkGroups true gd [ga, gb]
    -- the lowest element decides (R345)
    for i in (List.range vl).filter (active t (pfx x)) do
      waitEl start gb i
      if ga.w < 16 && elPres t gb i == .pres && decide (elBits t gb i < vl) then waitEl start ga (elBits t gb i)
    noteReads (pfx x) 0 vl [gb] fun _ => [gb]
    moveAll .vperm w.fa ga gd start (picks t (pfx x) fun i => some (
      if elPres t gb i == .pois then .poison
      else
        let j := elBits t gb i
        if j < vl then .from j else .zero))) s

/-- `vreshape` (R151). -/
def execVreshape (c : Ctl) (x : Option Pfx) (d a b f : Reg) (s : State) : Out :=
  vinstr (.vreshape c x d a b f) .vreshape .x true (fun start => do
    let (w, ga, gd) ← moveHead .vreshape d a f [] [b]
    let l := (← dispS b).toNat
    let vl ← vlen
    if l = 0 || vl % l != 0 then illegal .vreshape
    let rows := vl / l
    moveAll .vreshape w.fa ga gd start (picks (← thr) (pfx x) fun j => some (.from (j % rows * l + j / rows)))) s

/-- The numbers below VL whose mask bit is set, rising. -/
def selected (t : Thread) (b : PReg) : List Nat := (List.range t.vl.toNat).filter (maskBit (maskReg t b))

/-- `vcompress` (R152). -/
def execVcompress (c : Ctl) (x : Option Pfx) (d a : Reg) (b : PReg) (f : Reg) (s : State) : Out :=
  vinstr (.vcompress c x d a b f) .vcompress .x true (fun start => do
    let (w, ga, gd) ← moveHead .vcompress d a f []
    let t ← thr
    let sel := selected t b
    moveAll .vcompress w.fa ga gd start ((List.range t.vl.toNat).filterMap fun i => match sel[i]? with
      | some j => some (i, .from j)
      | none => if (pfx x).zp then some (i, .zero) else none)) s

/-- `vexpand` (R152). -/
def execVexpand (c : Ctl) (x : Option Pfx) (d a : Reg) (b : PReg) (f : Reg) (s : State) : Out :=
  vinstr (.vexpand c x d a b f) .vexpand .x true (fun start => do
    let (w, ga, gd) ← moveHead .vexpand d a f []
    let t ← thr
    let m := maskReg t b
    let dest := (selected t b).zipIdx
    moveAll .vexpand w.fa ga gd start ((List.range t.vl.toNat).filterMap fun i =>
      if maskBit m i then some (i, .from (((dest.find? fun q => q.1 == i).map (·.2)).getD 0))
      else if (pfx x).zp then some (i, .zero) else none)) s

/-! ## Single elements (R153) -/

/-- The data source of `vbcast` and `vins`, read at dispatch: poison is data (R153). -/
def dataS (r : Reg) : M (W64 × Bool) := do
  let s ← get
  let x := s.at'
  match s.lane.bind (·.scal) with
  | some v => return (v.getD r.toNat 0, false)
  | none => match s.scalarPres x r with
    | .pend => park 0 .queued
    | .flt => deliver r.toNat (faultedHalf s x r)
    | .pois => return (s.scalar x r, true)
    | .pres => return (s.scalar x r, false)

/-- The element that `vbcast` or `vins` writes. -/
def castElem (fd : BitVec 6) (v : W64 × Bool) (i : Nat) : Elem :=
  if v.2 then ⟨i, .pois none true, 0, 0⟩ else ⟨i, .val (moved fd (v.1.toNat % 2 ^ codeWidth fd)), 0, 0⟩

/-- `vbcast` (R153). -/
def execVbcast (c : Ctl) (x : Option Pfx) (d a f : Reg) (s : State) : Out :=
  vinstr (.vbcast c x d a f) .vbcast .x true (fun _ => do
    vstartZero .vbcast
    let w ← fmtWord f [a]
    if !isX w.fd then badFormat w.w
    let t ← thr
    let gd : Grp := ⟨d, codeWidth w.fd, t.vl.toNat⟩
    alignGroups [gd]
    let v ← dataS a
    putAll gd gd.w false ((indices 0 t.vl.toNat).filterMap fun i =>
      if active t (pfx x) i then some (castElem w.fd v i) else if (pfx x).zp then some ⟨i, .val (zeroCode w.fd), 0, 0⟩ else none)
    chargeVec .x gd.w) s

/-- `vext` (R153). -/
def execVext (c : Ctl) (x : Option Pfx) (d a b f : Reg) (s : State) : Out :=
  vinstr (.vext c x d a b f) .vext .x true (fun start => do
    vstartZero .vext
    let w ← fmtWord f [b]
    if !isX w.fa then badFormat w.w
    let vl ← vlen
    let ga : Grp := ⟨a, codeWidth w.fa, vl⟩
    alignGroups [ga]
    let i := (← dispS b).toNat
    chargeVec .x ga.w
    if vl ≤ i then wrS d 0
    else
      waitEl start ga i
      let t ← thr
      if elPres t ga i == .pois then wrPoison d
      else
        let v := moved w.fa (elBits t ga i)
        wrS d (match ifmtOf w.fa with
          | some ft => BitVec.ofInt 64 (ft.val v)
          | none => BitVec.ofNat 64 v)) s

/-- `vins` (R153). -/
def execVins (c : Ctl) (x : Option Pfx) (d a b f : Reg) (s : State) : Out :=
  vinstr (.vins c x d a b f) .vins .x true (fun _ => do
    vstartZero .vins
    let w ← fmtWord f [a, b]
    if !isX w.fd then badFormat w.w
    let vl ← vlen
    let gd : Grp := ⟨d, codeWidth w.fd, vl⟩
    alignGroups [gd]
    let i := (← dispS b).toNat
    let v ← dataS a
    if i < vl then putAll gd gd.w false [castElem w.fd v i]
    chargeVec .x gd.w) s

end Sys2Proof.Machine
end

