-- ==== Sys2Proof/Machine/Reduce.lean ====
section
/-! DEFINITION. The summation tree (05 R100) and the plain reductions (07 R154). -/

namespace Sys2Proof.Machine
open Sys2Proof

/-! ## The tree of R100 -/

/-- A leaf or node: its code, and whether a POISONED element went into it. -/
abbrev TNode := Nat × Bool

/-- What combines two nodes: mode and stochastic word, left, right. -/
abbrev NodeOp := Rnd → Nat → Nat → FRes

/-- One level of the tree: the nodes, SRSTATE and the flags after it. Every node draws under SR; a poisoned one raises no flag
(R99). -/
def treeLevel (op : NodeOp) (mode : RMode) (draws : Bool) : List TNode → W64 → W64 → List TNode × W64 × W64
  | a :: b :: r, sr, fl =>
    let dr := if draws ∧ mode = .sr then srNext sr else (sr, 0)
    let q := op ⟨mode, dr.2⟩ a.1 b.1
    let bad := a.2 || b.2
    let rest := treeLevel op mode draws r dr.1 (if bad then fl else fl ||| q.flags)
    ((q.code, bad) :: rest.1, rest.2)
  | l, sr, fl => (l, sr, fl)

/-- The levels of a tree of `2^n` leaves. -/
def treeFrom (op : NodeOp) (mode : RMode) (draws : Bool) : (n : Nat) → List TNode → W64 → W64 → List TNode × W64 × W64
  | 0, l, sr, fl => (l, sr, fl)
  | n + 1, l, sr, fl =>
    let q := treeLevel op mode draws l sr fl
    treeFrom op mode draws n q.1 q.2.1 q.2.2

/-- The levels of the tree over `n` elements. -/
def treeDepth (n : Nat) : Nat := if n ≤ 1 then 0 else Nat.log2 (n - 1) + 1

/-- `TreeReduce` of R100 over `n` leaves that `leaf` gives: the root, SRSTATE and the flags. -/
def treeReduce (op : NodeOp) (mode : RMode) (draws : Bool) (n : Nat) (leaf : Nat → TNode) (sr : W64) : TNode × W64 × W64 :=
  let k := treeDepth n
  let q := treeFrom op mode draws k ((List.range (2 ^ k)).map leaf) sr 0
  (q.1.headD (0, false), q.2)

/-- A sum, or a maximum or minimum. -/
inductive Red where
  | sum | max | min
  deriving DecidableEq, Repr

/-- The identity of R100. -/
def Red.identity (k : Red) (f : FFmt) : Nat :=
  match k with
  | .sum => f.signed true 0
  | .max => f.signed true (f.infCode.getD 0)
  | .min => f.signed false (f.infCode.getD 0)

/-- The node of R100. -/
def Red.node (k : Red) (f : FFmt) : NodeOp := fun r a b =>
  match k with
  | .sum => f.add r (f.decode a) (f.decode b)
  | .max => f.minMax true a b
  | .min => f.minMax false a b

/-- The exact result of R101 over the values of the active elements, and what it is without any: of a maximum or minimum a bound of `f`,
for which a reduction takes FD (R154; log 49, DESIGN CHOICE). -/
def Red.exact (k : Red) (f : IFmt) (vs : List Int) : Int :=
  match k, vs with
  | .sum, l => l.foldl (· + ·) 0
  | .max, [] => f.lo
  | .min, [] => f.hi
  | .max, v :: r => r.foldl Max.max v
  | .min, v :: r => r.foldl Min.min v

/-! ## The plain reductions (R154) -/

/-- A reduction of A into element 0 of D. -/
def reduce (i : Instr) (o : Op) (x : Option Pfx) (d a f : Reg) (k : Red) (sat : Bool) (s : State) : Out :=
  vinstr i o .a true (fun start => do
    vstartZero o
    let w ← fmtWord f
    let fp := isF w.fa && !sat
    let fi := intFmt w.fa
    let ok := if fp then w.fd == w.fa
      else isI w.fa && isI w.fd && fi.signed == (intFmt w.fd).signed && decide (fi.width ≤ (intFmt w.fd).width)
    if !ok then badFormat w.w
    let t ← thr
    let vl := t.vl.toNat
    let p := pfx x
    let ga : Grp := ⟨a, codeWidth w.fa, vl⟩
    alignGroups [ga]
    if vl = 0 then return
    let act := (List.range vl).filter (active t p)
    for i in act do waitEl start ga i
    noteReads p 0 vl [ga] fun _ => [ga]
    let bad (i : Nat) : Bool := elPres t ga i == .pois
    let gd : Grp := ⟨d, codeWidth w.fd, 1⟩
    chargeVec .a (Max.max ga.w gd.w)
    if fp then
      let ft := (ffmtOf w.fa).getD fp32
      let leaf (i : Nat) : TNode := if i < vl ∧ active t p i then (elBits t ga i, bad i) else (k.identity ft, false)
      let (top, sr, nodes) := treeReduce (k.node ft) (vecMode t p) (k == .sum) vl leaf t.srstate
      -- a single element meets no node; a NaN result is canonical all the same, and a signalling one raises NV (R83, R84)
      let v := ft.decode top.1
      let root := if v.isNan then (ft.nan, top.2) else top
      let fl := if v.isSig && !top.2 then nodes ||| flagNV else nodes
      trapIf fl
      modify fun s => s.modThread s.at'.core s.at'.ctx fun t => { t with srstate := sr }
      putAll gd gd.w false [⟨0, if root.2 then .pois none true else .val root.1, fl, 0⟩]
    else if act.any bad then putAll gd gd.w false [⟨0, .pois none true, 0, 0⟩]
    else
      let fd := intFmt w.fd
      let v := (if act.isEmpty then k.exact fd [] else k.exact fd (act.map fun i => fi.val (elBits t ga i)))
      let r := fd.deliver (sat || (k == .sum && w.sati)) v
      putAll gd gd.w false [⟨0, .val r.1, r.2, 0⟩]) s

/-- `vrsum` (R154). -/
def execVrsum (c : Ctl) (x : Option Pfx) (d a f : Reg) (s : State) : Out := reduce (.vrsum c x d a f) .vrsum x d a f .sum false s

/-- `vrmax` (R154). -/
def execVrmax (c : Ctl) (x : Option Pfx) (d a f : Reg) (s : State) : Out := reduce (.vrmax c x d a f) .vrmax x d a f .max false s

/-- `vrmin` (R154). -/
def execVrmin (c : Ctl) (x : Option Pfx) (d a f : Reg) (s : State) : Out := reduce (.vrmin c x d a f) .vrmin x d a f .min false s

/-- `vrssum` (R154). -/
def execVrssum (c : Ctl) (x : Option Pfx) (d a f : Reg) (s : State) : Out := reduce (.vrssum c x d a f) .vrssum x d a f .sum true s

end Sys2Proof.Machine
end

