-- ==== Sys2Proof/Machine/Tasks.lean ====
section
/-! DEFINITION. Dispatch (19 R297 to R299), the Belvedere (R300 to R303), and the task instructions (R306 to R311). -/

namespace Sys2Proof.Machine
open Sys2Proof

/-! ## Contexts and cores -/

/-- The node a dispatcher entry names. -/
def entryNode (s : State) : DEntry → Option Node
  | .fresh p i n => (findInst s p i).map fun x => x.nodes.getD n default
  | .resume p sl => (mapGet (s.part p).saved sl).bind fun x => (findInst s p x.task.inst).map fun i => i.nodes.getD x.task.node default

/-- A node in the core's dispatcher has pre-empted the task of this thread and waits for its context (R298). -/
def reserved (s : State) (core thr : Nat) : Bool :=
  (s.pav (pavOf core)).disp.any fun l => l.any fun e => match e, entryNode s e with
    | .fresh .., some n => !n.tend && n.pin.core == core && n.victim == some thr
    | _, _ => false

/-- Task thread contexts of a core that are free. -/
def freeCtxs (s : State) (core : Nat) : List Nat :=
  (List.range 4).filter fun t => (s.thread core t).st == .free && !reserved s core t

/-- One of several: a free choice when there are more than one (log 6, DESIGN CHOICE). -/
def chooseOne (s : State) (l : List Nat) : Option (Nat × State) :=
  match l with
  | [] => none
  | [a] => some (a, s)
  | a :: r =>
    let p := s.drawFree 16
    some ((a :: r).getD (p.1.toNat % (r.length + 1)) a, p.2)

/-- FEATMASK of a core covers a mask (R45). -/
def coversFeat (s : State) (core : Nat) (feat : BitVec 16) : Bool := feat &&& ~~~(s.featmask core) == 0

/-- A core may receive a dispatch or bid: it is enabled, its pavilion belongs to the partition and is not scrubbing, and it is
not suspect (R10, R211, R349). -/
def takesTasks (s : State) (part core : Nat) : Bool :=
  s.enabled core && s.partOf core == some part && (s.pav (pavOf core)).scrub.isNone && !(s.core core).suspect

/-! ## Starting a task (R54, R297) -/

/-- Count a dispatch at a priority (R20). -/
def countDispatch (s : State) (pav prio : Nat) : State :=
  s.modPav pav fun p => { p with passed := p.passed.mapIdx fun q n => if q = prio then 0 else if prio < q then n + 1 else n }

/-- The order of dispatches of a partition (R298). -/
def nextOrder (s : State) (part : Nat) : Nat × State :=
  let n := (s.part part).order
  (n, s.modPart part fun p => { p with order := n + 1 })

/-- The thread of a task at its start (R54, R75). -/
def startedThread (t : Thread) (n : Node) (k : Task) : Thread :=
  { t.emptied with
    pc := n.code.setWidth 56
    srstate := if n.seed = 0 then 0x5DEECE66D1CE4E5B else n.seed
    hentry := n.hent &&& 0xFFFFFFFFFFFFFC
    st := .running
    task := some k }

/-- Start a node on a free context. -/
def startTask (s : State) (part inst node core thr : Nat) : State :=
  match findInst s part inst with
  | none => s
  | some i =>
    let n := i.nodes.getD node default
    let (o, s) := nextOrder s part
    let s := modInst s part inst fun i => { i with nodes := i.nodes.modify node fun n => { n with st := .placed, victim := none } }
    (s.modThread core thr fun t => startedThread t n ⟨part, inst, node, i.queue, n.prio, o⟩).resetWait core thr

/-- Remove an entry from a dispatcher. -/
def dequeueD (s : State) (pav : Nat) (e : DEntry) : State :=
  s.modPav pav fun p => { p with disp := p.disp.map fun l => l.erase e }

/-! ## DISPATCH (R20, R297 to R299) -/

/-- Priorities in the order of R20. -/
def prioOrder (p : Pav) : List Nat :=
  let aged := (List.range 4).filter fun q => !(p.disp.getD q []).isEmpty && decide (64 ≤ p.passed.getD q 0)
  aged ++ (List.range 4).filter fun q => !aged.contains q

/-- Post the no-eligible-core record of a node (R299, R349). -/
def noCore (s : State) (part node : Nat) (feat : BitVec 16) : State :=
  let c : Cause := { cls := 6, code := 6, aux := node, aux2 := feat.setWidth 64 }
  post s part false (c.record s (partIdent part) 0 .async false)

/-- The task thread a pinned node pre-empts (R298): the largest priority number, the most recently dispatched. -/
def victimOf (s : State) (core prio : Nat) : Option Nat :=
  ((List.range 4).foldl (fun (best : Option (Nat × Nat × Nat)) t =>
    let th := s.thread core t
    match th.task, th.st with
    | _, .free | _, .frozen | _, .ending _ | _, .restoring _ | none, _ => best
    | some k, _ =>
      if k.prio ≤ prio || reserved s core t then best
      else match best with
        | none => some (t, k.prio, k.order)
        | some (b, p, o) => if p < k.prio ∨ (p = k.prio ∧ o < k.order) then some (t, k.prio, k.order) else some (b, p, o)) none).map (·.1)

/-- A save slot of the partition is free (R280). -/
def slotFree (s : State) (part : Nat) : Bool := decide ((s.part part).saved.length < (s.part part).saveCnt.toNat)

/-- What dispatch can do with a fresh pinned node at its place (R297, R298); nothing where it cannot be placed. -/
def tryPinned (s : State) (pav part inst k : Nat) (n : Node) : Option State :=
  let core := n.pin.core
  let e : DEntry := .fresh part inst k
  if !coversFeat s core n.feat then
    -- it is never dispatched (R299)
    if n.noCore then none
    else some (noCore (modInst s part inst fun i => { i with nodes := i.nodes.modify k fun n => { n with noCore := true } }) part k n.feat)
  else if !takesTasks s part core then none
  else
    -- the context of its victim, or any that is free
    let mine := n.victim.toList.filter fun t => (s.thread core t).st == .free
    match chooseOne s (if mine.isEmpty then freeCtxs s core else mine) with
      | some (t, s) => some (startTask (countDispatch (dequeueD s pav e) pav n.prio) part inst k core t)
      | none => match if n.victim.isSome then none else victimOf s core n.prio with
        | none => none
        | some t =>
          if !slotFree s part && (s.thread core t).stop.isNone then none
          else
            let s := modInst s part inst fun i => { i with nodes := i.nodes.modify k fun n => { n with victim := some t } }
            some (s.modThread core t fun th => { th with stop := some (th.stop.getD 1) })

/-- A saved task holds a frozen command (R280). -/
def hasFrozenCmd (s : State) (x : Saved) (part sl : Nat) : Bool :=
  ((s.core x.home).copyQ).any fun p => p.owner == .saved part sl && p.phase == .frozen

/-- Cores where a saved task may resume, its home first (R299). -/
def resumeCores (s : State) (part sl : Nat) (x : Saved) (n : Node) : List Nat :=
  if !n.mov || hasFrozenCmd s x part sl || selValid x.sel then [x.home]
  else x.home :: ((s.sitesOf (pavOf x.home)).map (144 * pavOf x.home + ·)).filter (· != x.home)

/-- What dispatch can do with a saved task (R280, R299, R349). -/
def tryResume (s : State) (pav part sl : Nat) (x : Saved) (n : Node) : Option State :=
  let e : DEntry := .resume part sl
  if x.wait ≠ .none then none
  else
    let all := resumeCores s part sl x n
    let ok := all.filter fun c => coversFeat s c n.feat
    let barred := ok.isEmpty || (all.length == 1 && (s.core x.home).suspect)
    if barred then
      if x.noCore then none
      else some (noCore (s.modPart part fun p => { p with saved := mapSet p.saved sl { x with noCore := true } }) part x.task.node n.feat)
    else
      let open' := ok.filter fun c => takesTasks s part c && !(freeCtxs s c).isEmpty
      match if open'.contains x.home then some (x.home, s) else chooseOne s open' with
      | none => none
      | some (c, s) => match chooseOne s (freeCtxs s c) with
        | none => none
        | some (t, s) =>
          let s := countDispatch (dequeueD s pav e) pav x.task.prio
          some (s.modThread c t fun th => { th.emptied with st := .restoring sl })

/-- What dispatch can do with an entry; a tendered node takes part through its tender only. -/
def tryEntry (s : State) (pav : Nat) (e : DEntry) : Option State :=
  match e, entryNode s e with
  | .fresh part inst k, some n => if n.tend then none else tryPinned s pav part inst k n
  | .resume part sl, some n => (mapGet (s.part part).saved sl).bind fun x => tryResume s pav part sl x n
  | _, none => none

/-- The context of a pre-empted task has been freed for its node: that dispatch comes first (R298). -/
def victimFreed (s : State) (e : DEntry) : Bool :=
  match e, entryNode s e with
  | .fresh .., some n => !n.tend && (match n.victim with | some t => (s.thread n.pin.core t).st == .free | none => false)
  | _, _ => false

/-- One dispatch of a pavilion; nothing where no priority holds a node that can be placed (R297). -/
def dispatchTry (s : State) (pav : Nat) : Option State :=
  let p := s.pav pav
  if p.part.isNone || p.scrub.isSome then none
  else
    let all := p.disp.toList.flatten
    match (all.filter (victimFreed s)).findSome? (tryEntry s pav) with
    | some r => some r
    | none => (prioOrder p).findSome? fun q => (p.disp.getD q []).findSome? (tryEntry s pav)

/-- DISPATCH (R297). -/
def execDispatch (pav : Nat) (s : State) : Out := .next ((dispatchTry s pav).getD s)

/-! ## The Belvedere (R300 to R303) -/

/-- |a - b|. -/
def dist (a b : Nat) : Nat := (a - b) + (b - a)

/-- HOP of R301. -/
def hopCost (s : State) (core : Nat) (bufs : List Buf) : Nat :=
  match bufs.find? (·.loc1) with
  | none => 0
  | some b =>
    if b.site.chip ≠ s.chip then 64
    else if pavOf b.site.core = pavOf core then dist (siteOf core / 12) b.site.row.toNat + dist (siteOf core % 12) b.site.col.toNat
    else if pavOf b.site.core / 4 = pavOf core / 4 then 32
    else 48

/-- NRES of R301. -/
def nonResident (s : State) (core : Nat) (bufs : List Buf) : Nat :=
  min 65535 (ceilDiv (((bufs.filter fun b => !(b.loc1 && b.site == Site.ofCore s.chip core)).map (·.size)).foldl (· + ·) 0) 1024)

/-- QD of R301. -/
def queueDepth (s : State) (part core : Nat) : Nat :=
  min 255 (((List.range 4).filter fun t => (s.thread core t).st != .free).length
    + ((s.part part).saved.filter fun (e : Nat × Saved) => e.2.home == core).length)

/-- The cost a core bids for a node, or none when it does not bid (R301). -/
def bidCost (s : State) (part core : Nat) (cls : ClassRec) (i : Inst) (n : Node) : Option Nat :=
  if !takesTasks s part core || (freeCtxs s core).isEmpty || !coversFeat s core (cls.cfeat ||| n.feat) then none
  else
    let bufs := n.ins.map fun b => i.bufs.getD b default
    some (min 65535 (cls.wres * nonResident s core bufs + cls.wq * queueDepth s part core + cls.whop * hopCost s core bufs + cls.wbias))

/-- Starvation aborts the instance (R303, R310). -/
def starve (s : State) (part inst node : Nat) : State :=
  let c : Cause := { cls := 6, code := 4, aux := node }
  abortInstance (post s part true (c.record s (partIdent part) 0 .fatal false)) part inst

/-- Announce a node (R301): its class is read now, and every core that bids sends its bid. A ninth announcement or an invalid
class is starvation (R303, R310). -/
def announce (s : State) (pav part inst node : Nat) : State :=
  match findInst s part inst with
  | none => s
  | some i =>
    let n := i.nodes.getD node default
    let cls := (classesAt s part pav).getD n.cls {}
    if 8 ≤ n.announced || !cls.valid then starve s part inst node
    else
      let serial := (s.pav pav).serial
      let s := modInst s part inst fun i => { i with nodes := i.nodes.modify node fun n => { n with announced := n.announced + 1 } }
      let s := s.modPav pav fun p => { p with
        serial := serial + 1
        tender := some { serial := serial, part := part, inst := inst, node := node, cls := cls, bids := [],
                         phase := .bidding (s.reft.toNat + cls.win) } }
      { s with net := s.net ++ (s.coresOf part).filterMap fun c => (bidCost s part c cls i n).map fun cost => .bid ⟨pav, serial, c, cost⟩ }

/-- The tendered node that a home dispatcher announces next (R297, R301); a pavilion that scrubs for its partition does so too, for the
other pavilions (R211). -/
def nextTender (s : State) (pav : Nat) : Option (Nat × Nat × Nat) :=
  let p := s.pav pav
  let home := match p.scrub with
    | none => p.part.isSome
    | some q => q.isSome
  if !home || p.tender.isSome then none
  else (prioOrder p).findSome? fun q => (p.disp.getD q []).findSome? fun e => match e, entryNode s e with
    | .fresh part inst k, some n => if n.tend then some (part, inst, k) else none
    | _, _ => none

/-- TENDER_ANNOUNCE (R301). -/
def execTenderAnnounce (pav : Nat) (s : State) : Out :=
  .next (match nextTender s pav with
    | none => s
    | some (part, inst, k) => announce s pav part inst k)

/-- The tender a message is about. -/
def tenderOf (s : State) (pav serial : Nat) : Option Tender := (s.pav pav).tender.filter fun t => t.serial == serial

/-- BID (R301): a bid that comes after the window is discarded. -/
def execBid (q : Bid) (s : State) : Out :=
  .next (match tenderOf s q.pav q.serial with
    | none => s
    | some t => match t.phase with
      | .bidding closes => if s.reft.toNat ≤ closes then
          s.modPav q.pav fun p => { p with tender := some { t with bids := t.bids ++ [q] } } else s
      | _ => s)

/-- Logical site rank of a core in its pavilion (R41). -/
def logicalSite (s : State) (core : Nat) : Nat := ((s.sitesOf (pavOf core)).filter (· < siteOf core)).length

/-- A bid beats another (R302): cost, then tie rank, then pavilion. -/
def bidLess (s : State) (rot : Nat) (a b : Bid) : Bool :=
  let rank (q : Bid) : Nat := (logicalSite s q.core + 128 - rot % 128) % 128
  decide (a.cost < b.cost) || (a.cost == b.cost &&
    (decide (rank a < rank b) || (rank a == rank b && decide (pavOf a.core < pavOf b.core))))

/-- The winner of a list of bids. -/
def bestBid (s : State) (rot : Nat) : List Bid → Option Bid
  | [] => none
  | b :: r => match bestBid s rot r with
    | none => some b
    | some c => if bidLess s rot c b then some c else some b

/-- A node is re-tendered (R303): for the eighth time, it starves instead. -/
def starved (s : State) (t : Tender) : Bool :=
  match findInst s t.part t.inst with
  | none => false
  | some i => decide (8 ≤ (i.nodes.getD t.node default).announced)

/-- BID_WINDOW_CLOSE (R302, R303). -/
def execBidWindowClose (pav serial : Nat) (s : State) : Out :=
  .next (match tenderOf s pav serial with
    | none => s
    | some t => match t.phase with
      | .bidding closes =>
        if s.reft.toNat < closes then s
        else match bestBid s (s.pav pav).rot t.bids with
          | none =>
            if starved s t then starve s t.part t.inst t.node
            else s.modPav pav fun p => { p with tender := some { t with phase := .again (s.reft.toNat + t.cls.win) } }
          | some b =>
            let s := s.modPav pav fun p => { p with rot := (p.rot + 1) % 128, tender := some { t with phase := .awarded b.core } }
            { s with net := s.net ++ [.award pav serial b.core] }
      | _ => s)

/-- AWARD (R302, R303): the core starts the task, or the bid is withdrawn and the node is announced again at once. -/
def execAward (pav serial core : Nat) (s : State) : Out :=
  .next (match tenderOf s pav serial with
    | none => s
    | some t =>
      if t.phase ≠ .awarded core then s
      else match if takesTasks s t.part core then chooseOne s (freeCtxs s core) else none with
        | some (thr, s) =>
          let s := s.modPav pav fun p => { p with tender := none }
          let prio := ((findInst s t.part t.inst).map fun (i : Inst) => (i.nodes.getD t.node default).prio).getD 0
          startTask (countDispatch (dequeueD s pav (.fresh t.part t.inst t.node)) pav prio) t.part t.inst t.node core thr
        | none =>
          let c : Cause := { cls := 6, code := 5, aux := t.node }
          let s := post s t.part false (c.record s (s.thid core 7) 0 .async false)
          announce s pav t.part t.inst t.node)

/-- RETENDER_TIMER (R303): the node is announced again. -/
def execRetenderTimer (pav serial : Nat) (s : State) : Out :=
  .next (match tenderOf s pav serial with
    | none => s
    | some t => match t.phase with
      | .again due => if s.reft.toNat < due then s else announce s pav t.part t.inst t.node
      | _ => s)

/-! ## Tile buffers (R306) -/

/-- The task of the running thread. -/
def myTask : M Task := do return ((← thr).task.getD default)

/-- The snapshot of a buffer (R306). -/
def bufWord (b : Buf) : W64 :=
  BitVec.ofNat 64 ((if b.full then 2 ^ 63 else 0) + (if b.wr then 2 ^ 62 else 0) + b.rd % 2 ^ 13 * 2 ^ 32 + b.gen.toNat)

/-- The instance of the running task and the number of the buffer that register `a` names (R306). -/
def namedBuf (o : Op) (a : Reg) : M (Task × Nat × Buf) := do
  control [a]
  let n := (← sval a).toNat
  if 2 ^ 16 ≤ n then illegal o
  let t ← myTask
  match ((findInst (← get) t.part t.inst).bind fun i => i.bufs[n]?) with
  | none => raise .precise { cls := 6, code := 2, aux := n }
  | some b => return (t, n, b)

/-- `tbset` (R295, R306). -/
def execTbset (c : Ctl) (d a : Reg) (t : Bool) (s : State) : Out :=
  instr (.tbset c d a t) .tbset (do
    let (k, n, b) ← namedBuf .tbset a
    if !b.wr && b.rd == 0 && b.full != t then
      let b' : Buf := { b with full := t, gen := if t then b.gen + 1 else b.gen }
      modify fun s => claimNodes (modInst s k.part k.inst fun i => { i with bufs := i.bufs.set n b' }) k.part k.inst
    wrS d (bufWord b)) s

/-- `tbtest` (R306). -/
def execTbtest (c : Ctl) (d a : Reg) (s : State) : Out :=
  instr (.tbtest c d a) .tbtest (do
    let (_, _, b) ← namedBuf .tbtest a
    wrS d (bufWord b)) s

/-! ## Launches from a thread (R307) -/

/-- Read a record of `n` bytes as one load: poison is fatal (R307, R310, R346). -/
def readRecord (n : Nat) (ea : W64) : M (List Byte) := do
  let l ← scalarAt .read true n false ea
  let r ← scalarRead l n ea
  if r.2 then poisonFault (addr := ea)
  modify fun s => chargeCtx s s.at' (accessWeight s l)
  return r.1

/-- `glaunch` (R266, R267, R307). -/
def execGlaunch (c : Ctl) (a b : Reg) (s : State) : Out :=
  instr (.glaunch c a b) .glaunch (do
    control [a, b]
    let q := (← sval b).toNat
    if 64 ≤ q then illegal .glaunch
    let s ← get
    if !waitOver s s.at'.core s.at'.ctx (.queueRoom q) then waitOn (.queueRoom q)
    let r ← readRecord 64 (← sval a)
    modify fun s => match s.partOf s.at'.core with
      | none => s
      | some p => enqueueLaunch s p q r) s

/-! ## The end and the suspension of a task (R308, R309) -/

/-- `texit` (R308): settle, wait for the commands, release the selection, retire. -/
def execTexit (c : Ctl) (s : State) : Out :=
  instr (.texit c) .texit (do
    settle true 0 64
    let s ← get
    let x := s.at'
    if outstanding s x.core x.ctx then waitOn .commands
    let k ← myTask
    let s := (s.vacate x.core x.ctx).modThread x.core x.ctx fun t => { t with instret := t.instret + 1 }
    endWith (retireNode s k.part k.inst k.node)) s

/-- `tsusp` (R276, R309): the thread goes past the instruction and stops to be saved with CAUSE 3. -/
def execTsusp (c : Ctl) (s : State) : Out :=
  instr (.tsusp c) .tsusp (do
    settle true 0 64
    modify fun s => s.modThread s.at'.core s.at'.ctx fun t => { t with stop := some 3 }) s

/-! ## Tender classes (R300, R310, R311) -/

/-- A tender class record (R300); `none` where R310 refuses it. -/
def parseClass (r : List Byte) : Option ClassRec :=
  let lo := leAt r 0 8
  let hi := leAt r 8 8
  let win := bits hi 32 11
  if !bit hi 63 then some {}
  else if lo / 2 ^ 16 != 0 || bits hi 43 20 != 0 || decide (win < 8) || decide (1024 < win) then none
  else some { valid := true, win := win, wbias := bits hi 24 8, whop := bits hi 16 8, wq := bits hi 8 8, wres := bits hi 0 8,
              cfeat := BitVec.ofNat 16 lo }

/-- `tdclass` (R310): the entry of every pavilion of the partition, as one step. -/
def execTdclass (c : Ctl) (a b : Reg) (s : State) : Out :=
  instr (.tdclass c a b) .tdclass (do
    control [a, b]
    let k := (← sval b).toNat
    if 16 ≤ k then illegal .tdclass
    let r ← readRecord 16 (← sval a)
    match parseClass r with
    | none => raise .precise { cls := 6, code := 3, aux := k }
    | some v => modify fun s =>
      let p := s.partOf s.at'.core
      { s with pavs := s.pavs.map fun (e : Nat × Pav) => if e.2.part == p then (e.1, { e.2 with classes := e.2.classes.setIfInBounds k v }) else e }) s

/-- `tdoffer` (R301, R311): the class is that of the home pavilion of the task's instance. -/
def execTdoffer (c : Ctl) (d a b : Reg) (s : State) : Out :=
  instr (.tdoffer c d a b) .tdoffer (do
    control [a, b]
    let k := (← sval a).toNat
    let n := (← sval b).toNat
    if decide (16 ≤ k) || decide (4096 ≤ n) then illegal .tdoffer
    let t ← myTask
    let s ← get
    match (findInst s t.part t.inst).bind fun i => (i.nodes[n]?).map fun v => (i, v) with
    | none => raise .precise { cls := 6, code := 2, aux := n }
    | some (i, v) =>
      let cls := (classesAt s t.part i.home).getD k {}
      if !cls.valid then raise .precise { cls := 6, code := 3, aux := k }
      wrS d (((bidCost s t.part s.at'.core cls i v).map (BitVec.ofNat 64)).getD (BitVec.allOnes 64))) s

end Sys2Proof.Machine
end

