-- ==== Sys2Proof/Machine/Save.lean ====
section
/-! DEFINITION. Stopping, saving and restoring threads (16 R276 to R284), the host's answers to stopped threads (R122, R259,
R260, R294, R333, R344), and dumps (24 R350 to R353). -/

namespace Sys2Proof.Machine
open Sys2Proof

/-! ## The image of a context (R281 to R283) -/


/-- HREG and HEXT of HWM; nothing when VALID = 0 (R71, R80). -/
def hwmRect (h : W64) : Option (Nat × Nat) := if h.getLsbD 17 then some (bits h.toNat 0 6, bits h.toNat 6 11) else none

/-- The frozen copies of a thread, in push order (R283). -/
def frozenCopies (s : State) (core thr : Nat) : List Pend :=
  ((s.core core).copyQ).filter fun p => p.owner == .live core thr && p.phase == .frozen

/-- A frozen command record (R283): for `cpyt`, which has no dimensions, the done counts read 0. -/
def frozenRecord (p : Pend) : List Byte :=
  let idx : List Nat := match p.cmd.op with
    | .cpy | .cfill => match CopyImg.parse (p.cmd.op == .cfill) p.cmd.img with
      | none => []
      | some g => CopyImg.index g.counts p.done
    | _ => []
  let tag : BitVec 6 := p.cmd.tag.getD 0
  p.cmd.img ++ w8 p.cmd.seq ++ natLe 1 (p.cmd.op.code % 256) ++ natLe 1 tag.toNat ++ zeros 6
    ++ ((List.range 6).flatMap fun d => natLe 4 (idx.getD d 0)) ++ n8 p.segs ++ zeros 16

/-- A fault slot (R281). -/
def slotBytes (k : Option Slot) : List Byte :=
  match k with
  | none => zeros 32
  | some x => w8 x.val ++ natLe 8 x.pc.toNat ++ natLe 2 x.cause.toNat ++ natLe 2 x.elem ++ natLe 1 x.reg.toNat ++ zeros 1
      ++ natLe 2 x.half ++ zeros 8

/-- The loop nest (R281). -/
def nestBytes (n : Option Nest) : List Byte :=
  match n with
  | none => zeros 512
  | some x =>
    let six (l : List W64) : List Byte := (List.range 6).flatMap fun k => w8 (l.getD k 0)
    let bind (k : Nat) : List Byte := match x.binds.find? (·.slot == k) with
      | none => zeros 64
      | some b => natLe 1 b.reg.toNat ++ natLe 1 b.stride.toNat ++ [1] ++ zeros 5 ++ w8 b.base ++ six b.strides
    n8 (x.lev + 256 * x.blen) ++ natLe 8 x.bodyStart.toNat ++ six x.cnt ++ six x.idx ++ zeros 16
      ++ (List.range 4).flatMap bind ++ zeros 128

/-- SAVEINFO (R282). -/
def saveInfo (t : Thread) (ncopy cause : Nat) (pstop : Bool) : Nat :=
  let held := ((List.range 8).filter fun k => (t.slots.getD k none).isSome).foldl (fun a k => a + 2 ^ k) 0
  2 ^ 56 + held * 2 ^ 48 + (if t.nest.isSome then 2 ^ 47 else 0) + (if pstop then 2 ^ 46 else 0) + ncopy * 2 ^ 32
    + t.outs.length * 2 ^ 16 + cause

/-- The register part and the presence part of an image, each in the order of registers (R80, R281). -/
def rectBytes (t : Thread) : List Byte × List Byte :=
  match hwmRect t.hwm with
  | none => ([], [])
  | some (hreg, hext) =>
    let k := ceilDiv hext 8
    let regs := (List.range (hreg + 1)).flatMap fun r => ((List.range k).flatMap fun j => w8 (t.word r j).bits).take hext
    let pres := (List.range (hreg + 1)).flatMap fun r => (List.range k).flatMap fun j => natLe 1 (t.word r j).pres.toNat
    (regs, pres)

/-- The image of a thread in the layout of R281. -/
def contextImage (s : State) (core thr cause : Nat) (pstop : Bool) : List Byte :=
  let t := s.thread core thr
  let copies := frozenCopies s core thr
  let head := n8 (saveInfo t copies.length cause pstop) ++ natLe 8 t.pc.toNat ++ w8 t.vl ++ w8 t.vtype ++ w8 t.fctl ++ w8 t.istat
    ++ w8 t.vstart ++ w8 t.hwm ++ w8 t.mprog ++ w8 t.tags ++ w8 t.cerr ++ w8 t.srstate ++ w8 t.hentry ++ w8 t.sel
    ++ n8 (t.p.toNat / 2 * 2) ++ w8 (s.thid core thr) ++ w8 t.seq ++ zeros 0x78
  let masks := (t.pmk.toList.flatMap w8) ++ t.m.toList.flatMap fun m => m.toList.flatMap w8
  let slots := t.slots.toList.flatMap slotBytes
  let outs := (t.outs.take 16).flatMap fun o => w8 o.1 ++ w8 o.2
  let frozen := copies.flatMap frozenRecord
  let (regs, pres) := rectBytes t
  let body := head ++ masks ++ slots ++ nestBytes t.nest ++ outs ++ zeros (256 - outs.length) ++ zeros 512 ++ frozen ++ regs
  body ++ zeros (align64 body.length - body.length) ++ pres

/-! ## Stopping (R276 to R279) -/

/-- A thread may be asked to stop: it holds a task and is neither frozen nor being restored. -/
def stoppable (t : Thread) : Bool :=
  match t.st with
  | .free | .frozen | .ending _ | .restoring _ => false
  | _ => t.task.isSome

/-- The host reaches a task through the virtual function of its partition (R380). -/
def hostOf (s : State) : ThreadName → Bool
  | .live k t => (s.thread k t).task.any fun x => s.reaches x.part
  | .saved p _ => s.reaches p

/-- A context is in a dump: the host's answers to it wait until the dump ends (R350; log 40, DEDUCED). -/
def dumped (s : State) : ThreadName → Bool
  | .live k t => (s.thread k t).task.any fun x => inDump s x.part (.live k t)
  | .saved p sl => inDump s p (.saved p sl)

/-- The host reaches a task, and may resume, release or end it. -/
def answerable (s : State) (who : ThreadName) : Bool := hostOf s who && !dumped s who

/-- HOST_SUSPEND_REQUEST (R276): CAUSE 4; a request already made stays the one (R277). -/
def execHostSuspendRequest (core thr : Nat) (s : State) : Out :=
  .next (if decide (thr < 4) && stoppable (s.thread core thr) && hostOf s (.live core thr) then askStop s core thr else s)

/-- A vector memory instruction (R225, R134, R230). -/
def isVecMem (i : Instr) : Bool :=
  match i.op with
  | none => false
  | some o => pipeOf o == some .m

/-- Stop a vector memory instruction that waits in its pipe at the element it has come to (R277 step 2): it becomes the stop point. -/
def stopHead (s : State) (core : Nat) (e : PipeEntry) : State :=
  let x : Ctx := ⟨core, e.thr⟩
  let on := { s.modThread core e.thr (fun t => t.withCtl e.ctl) with cur := some x, lane := some e }
  let seen := if e.why == .queued then on
    else finish (instrSeen e.instr e.ctl.vstart.toNat e.start) on
  (({ seen with cur := s.cur, lane := s.lane }).flushPipes core e.thr e.num).modThread core e.thr fun t =>
    { t.rollback e with hostAcc := none, vstart := BitVec.ofNat 64 e.start }

/-- The instruction of a stopping thread that may stop in its pipe: a vector memory instruction that has not passed its fault points
and has no older one. -/
def stopPoint (s : State) (core thr : Nat) : Option PipeEntry :=
  (s.entries core thr).find? fun e => isVecMem e.instr && e.why != .host && !s.hasElder core thr e.num
    && (s.thread core thr).undos.any (·.num == e.num)

/-- What STOP_DRAIN does; nothing (`none`) while the thread still has work to finish. -/
def drainTry (s : State) (core thr : Nat) : Option State :=
  let t := s.thread core thr
  if t.stop.isNone || t.drained || !stoppable t then none
  else if s.inPipe core thr then (stopPoint s core thr).map (stopHead s core)
  else if hasRecord (s.core core) thr || !t.fifo.isEmpty || t.hostAcc.isSome then none
  else some ((freezeCopies s core thr).modThread core thr fun t => { t with drained := true, stall := 0 })

/-- STOP_DRAIN (R173, R277, R278): a waiting vector memory instruction stops at its element; once the thread's records have
drained and its FIFO is empty, its copies freeze and it can be saved. -/
def execStopDrain (core thr : Nat) (s : State) : Out := .next ((drainTry s core thr).getD s)

/-! ## The save (R279 to R283) -/

/-- Replace an owner's name on every command and page request, and in the dump. -/
def renameOwner (s : State) (part : Nat) (o n : ThreadName) (thaw : Bool) : State :=
  let f (l : List Pend) : List Pend := l.map fun p =>
    if p.owner = o then { p with owner := n, phase := if thaw && p.phase == .frozen then .run else p.phase } else p
  let s := { s with cores := s.cores.map fun (e : Nat × Core) => (e.1, { e.2 with copyQ := f e.2.copyQ, units := f e.2.units }) }
  s.modPart part fun p => { p with
    pageReqs := p.pageReqs.map fun r => { r with waiters := r.waiters.map fun w => if w = .thread o then .thread n else w }
    dump := { p.dump with frozen := p.dump.frozen.map fun e => if e.1 = o then (n, e.2) else e } }

/-- The lowest save slot that is free (R280). -/
def lowestSlot (p : Part) : Option Nat :=
  ((List.range (p.saved.length + 1)).find? fun k => (mapGet p.saved k).isNone).filter (· < p.saveCnt.toNat)

/-- A page request of the thread still waits for room in the fault queue (R268). -/
def pageRecWaits (s : State) (part core thr : Nat) : Bool :=
  (s.part part).fqWait.any fun r => r.cls == 8 && r.ident == s.thid core thr

/-- What a saved task waits for (R259, R277, R344, R333). -/
def saveWait (t : Thread) (cause : Nat) : SavedWait :=
  match t.st with
  | .stopped | .stoppedAfter false => .host
  | .stoppedAfter true => .svc
  | .waiting (.page p ea) => .page p ea
  | _ => if cause = 4 then .release else .none

/-- Write a drained thread to a slot and free its context. -/
def saveThread (s : State) (core thr part sl : Nat) (k : Task) : State :=
  let t := s.thread core thr
  let cause := t.stop.getD 0
  let pstop := match t.st with | .stopped | .stoppedAfter _ => true | _ => false
  let wait := saveWait t cause
  let x : Saved := {
    task := k, home := core, wait := wait, after := (match t.st with | .stoppedAfter _ => true | _ => false), slots := t.slots,
    outRes := t.outRes, copies := (frozenCopies s core thr).map (·.id), sel := t.sel, selNum := t.selNum, rowStops := t.rowStops, brkSkip := t.brkSkip,
    bodyEnd := ((t.nest.map fun (n : Nest) => n.bodyEnd).getD 0), idxReg := ((t.nest.map fun (n : Nest) => n.idxReg).getD 0), binds := t.binds }
  let s := slotWrite s part sl 0 (contextImage s core thr cause pstop)
  let s := s.modPart part fun p => { p with saved := mapSet p.saved sl x }
  let s := renameOwner s part (.live core thr) (.saved part sl) false
  let s := s.modCore core fun c => { c with latched := c.latched.filter fun l => l.thr != thr }
  let s := s.vacate core thr
  -- a pinned pre-emption goes to the head of its FIFO, a `tsusp` to the tail (R298, R309)
  if wait = .none then enqueueD s (pavOf core) k.prio (cause == 1) (.resume part sl) else s

/-- The slot a thread can be saved to now (R277 step 5, R280). -/
def saveSlot (s : State) (core thr : Nat) : Option (Task × Nat) :=
  let t := s.thread core thr
  match t.task with
  | none => none
  | some k =>
    if !t.drained || !stoppable t || pageRecWaits s k.part core thr then none
    else (lowestSlot (s.part k.part)).map fun sl => (k, sl)

/-- CONTEXT_SAVE (R277 step 5, R280). -/
def execContextSave (core thr : Nat) (s : State) : Out :=
  .next (match saveSlot s core thr with
    | none => s
    | some (k, sl) => saveThread s core thr k.part sl k)

/-! ## The restore (R80, R284) -/

/-- A field of a slot as a word. -/
def slotWord (s : State) (part sl off : Nat) : W64 := BitVec.ofNat 64 (slotField s part sl off)

/-- A byte of a slot is poisoned. -/
def slotBad (s : State) (part sl off : Nat) : Bool := linePoisoned s (slotAddr s part sl off)

/-- The first poisoned 64-byte line of a slot from `lo` to `lo + n - 1`. -/
def badLine (s : State) (part sl lo n : Nat) : Option Nat :=
  ((List.range (ceilDiv n 64)).map fun k => lo + 64 * k).find? (slotBad s part sl)

/-- Layout of a slot's variable parts: registers from, presence from, HREG, HEXT. -/
def slotRect (s : State) (part sl : Nat) : Nat × Nat × Option (Nat × Nat) :=
  let fb := 0x1000 + 128 * bits (slotField s part sl 0) 32 9
  match hwmRect (slotWord s part sl 0x38) with
  | none => (fb, fb, none)
  | some (hreg, hext) => (fb, align64 (fb + (hreg + 1) * hext), some (hreg, hext))

/-- The first poisoned field of a slot that is neither a register nor a mask (R284). -/
def badField (s : State) (part sl : Nat) : Option Nat :=
  let info := slotField s part sl 0
  let r := slotRect s part sl
  let pres := match r.2.2 with
    | none => 0
    | some (hreg, hext) => (hreg + 1) * ceilDiv hext 8
  ([(0, 0x200), (0xA00, if bits info 48 8 = 0 then 0 else 256), (0xB00, if bit info 47 then 512 else 0), (0xD00, 16 * bits info 16 5),
    (0x1000, 128 * bits info 32 9), (r.2.1, pres)] : List (Nat × Nat)).findSome? fun e => badLine s part sl e.1 e.2

/-- A fault slot as the save area holds it, with the references of the elements that the restored registers `v` hold as FAULTED. -/
def restoredSlot (s : State) (part sl k : Nat) (v : VFile) (old : Option Slot) : Option Slot :=
  let o := 0xA00 + 32 * k
  if !bit (slotField s part sl 0) (48 + k) then none
  else
    let f (off n : Nat) : Nat := leNat (Memory.read s.hbm (slotAddr s part sl (o + off)) n)
    let x := old.getD default
    some { x with
      val := BitVec.ofNat 64 (f 0 8), pc := BitVec.ofNat 56 (f 8 8), cause := BitVec.ofNat 16 (f 16 2), elem := f 18 2,
      reg := BitVec.ofNat 6 (f 20 1), half := f 22 2 % 512
      refs := x.refs.filter fun e => ({ v := v } : Thread).halfPres e.1.toNat e.2.1 == .flt }

/-- A PC as the save area holds it: its bits 1 and 0 are zero (R25). -/
def pcField (w : W64) : PC := w.setWidth 56 &&& ~~~3

/-- The nest as the save area holds it. -/
def restoredNest (s : State) (part sl : Nat) (x : Saved) : Option Nest :=
  if !bit (slotField s part sl 0) 47 then none
  else
    let w (off : Nat) : W64 := slotWord s part sl off
    let six (off n : Nat) : List W64 := (List.range n).map fun k => w (off + 8 * k)
    let lev := min 6 (bits (w 0xB00).toNat 0 3)
    some {
      lev := lev, blen := bits (w 0xB00).toNat 8 5, idxReg := x.idxReg, bodyStart := pcField (w 0xB08), bodyEnd := x.bodyEnd,
      cnt := six 0xB10 lev, idx := six 0xB40 lev,
      binds := (List.range 4).filterMap fun k =>
        let o := 0xB80 + 64 * k
        let h := (w o).toNat
        if bits h 16 8 = 0 then none
        else some ⟨k, BitVec.ofNat 6 h, BitVec.ofNat 6 (h / 256), w (o + 8), six (o + 16) lev⟩ }

/-- Registers, with their presence; a word whose bytes are poisoned is POISONED (R284). -/
def restoredRegs (s : State) (part sl : Nat) : VFile × List Nat :=
  let r := slotRect s part sl
  match r.2.2 with
  | none => (Vector.replicate 64 (Vector.replicate 128 {}), [])
  | some (hreg, hext) =>
    let k := ceilDiv hext 8
    let word (g j : Nat) : VWord × Bool :=
      let o := r.1 + g * hext + 8 * j
      let n := min 8 (hext - 8 * j)
      let bad := (List.range n).any fun i => slotBad s part sl (o + i)
      let p := Memory.get s.hbm (slotAddr s part sl (r.2.1 + g * k + j))
      (⟨BitVec.ofNat 64 (leNat (Memory.read s.hbm (slotAddr s part sl o) n)), if bad then 0xFF else p⟩, bad)
    let v : VFile := Vector.ofFn fun g => Vector.ofFn fun j => if g.val ≤ hreg ∧ j.val < k then (word g.val j.val).1 else {}
    (v, ((List.range (hreg + 1)).flatMap fun g => (List.range k).flatMap fun j =>
      if (word g j).2 then (List.range 4).map (4 * j + ·) else []))

/-- A vector of 32 words from a slot. -/
def restoredMask (s : State) (part sl off : Nat) : Mask := Vector.ofFn fun j => slotWord s part sl (off + 8 * j.val)

/-- Mask bits that came from poisoned bytes. -/
def badMaskBits (s : State) (part sl : Nat) : List Nat :=
  (List.range 8).flatMap fun k => (List.range 4).flatMap fun j =>
    if slotBad s part sl (0x200 + 256 * k + 64 * j) then (List.range 512).map (512 * j + ·) else []

/-- Control registers as a write stores them: reserved bits read zero, and the seed 0 is the default (R6, R55, R75). -/
def Thread.stored (t : Thread) : Thread :=
  { t with
    vl := t.vl &&& 0xFFF, vtype := t.vtype &&& 3, fctl := fctlStore t.fctl, istat := t.istat &&& istatMask, vstart := t.vstart &&& 0x7FF
    hwm := t.hwm &&& 0x3FFFF, mprog := t.mprog &&& ~~~0xF0#64, hentry := t.hentry &&& 0xFFFFFFFFFFFFFC, sel := t.sel &&& 0x8000FFFFFFFFFFFF
    srstate := if t.srstate = 0 then 0x5DEECE66D1CE4E5B else t.srstate }

/-- The thread that a slot holds (R284). -/
def restoredThread (s : State) (t : Thread) (part sl : Nat) (x : Saved) (k : Task) : Thread :=
  let w (off : Nat) : W64 := slotWord s part sl off
  let regs := restoredRegs s part sl
  let pmk := restoredMask s part sl 0x100
  let pc := pcField (w 0x08)
  Thread.stored { t.emptied with
    v := regs.1
    m := Vector.ofFn fun k => restoredMask s part sl (0x200 + 256 * k.val)
    p := (w 0x70).setWidth 8 ||| 1
    pc := if x.after then pc + 12 else pc
    vl := w 0x10, vtype := w 0x18, fctl := w 0x20, istat := w 0x28, vstart := w 0x30, hwm := w 0x38, mprog := w 0x40, tags := w 0x48
    cerr := w 0x50, srstate := w 0x58, hentry := w 0x60, sel := w 0x68, selNum := x.selNum, rowStops := x.rowStops, seq := w 0x80
    pmk := (regs.2 ++ badMaskBits s part sl).foldl (fun m i => setMaskBit m i true) pmk
    slots := Vector.ofFn fun k => restoredSlot s part sl k.val regs.1 (x.slots.getD k.val none)
    binds := x.binds
    nest := restoredNest s part sl x
    outs := (List.range (bits (slotField s part sl 0) 16 5)).map fun n => (w (0xD00 + 16 * n), w (0xD08 + 16 * n))
    outRes := x.outRes
    st := .running
    stop := if x.brk then some 4 else none
    brkSkip := x.brkSkip && !x.after
    task := some k }

/-- The number of the element at an index (R318): the inverse of `CopyImg.index`. -/
def elemNum : List Nat → List Nat → Nat
  | c :: cs, i :: is => i + c * elemNum cs is
  | _, _ => 0

/-- A frozen command as record `k` of its slot holds it (R283, R284); its fill value and its PC, which no record holds, stay. -/
def restoredCopy (s : State) (part sl k : Nat) (p : Pend) : Pend :=
  let o := 0x1000 + 128 * k
  let img := Memory.read s.hbm (slotAddr s part sl o) 64
  let f (off n : Nat) : Nat := leNat (Memory.read s.hbm (slotAddr s part sl (o + off)) n)
  let op := (([.cpy, .cpyt, .cfill] : List Op).find? fun c => c.code % 256 == f 72 1).getD p.cmd.op
  let segs := f 104 8
  let done := match op with
    | .cpyt => segs
    | _ => elemNum (((CopyImg.parse (op == .cfill) img).map CopyImg.counts).getD []) ((List.range 6).map fun d => f (80 + 4 * d) 4)
  { p with cmd := { p.cmd with op := op, img := img, seq := BitVec.ofNat 64 (f 64 8), tag := some (BitVec.ofNat 6 (f 73 1)) }, done := done, segs := segs }

/-- The frozen commands of a slot re-enter the copy queue of their core, in push order, each as its own record of the slot holds it
(R284). -/
def restoreCopies (s : State) (core part sl : Nat) (ids : List Nat) : State :=
  let mine (p : Pend) : Bool := p.owner == .saved part sl && p.phase == .frozen
  let n := bits (slotField s part sl 0) 32 9
  let back (p : Pend) : Option Pend :=
    if mine p then (ids.idxOf? p.id).bind fun k => if k < n then some (restoredCopy s part sl k p) else none
    else some p
  s.modCore core fun c => { c with copyQ := c.copyQ.filterMap back }

/-- CONTEXT_RESTORE (R284): the context comes back, frozen commands re-enter the copy queue, and the slot is freed. -/
def execContextRestore (core thr : Nat) (s : State) : Out :=
  .next (match (s.thread core thr).st, s.partOf core with
    | .restoring sl, some part => match mapGet (s.part part).saved sl with
      | none => s.modThread core thr Thread.emptied
      | some x =>
        match badField s part sl with
        | some off =>
          let c : Cause := { cls := 5, code := 2, aux := off, seq := slotWord s part sl 0x80 }
          fatalSaved (s.modThread core thr Thread.emptied) part sl x (c.record s (s.thid core thr) (slotWord s part sl 0x08) .fatal false)
        | none =>
          let (o, s) := nextOrder s part
          let s := (s.modThread core thr fun t => restoredThread s t part sl x { x.task with order := o }).resetWait core thr
          let s := renameOwner (restoreCopies s x.home part sl x.copies) part (.saved part sl) (.live core thr) true
          s.modPart part fun p => { p with saved := mapDel p.saved sl }
    | .restoring _, none => s.modThread core thr Thread.emptied
    | _, _ => s)

/-! ## The host's answers (R122, R259, R260, R294, R333, R344) -/

/-- A saved task becomes eligible for dispatch: at the head of its priority's FIFO after the host's release or resumption (R333),
at the tail after a page (R259). -/
def wakeSaved (s : State) (part sl : Nat) (x : Saved) (head : Bool) : State :=
  let s := s.modPart part fun p => { p with saved := mapSet p.saved sl { x with wait := .none } }
  enqueueD s (pavOf x.home) x.task.prio head (.resume part sl)

/-- HOST_RELEASE (R333). -/
def execHostRelease (part slot : Nat) (s : State) : Out :=
  .next (match (mapGet (s.part part).saved slot).filter (fun _ => answerable s (.saved part slot)) with
    | none => s
    | some x => if x.wait = .release then wakeSaved s part slot x true else s)

/-- HOST_RESUME (R344): a thread that stopped at a precise fault, or at a trap, goes on; a service is answered by
SERVICE_ANSWER. -/
def execHostResume (who : ThreadName) (s : State) : Out :=
  .next (if !answerable s who then s else match who with
    | .live k t => match (s.thread k t).st with
      | .stoppedAfter true => s
      | _ => resumeThread s k t
    | .saved p sl => match mapGet (s.part p).saved sl with
      | none => s
      | some x => if x.wait = .host then wakeSaved s p sl x true else s)

/-- SERVICE_ANSWER (R122, R277): a thread stopped by `svc` resumes at PC + 12. -/
def execServiceAnswer (who : ThreadName) (s : State) : Out :=
  .next (if !answerable s who then s else match who with
    | .live k t => match (s.thread k t).st with
      | .stoppedAfter true => resumeThread s k t
      | _ => s
    | .saved p sl => match mapGet (s.part p).saved sl with
      | none => s
      | some x => if x.wait = .svc then wakeSaved s p sl x true else s)

/-- HOST_END_THREAD (R294): the host ends a stopped thread, which aborts its instance. -/
def execHostEndThread (who : ThreadName) (s : State) : Out :=
  .next (if !answerable s who then s else match who with
    | .live k t => match (s.thread k t).st, (s.thread k t).task with
      | .stopped, some tk | .stoppedAfter _, some tk => abortInstance (endThread s k t) tk.part tk.inst
      | _, _ => s
    | .saved p sl => match mapGet (s.part p).saved sl with
      | none => s
      | some x => match x.wait with
        | .host | .svc | .release => abortInstance (endSaved s p sl x) p x.task.inst
        | _ => s)

/-- A frozen copy of a thread, going on (R259). -/
def thawOne (k t : Nat) (p : Pend) : Pend :=
  if p.owner = .live k t ∧ p.phase = .frozen then { p with phase := .run } else p

/-- The page came for a thread that has not been saved: it goes on, unless its context is promised to another node (R259,
R280, R298), or the host has asked for a stop meanwhile (R276). -/
def pageCame (s : State) (k t : Nat) : State :=
  let s := { s with cores := s.cores.map fun (e : Nat × Core) => (e.1, { e.2 with copyQ := e.2.copyQ.map (thawOne k t) }) }
  let keep := reserved s k t
  s.modThread k t fun th => { th with st := .running, drained := false, stop := if keep then some 1 else if th.asked then some 4 else none, asked := false }

/-- The answer for one waiter of a page request (R259, R260). -/
def pageAnswer (s : State) (ok : Bool) (w : PageWaiter) : State :=
  match w with
  | .thread (.live k t) =>
    match (s.thread k t).st with
    | .waiting (.page _ ea) => if ok then pageCame s k t else takeFault s ⟨k, t⟩ .fatal { cls := 2, code := 6, addr := ea }
    | _ => s
  | .thread (.saved p sl) => match mapGet (s.part p).saved sl with
    | none => s
    | some x => match x.wait with
      | .page _ ea =>
        if ok then wakeSaved s p sl x false
        else
          let c : Cause := { cls := 2, code := 6, addr := ea, seq := slotWord s p sl 0x80 }
          fatalSaved s p sl x (c.record s (slotWord s p sl 0x78) (slotWord s p sl 0x08) .fatal false)
      | _ => s
  | .cmd k id => match findPend s k id with
    | none => s
    | some p =>
      if !ok then completeErr s k p 2 p.segs
      else match p.phase with
        | .page _ => modPend s k id fun q => { q with phase := .run }
        | _ => s

/-- PAGE_REQUEST_RESPONSE (R259, R260). -/
def execPageRequestResponse (part page : Nat) (ok : Bool) (s : State) : Out :=
  .next (match (s.part part).pageReqs.find? (fun (r : PageReq) => r.page == page && s.reaches part) with
    | none => s
    | some r =>
      let s := s.modPart part fun p => { p with pageReqs := p.pageReqs.filter fun q => q.page != page }
      r.waiters.foldl (fun s w => pageAnswer s ok w) s)

/-- The contexts of a partition that stay stopped for a fatal record, each with its record's name and its instance (R268). -/
def endings (s : State) (part : Nat) : List (ThreadName × BitVec 26 × Nat) :=
  s.cores.flatMap (fun (e : Nat × Core) => (List.range 4).filterMap fun t => match (e.2.threads.getD t {}).st, (e.2.threads.getD t {}).task with
    | .ending who, some k => if k.part = part then some (.live e.1 t, who, k.inst) else none
    | _, _ => none)
  ++ (s.part part).saved.filterMap fun (e : Nat × Saved) => match e.2.wait with
    | .ending who => some (.saved part e.1, who, e.2.task.inst)
    | _ => none

/-- The contexts whose fatal records have entered the fault queue end, and their instances abort (R268, R294). -/
def endEntered (s : State) (part : Nat) : State :=
  let l := (endings s part).filter fun e => !fatalWaits s part e.2.1
  let s := l.foldl (fun s e => endFatal s e.2.1 e.1) s
  (l.map (·.2.2)).eraseDups.foldl (fun s i => abortInstance s part i) s

/-- FAULT_QUEUE_CONSUME (R268): the host takes the oldest records, and those that wait for room enter. -/
def execFaultQueueConsume (part n : Nat) (s : State) : Out :=
  .next (if !s.reaches part then s
    else endEntered (s.modPart part fun p =>
      let q := p.fq.drop n
      let room := 256 - q.length
      { p with fq := q ++ p.fqWait.take room, fqWait := p.fqWait.drop room }) part)

/-! ## Dumps (R350 to R353) -/

/-- The image of a saved task: what its slot holds (R281). -/
def slotImage (s : State) (part sl : Nat) : List Byte :=
  let r := slotRect s part sl
  let n := r.2.1 + (match r.2.2 with | none => 0 | some (hreg, hext) => (hreg + 1) * ceilDiv hext 8)
  Memory.read s.hbm (slotAddr s part sl 0) n

/-- The image of a context with CAUSE 5 (R352). -/
def dumpImage (s : State) : ThreadName → List Byte
  | .live k t => contextImage s k t 5 (match (s.thread k t).st with | .stopped | .stoppedAfter _ => true | _ => false)
  | .saved p sl => 5 :: (slotImage s p sl).drop 1

/-- A dump record (R352). -/
def dumpRecord (s : State) (e : ThreadName × Option FRec) : List Byte :=
  let img := dumpImage s e.1
  recordOr e.2 ++ n8 img.length ++ img

/-- Write the records one after another, each at a 64-byte boundary: status, records, bytes written (R351 to R353). A write at the
offset `err` returns an error. -/
def dumpRecords (d : Dump) (err : Option Nat) : List (ThreadName × Option FRec) → State → (pos nrec : Nat) → State × Nat × Nat × Nat
  | [], s, pos, nrec => (s, 1, nrec, pos)
  | e :: r, s, pos, nrec =>
    let b := dumpRecord s e
    let at' := align64 pos
    let lim := match err with
      | some n => if at' ≤ n then min n d.len else d.len
      | none => d.len
    if lim < at' + b.length ∧ lim < d.len then
      let n := lim - at'
      (dumpWrite s d at' (b.take n), 3, nrec, if n = 0 then pos else at' + n)
    else if d.len < at' + b.length then
      let n := d.len - at'
      (dumpWrite s d at' (b.take n), 2, nrec, if n = 0 then pos else at' + n)
    else dumpRecords d err r (dumpWrite s d at' b) (at' + b.length) (nrec + 1)

/-- DUMP_ARM (R350): DUMPBASE is aligned to 4 KiB; no second dump while one is in progress. -/
def execDumpArm (part base len : Nat) (s : State) : Out :=
  .next (if !s.reaches part || base % 4096 != 0 || !(s.part part).dump.frozen.isEmpty then s
    else s.modPart part fun p => { p with dump := { base := base, len := len, armed := true } })

/-- A context is stopped (R350): at a precise fault, a trap or a service call, or with its save waiting for a slot; or saved, and waiting
for the host or for a page. -/
def stoppedFor (s : State) : ThreadName → Option Nat
  | .live k t =>
    let th := s.thread k t
    if decide (t < 4) && (th.drained || match th.st with | .stopped | .stoppedAfter _ => true | _ => false) then th.task.map (·.part) else none
  | .saved p sl => (mapGet (s.part p).saved sl).bind fun x => match x.wait with
    | .host | .svc | .release | .page _ _ => some p
    | _ => none

/-- DUMP_REQUEST (R350): the host, through the window of a partition, has the dump of one of its stopped contexts made, which stays
stopped. -/
def execDumpRequest (part : Nat) (who : ThreadName) (s : State) : Out :=
  .next (if stoppedFor s who == some part && (s.part part).dump.armed && s.reaches part && !inDump s part who then joinDump s part who none else s)

/-- The dump may be written: the records of the contexts that it holds have drained (R80, R173), or are discarded. -/
def dumpReady (s : State) (part : Nat) : Bool :=
  let l := (s.part part).dump.frozen
  !l.isEmpty && l.all fun e => match e.1 with
    | .live k t => !hasRecord (s.core k) t
    | .saved _ _ => true

/-- The contexts of a dump that are frozen, each with its record's name and its instance. -/
def frozenOf (s : State) (part : Nat) (l : List (ThreadName × Option FRec)) : List (ThreadName × BitVec 26 × Nat) :=
  l.filterMap fun e =>
    let who (k : W64) : BitVec 26 := ((e.2.map fun (r : FRec) => r.ident).getD k).setWidth 26
    match e.1 with
    | .live k t => if (s.thread k t).st = .frozen then (s.thread k t).task.map fun x => (e.1, who (s.thid k t), x.inst) else none
    | .saved p sl => match (mapGet (s.part p).saved sl).filter fun x => p == part && x.wait == .frozen with
      | none => none
      | some x => some (e.1, who (slotWord s p sl 0x78), x.task.inst)

/-- DUMP_END (R350 to R353): the dump is written, its record enters the fault queue, the engine disarms, every frozen context ends, and
the aborts that waited for the dump happen. A write at offset `err` returns an uncorrectable error; inside the header it is the header's last write. -/
def execDumpEnd (part : Nat) (err : Option Nat) (s : State) : Out :=
  .next (
    let d := (s.part part).dump
    if !dumpReady s part then s
    else
      let r : State × Nat × Nat × Nat :=
        if d.len < 256 then (s, 3, 0, 0)
        else
          let q := dumpRecords d err d.frozen s 256 0
          if err.any (· < 256) then (q.1, 3, q.2.2.1, q.2.2.2)
          else (dumpWrite q.1 d 0 (dumpHeader d q.2.1 q.2.2.1 q.2.2.2), q.2)
      let c : Cause := { cls := 0xA, code := 1, aux := r.2.1, aux2 := BitVec.ofNat 64 r.2.2.2 }
      let s := post r.1 part false (c.record r.1 (partIdent part) 0 .async false)
      let s := s.modPart part fun p => { p with dump := {} }
      let stopped := frozenOf s part d.frozen
      let s := stopped.foldl (fun s e => endFatal s e.2.1 e.1) s
      let gone := stopped.filter fun e => !fatalWaits s part e.2.1
      let due := ((s.part part).insts.filter fun i => i.aborted && !stopped.any fun e => e.2.2 == i.id).map (·.id)
      (gone.map (·.2.2) ++ due).eraseDups.foldl (fun s i => abortInstance s part i) s)

end Sys2Proof.Machine
end

