-- ==== Sys2Proof/Machine/ScalarFp.lean ====
section
/-! DEFINITION. Scalar floating point (06 R108 to R114). -/

namespace Sys2Proof.Machine
open Sys2Proof

/-! ## Modes and traps (R109, R114) -/

/-- The effective mode of a scalar FP instruction (R109). -/
def scalarMode (s : State) (x : Ctx) (rm : RMode) : RMode :=
  if rm = .dyn then modeOf ((s.fctlAt x).extractLsb' 0 3) else rm

/-- The stochastic word of a rounding step, and the state after the draw: a task thread draws from SRSTATE, a helper uses the
word of its record (R98, R109). -/
def scalarDraw (s : State) (x : Ctx) : Nat × State :=
  if x.isHelper then ((s.helper x.core (x.ctx - 4)).rnd.toNat, s)
  else
    let d := srNext (s.thread x.core x.ctx).srstate
    (d.2, s.modThread x.core x.ctx fun t => { t with srstate := d.1 })

/-- The rounding of one step: mode and word; only mode SR draws. -/
def rounding (rm : RMode) : M Rnd := do
  let s ← get
  let m := scalarMode s s.at' rm
  if m = .sr then
    let d := scalarDraw s s.at'
    set d.2
    return ⟨m, d.1⟩
  else return ⟨m, 0⟩

/-- Raise the flags of a scalar FP instruction; when one has its trap enabled, SRSTATE goes back to `sr` and the instruction
traps with nothing else changed (R114). -/
def fpFlags (fl : W64) (sr : W64) : M Unit := do
  flags fl
  let s ← get
  let en := (trapEnables (s.fctlAt s.at')).setWidth 64
  if fl &&& en != 0 then
    if !s.at'.isHelper then modify fun s => s.modThread s.at'.core s.at'.ctx fun t => { t with srstate := sr }
    raise .precise { cls := 3, code := 1, aux := (fl &&& 31#64).toNat }

/-- SRSTATE of the context. -/
def srNow : M W64 := do
  let s ← get
  return (s.thread s.at'.core s.at'.ctx).srstate

/-- The bits a source gives (R108). -/
def fpBits (f : FFmt) (v : W64) : Nat := v.toNat % 2 ^ f.width

/-! ## Shapes -/

/-- A scalar FP instruction with a scalar destination: poison goes to the destination (R104), and `op` gives the code and
flags from the source bits. `rounds` says that it has a rounding step. -/
def fpOp (i : Instr) (o : Op) (rounds : Bool) (rm : RMode) (d : Reg) (srcs : List Reg) (op : Rnd → List W64 → FRes) (s : State) : Out :=
  instr i o (do
    ready srcs
    if ← anyPoison srcs then wrPoison d
    else
      let s ← get
      let vs := srcs.map fun r => s.scalar s.at' r
      let sr ← srNow
      let r ← if rounds then rounding rm else pure ⟨.rne, 0⟩
      let res := op r vs
      fpFlags res.flags sr
      wrS d (BitVec.ofNat 64 res.code)) s

/-- The value of source `k` in a format. -/
def srcVal (f : FFmt) (vs : List W64) (k : Nat) : FVal := f.decode (fpBits f (vs.getD k 0))

/-- `fcmp` (R111): poison is fatal. -/
def fpCmp (i : Instr) (o : Op) (f : FFmt) (d : PReg) (a b : Reg) (k : FCmp) (s : State) : Out :=
  instr i o (do
    control [a, b]
    let r := fcmpHolds k (f.decode (fpBits f (← sval a))) (f.decode (fpBits f (← sval b)))
    fpFlags r.2 (← srNow)
    wrP d r.1) s

/-! ## Conversions (R112) -/

/-- The conversions of `fcvt.s`. -/
def cvtS (k : CvtS) (r : Rnd) (v : W64) : FRes :=
  let x := fp32.decode (v.toNat % 2 ^ 32)
  match k with
  | .fl => ofInt fp32 false r v.toInt
  | .flu => ofInt fp32 false r v.toNat
  | .tl => let t := toInt ⟨true, 64⟩ r x; ⟨t.1, t.2⟩
  | .tlu => let t := toInt ⟨false, 64⟩ r x; ⟨t.1, t.2⟩
  | .tw => let t := toInt ⟨true, 32⟩ r x; ⟨ofSigned 64 (toSigned 32 t.1), t.2⟩
  | .twu => let t := toInt ⟨false, 32⟩ r x; ⟨t.1, t.2⟩
  | .fo => fp32.deliver false r (fp64.decode v.toNat)
  | .fbf => fp32.deliver false r (bf16.decode (v.toNat % 2 ^ 16))
  | .tbf => bf16.deliver false r x
  | .fh => fp32.deliver false r (fp16.decode (v.toNat % 2 ^ 16))
  | .th => fp16.deliver false r x

/-- The conversions of `fcvt.d`. -/
def cvtD (k : CvtD) (r : Rnd) (v : W64) : FRes :=
  let x := fp64.decode v.toNat
  match k with
  | .fl => ofInt fp64 false r v.toInt
  | .flu => ofInt fp64 false r v.toNat
  | .tl => let t := toInt ⟨true, 64⟩ r x; ⟨t.1, t.2⟩
  | .tlu => let t := toInt ⟨false, 64⟩ r x; ⟨t.1, t.2⟩
  | .tw => let t := toInt ⟨true, 32⟩ r x; ⟨ofSigned 64 (toSigned 32 t.1), t.2⟩
  | .twu => let t := toInt ⟨false, 32⟩ r x; ⟨t.1, t.2⟩
  | .fo => fp64.deliver false r (fp32.decode (v.toNat % 2 ^ 32))

/-- Conversions that are exact take any mode, ignore it and draw no word (R112). -/
def exactS : CvtS → Bool
  | .fbf | .fh => true
  | _ => false
def exactD : CvtD → Bool
  | .fo => true
  | _ => false

/-! ## The instructions (R110 to R113) -/

/-- `fadd.s` (R110). -/
def execFaddS (c : Ctl) (d a b : Reg) (rm : RMode) (s : State) : Out :=
  fpOp (.faddS c d a b rm) .faddS true rm d [a, b] (fun r v => fp32.add r (srcVal fp32 v 0) (srcVal fp32 v 1)) s

/-- `fadd.d` (R110). -/
def execFaddD (c : Ctl) (d a b : Reg) (rm : RMode) (s : State) : Out :=
  fpOp (.faddD c d a b rm) .faddD true rm d [a, b] (fun r v => fp64.add r (srcVal fp64 v 0) (srcVal fp64 v 1)) s

/-- `fsub.s` (R110). -/
def execFsubS (c : Ctl) (d a b : Reg) (rm : RMode) (s : State) : Out :=
  fpOp (.fsubS c d a b rm) .fsubS true rm d [a, b] (fun r v => fp32.add r (srcVal fp32 v 0) (srcVal fp32 v 1).negate) s

/-- `fsub.d` (R110). -/
def execFsubD (c : Ctl) (d a b : Reg) (rm : RMode) (s : State) : Out :=
  fpOp (.fsubD c d a b rm) .fsubD true rm d [a, b] (fun r v => fp64.add r (srcVal fp64 v 0) (srcVal fp64 v 1).negate) s

/-- `fmul.s` (R110). -/
def execFmulS (c : Ctl) (d a b : Reg) (rm : RMode) (s : State) : Out :=
  fpOp (.fmulS c d a b rm) .fmulS true rm d [a, b] (fun r v => fp32.mul r (srcVal fp32 v 0) (srcVal fp32 v 1)) s

/-- `fmul.d` (R110). -/
def execFmulD (c : Ctl) (d a b : Reg) (rm : RMode) (s : State) : Out :=
  fpOp (.fmulD c d a b rm) .fmulD true rm d [a, b] (fun r v => fp64.mul r (srcVal fp64 v 0) (srcVal fp64 v 1)) s

/-- `fdiv.s` (R110). -/
def execFdivS (c : Ctl) (d a b : Reg) (rm : RMode) (s : State) : Out :=
  fpOp (.fdivS c d a b rm) .fdivS true rm d [a, b] (fun r v => fp32.div r (srcVal fp32 v 0) (srcVal fp32 v 1)) s

/-- `fdiv.d` (R110). -/
def execFdivD (c : Ctl) (d a b : Reg) (rm : RMode) (s : State) : Out :=
  fpOp (.fdivD c d a b rm) .fdivD true rm d [a, b] (fun r v => fp64.div r (srcVal fp64 v 0) (srcVal fp64 v 1)) s

/-- `ffma.s` (R110). -/
def execFfmaS (c : Ctl) (d a b rc : Reg) (rm : RMode) (s : State) : Out :=
  fpOp (.ffmaS c d a b rc rm) .ffmaS true rm d [a, b, rc] (fun r v => fp32.fma r (srcVal fp32 v 0) (srcVal fp32 v 1) (srcVal fp32 v 2)) s

/-- `fsqrt.s` (R110). -/
def execFsqrtS (c : Ctl) (d a : Reg) (rm : RMode) (s : State) : Out :=
  fpOp (.fsqrtS c d a rm) .fsqrtS true rm d [a] (fun r v => fp32.sqrt r (srcVal fp32 v 0)) s

/-- `fmin.s` (R110). -/
def execFminS (c : Ctl) (d a b : Reg) (s : State) : Out :=
  fpOp (.fminS c d a b) .fminS false .dyn d [a, b] (fun _ v => fp32.minMax false (fpBits fp32 (v.getD 0 0)) (fpBits fp32 (v.getD 1 0))) s

/-- `fmax.s` (R110). -/
def execFmaxS (c : Ctl) (d a b : Reg) (s : State) : Out :=
  fpOp (.fmaxS c d a b) .fmaxS false .dyn d [a, b] (fun _ v => fp32.minMax true (fpBits fp32 (v.getD 0 0)) (fpBits fp32 (v.getD 1 0))) s

/-- `fcmp.s` (R111). -/
def execFcmpS (c : Ctl) (d : PReg) (a b : Reg) (k : FCmp) (s : State) : Out := fpCmp (.fcmpS c d a b k) .fcmpS fp32 d a b k s

/-- `fcvt.s` (R112). -/
def execFcvtS (c : Ctl) (d a : Reg) (k : CvtS) (rm : RMode) (s : State) : Out :=
  fpOp (.fcvtS c d a k rm) .fcvtS (!exactS k) rm d [a] (fun r v => cvtS k r (v.getD 0 0)) s

/-- `fclass.s` (R113). -/
def execFclassS (c : Ctl) (d a : Reg) (s : State) : Out :=
  fpOp (.fclassS c d a) .fclassS false .dyn d [a] (fun _ v => ⟨fp32.classify (fpBits fp32 (v.getD 0 0)), 0⟩) s

/-- `fsgn.s` (R113). -/
def execFsgnS (c : Ctl) (d a b : Reg) (k : Sgn) (s : State) : Out :=
  fpOp (.fsgnS c d a b k) .fsgnS false .dyn d [a, b] (fun _ v => ⟨fp32.signOp k (fpBits fp32 (v.getD 0 0)) (fpBits fp32 (v.getD 1 0)), 0⟩) s

/-- `ffma.d` (R110). -/
def execFfmaD (c : Ctl) (d a b rc : Reg) (rm : RMode) (s : State) : Out :=
  fpOp (.ffmaD c d a b rc rm) .ffmaD true rm d [a, b, rc] (fun r v => fp64.fma r (srcVal fp64 v 0) (srcVal fp64 v 1) (srcVal fp64 v 2)) s

/-- `fsqrt.d` (R110). -/
def execFsqrtD (c : Ctl) (d a : Reg) (rm : RMode) (s : State) : Out :=
  fpOp (.fsqrtD c d a rm) .fsqrtD true rm d [a] (fun r v => fp64.sqrt r (srcVal fp64 v 0)) s

/-- `fmin.d` (R110). -/
def execFminD (c : Ctl) (d a b : Reg) (s : State) : Out :=
  fpOp (.fminD c d a b) .fminD false .dyn d [a, b] (fun _ v => fp64.minMax false (fpBits fp64 (v.getD 0 0)) (fpBits fp64 (v.getD 1 0))) s

/-- `fmax.d` (R110). -/
def execFmaxD (c : Ctl) (d a b : Reg) (s : State) : Out :=
  fpOp (.fmaxD c d a b) .fmaxD false .dyn d [a, b] (fun _ v => fp64.minMax true (fpBits fp64 (v.getD 0 0)) (fpBits fp64 (v.getD 1 0))) s

/-- `fcmp.d` (R111). -/
def execFcmpD (c : Ctl) (d : PReg) (a b : Reg) (k : FCmp) (s : State) : Out := fpCmp (.fcmpD c d a b k) .fcmpD fp64 d a b k s

/-- `fcvt.d` (R112). -/
def execFcvtD (c : Ctl) (d a : Reg) (k : CvtD) (rm : RMode) (s : State) : Out :=
  fpOp (.fcvtD c d a k rm) .fcvtD (!exactD k) rm d [a] (fun r v => cvtD k r (v.getD 0 0)) s

/-- `fclass.d` (R113). -/
def execFclassD (c : Ctl) (d a : Reg) (s : State) : Out :=
  fpOp (.fclassD c d a) .fclassD false .dyn d [a] (fun _ v => ⟨fp64.classify (fpBits fp64 (v.getD 0 0)), 0⟩) s

/-- `fsgn.d` (R113). -/
def execFsgnD (c : Ctl) (d a b : Reg) (k : Sgn) (s : State) : Out :=
  fpOp (.fsgnD c d a b k) .fsgnD false .dyn d [a, b] (fun _ v => ⟨fp64.signOp k (fpBits fp64 (v.getD 0 0)) (fpBits fp64 (v.getD 1 0)), 0⟩) s

end Sys2Proof.Machine
end

