-- ==== Sys2Proof/Machine/ScalarInt.lean ====
section
/-! DEFINITION. Scalar integer instructions (06 R103 to R107) and predicate instructions (R115). -/

namespace Sys2Proof.Machine
open Sys2Proof

/-! ## Shapes -/

/-- Two scalar sources, one scalar destination: poison goes to the destination (R103 to R105). -/
def alu2 (i : Instr) (o : Op) (d a b : Reg) (f : W64 → W64 → W64) (s : State) : Out :=
  instr i o (do
    ready [a, b]
    if ← anyPoison [a, b] then wrPoison d else wrS d (f (← sval a) (← sval b))) s

/-- One scalar source, one scalar destination. -/
def alu1 (i : Instr) (o : Op) (d a : Reg) (f : W64 → W64) (s : State) : Out :=
  instr i o (do
    ready [a]
    if ← anyPoison [a] then wrPoison d else wrS d (f (← sval a))) s

/-- A division (R106): quotient or remainder, and the flags of the operands. -/
def divide (i : Instr) (o : Op) (d a b : Reg) (f : W64 → W64 → W64 × W64) (s : State) : Out :=
  instr i o (do
    ready [a, b]
    if ← anyPoison [a, b] then wrPoison d
    else
      let r := f (← sval a) (← sval b)
      flags r.2
      wrS d r.1) s

/-- Predicates from predicates (R115). -/
def predOp (i : Instr) (o : Op) (d : PReg) (f : BitVec 8 → Bool) (s : State) : Out :=
  instr i o (do
    let s ← get
    wrP d (f (s.predsAt s.at'))) s

/-! ## Scalar integer -/

/-- `add` (R105). -/
def execAdd (c : Ctl) (d a b : Reg) (s : State) : Out := alu2 (.add c d a b) .add d a b (fun a b => a + b) s

/-- `sub` (R105). -/
def execSub (c : Ctl) (d a b : Reg) (s : State) : Out := alu2 (.sub c d a b) .sub d a b (fun a b => a - b) s

/-- `mul` (R105). -/
def execMul (c : Ctl) (d a b : Reg) (s : State) : Out := alu2 (.mul c d a b) .mul d a b (fun a b => a * b) s

/-- `mulh` (R105). -/
def execMulh (c : Ctl) (d a b : Reg) (s : State) : Out := alu2 (.mulh c d a b) .mulh d a b (fun a b => mulHigh a b) s

/-- `mulhu` (R105). -/
def execMulhu (c : Ctl) (d a b : Reg) (s : State) : Out := alu2 (.mulhu c d a b) .mulhu d a b (fun a b => mulHighU a b) s

/-- `and` (R105). -/
def execAnd (c : Ctl) (d a b : Reg) (s : State) : Out := alu2 (.and c d a b) .and d a b (fun a b => a &&& b) s

/-- `or` (R105). -/
def execOr (c : Ctl) (d a b : Reg) (s : State) : Out := alu2 (.or c d a b) .or d a b (fun a b => a ||| b) s

/-- `xor` (R105). -/
def execXor (c : Ctl) (d a b : Reg) (s : State) : Out := alu2 (.xor c d a b) .xor d a b (fun a b => a ^^^ b) s

/-- `shl` (R105). -/
def execShl (c : Ctl) (d a b : Reg) (s : State) : Out := alu2 (.shl c d a b) .shl d a b (fun a b => a <<< (b &&& 63#64)) s

/-- `shr` (R105). -/
def execShr (c : Ctl) (d a b : Reg) (s : State) : Out := alu2 (.shr c d a b) .shr d a b (fun a b => a >>> (b &&& 63#64)) s

/-- `sra` (R105). -/
def execSra (c : Ctl) (d a b : Reg) (s : State) : Out := alu2 (.sra c d a b) .sra d a b (fun a b => a.sshiftRight (b &&& 63#64).toNat) s

/-- `rot` (R105). -/
def execRot (c : Ctl) (d a b : Reg) (s : State) : Out := alu2 (.rot c d a b) .rot d a b (fun a b => a.rotateLeft (b &&& 63#64).toNat) s

/-- `min` (R105). -/
def execMin (c : Ctl) (d a b : Reg) (s : State) : Out := alu2 (.min c d a b) .min d a b (fun a b => if a.sle b then a else b) s

/-- `max` (R105). -/
def execMax (c : Ctl) (d a b : Reg) (s : State) : Out := alu2 (.max c d a b) .max d a b (fun a b => if a.sle b then b else a) s

/-- `minu` (R105). -/
def execMinu (c : Ctl) (d a b : Reg) (s : State) : Out := alu2 (.minu c d a b) .minu d a b (fun a b => if a.ule b then a else b) s

/-- `maxu` (R105). -/
def execMaxu (c : Ctl) (d a b : Reg) (s : State) : Out := alu2 (.maxu c d a b) .maxu d a b (fun a b => if a.ule b then b else a) s

/-- `addi` (R105). -/
def execAddi (c : Ctl) (d a : Reg) (imm : BitVec 56) (s : State) : Out := alu1 (.addi c d a imm) .addi d a (fun a => a + imm.signExtend 64) s

/-- `andi` (R105). -/
def execAndi (c : Ctl) (d a : Reg) (imm : BitVec 56) (s : State) : Out := alu1 (.andi c d a imm) .andi d a (fun a => a &&& imm.signExtend 64) s

/-- `ori` (R105). -/
def execOri (c : Ctl) (d a : Reg) (imm : BitVec 56) (s : State) : Out := alu1 (.ori c d a imm) .ori d a (fun a => a ||| imm.signExtend 64) s

/-- `xori` (R105). -/
def execXori (c : Ctl) (d a : Reg) (imm : BitVec 56) (s : State) : Out := alu1 (.xori c d a imm) .xori d a (fun a => a ^^^ imm.signExtend 64) s

/-- `shli` (R105). -/
def execShli (c : Ctl) (d a : Reg) (imm : BitVec 6) (s : State) : Out := alu1 (.shli c d a imm) .shli d a (fun a => a <<< imm.toNat) s

/-- `shri` (R105). -/
def execShri (c : Ctl) (d a : Reg) (imm : BitVec 6) (s : State) : Out := alu1 (.shri c d a imm) .shri d a (fun a => a >>> imm.toNat) s

/-- `srai` (R105). -/
def execSrai (c : Ctl) (d a : Reg) (imm : BitVec 6) (s : State) : Out := alu1 (.srai c d a imm) .srai d a (fun a => a.sshiftRight imm.toNat) s

/-- `clz` (R105). -/
def execClz (c : Ctl) (d a : Reg) (s : State) : Out := alu1 (.clz c d a) .clz d a (fun a => leadingZeros a) s

/-- `ctz` (R105). -/
def execCtz (c : Ctl) (d a : Reg) (s : State) : Out := alu1 (.ctz c d a) .ctz d a (fun a => trailingZeros a) s

/-- `popc` (R105). -/
def execPopc (c : Ctl) (d a : Reg) (s : State) : Out := alu1 (.popc c d a) .popc d a (fun a => popCount a) s

/-- `div` (R106). -/
def execDiv (c : Ctl) (d a b : Reg) (s : State) : Out :=
  divide (.div c d a b) .div d a b (fun a b => let r := divRem true a b; (r.quot, r.flags)) s

/-- `divu` (R106). -/
def execDivu (c : Ctl) (d a b : Reg) (s : State) : Out :=
  divide (.divu c d a b) .divu d a b (fun a b => let r := divRem false a b; (r.quot, r.flags)) s

/-- `rem` (R106). -/
def execRem (c : Ctl) (d a b : Reg) (s : State) : Out :=
  divide (.rem c d a b) .rem d a b (fun a b => let r := divRem true a b; (r.rem, r.flags)) s

/-- `remu` (R106). -/
def execRemu (c : Ctl) (d a b : Reg) (s : State) : Out :=
  divide (.remu c d a b) .remu d a b (fun a b => let r := divRem false a b; (r.rem, r.flags)) s

/-- `movi` (R105): there is no source. -/
def execMovi (c : Ctl) (d : Reg) (imm : BitVec 56) (s : State) : Out := instr (.movi c d imm) .movi (wrS d (imm.signExtend 64)) s

/-- `sel` (R105, R104): only the selected source is read. -/
def execSel (c : Ctl) (d a b : Reg) (rc : PReg) (s : State) : Out :=
  instr (.sel c d a b rc) .sel (do
    let s ← get
    let r := if predBit (s.predsAt s.at') rc then a else b
    ready [r]
    if ← anyPoison [r] then wrPoison d else wrS d (← sval r)) s

/-- `cmp` (R107): poison is fatal (R104). -/
def execCmp (c : Ctl) (d : PReg) (a b : Reg) (k : Cmp) (s : State) : Out :=
  instr (.cmp c d a b k) .cmp (do
    control [a, b]
    wrP d (cmpHolds k (← sval a) (← sval b))) s

/-! ## Predicates -/

/-- `pand` (R115). -/
def execPand (c : Ctl) (d a b : PReg) (s : State) : Out := predOp (.pand c d a b) .pand d (fun p => predBit p a && predBit p b) s

/-- `por` (R115). -/
def execPor (c : Ctl) (d a b : PReg) (s : State) : Out := predOp (.por c d a b) .por d (fun p => predBit p a || predBit p b) s

/-- `pxor` (R115). -/
def execPxor (c : Ctl) (d a b : PReg) (s : State) : Out := predOp (.pxor c d a b) .pxor d (fun p => predBit p a != predBit p b) s

/-- `pnot` (R115). -/
def execPnot (c : Ctl) (d a : PReg) (s : State) : Out := predOp (.pnot c d a) .pnot d (fun p => !predBit p a) s

/-- `pmov` (R115). -/
def execPmov (c : Ctl) (d a : PReg) (s : State) : Out := predOp (.pmov c d a) .pmov d (fun p => predBit p a) s

end Sys2Proof.Machine
end

