-- ==== Sys2Proof/Machine/Sha3.lean ====
section
/-! DEFINITION. SHA3-512, the package's only hash (R375, R378); the spec names the function, whose definition is the standard's
(log 15, PRESUMED). -/

namespace Sys2Proof.Machine.Sha3
open Sys2Proof

/-- Offsets of the rotation step, by lane 5 * y + x. -/
def offsets : List Nat := [0, 1, 62, 28, 27, 36, 44, 6, 55, 20, 3, 10, 43, 25, 39, 41, 45, 15, 21, 8, 18, 2, 61, 56, 14]

/-- Constants of the 24 rounds. -/
def constants : List W64 :=
  [0x0000000000000001, 0x0000000000008082, 0x800000000000808A, 0x8000000080008000, 0x000000000000808B, 0x0000000080000001,
   0x8000000080008081, 0x8000000000008009, 0x000000000000008A, 0x0000000000000088, 0x0000000080008009, 0x000000008000000A]
  ++ [0x000000008000808B, 0x800000000000008B, 0x8000000000008089, 0x8000000000008003, 0x8000000000008002, 0x8000000000000080,
   0x000000000000800A, 0x800000008000000A, 0x8000000080008081, 0x8000000000008080, 0x0000000080000001, 0x8000000080008008]

/-- Lane (x, y) of a state. -/
def lane (a : List W64) (x y : Nat) : W64 := a.getD (5 * (y % 5) + x % 5) 0

/-- A state from its lanes. -/
def lanes (f : Nat → Nat → W64) : List W64 := (List.range 25).map fun k => f (k % 5) (k / 5)

/-- One round. -/
def round (a : List W64) (c : W64) : List W64 :=
  let col := (List.range 5).map fun x => (List.range 5).foldl (fun v y => v ^^^ lane a x y) 0
  let mix := (List.range 5).map fun x => col.getD ((x + 4) % 5) 0 ^^^ (col.getD ((x + 1) % 5) 0).rotateLeft 1
  let a := lanes fun x y => lane a x y ^^^ mix.getD x 0
  let b := lanes fun x y => (lane a (x + 3 * y) x).rotateLeft (offsets.getD (5 * x + (x + 3 * y) % 5) 0)
  let a := lanes fun x y => lane b x y ^^^ (~~~lane b (x + 1) y &&& lane b (x + 2) y)
  a.set 0 (lane a 0 0 ^^^ c)

/-- The permutation. -/
def permute (a : List W64) : List W64 := constants.foldl round a

/-- Bytes that one call of the permutation takes in. -/
def rate : Nat := 72

/-- Take in `n` blocks. -/
def absorb : (n : Nat) → List Byte → List W64 → List W64
  | 0, _, a => a
  | n + 1, bs, a => absorb n (bs.drop rate) (permute (a.mapIdx fun k v => if k < rate / 8 then v ^^^ BitVec.ofNat 64 (leAt bs (8 * k) 8) else v))

/-- The message with its padding. -/
def padded (m : List Byte) : List Byte :=
  let k := rate - m.length % rate
  m ++ if k = 1 then [0x86] else 0x06 :: (List.replicate (k - 2) 0 ++ [0x80])

/-- The digest of a message. -/
def digest (m : List Byte) : List Byte :=
  let p := padded m
  (absorb (p.length / rate) p (List.replicate 25 0)).take 8 |>.flatMap fun v => natLe 8 v.toNat

end Sys2Proof.Machine.Sha3
end

