-- ==== Sys2Proof/Machine/Start.lean ====
section
/-! DEFINITION. Start-up, STARTSTAT, minimal mode, attestation and virtual functions (R375 to R380). -/

namespace Sys2Proof.Machine
open Sys2Proof

/-! ## The configuration record (R338) -/

/-- Bits set in a map of 144 sites. -/
def sitesSet (m : BitVec 144) : Nat := ((List.range 144).filter fun k => m.getLsbD k).length

/-- A record the Lodge accepts: 128 sites of every pavilion are enabled, none of them is defective, and every enabled site has
BASE, VEC, VMEM and TASK (R338). -/
def recordOk (r : ConfigRecord) : Bool :=
  (List.range 32).all fun v =>
    let e := (mapGet r.enabled v).getD 0
    let d := (mapGet r.defect v).getD 0
    sitesSet e == 128 && e &&& d == 0 &&
      (List.range 144).all fun k => !e.getLsbD k || ((mapGet r.feat (144 * v + k)).getD 0xFFFF &&& 0x4109) == 0x4109

/-- The bytes of a record, for its digest. -/
def recordImage (r : ConfigRecord) : List Byte :=
  r.enabled.flatMap (fun e => natLe 1 e.1 ++ natLe 18 e.2.toNat) ++ r.defect.flatMap (fun e => natLe 1 e.1 ++ natLe 18 e.2.toNat)
    ++ r.feat.flatMap (fun e => natLe 2 e.1 ++ natLe 2 e.2.toNat)
    ++ [r.weights.issue, r.weights.groupA, r.weights.groupM, r.weights.groupX, r.weights.plane8, r.weights.plane32, r.weights.plane64,
        r.weights.plane128, r.weights.sram, r.weights.hbmLine, r.weights.flit, r.weights.island, r.weights.stack].flatMap (natLe 8)

/-! ## The stepping and STARTSTAT (R2, R376) -/

/-- Revision ID of stepping B0 (R2). -/
def stepping : Nat := 0x02

/-- The Revision ID in the PCIe configuration space of a function: 0 is the physical one, `k + 1` virtual function `k`, which is there
once it is enabled (R2, R380). -/
def revisionId (s : State) (fn : Nat) : Option Byte := if fn = 0 ∨ s.fnOn (fn - 1) then some (BitVec.ofNat 8 stepping) else none

/-- STARTSTAT as the host reads it. -/
def startstat (l : Lodge) : W64 :=
  BitVec.ofNat 64 (stepping * 2 ^ 32 + l.stage % 256 * 2 ^ 24 + l.reason % 256 * 2 ^ 16 + l.unit % 256 * 2 ^ 8 + l.fails % 4 * 4
    + (if l.min then 2 else 0) + (if l.ready then 1 else 0))

/-! ## The stages (R375, R377) -/

/-- The part after a reset: nothing runs, and the persistent store and what lies outside the package stay. -/
def partReset (s : State) (l : Lodge) : State :=
  { State.reset with agenda := s.agenda, clock := s.clock, free := s.free, host := s.host, hostTx := s.hostTx, peerTx := s.peerTx, lodge := l }

/-- A start fails (R377): FAILS, REASON and UNIT are kept, and nothing is left running. -/
def startFail (s : State) (reason unit : Nat) : State :=
  let l := s.lodge
  partReset s { l with reason := reason, unit := unit, fails := min 3 (l.fails + 1), ready := false, starting := false, full := false,
                       min := false, record := none, meas := [] }

/-- The measurements of stages 1 and 2 (R375, R378): blocks 1 to 6. -/
def measure (images : List (List Byte)) (r : ConfigRecord) : NMap (List Byte) :=
  [(1, natLe 64 Config.romDigest.toNat), (2, Sha3.digest (images.getD 0 [])), (3, Sha3.digest (images.getD 1 [])),
   (4, Sha3.digest (images.getD 2 [])), (5, Sha3.digest (images.getD 3 [])), (6, Sha3.digest (recordImage r))]

/-- Each die's copy of REFT starts at 0 with the host die's (R354) and falls behind it by 0 to 2 ticks, which is free (R359; log 10, DESIGN
CHOICE). -/
def drawSkew (s : State) : State :=
  (List.range 8).foldl (fun s d =>
    let p := s.drawFree 16
    { p.2 with skewTo := p.2.skewTo.setIfInBounds d (p.1.toNat % 3) }) s

/-- The Lodge starts the part: it verifies the images (stage 1) and the record (stage 2), and the reference timer starts. With
FAILS at 3 the start is in minimal mode, unless the host has asked for a full one (R377). -/
def startUp (s : State) (q : StartInput) : State :=
  let l := s.lodge
  let small := l.fails == 3 && !l.full
  let l := { l with stage := 0, min := small, ready := false, starting := true, installed := false, record := none, recordNew := some q.record,
                    images := q.images, signed := q.signed, recordSigned := q.recordSigned, meas := [], answers := [] }
  let s := partReset s l
  if !q.signed then startFail s 1 0xFF
  else if !q.recordSigned then startFail { s with lodge := { l with stage := 1 } } 1 0xFF
  else if !recordOk q.record then startFail { s with lodge := { l with stage := 1 } } 2 0xFF
  else drawSkew { s with refOn := true, lodge := { l with stage := 2, record := some q.record, meas := measure q.images q.record } }

/-- What the Lodge finds at a start of its own: the images and the record that are installed. -/
def installed (s : State) : StartInput := ⟨s.lodge.images, s.lodge.signed, s.lodge.recordNew.getD {}, s.lodge.recordSigned⟩

/-- POWER_UP_RESET (R375, R377). What the host has installed takes effect now (R338); a full start that it asked for is not kept over a
power-up. -/
def execPowerUpReset (q : StartInput) (s : State) : Out :=
  .next (startUp { s with lodge := { s.lodge with full := false } } (if s.lodge.installed then installed s else q))

/-- After a failed start the part is reset and starts again (R377). -/
def restartDue (s : State) : Bool := s.lodge.reason != 0 && !s.lodge.starting && !s.lodge.ready

/-- The stage that comes next: in minimal mode stages 3 to 6 are skipped. -/
def nextStage (l : Lodge) : Nat := if l.min && l.stage == 2 then 7 else l.stage + 1

/-- The start reaches READY (R375, R377, R378): block 7 is fixed, FAILS becomes 0 in full mode, and in minimal mode the
islands of pavilion 0 run at 1.0 GHz. -/
def reachReady (s : State) : State :=
  let l := s.lodge
  let l := { l with stage := 7, ready := true, starting := false, full := false, fails := if l.min then l.fails else 0 }
  let l := { l with meas := mapSet l.meas 7 (natLe 8 (startstat l).toNat) }
  let s := { s with lodge := l }
  if l.min then (List.range 16).foldl (fun s k => s.setIsle k { freq := 10, next := 10 }) s else s

/-- START_STAGE_COMPLETE (R375, R377): the stage under way ends, or fails at a unit. Peer links that do not train (stage 6) fail
no start. -/
def execStartStageComplete (ok : Bool) (unit : Nat) (s : State) : Out :=
  .next (if !s.lodge.starting then s
    else
      let n := nextStage s.lodge
      if !ok && n < 6 then startFail s n unit
      else if n = 7 then reachReady s
      else { s with lodge := { s.lodge with stage := n } })

/-- START_WATCHDOG (R377): READY is not there 2 s after reset. -/
def execStartWatchdog (s : State) : Out := .next (if s.lodge.starting then startFail s 7 0xFF else s)

/-- FULL_START_REQUEST (R377): in minimal mode, after a new record or new images. -/
def execFullStartRequest (s : State) : Out :=
  .next (if s.lodge.min && s.lodge.ready && s.lodge.installed then startUp { s with lodge := { s.lodge with full := true } } (installed s) else s)

/-! ## Virtual functions (R380, R381) -/

/-- VF_ENABLE (R380, R381): virtual functions 0 to n - 1, once READY is set; APBASE of a function that is enabled now is 0. -/
def execVfEnable (n : Nat) (s : State) : Out :=
  .next (if !s.lodge.ready ∨ 32 < n then s
    else
      { s with vfs := n, fns := s.fns.map fun (e : Nat × VFn) => if s.vfs ≤ e.1 ∧ e.1 < n then (e.1, { e.2 with apbase := 0 }) else e })

/-! ## SPDM (R378; response codes log 15, PRESUMED) -/

/-- The function exists: 0 is the physical one, `k + 1` is virtual function `k` (log 15, PRESUMED). -/
def spdmFn (s : State) (fn : Nat) : Bool := decide (fn ≤ s.vfs)

/-- Answer a request of a function. -/
def spdmAnswer (s : State) (fn code : Nat) (body : List Byte) (sign : Bool) : State :=
  if !spdmFn s fn then s
  else { s with lodge := { s.lodge with answers := s.lodge.answers ++ [⟨fn, code, body, if sign then some (Config.sign body).toList else none⟩] } }

/-- SPDM_GET_VERSION: version 1.3. -/
def execSpdmGetVersion (fn : Nat) (s : State) : Out := .next (spdmAnswer s fn 0x04 [0x13] false)

/-- SPDM_GET_CAPABILITIES: the requests R378 lists, by their SPDM codes. -/
def execSpdmGetCapabilities (fn : Nat) (s : State) : Out :=
  .next (spdmAnswer s fn 0x61 [0x84, 0xE1, 0xE3, 0x81, 0x82, 0x83, 0xE0] false)

/-- SPDM_NEGOTIATE_ALGORITHMS: ML-DSA-87 and SHA3-512, the only ones (R378). -/
def execSpdmNegotiateAlgorithms (fn : Nat) (s : State) : Out :=
  .next (spdmAnswer s fn 0x63 (("ML-DSA-87 SHA3-512".toList).map fun c => BitVec.ofNat 8 c.toNat) false)

/-- SPDM_GET_DIGESTS: the SHA3-512 digest of the certificate. -/
def execSpdmGetDigests (fn : Nat) (s : State) : Out :=
  .next (spdmAnswer s fn 0x01 (Sha3.digest Config.certificate) false)

/-- SPDM_GET_CERTIFICATE. -/
def execSpdmGetCertificate (fn : Nat) (s : State) : Out := .next (spdmAnswer s fn 0x02 Config.certificate false)

/-- SPDM_CHALLENGE: the certificate's digest and the nonce, signed. -/
def execSpdmChallenge (fn : Nat) (nonce : List Byte) (s : State) : Out :=
  .next (spdmAnswer s fn 0x03 (Sha3.digest Config.certificate ++ nonce) true)

/-- SPDM_GET_MEASUREMENTS (R378): the blocks asked for, signed; Busy while one of them is not fixed, and an error for a block
that does not exist. -/
def execSpdmGetMeasurements (fn : Nat) (blocks : List Nat) (s : State) : Out :=
  .next (
    if blocks.any fun b => b == 0 || decide (7 < b) then spdmAnswer s fn 0x7F [0x01] false
    else if blocks.any fun b => (mapGet s.lodge.meas b).isNone then spdmAnswer s fn 0x7F [0x03] false
    else spdmAnswer s fn 0x60 (blocks.flatMap fun b => natLe 1 b ++ (mapGet s.lodge.meas b).getD []) true)

end Sys2Proof.Machine
end

