-- ==== Sys2Proof/Machine/TagTable.lean ====
section
/-! DEFINITION. The tag table of a core: `tglk`, `tgset`, `tginv` (12 R235 to R237). -/

namespace Sys2Proof.Machine
open Sys2Proof

/-- The valid entry with a key: its number and the entry. -/
def tagFind (c : Core) (key : W64) : Option (Nat × TagEntry) :=
  c.tagTab.find? fun (e : Nat × TagEntry) => e.2.valid && e.2.key == key

/-- Invalidate an entry. -/
def tagDrop (c : Core) (n : Nat) : Core := { c with tagTab := mapDel c.tagTab n }

/-- Invalidate the valid entry with a key, if any. -/
def tagDropKey (c : Core) (key : W64) : Core :=
  match tagFind c key with
  | none => c
  | some e => tagDrop c e.1

/-- `tglk` (R236). -/
def execTglk (c : Ctl) (d a : Reg) (s : State) : Out :=
  instr (.tglk c d a) .tglk (do
    control [a]
    let key ← sval a
    let s ← get
    wrS d (match tagFind (s.core s.at'.core) key with
      | none => BitVec.allOnes 64
      | some e => e.2.val.setWidth 64)) s

/-- `tgset` (R236). -/
def execTgset (c : Ctl) (a b rc : Reg) (s : State) : Out :=
  instr (.tgset c a b rc) .tgset (do
    control [a, b, rc]
    let n := (← sval rc).toNat
    let v ← sval b
    let key ← sval a
    if decide (256 ≤ n) || decide (2 ^ 32 ≤ v.toNat) then illegal .tgset
    modify fun s => s.modCore s.at'.core fun k =>
      let k := tagDropKey k key
      { k with tagTab := mapSet k.tagTab n ⟨true, key, v.setWidth 32⟩ }) s

/-- `tginv` (R236). -/
def execTginv (c : Ctl) (a : Reg) (k : TgKind) (s : State) : Out :=
  instr (.tginv c a k) .tginv (do
    match k with
    | .entry => do
      control [a]
      let n := (← sval a).toNat
      if 256 ≤ n then illegal .tginv
      modify fun s => s.modCore s.at'.core fun q => tagDrop q n
    | .key => do
      control [a]
      let key ← sval a
      modify fun s => s.modCore s.at'.core fun q => tagDropKey q key
    | .all => modify fun s => s.modCore s.at'.core fun q => { q with tagTab := [] }) s

end Sys2Proof.Machine
end

