-- ==== Sys2Proof/Machine/Withdraw.lean ====
section
/-! DEFINITION. Pavilions that join and leave partitions, with their scrub (R209 to R211, R383), and patrol scrub (R213). -/

namespace Sys2Proof.Machine
open Sys2Proof

/-! ## Withdrawal (R209) -/

/-- The cores of a pavilion that the state lists. -/
def pavCores (s : State) (pav : Nat) : List Nat := (s.cores.map fun (e : Nat × Core) => e.1).filter fun k => pavOf k == pav

/-- A message of a core of a pavilion to a zone. -/
def sentFrom (s : State) (pav : Nat) : Instr → Bool
  | .reservationRequest q => q.src.chip == s.chip && pavOf q.src.core == pav
  | .landing q => q.src.chip == s.chip && pavOf q.src.core == pav
  | _ => false

/-- A command of another pavilion whose destination lies in a zone of the pavilion (R209). -/
def aimsAt (s : State) (pav : Nat) (p : Pend) : Bool :=
  let forward := (p.cmd.op == .xred) && (match RedImg.parse p.cmd.img with | some g => g.toRemote | none => false)
  (p.cmd.op == .lzput || forward) && p.cmd.site.chip == s.chip && pavOf p.cmd.site.core == pav

/-- End every command of a core that `f` picks, with cause 0x0B. -/
def endPicked (s : State) (core : Nat) (f : Pend → Bool) : State :=
  ((s.core core).copyQ ++ (s.core core).units).foldl (fun s p =>
    if f p && (findPend s core p.id).isSome then completeErr s core p 0x0B p.segs else s) s

/-- The helpers of a core hold no record, and its Mire is empty. -/
def droppedRecords (c : Core) : Core :=
  { c with mire := [], helpers := c.helpers.map fun h => { h with idle := true, held := none, ret := .none, nest := none, hostAcc := none, range := none } }

/-- A command waits on a page request, of a core of the pavilion. -/
def waitsFrom (pav : Nat) : PageWaiter → Bool
  | .cmd k _ => pavOf k == pav
  | .thread _ => false

/-- Page requests without the commands of a pavilion. -/
def unwaitPav (pav : Nat) (p : Part) : Part :=
  { p with pageReqs := p.pageReqs.map fun r => { r with waiters := r.waiters.filter fun w => !waitsFrom pav w } }

/-- The task threads on a pavilion, with the partition and the instance of each. -/
def pavTasks (s : State) (pav : Nat) : List (Ctx × Nat × Nat) :=
  (pavCores s pav).flatMap fun k => (List.range 4).filterMap fun t => (s.thread k t).task.map fun x => (⟨k, t⟩, x.part, x.inst)

/-- Tasks saved with their home core on a pavilion: their selections there are released (R209, R210). -/
def releaseHomes (s : State) (pav : Nat) : State :=
  s.parts.foldl (fun s (e : Nat × Part) => e.2.saved.foldl (fun s (x : Nat × Saved) =>
    if pavOf x.2.home = pav ∧ selValid x.2.sel then
      (slotWrite s e.1 x.1 0x68 (zeros 8)).modPart e.1 fun p => { p with saved := mapSet p.saved x.1 { x.2 with sel := 0 } }
    else s) s) s

/-- The partition's threads on a pavilion all stop with the fatal pavilion-withdrawn fault, each with its record, and their instances
abort; the commands of its cores and those aimed at it end, and helpers drop their records (R209). Tasks that are saved with their home
core there are not threads of its cores: they stay in their slots, without their place in the dispatcher (log 41, DEDUCED). -/
def withdraw (s : State) (pav : Nat) : State :=
  let cs := pavCores s pav
  let tasks := pavTasks s pav
  let s := tasks.foldl (fun s e => stopFatal s e.1 { cls := 6, code := 8 } false) s
  let ends := tasks.filter fun e => match (s.thread e.1.core e.1.ctx).st with | .ending _ => false | _ => true
  let s := (ends.map (·.2)).eraseDups.foldl (fun s e => abortInstance s e.1 e.2) s
  let s := cs.foldl (fun s k => endPicked s k fun p => match p.owner with
    | .live c t => (s.thread c t).st != .frozen
    | .saved q sl => ((mapGet (s.part q).saved sl).map fun (x : Saved) => x.wait) != some .frozen) s
  let s := (s.cores.map fun (e : Nat × Core) => e.1).foldl (fun s k => endPicked s k (aimsAt s pav)) s
  let s := cs.foldl (fun s k => s.modCore k droppedRecords) s
  let s := { s with net := s.net.filter fun i => !sentFrom s pav i }
  -- what its dispatcher and page requests hold for the pavilion goes
  let s := releaseHomes { s with parts := s.parts.map fun (e : Nat × Part) => (e.1, unwaitPav pav e.2) } pav
  s.modPav pav fun p => { p with part := none, disp := Vector.replicate 4 [], passed := Vector.replicate 4 0, tender := none, rot := 0, tlb := [] }

/-! ## The scrub and joining (R201, R210, R211, R354) -/

/-- A core after the scrub (R210, R265); its suspect mark stays (R349). -/
def scrubbed (c : Core) : Core := { ({} : Core) with suspect := c.suspect }

/-- A partition is formed with its first pavilion: its cap and its aperture base are 0, and nothing of an earlier partition of
the number is left, but the fabric identifier and the helper library that the host gave it (R4, R381, R383; log 41, DEDUCED). -/
def formPart (s : State) (part : Nat) : State :=
  if (homePavs s part).isEmpty then
    let p := s.part part
    (s.setPart part { ({} : Part) with libEntry := p.libEntry, nextInst := p.nextInst, nextEval := (s.reft.toNat / 10000 + 1) * 10000 }).modFn part fun f => { f with apbase := 0 }
  else s

/-- A scrubbed pavilion joins a partition: the counters and CORECFG of its cores are 0 (R54, R354), no core has a current run (R271),
and it holds the tender classes of the partition (R335). -/
def joinPav (s : State) (pav part : Nat) : State :=
  let classes := match s.pavsOf part with
    | [] => Vector.replicate 16 {}
    | q :: _ => (s.pav q).classes
  let cores := (s.sitesOf pav).map (144 * pav + ·)
  let s := (cores ++ (pavCores s pav).filter fun k => !cores.contains k).foldl (fun s k => s.modCore k fun c => { c with
    corecfg := 0, cyc := 0, cycn := 0, cycnFrac := 0, evt := Vector.replicate 16 0
    gcur := none, grun := 0, glast := 5, wait := Vector.replicate 6 0 }) s
  s.modPav pav fun p => { p with part := some part, scrub := none, classes := classes }

/-- A pavilion begins to scrub: an assignment to a partition that is already queued is what it scrubs for. -/
def beginScrub (s : State) (pav : Nat) (queued : List (Option Nat)) : State :=
  s.modPav pav fun p => match queued with
    | some n :: r => { p with scrub := some (some n), queued := r }
    | l => { p with scrub := some none, queued := l }

/-- Assignments that were queued behind a scrub (R211). -/
def runQueued (s : State) (pav : Nat) : List (Option Nat) → State
  | [] => s
  | q :: r =>
    match (s.pav pav).part, q with
    | some _, none => beginScrub (withdraw s pav) pav r
    | none, some n => runQueued (joinPav s pav n) pav r
    | _, _ => runQueued s pav r

/-- The partition a pavilion will belong to after all that is queued. -/
def pavGoal (p : Pav) : Option Nat :=
  match p.queued.getLast? with
  | some t => t
  | none => match p.scrub with
    | some t => t
    | none => p.part

/-- One pavilion of an assignment (R211, R383). -/
def assignOne (dest : Option Nat) (s : State) (pav : Nat) : State :=
  let p := s.pav pav
  if pavGoal p = dest then s
  else match p.scrub, dest with
    | some none, some n => if p.queued.isEmpty then s.modPav pav fun p => { p with scrub := some (some n) }
        else s.modPav pav fun p => { p with queued := p.queued ++ [dest] }
    | some _, _ => s.modPav pav fun p => { p with queued := p.queued ++ [dest] }
    | none, some n => joinPav s pav n
    | none, none => beginScrub (withdraw s pav) pav []

/-- PAVILION_ASSIGN (R383): refused whole when it names a pavilion of another partition, or would give the partition more than
32. -/
def execPavilionAssign (vf : Option Nat) (pavs : List Nat) (s : State) : Out :=
  .next (
    let pavs := pavs.eraseDups
    let there := s.lodge.ready && pavs.all fun v => decide (v < 32) && (!s.lodge.min || v == 0)
    match vf with
    | none => if there then pavs.foldl (assignOne none) s else s
    | some n =>
      let free := pavs.all fun v => match pavGoal (s.pav v) with | none => true | some m => m == n
      let mine := (s.pavs.filter fun (e : Nat × Pav) => pavGoal e.2 == some n && !pavs.contains e.1).length
      if there && free && decide (n < 32) && decide (mine + pavs.length ≤ 32) && !pavs.isEmpty then
        pavs.foldl (assignOne (some n)) (formPart s n)
      else s)

/-- A pavilion's scrub may complete: none of its contexts is frozen for a dump, nor stopped until its record enters the fault queue
(R210, R268, R350). -/
def scrubReady (s : State) (pav : Nat) : Bool :=
  (s.pav pav).scrub.isSome && ((pavCores s pav).all fun k => (s.core k).threads.all fun t => !t.st.lingers)
    && s.parts.all fun (e : Nat × Part) => e.2.saved.all fun (x : Nat × Saved) => x.2.wait != .frozen || pavOf x.2.home != pav

/-- SCRUB_COMPLETE (R210, R211): everything R210 lists is at its reset value, and the pavilion joins. What its dispatcher holds for the
new partition stays. -/
def execScrubComplete (pav : Nat) (s : State) : Out :=
  .next (if !scrubReady s pav then s
    else
      let p := s.pav pav
      let s := { s with cores := s.cores.map fun (e : Nat × Core) => if pavOf e.1 == pav then (e.1, scrubbed e.2) else e }
      let s := s.modPav pav fun p => { p with part := none, scrub := none, queued := [], rot := 0, classes := Vector.replicate 16 {}, tlb := [] }
      let s := match p.scrub.getD none with
        | none => s
        | some n => joinPav s pav n
      runQueued s pav p.queued)

/-! ## Patrol scrub (R213) -/

/-- Lines of HBM (R206). -/
def hbmLines : Nat := hbmEnd / 64

/-- PATROL_SCRUB_LINE (R213, R215): the next line of the pass in ascending address order; a new deadline is taken with the next
pass. What the line holds is the hardware's (log 13, DESIGN CHOICE). A request that went before a partition's tasks is charged to it
(R214, R362; log 42, DESIGN CHOICE). -/
def execPatrolScrubLine (q : PatrolRead) (s : State) : Out :=
  .next (if s.lodge.min ∨ !s.lodge.ready then s
    else
      let k := s.patrolPos
      let s := match q.part with
        | some p => if (mapGet s.parts p).isSome then charge s p none (weights s).hbmLine else s
        | none => s
      let s := match q.find with
        | .clean => s
        | .corrected => { s with corrected := s.corrected + 1 }
        | .uncorrectable => { s with hbmPois := setIns s.hbmPois k, errlog := s.errlog ++ [64 * k] }
      if k + 1 < hbmLines then { s with patrolPos := k + 1 }
      else { s with patrolPos := 0, patrolD := s.patrolNext, patrolStart := s.reft.toNat })

/-- PATROL_DEADLINE_WRITE (R213): 1 to 72 whole hours. -/
def execPatrolDeadlineWrite (hours : Nat) (s : State) : Out :=
  .next (if hours < 1 ∨ 72 < hours then s else { s with patrolNext := hours })

end Sys2Proof.Machine
end

