-- ==== Sys2Proof/Machine/Witness.lean ====
section
/-! DEFINITION. Witness reductions, witness headers and the adjoint broadcast (10 R190 to R200). -/

namespace Sys2Proof.Machine
open Sys2Proof

/-! ## The order of R192 -/

/-- A code is a NaN of a format of F. -/
def codeNan (fa : BitVec 6) (v : Nat) : Bool := isF fa && (valueOf fa v).isNan

/-- Compare two codes that are no NaN, -0 below +0. -/
def ordCmp (fa : BitVec 6) (a b : Nat) : Int :=
  let x := valueOf fa a
  let y := valueOf fa b
  let c := x.cmp y
  if c = 0 ∧ isF fa ∧ x.neg != y.neg then (if x.neg then -1 else 1) else c

/-- Contributor `k` comes before contributor `j` in the sorted list of R192, with their codes. -/
def sortedBefore (fa : BitVec 6) (a : Nat → Nat) (k j : Nat) : Bool :=
  if codeNan fa (a j) then (if codeNan fa (a k) then decide (k < j) else true)
  else if codeNan fa (a k) then false
  else
    let c := ordCmp fa (a k) (a j)
    decide (c < 0) || (decide (c = 0) && decide (k < j))

/-! ## Witness entries (R193, R194) -/

/-- What a result is: its code and flags, or none; and its witness entry. -/
structure WRes where
  out : Option (Nat × W64)
  entry : Nat
  deriving DecidableEq, Repr, Inhabited

/-- The canonical NaN of a format code. -/
def nanOf (c : BitVec 6) : Nat := ((ffmtOf c).map FFmt.nan).getD 0

/-- `vrmaxw` and `vrminw` on the contributors `cs`, rising, with their codes `a` (R194). -/
def extremeW (big : Bool) (tie : Tie) (fa : BitVec 6) (cs : List Nat) (a : Nat → Nat) : WRes :=
  let split := tie == .split
  match cs with
  | [] => ⟨none, if split then 0 else 0xC0⟩
  | c :: _ =>
    let nums := cs.filter fun k => !codeNan fa (a k)
    let best := match nums with
      | [] => c
      | m :: q => q.foldl (fun b k => if (decide (ordCmp fa (a k) (a b) < 0)) != big && ordCmp fa (a k) (a b) != 0 then k else b) m
    let eq := if nums.isEmpty then cs else nums.filter fun k => ordCmp fa (a k) (a best) == 0
    let pick := if tie == .last then eq.getLastD c else eq.headD c
    let code := if nums.isEmpty then nanOf fa else a best
    ⟨some (code, 0),
      if split then eq.foldl (fun m k => m + 2 ^ k) 0
      else pick + (if nums.isEmpty then 0x80 else if 2 ≤ eq.length then 0x40 else 0)⟩

/-- `vrmedw`. -/
def medianW (fa : BitVec 6) (cs : List Nat) (a : Nat → Nat) : WRes :=
  match cs.find? fun j => (cs.filter fun k => sortedBefore fa a k j).length == (cs.length - 1) / 2 with
  | none => ⟨none, 0xC0⟩
  | some j =>
    if codeNan fa (a j) then ⟨some (nanOf fa, 0), 0x80 + j⟩
    else
      let same := cs.any fun k => k != j && !codeNan fa (a k) && ordCmp fa (a k) (a j) == 0
      ⟨some (a j, 0), j + (if same then 0x40 else 0)⟩

/-- `vrssumw`. -/
def satSumW (fa fd : BitVec 6) (cs : List Nat) (a : Nat → Nat) : WRes :=
  match cs with
  | [] => ⟨none, 3⟩
  | _ =>
    let v := cs.foldl (fun t k => t + (intFmt fa).val (a k)) 0
    let r := (intFmt fd).deliver true v
    ⟨some r, if r.2 = 0 then 0 else if 0 < v then 1 else 2⟩

/-- `vclampw` on one element, inactive when `cs` is empty. -/
def clampW (fa : BitVec 6) (lo hi : Nat) (cs : List Nat) (a : Nat → Nat) : WRes :=
  match cs with
  | [] => ⟨none, 3⟩
  | _ =>
    let v := a 0
    if codeNan fa v then ⟨some (nanOf fa, 0), 3⟩
    else if ordCmp fa v lo < 0 then ⟨some (lo, 0), 1⟩
    else if 0 < ordCmp fa v hi then ⟨some (hi, 0), 2⟩
    else ⟨some (v, 0), 0⟩

/-! ## The reductions (R190, R191, R195) -/

/-- The half-slots that hold witness entry `j` of `eb` bits. -/
def entryHalves (eb j : Nat) : List Nat := granules 16 (j * eb) eb

/-- The witness as elements of 16 bits (R193, R195): `bad` are the results with poison. -/
def witnessElems (eb : Nat) (entries : List Nat) (bad : Nat → Bool) : List Elem :=
  let v := entries.foldr (fun e a => e + 2 ^ eb * a) 0
  let pois := ((List.range entries.length).filter bad).flatMap (entryHalves eb)
  (List.range (ceilDiv (entries.length * eb) 16)).map fun h =>
    ⟨h, if pois.contains h then .pois none false else .val (bits v (16 * h) 16), 0, 0⟩

/-- The overlap rule of R191 and R197: no two of the operands share a register. The fault names the first operand, in the order D, A, B,
C, that meets a later one (log 28, DESIGN CHOICE). -/
def allDisjoint : List Grp → M Unit
  | [] => pure ()
  | g :: r => do
    if r.any (Grp.meets g) then overlapFault g.base
    allDisjoint r

/-- A witness reduction of groups of `G` contributors; `res` gives a result from the active contributors of its group and
their codes, `sc` are the scalar operands beside the format word, and `bounds` is run between the group checks and the overlap check. -/
def witnessRed (i : Instr) (o : Op) (x : Option Pfx) (d a b f : Reg) (G : Nat) (ints : Bool) (eb : Nat) (sc : List Reg)
    (bounds : FWord → M (Nat × Nat)) (res : FWord → Nat × Nat → List Nat → (Nat → Nat) → WRes) (s : State) : Out :=
  vinstr i o .a true (fun start => do
    vstartZero o
    let w ← fmtWord f sc
    let ok := if ints then isI w.fa && isI w.fd && (intFmt w.fa).signed == (intFmt w.fd).signed && decide (codeWidth w.fa ≤ codeWidth w.fd)
      else (isF w.fa || isI w.fa) && w.fd == w.fa
    if !ok then badFormat w.w
    let t ← thr
    let vl := t.vl.toNat
    if vl % G != 0 then illegal o
    let q := vl / G
    let ga : Grp := ⟨a, codeWidth w.fa, vl⟩
    let gd : Grp := ⟨d, codeWidth w.fd, q⟩
    alignGroups [ga, gd]
    let bd ← bounds w
    allDisjoint [gd, ga, ⟨b, 16, 1⟩]
    let p := pfx x
    let act := (List.range vl).filter (active t p)
    for i in act do waitEl start ga i
    noteReads p 0 vl [ga] fun _ => [ga]
    let pois (i : Nat) : Bool := elPres t ga i == .pois
    let bad (j : Nat) : Bool := (List.range G).any fun k => active t p (j * G + k) && pois (j * G + k)
    let rs := (List.range q).map fun j =>
      (j, res w bd ((List.range G).filter fun k => active t p (j * G + k)) fun k => elBits t ga (j * G + k))
    let sig := act.any fun i => !pois i && isF w.fa && (valueOf w.fa (elBits t ga i)).isSig
    let fl := rs.foldl (fun f r => f ||| (if bad r.1 then 0 else ((r.2.out.map (·.2)).getD 0))) (if sig then flagNV else 0)
    trapIf fl
    flags fl
    if vl != 0 then
      putAll ⟨b, 16, 512⟩ 16 false (witnessElems eb (rs.map fun r => r.2.entry) bad)
      putAll gd gd.w false (rs.filterMap fun r =>
        if bad r.1 then some ⟨r.1, .pois none true, 0, 0⟩
        else match r.2.out with
          | some v => some ⟨r.1, .val v.1, 0, 0⟩
          | none => if p.zp then some ⟨r.1, .val 0, 0, 0⟩ else none)
    chargeVec .a (Max.max ga.w gd.w)) s

/-- No bounds. -/
def noBounds (_ : FWord) : M (Nat × Nat) := pure (0, 0)

/-- Bits of a witness entry of `vrmaxw` and `vrminw` (R193). -/
def extremeBits (tie : Tie) (G : Nat) : Nat := if tie == .split then G else 8

/-- `vrmaxw` (R190, R194). -/
def execVrmaxw (c : Ctl) (x : Option Pfx) (d a b f : Reg) (tie : Tie) (logg : BitVec 3) (s : State) : Out :=
  witnessRed (.vrmaxw c x d a b f tie logg) .vrmaxw x d a b f (2 ^ logg.toNat) false (extremeBits tie (2 ^ logg.toNat)) [] noBounds
    (fun w _ cs v => extremeW true tie w.fa cs v) s

/-- `vrminw` (R190, R194). -/
def execVrminw (c : Ctl) (x : Option Pfx) (d a b f : Reg) (tie : Tie) (logg : BitVec 3) (s : State) : Out :=
  witnessRed (.vrminw c x d a b f tie logg) .vrminw x d a b f (2 ^ logg.toNat) false (extremeBits tie (2 ^ logg.toNat)) [] noBounds
    (fun w _ cs v => extremeW false tie w.fa cs v) s

/-- `vrmedw` (R190, R194). -/
def execVrmedw (c : Ctl) (x : Option Pfx) (d a b f : Reg) (tie : Tie) (logg : BitVec 3) (s : State) : Out :=
  witnessRed (.vrmedw c x d a b f tie logg) .vrmedw x d a b f (2 ^ logg.toNat) false 8 [] noBounds (fun w _ cs v => medianW w.fa cs v) s

/-- `vrssumw` (R190, R194). -/
def execVrssumw (c : Ctl) (x : Option Pfx) (d a b f : Reg) (tie : Tie) (logg : BitVec 3) (s : State) : Out :=
  witnessRed (.vrssumw c x d a b f tie logg) .vrssumw x d a b f (2 ^ logg.toNat) true 2 [] noBounds
    (fun w _ cs v => satSumW w.fa w.fd cs v) s

/-- `vclampw` (R190, R191, R194): lo and hi are s[C] and s[C+1]. -/
def execVclampw (c : Ctl) (x : Option Pfx) (d a b rc f : Reg) (s : State) : Out :=
  witnessRed (.vclampw c x d a b rc f) .vclampw x d a b f 1 false 2 [rc, rc + 1]
    (fun w => do
      let n := 2 ^ codeWidth w.fa
      let lo := (← dispS rc).toNat % n
      let hi := (← dispS (rc + 1)).toNat % n
      if codeNan w.fa lo || codeNan w.fa hi || decide (0 < ordCmp w.fa lo hi) then badFormat w.w
      return (lo, hi))
    (fun w bd cs v => clampW w.fa bd.1 bd.2 cs v) s

/-! ## Headers (R196) -/

/-- The fields of a descriptor (R196). -/
structure Desc where
  kind : Nat
  oper : Nat
  logg : Nat
  tie : Nat
  count : Nat
  fmt : BitVec 6
  deriving DecidableEq, Repr, Inhabited

/-- A descriptor whose reserved bits are zero and whose fields form a combination of R196. -/
def Desc.parse (w : Nat) : Option Desc :=
  let d : Desc := ⟨bits w 0 8, bits w 8 8, bits w 16 8, bits w 24 2, bits w 32 16, BitVec.ofNat 6 (bits w 48 6)⟩
  let g6 := decide (1 ≤ d.logg) && decide (d.logg ≤ 6)
  let ok := bits w 26 6 == 0 && bits w 54 10 == 0 && decide (1 ≤ d.count) && decide (d.count ≤ 2048)
    && (if d.oper = 4 then isI d.fmt else isF d.fmt || isI d.fmt)
    && ((d.kind == 1 && decide (d.oper ≤ 1) && decide (d.tie ≤ 1) && g6)
      || (d.kind == 2 && decide (d.oper ≤ 1) && d.tie == 2 && g6)
      || (d.kind == 1 && d.oper == 3 && d.tie == 0 && decide (1 ≤ d.logg) && decide (d.logg ≤ 4))
      || (d.kind == 3 && d.oper == 2 && d.logg == 0 && d.tie == 0)
      || (d.kind == 4 && d.oper == 4 && d.tie == 0 && g6))
  if ok then some d else none

/-- The instance of the task that runs in a context. -/
def instOf (s : State) (x : Ctx) : Option (Task × Inst) :=
  match (s.thread x.core x.ctx).task with
  | none => none
  | some t => ((s.part t.part).insts.find? fun (g : Inst) => g.id == t.inst).map fun g => (t, g)

/-- A tile buffer of the issuing task's graph and whether the task's node outputs it; a number beyond the graph's buffers is
the tile-buffer-number fault (R196, R198). -/
def bufOf (n : Nat) : M (Buf × Bool) := do
  let s ← get
  match instOf s s.at' with
  | none => raise .precise { cls := 6, code := 2, aux := n }
  | some (t, g) => match g.bufs[n]? with
    | none => raise .precise { cls := 6, code := 2, aux := n }
    | some b => return (b, ((g.nodes[t.node]?.map fun (k : Node) => k.outs).getD []).contains n)

/-- `vwhdr` (R196). It has no format word: AUX of its illegal-format fault is the low 32 bits of the operand that is not as R196 has it;
and it writes its header at VL = 0 too (log 49, DESIGN CHOICE). -/
def execVwhdr (c : Ctl) (d a b : Reg) (s : State) : Out :=
  vinstr (.vwhdr c d a b) .vwhdr .a true (fun _ => do
    vstartZero .vwhdr
    dispWait [a, b]
    let desc ← dispS a
    let num ← dispS b
    if (Desc.parse desc.toNat).isNone then badFormat desc.toNat
    if 2 ^ 16 ≤ num.toNat then badFormat num.toNat
    let (buf, _) ← bufOf num.toNat
    let stamp := if buf.full then buf.gen else buf.gen + 1
    let h := desc.toNat + stamp.toNat * 2 ^ 64 + num.toNat * 2 ^ 96
    putAll ⟨d, 64, 8⟩ 64 false ((List.range 8).map fun k => ⟨k, .val (bits h (64 * k) 64), 0, 0⟩)
    chargeGroups .a 1) s

/-! ## The adjoint broadcast (R197 to R200) -/

/-- Round(num / den * 2^e) for numbers that are not zero. -/
def FFmt.roundRatio (f : FFmt) (r : Rnd) (neg : Bool) (num den : Nat) (e : Int) : FRes :=
  let sh := f.fbits + 24 + Nat.log2 den
  f.round false r neg ⟨num * 2 ^ sh / den, e - sh, num * 2 ^ sh % den != 0⟩

/-- Round(D + A / n) with one rounding. -/
def addShare (f : FFmt) (r : Rnd) (d a : FVal) (n : Nat) : FRes :=
  match d, a with
  | .fin s m e, .fin k p g =>
    let low := min e g
    let v := signedAt s m e low * n + signedAt k p g low
    if v = 0 then ⟨f.signed (zeroSign r s k) 0, 0⟩ else f.roundRatio r (v < 0) v.natAbs n low
  | _, _ => f.add r d a

/-- How many ways the gradient of a result is split for contributor `k` with an entry; none when it gets no share (R199). -/
def shareOf (kind entry k : Nat) : Option Nat :=
  if kind = 1 then (if entry = 0xC0 ∨ entry % 64 ≠ k then none else some 1)
  else if kind = 2 then
    let n := ((List.range 64).filter (bit entry)).length
    if n = 0 ∨ !bit entry k then none else some n
  else if entry = 0 then some 1 else none

/-- Bits of an entry of a kind. -/
def kindBits (kind G : Nat) : Nat := if kind = 1 then 8 else if kind = 2 then G else 2

/-- `vadjb` (R197 to R200): `acc` adds to D. Where the entry's half-slots are POISONED no share is known, and A[j] is neither waited for
nor its fault delivered (log 49, DESIGN CHOICE). -/
def execVadjb (c : Ctl) (x : Option Pfx) (d a b rc f : Reg) (acc : Bool) (s : State) : Out :=
  vinstr (.vadjb c x d a b rc f acc) .vadjb .a true (fun start => do
    vstartZero .vadjb
    let w ← fmtWord f
    if !isF w.fa || w.fd != w.fa then badFormat w.w
    let t ← thr
    let vl := t.vl.toNat
    let p := pfx x
    let gh : Grp := ⟨rc, 16, 32⟩
    for h in List.range 32 do
      waitEl start gh h
      if elPres t gh h == .pois then poisonFault h
    let h := (List.range 8).foldr (fun k v => (t.word rc.toNat k).bits.toNat + 2 ^ 64 * v) 0
    let desc ← (match Desc.parse (bits h 0 64) with
      | none => badFormat w.w
      | some q => pure q)
    let G := 2 ^ desc.logg
    if bits h 112 400 != 0 || vl != desc.count * G then badFormat w.w
    let n := codeWidth w.fa
    let ga : Grp := ⟨a, n, desc.count⟩
    let gd : Grp := ⟨d, n, vl⟩
    let gb : Grp := ⟨b, 16, 512⟩
    alignGroups [gd, ga]
    allDisjoint [gd, ga, ⟨b, 16, 1⟩, ⟨rc, 16, 1⟩]
    let stamp : BitVec 32 := BitVec.ofNat 32 (bits h 64 32)
    let num := bits h 96 16
    -- one snapshot, kept while the instruction waits
    if ((← get).lane.bind (·.memo)) != some .current then
      let (buf, out) ← bufOf num
      if !(if buf.full then buf.gen == stamp else out && buf.gen + 1 == stamp) then
        raise .precise { cls := 6, code := 1, aux := num, aux2 := (buf.gen.setWidth 64) <<< 32 ||| stamp.setWidth 64 }
      keepMemo .current
    let ft := (ffmtOf w.fa).getD fp32
    let eb := kindBits desc.kind G
    let entry (j : Nat) : Nat := bits ((entryHalves eb j).foldr (fun k v => elBits t gb k + 2 ^ 16 * v) 0) (j * eb % 16) eb
    let share (i : Nat) : Option Nat := shareOf desc.kind (entry (i / G)) (i % G)
    let wbad (i : Nat) : Bool := (entryHalves eb (i / G)).any fun k => elPres t gb k == .pois
    let idx := List.range vl
    for i in idx.filter (active t p) do
      for k in entryHalves eb (i / G) do waitEl start gb k
      if !wbad i && (share i).isSome then waitEl start ga (i / G)
      if acc then waitEl start gd i
    let mode := vecMode t p
    if !t.errs.isEmpty then
      let read (i : Nat) : List (Grp × Nat) :=
        (if acc then [(gd, i)] else []) ++ (ga, i / G) :: (entryHalves eb (i / G)).map fun k => (gb, k)
      noteWords (idx.flatMap read) ((idx.filter (active t p)).flatMap read)
    let one (i : Nat) (sr : W64) : Option Elem × W64 :=
      if !active t p i then (if p.zp then some ⟨i, .val 0, 0, 0⟩ else none, sr)
      else
        let dr := if mode = .sr then srNext sr else (sr, 0)
        let r : Rnd := ⟨mode, dr.2⟩
        let dbad := acc && elPres t gd i == .pois
        let q : Option Elem :=
          if wbad i || dbad then some ⟨i, .pois none true, 0, 0⟩
          else match share i with
            | none => if acc then none else some ⟨i, .val 0, 0, 0⟩
            | some k =>
              if elPres t ga (i / G) == .pois then some ⟨i, .pois none true, 0, 0⟩
              else
                let v := ft.decode (elBits t ga (i / G))
                let res := if acc then addShare ft r (ft.decode (elBits t gd i)) v k
                  else if k = 1 then ft.deliver false r v else ft.div r v (.fin false k 0)
                some ⟨i, .val res.code, res.flags, 0⟩
        (q, dr.1)
    let run := idx.foldl (fun (st : List Elem × W64) i => let q := one i st.2; (st.1 ++ q.1.toList, q.2)) ([], t.srstate)
    trapIf (run.1.foldl (fun f e => f ||| e.flags) 0)
    modify fun s => s.modThread s.at'.core s.at'.ctx fun t => { t with srstate := run.2 }
    putAll gd gd.w false run.1
    chargeVec .a gd.w) s

end Sys2Proof.Machine
end

