-- ==== Sys2Proof/Machine/Dispatch.lean ====
section
/-! DEFINITION. Which meaning each row of the opcode table has: one arm per constructor of `Instr`, each one call. -/

namespace Sys2Proof.Machine
open Sys2Proof

/-- The effect of an instruction in the context that runs it, or of another step of the table. -/
def exec (i : Instr) (s : State) : Host.Outcome State Fault Refusal :=
  match i with
  | .add c d a b => Sys2Proof.Machine.execAdd c d a b s
  | .sub c d a b => Sys2Proof.Machine.execSub c d a b s
  | .addi c d a imm => Sys2Proof.Machine.execAddi c d a imm s
  | .mul c d a b => Sys2Proof.Machine.execMul c d a b s
  | .mulh c d a b => Sys2Proof.Machine.execMulh c d a b s
  | .mulhu c d a b => Sys2Proof.Machine.execMulhu c d a b s
  | .div c d a b => Sys2Proof.Machine.execDiv c d a b s
  | .divu c d a b => Sys2Proof.Machine.execDivu c d a b s
  | .rem c d a b => Sys2Proof.Machine.execRem c d a b s
  | .remu c d a b => Sys2Proof.Machine.execRemu c d a b s
  | .and c d a b => Sys2Proof.Machine.execAnd c d a b s
  | .or c d a b => Sys2Proof.Machine.execOr c d a b s
  | .xor c d a b => Sys2Proof.Machine.execXor c d a b s
  | .andi c d a imm => Sys2Proof.Machine.execAndi c d a imm s
  | .ori c d a imm => Sys2Proof.Machine.execOri c d a imm s
  | .xori c d a imm => Sys2Proof.Machine.execXori c d a imm s
  | .shl c d a b => Sys2Proof.Machine.execShl c d a b s
  | .shr c d a b => Sys2Proof.Machine.execShr c d a b s
  | .sra c d a b => Sys2Proof.Machine.execSra c d a b s
  | .shli c d a imm => Sys2Proof.Machine.execShli c d a imm s
  | .shri c d a imm => Sys2Proof.Machine.execShri c d a imm s
  | .srai c d a imm => Sys2Proof.Machine.execSrai c d a imm s
  | .rot c d a b => Sys2Proof.Machine.execRot c d a b s
  | .min c d a b => Sys2Proof.Machine.execMin c d a b s
  | .max c d a b => Sys2Proof.Machine.execMax c d a b s
  | .minu c d a b => Sys2Proof.Machine.execMinu c d a b s
  | .maxu c d a b => Sys2Proof.Machine.execMaxu c d a b s
  | .clz c d a => Sys2Proof.Machine.execClz c d a s
  | .ctz c d a => Sys2Proof.Machine.execCtz c d a s
  | .popc c d a => Sys2Proof.Machine.execPopc c d a s
  | .movi c d imm => Sys2Proof.Machine.execMovi c d imm s
  | .sel c d a b rc => Sys2Proof.Machine.execSel c d a b rc s
  | .cmp c d a b k => Sys2Proof.Machine.execCmp c d a b k s
  | .faddS c d a b rm => Sys2Proof.Machine.execFaddS c d a b rm s
  | .faddD c d a b rm => Sys2Proof.Machine.execFaddD c d a b rm s
  | .fsubS c d a b rm => Sys2Proof.Machine.execFsubS c d a b rm s
  | .fsubD c d a b rm => Sys2Proof.Machine.execFsubD c d a b rm s
  | .fmulS c d a b rm => Sys2Proof.Machine.execFmulS c d a b rm s
  | .fmulD c d a b rm => Sys2Proof.Machine.execFmulD c d a b rm s
  | .ffmaS c d a b rc rm => Sys2Proof.Machine.execFfmaS c d a b rc rm s
  | .ffmaD c d a b rc rm => Sys2Proof.Machine.execFfmaD c d a b rc rm s
  | .fdivS c d a b rm => Sys2Proof.Machine.execFdivS c d a b rm s
  | .fdivD c d a b rm => Sys2Proof.Machine.execFdivD c d a b rm s
  | .fsqrtS c d a rm => Sys2Proof.Machine.execFsqrtS c d a rm s
  | .fsqrtD c d a rm => Sys2Proof.Machine.execFsqrtD c d a rm s
  | .fminS c d a b => Sys2Proof.Machine.execFminS c d a b s
  | .fminD c d a b => Sys2Proof.Machine.execFminD c d a b s
  | .fmaxS c d a b => Sys2Proof.Machine.execFmaxS c d a b s
  | .fmaxD c d a b => Sys2Proof.Machine.execFmaxD c d a b s
  | .fcmpS c d a b k => Sys2Proof.Machine.execFcmpS c d a b k s
  | .fcmpD c d a b k => Sys2Proof.Machine.execFcmpD c d a b k s
  | .fcvtS c d a k rm => Sys2Proof.Machine.execFcvtS c d a k rm s
  | .fcvtD c d a k rm => Sys2Proof.Machine.execFcvtD c d a k rm s
  | .fclassS c d a => Sys2Proof.Machine.execFclassS c d a s
  | .fclassD c d a => Sys2Proof.Machine.execFclassD c d a s
  | .fsgnS c d a b k => Sys2Proof.Machine.execFsgnS c d a b k s
  | .fsgnD c d a b k => Sys2Proof.Machine.execFsgnD c d a b k s
  | .pand c d a b => Sys2Proof.Machine.execPand c d a b s
  | .por c d a b => Sys2Proof.Machine.execPor c d a b s
  | .pxor c d a b => Sys2Proof.Machine.execPxor c d a b s
  | .pnot c d a => Sys2Proof.Machine.execPnot c d a s
  | .pmov c d a => Sys2Proof.Machine.execPmov c d a s
  | .br c tgt => Sys2Proof.Machine.execBr c tgt s
  | .jmp c a tgt => Sys2Proof.Machine.execJmp c a tgt s
  | .call c d tgt => Sys2Proof.Machine.execCall c d tgt s
  | .ret c a => Sys2Proof.Machine.execRet c a s
  | .lnest c d a imm => Sys2Proof.Machine.execLnest c d a imm s
  | .lninc c d a k => Sys2Proof.Machine.execLninc c d a k s
  | .yield c => Sys2Proof.Machine.execYield c s
  | .nop c => Sys2Proof.Machine.execNop c s
  | .trap c imm => Sys2Proof.Machine.execTrap c imm s
  | .svc c imm => Sys2Proof.Machine.execSvc c imm s
  | .eret c => Sys2Proof.Machine.execEret c s
  | .ld c d a k sx off => Sys2Proof.Machine.execLd c d a k sx off s
  | .st c d a k off => Sys2Proof.Machine.execSt c d a k off s
  | .amo c d a b o dbl ord off => Sys2Proof.Machine.execAmo c d a b o dbl ord off s
  | .cas c d a b dbl ord off => Sys2Proof.Machine.execCas c d a b dbl ord off s
  | .fence c sc k => Sys2Proof.Machine.execFence c sc k s
  | .barinit c d a off => Sys2Proof.Machine.execBarinit c d a off s
  | .bararr c d a off => Sys2Proof.Machine.execBararr c d a off s
  | .barwait c d a off => Sys2Proof.Machine.execBarwait c d a off s
  | .barfree c a off => Sys2Proof.Machine.execBarfree c a off s
  | .sigst c d a sc off => Sys2Proof.Machine.execSigst c d a sc off s
  | .csrr c d imm => Sys2Proof.Machine.execCsrr c d imm s
  | .csrw c a imm => Sys2Proof.Machine.execCsrw c a imm s
  | .csrs c a imm => Sys2Proof.Machine.execCsrs c a imm s
  | .csrc c a imm => Sys2Proof.Machine.execCsrc c a imm s
  | .tlbinv c a b k => Sys2Proof.Machine.execTlbinv c a b k s
  | .icinv c a b t => Sys2Proof.Machine.execIcinv c a b t s
  | .setvl c d a b => Sys2Proof.Machine.execSetvl c d a b s
  | .setvli c d imm => Sys2Proof.Machine.execSetvli c d imm s
  | .vlq c d k => Sys2Proof.Machine.execVlq c d k s
  | .vspill c d a k off => Sys2Proof.Machine.execVspill c d a k off s
  | .vfill c d a k off => Sys2Proof.Machine.execVfill c d a k off s
  | .vadd c x d a b f => Sys2Proof.Machine.execVadd c x d a b f s
  | .vsub c x d a b f => Sys2Proof.Machine.execVsub c x d a b f s
  | .vmul c x d a b f => Sys2Proof.Machine.execVmul c x d a b f s
  | .vmulh c x d a b f => Sys2Proof.Machine.execVmulh c x d a b f s
  | .vdiv c x d a b f => Sys2Proof.Machine.execVdiv c x d a b f s
  | .vrem c x d a b f => Sys2Proof.Machine.execVrem c x d a b f s
  | .vmin c x d a b f => Sys2Proof.Machine.execVmin c x d a b f s
  | .vmax c x d a b f => Sys2Proof.Machine.execVmax c x d a b f s
  | .vand c x d a b f => Sys2Proof.Machine.execVand c x d a b f s
  | .vor c x d a b f => Sys2Proof.Machine.execVor c x d a b f s
  | .vxor c x d a b f => Sys2Proof.Machine.execVxor c x d a b f s
  | .vshl c x d a b f => Sys2Proof.Machine.execVshl c x d a b f s
  | .vshr c x d a b f => Sys2Proof.Machine.execVshr c x d a b f s
  | .vsra c x d a b f => Sys2Proof.Machine.execVsra c x d a b f s
  | .vsadd c x d a b f => Sys2Proof.Machine.execVsadd c x d a b f s
  | .vssub c x d a b f => Sys2Proof.Machine.execVssub c x d a b f s
  | .vwmul c x d a b f => Sys2Proof.Machine.execVwmul c x d a b f s
  | .vwmacc c x d a b f => Sys2Proof.Machine.execVwmacc c x d a b f s
  | .vcmp c x d a b f k => Sys2Proof.Machine.execVcmp c x d a b f k s
  | .vmerge c x d a b rc f => Sys2Proof.Machine.execVmerge c x d a b rc f s
  | .vcvt c x d a f => Sys2Proof.Machine.execVcvt c x d a f s
  | .mand c d a b => Sys2Proof.Machine.execMand c d a b s
  | .mor c d a b => Sys2Proof.Machine.execMor c d a b s
  | .mxor c d a b => Sys2Proof.Machine.execMxor c d a b s
  | .mnot c d a => Sys2Proof.Machine.execMnot c d a s
  | .mpop c d a => Sys2Proof.Machine.execMpop c d a s
  | .mffs c d a => Sys2Proof.Machine.execMffs c d a s
  | .mset c d a => Sys2Proof.Machine.execMset c d a s
  | .vfadd c x d a b f => Sys2Proof.Machine.execVfadd c x d a b f s
  | .vfsub c x d a b f => Sys2Proof.Machine.execVfsub c x d a b f s
  | .vfmul c x d a b f => Sys2Proof.Machine.execVfmul c x d a b f s
  | .vfma c x d a b rc f => Sys2Proof.Machine.execVfma c x d a b rc f s
  | .vfnma c x d a b rc f => Sys2Proof.Machine.execVfnma c x d a b rc f s
  | .vfdiv c x d a b f => Sys2Proof.Machine.execVfdiv c x d a b f s
  | .vfrcp c x d a f => Sys2Proof.Machine.execVfrcp c x d a f s
  | .vfsqrt c x d a f => Sys2Proof.Machine.execVfsqrt c x d a f s
  | .vfrsqrt c x d a f => Sys2Proof.Machine.execVfrsqrt c x d a f s
  | .vfexp2 c x d a f => Sys2Proof.Machine.execVfexp2 c x d a f s
  | .vflog2 c x d a f => Sys2Proof.Machine.execVflog2 c x d a f s
  | .vfsin c x d a f => Sys2Proof.Machine.execVfsin c x d a f s
  | .vfcos c x d a f => Sys2Proof.Machine.execVfcos c x d a f s
  | .vftanh c x d a f => Sys2Proof.Machine.execVftanh c x d a f s
  | .vfmin c x d a b f => Sys2Proof.Machine.execVfmin c x d a b f s
  | .vfmax c x d a b f => Sys2Proof.Machine.execVfmax c x d a b f s
  | .vfcmp c x d a b f k => Sys2Proof.Machine.execVfcmp c x d a b f k s
  | .vfcvt c x d a b f => Sys2Proof.Machine.execVfcvt c x d a b f s
  | .vfwma c x d a b rc f => Sys2Proof.Machine.execVfwma c x d a b rc f s
  | .vfclass c x d a f => Sys2Proof.Machine.execVfclass c x d a f s
  | .vfsgn c x d a b f k => Sys2Proof.Machine.execVfsgn c x d a b f k s
  | .vslide c x d a b f t => Sys2Proof.Machine.execVslide c x d a b f t s
  | .vperm c x d a b f => Sys2Proof.Machine.execVperm c x d a b f s
  | .vreshape c x d a b f => Sys2Proof.Machine.execVreshape c x d a b f s
  | .vcompress c x d a b f => Sys2Proof.Machine.execVcompress c x d a b f s
  | .vexpand c x d a b f => Sys2Proof.Machine.execVexpand c x d a b f s
  | .vbcast c x d a f => Sys2Proof.Machine.execVbcast c x d a f s
  | .vext c x d a b f => Sys2Proof.Machine.execVext c x d a b f s
  | .vins c x d a b f => Sys2Proof.Machine.execVins c x d a b f s
  | .vrsum c x d a f => Sys2Proof.Machine.execVrsum c x d a f s
  | .vrmax c x d a f => Sys2Proof.Machine.execVrmax c x d a f s
  | .vrmin c x d a f => Sys2Proof.Machine.execVrmin c x d a f s
  | .vrssum c x d a f => Sys2Proof.Machine.execVrssum c x d a f s
  | .vrmaxw c x d a b f tie logg => Sys2Proof.Machine.execVrmaxw c x d a b f tie logg s
  | .vrminw c x d a b f tie logg => Sys2Proof.Machine.execVrminw c x d a b f tie logg s
  | .vclampw c x d a b rc f => Sys2Proof.Machine.execVclampw c x d a b rc f s
  | .vrmedw c x d a b f tie logg => Sys2Proof.Machine.execVrmedw c x d a b f tie logg s
  | .vrssumw c x d a b f tie logg => Sys2Proof.Machine.execVrssumw c x d a b f tie logg s
  | .vwhdr c d a b => Sys2Proof.Machine.execVwhdr c d a b s
  | .vadjb c x d a b rc f t => Sys2Proof.Machine.execVadjb c x d a b rc f t s
  | .vld c x d a k off => Sys2Proof.Machine.execVld c x d a k off s
  | .vlds c x d a b k off => Sys2Proof.Machine.execVlds c x d a b k off s
  | .vldx c x d a b k i64 off => Sys2Proof.Machine.execVldx c x d a b k i64 off s
  | .vldseg c x d a k nf off => Sys2Proof.Machine.execVldseg c x d a k nf off s
  | .vst c x d a k off => Sys2Proof.Machine.execVst c x d a k off s
  | .vsts c x d a b k off => Sys2Proof.Machine.execVsts c x d a b k off s
  | .vstx c x d a b k i64 off => Sys2Proof.Machine.execVstx c x d a b k i64 off s
  | .vstseg c x d a k nf off => Sys2Proof.Machine.execVstseg c x d a k nf off s
  | .vldmx c x d a b rc f t => Sys2Proof.Machine.execVldmx c x d a b rc f t s
  | .vstmx c x d a b rc f t => Sys2Proof.Machine.execVstmx c x d a b rc f t s
  | .vsettle c a k => Sys2Proof.Machine.execVsettle c a k s
  | .vpres c d a k st => Sys2Proof.Machine.execVpres c d a k st s
  | .mpoison c d a k => Sys2Proof.Machine.execMpoison c d a k s
  | .hpop c d => Sys2Proof.Machine.execHpop c d s
  | .hopnd c d k => Sys2Proof.Machine.execHopnd c d k s
  | .hfill c a b => Sys2Proof.Machine.execHfill c a b s
  | .hflt c a b => Sys2Proof.Machine.execHflt c a b s
  | .msel c a b => Sys2Proof.Machine.execMsel c a b s
  | .mmul c x d a f t => Sys2Proof.Machine.execMmul c x d a f t s
  | .mstat c d => Sys2Proof.Machine.execMstat c d s
  | .mclr c => Sys2Proof.Machine.execMclr c s
  | .cpy c a tag => Sys2Proof.Machine.execCpy c a tag s
  | .cpyt c a tag => Sys2Proof.Machine.execCpyt c a tag s
  | .cfill c a b tag => Sys2Proof.Machine.execCfill c a b tag s
  | .cwany c d a => Sys2Proof.Machine.execCwany c d a s
  | .cwall c d a => Sys2Proof.Machine.execCwall c d a s
  | .cffr c d a => Sys2Proof.Machine.execCffr c d a s
  | .ctclr c a => Sys2Proof.Machine.execCtclr c a s
  | .epop c d => Sys2Proof.Machine.execEpop c d s
  | .lzopen c a b zone => Sys2Proof.Machine.execLzopen c a b zone s
  | .lzclose c zone => Sys2Proof.Machine.execLzclose c zone s
  | .lzres c site zone => Sys2Proof.Machine.execLzres c site zone s
  | .lzput c a site zone tag => Sys2Proof.Machine.execLzput c a site zone tag s
  | .lzwait c d a b t zone => Sys2Proof.Machine.execLzwait c d a b t zone s
  | .lzfree c a zone => Sys2Proof.Machine.execLzfree c a zone s
  | .lzclean c zone => Sys2Proof.Machine.execLzclean c zone s
  | .xred c a site zone tag => Sys2Proof.Machine.execXred c a site zone tag s
  | .tbset c d a t => Sys2Proof.Machine.execTbset c d a t s
  | .tbtest c d a => Sys2Proof.Machine.execTbtest c d a s
  | .glaunch c a b => Sys2Proof.Machine.execGlaunch c a b s
  | .texit c => Sys2Proof.Machine.execTexit c s
  | .tsusp c => Sys2Proof.Machine.execTsusp c s
  | .tdclass c a b => Sys2Proof.Machine.execTdclass c a b s
  | .tdoffer c d a b => Sys2Proof.Machine.execTdoffer c d a b s
  | .tglk c d a => Sys2Proof.Machine.execTglk c d a s
  | .tgset c a b rc => Sys2Proof.Machine.execTgset c a b rc s
  | .tginv c a k => Sys2Proof.Machine.execTginv c a k s
  | .barwaitRelease core thr => Sys2Proof.Machine.execBarwaitRelease core thr s
  | .mireStallResume core q => Sys2Proof.Machine.execMireStallResume core q s
  | .laneWaitRelease core q => Sys2Proof.Machine.execLaneWaitRelease core q s
  | .planeLatch core thr => Sys2Proof.Machine.execPlaneLatch core thr s
  | .lzwaitTimeout core thr => Sys2Proof.Machine.execLzwaitTimeout core thr s
  | .issueCycle core => Sys2Proof.Machine.execIssueCycle core s
  | .pipeDispatch core q upset => Sys2Proof.Machine.execPipeDispatch core q upset s
  | .engineCommandAccept core thr => Sys2Proof.Machine.execEngineCommandAccept core thr s
  | .copySegment core id => Sys2Proof.Machine.execCopySegment core id s
  | .reservationRequest q => Sys2Proof.Machine.execReservationRequest q s
  | .reservationAnswer q => Sys2Proof.Machine.execReservationAnswer q s
  | .landing q => Sys2Proof.Machine.execLanding q s
  | .putAck q => Sys2Proof.Machine.execPutAck q s
  | .xredGateRead core id => Sys2Proof.Machine.execXredGateRead core id s
  | .xredReduce core id => Sys2Proof.Machine.execXredReduce core id s
  | .launchInstantiate part => Sys2Proof.Machine.execLaunchInstantiate part s
  | .dispatch pav => Sys2Proof.Machine.execDispatch pav s
  | .tenderAnnounce pav => Sys2Proof.Machine.execTenderAnnounce pav s
  | .bid q => Sys2Proof.Machine.execBid q s
  | .bidWindowClose pav serial => Sys2Proof.Machine.execBidWindowClose pav serial s
  | .award pav serial core => Sys2Proof.Machine.execAward pav serial core s
  | .retenderTimer pav serial => Sys2Proof.Machine.execRetenderTimer pav serial s
  | .gangPrepare q => Sys2Proof.Machine.execGangPrepare q s
  | .gangCommit q => Sys2Proof.Machine.execGangCommit q s
  | .gangPrepareTimeout part inst => Sys2Proof.Machine.execGangPrepareTimeout part inst s
  | .gangCommitTimeout part inst => Sys2Proof.Machine.execGangCommitTimeout part inst s
  | .stopDrain core thr => Sys2Proof.Machine.execStopDrain core thr s
  | .contextSave core thr => Sys2Proof.Machine.execContextSave core thr s
  | .contextRestore core thr => Sys2Proof.Machine.execContextRestore core thr s
  | .scrubComplete pav => Sys2Proof.Machine.execScrubComplete pav s
  | .relockEnd isle => Sys2Proof.Machine.execRelockEnd isle s
  | .governorEvaluation part => Sys2Proof.Machine.execGovernorEvaluation part s
  | .dumpEnd part err => Sys2Proof.Machine.execDumpEnd part err s
  | .traceSample part => Sys2Proof.Machine.execTraceSample part s
  | .traceRecordWrite core => Sys2Proof.Machine.execTraceRecordWrite core s
  | .powerUpReset q => Sys2Proof.Machine.execPowerUpReset q s
  | .idleHelperPop core h => Sys2Proof.Machine.execIdleHelperPop core h s
  | .scalarResultWrite core thr d pred => Sys2Proof.Machine.execScalarResultWrite core thr d pred s
  | .linkFailureDeclared link => Sys2Proof.Machine.execLinkFailureDeclared link s
  | .launchRecordWrite part queue rec => Sys2Proof.Machine.execLaunchRecordWrite part queue rec s
  | .gangAck q => Sys2Proof.Machine.execGangAck q s
  | .gangAbort q => Sys2Proof.Machine.execGangAbort q s
  | .hostSuspendRequest core thr => Sys2Proof.Machine.execHostSuspendRequest core thr s
  | .hostRelease part slot => Sys2Proof.Machine.execHostRelease part slot s
  | .hostResume who => Sys2Proof.Machine.execHostResume who s
  | .hostEndThread who => Sys2Proof.Machine.execHostEndThread who s
  | .serviceAnswer who => Sys2Proof.Machine.execServiceAnswer who s
  | .pageRequestResponse part page ok => Sys2Proof.Machine.execPageRequestResponse part page ok s
  | .faultQueueConsume part n => Sys2Proof.Machine.execFaultQueueConsume part n s
  | .pavilionAssign vf pavs => Sys2Proof.Machine.execPavilionAssign vf pavs s
  | .patrolScrubLine q => Sys2Proof.Machine.execPatrolScrubLine q s
  | .patrolDeadlineWrite hours => Sys2Proof.Machine.execPatrolDeadlineWrite hours s
  | .frequencyWrite isle code => Sys2Proof.Machine.execFrequencyWrite isle code s
  | .capWrite part cap => Sys2Proof.Machine.execCapWrite part cap s
  | .translationRootWrite part val => Sys2Proof.Machine.execTranslationRootWrite part val s
  | .hostInvalidate part range => Sys2Proof.Machine.execHostInvalidate part range s
  | .zeroingCommand pa len => Sys2Proof.Machine.execZeroingCommand pa len s
  | .apbaseWrite part val => Sys2Proof.Machine.execApbaseWrite part val s
  | .apertureAccess part off len op => Sys2Proof.Machine.execApertureAccess part off len op s
  | .corecfgWrite core val => Sys2Proof.Machine.execCorecfgWrite core val s
  | .verifyModeSet part on => Sys2Proof.Machine.execVerifyModeSet part on s
  | .suspectClear core => Sys2Proof.Machine.execSuspectClear core s
  | .dumpArm part base len => Sys2Proof.Machine.execDumpArm part base len s
  | .dumpRequest part who => Sys2Proof.Machine.execDumpRequest part who s
  | .trctlFlush part => Sys2Proof.Machine.execTrctlFlush part s
  | .managementRegisterWrite q => Sys2Proof.Machine.execManagementRegisterWrite q s
  | .startStageComplete ok unit => Sys2Proof.Machine.execStartStageComplete ok unit s
  | .startWatchdog => Sys2Proof.Machine.execStartWatchdog s
  | .fullStartRequest => Sys2Proof.Machine.execFullStartRequest s
  | .spdmGetVersion fn => Sys2Proof.Machine.execSpdmGetVersion fn s
  | .spdmGetCapabilities fn => Sys2Proof.Machine.execSpdmGetCapabilities fn s
  | .spdmNegotiateAlgorithms fn => Sys2Proof.Machine.execSpdmNegotiateAlgorithms fn s
  | .spdmGetDigests fn => Sys2Proof.Machine.execSpdmGetDigests fn s
  | .spdmGetCertificate fn => Sys2Proof.Machine.execSpdmGetCertificate fn s
  | .spdmChallenge fn nonce => Sys2Proof.Machine.execSpdmChallenge fn nonce s
  | .spdmGetMeasurements fn blocks => Sys2Proof.Machine.execSpdmGetMeasurements fn blocks s
  | .vfEnable n => Sys2Proof.Machine.execVfEnable n s
  | .fabricSettingsWrite q => Sys2Proof.Machine.execFabricSettingsWrite q s
  | .linkUp link => Sys2Proof.Machine.execLinkUp link s
  | .pcieCompletionTimeout core thr => Sys2Proof.Machine.execPcieCompletionTimeout core thr s
  | .memoryAccessPerformed core thr q => Sys2Proof.Machine.execMemoryAccessPerformed core thr q s

end Sys2Proof.Machine
end

