-- ==== Sys2Proof/Machine/Sched.lean ====
section
/-! DEFINITION. Which steps are possible in a state, and which one comes next (R385; log entry 6, DESIGN CHOICE). -/

namespace Sys2Proof.Machine
open Sys2Proof

/-- The island of a zone is clocked again, and messages that came in its window are still at its edge: a later one comes after them
(R358). -/
def edgeBusy (s : State) (dst : Site) : Bool := let i := s.isleAt dst.core; i.relock.isNone && !i.edge.isEmpty

/-- A message can be taken now: none passes those at the edge of an island (R358), and a prepare waits for its member (R304). -/
def deliverable (s : State) : Instr → Bool
  | .reservationRequest q => !edgeBusy s q.dst
  | .landing q => !edgeBusy s q.dst
  | .gangPrepare q => (gangInst s q).isSome || q.chip != s.chip.toNat
  | _ => true

/-- A step when a condition holds. -/
def when (b : Bool) (i : Instr) : List Instr := if b then [i] else []

/-- The steps of a pipe of a core (R131, R158, R159, R249, R272). -/
def pipeSteps (s : State) (k : Nat) (q : Pipe) : List Instr :=
  match (s.pipe k q).head? with
  | none => []
  | some e => match e.why with
    | .queued => when (dispatchable s k e) (.pipeDispatch k q none)
    | .presence | .range | .plane => [.laneWaitRelease k q]
    | .elder => when (!s.hasElder k e.thr e.num) (.laneWaitRelease k q)
    | .host => when ((s.thread k e.thr).hostAcc.all fun a => a.answer.isSome) (.laneWaitRelease k q)
    | .mireRoom => when (decide ((s.core k).mire.length < 512)) (.mireStallResume k q)
    | .latch => []

/-- The steps of a task thread (R180, R233, R270, R276 to R280, R284, R328). -/
def threadSteps (s : State) (k t : Nat) : List Instr :=
  when (barwaitOver s k t) (.barwaitRelease k t) ++ when (lzwaitDue s k t) (.lzwaitTimeout k t) ++ when (canLatch s k t) (.planeLatch k t)
    ++ when (acceptTry s k t).isSome (.engineCommandAccept k t) ++ when (drainTry s k t).isSome (.stopDrain k t)
    ++ when (saveSlot s k t).isSome (.contextSave k t)
    ++ when (match (s.thread k t).st with | .restoring _ => true | _ => false) (.contextRestore k t)

/-- The steps of a core's copies and puts (R318). -/
def copySteps (s : State) (k : Nat) : List Instr :=
  ((s.core k).copyQ ++ (s.core k).units).flatMap fun p => when (copyTry s k p.id).isSome (.copySegment k p.id)

/-- The steps of a core's collective engine (R331), which runs on in a relock window (R358). -/
def redSteps (s : State) (k : Nat) : List Instr :=
  ((s.core k).copyQ ++ (s.core k).units).flatMap fun p =>
    when (gateTry s k p.id).isSome (.xredGateRead k p.id) ++ when (redTry s k p.id).isSome (.xredReduce k p.id)

/-- The core has no more cycles behind it than any other core of its island that the state lists: they share one clock (R356). -/
def cycleNext (s : State) (k : Nat) : Bool :=
  s.cores.all fun (e : Nat × Core) => isleOf s e.1 != isleOf s k || !powered s e.1 || decide ((s.core k).cyc.toNat ≤ e.2.cyc.toNat)

/-- The steps of a core. -/
def coreSteps (s : State) (k : Nat) : List Instr :=
  (if clocked s k then
    when (cycleNext s k) (.issueCycle k) ++ [Pipe.a, Pipe.m, Pipe.x].flatMap (pipeSteps s k)
      ++ (List.range 4).flatMap (threadSteps s k) ++ copySteps s k
  else []) ++ (if powered s k then redSteps s k else []) ++ when (traceStaged s k) (.traceRecordWrite k)

/-- The steps of a pavilion (R211, R297, R301 to R303). -/
def pavSteps (s : State) (v : Nat) : List Instr :=
  when (dispatchTry s v).isSome (.dispatch v) ++ when (nextTender s v).isSome (.tenderAnnounce v) ++ when (scrubReady s v) (.scrubComplete v)
    ++ match (s.pav v).tender with
      | none => []
      | some t => match t.phase with
        | .bidding closes => when (decide (closes ≤ s.reft.toNat)) (.bidWindowClose v t.serial)
        | .again due => when (decide (due ≤ s.reft.toNat)) (.retenderTimer v t.serial)
        | .awarded _ => []

/-- The steps of a gang member's clock (R305). -/
def gangSteps (s : State) (p : Nat) (i : Inst) : List Instr :=
  match i.gang with
  | none => []
  | some g => when (gangDue s g && !g.committed) (if g.idx = 0 then .gangPrepareTimeout p i.id else .gangCommitTimeout p i.id)

/-- The steps of a partition (R293, R305, R350, R363, R367). -/
def partSteps (s : State) (p : Nat) : List Instr :=
  when (nextLaunch s p).isSome (.launchInstantiate p) ++ (s.part p).insts.flatMap (gangSteps s p)
    ++ when (dumpReady s p) (.dumpEnd p none)

/-- The steps that are due at this tick of REFT: the cycle under way when a relock window began, samples, evaluations of the governor,
ends of relock windows. Each of them happens before anything else, and REFT does not advance until they have (R358, R363, R367). -/
def dueSteps (s : State) : List Instr :=
  (s.cores.flatMap fun e => when (finishes s e.1) (.issueCycle e.1)) ++ (s.parts.flatMap fun e => when (sampleDue s e.1) (.traceSample e.1) ++ when (governorDue s e.1) (.governorEvaluation e.1))
    ++ s.isles.flatMap fun e => when (relockDue s e.1) (.relockEnd e.1)

/-- The messages that come next out of the crossing FIFOs at the edges of islands (R358). -/
def edgeHeads (s : State) : List Instr :=
  s.isles.flatMap fun (e : Nat × Isle) => if e.2.relock.isNone then e.2.edge.head?.toList else []

/-- The steps of the package that are possible now and need no input from outside. -/
def possible (s : State) : List Instr :=
  s.net.filter (deliverable s) ++ edgeHeads s
    ++ s.cores.flatMap (fun e => coreSteps s e.1) ++ s.pavs.flatMap (fun e => pavSteps s e.1) ++ s.parts.flatMap (fun e => partSteps s e.1)

/-- An input that has to wait: an invalidation of the host, for the accesses that used what it drops (R264); what the host says of a
context that is in a dump (log 40, DEDUCED). -/
def held (s : State) : Instr → Bool
  | .hostInvalidate part range => s.reaches part && usesPages s part (hostPages range)
  | .hostResume who | .hostEndThread who => dumped s who
  | .serviceAnswer who => dumped s who
  | .hostRelease part slot => dumped s (.saved part slot)
  | _ => false

/-- How often a possible step has been passed over. -/
def ageOf (s : State) (i : Instr) : Nat := ((s.passedOver.find? fun e => e.1 == i).map (·.2)).getD 0

/-- One of several possible steps: the one that has been passed over most, when it has been so often enough (R21), and else a free
choice (log 6, DESIGN CHOICE). -/
def chooseStep (s : State) (l : List Instr) : Option Instr :=
  match l with
  | [] | [_] => l.head?
  | i :: r =>
    let old := r.foldl (fun b k => if ageOf s b < ageOf s k then k else b) i
    if Config.patience ≤ ageOf s old then some old else l[Config.choice s.clock % l.length]?

/-- The state without the message that a step takes, and with the others passed over once more. -/
def taken (s : State) (l : List Instr) (i : Instr) : State :=
  let pop (e : Nat × Isle) : Nat × Isle := if e.2.relock.isNone && e.2.edge.head? == some i then (e.1, { e.2 with edge := e.2.edge.drop 1 }) else e
  { s with
    passedOver := (l.erase i).map fun k => (k, ageOf s k + 1)
    net := if s.net.contains i then s.net.erase i else s.net
    isles := if s.net.contains i then s.isles else s.isles.map pop }

/-- The next step: one that is due now, or the oldest input, or one of the possible steps. -/
def pick (s : State) : Option (Instr × State) :=
  match dueSteps s with
  | i :: _ => some (i, s)
  | [] => match s.agenda.find? fun i => !held s i with
    | some i => some (i, { s with agenda := s.agenda.erase i })
    | none =>
      let l := possible s
      (chooseStep s l).map fun i => (i, taken s l i)

/-- The reference timer advances by one; a die's copy that still falls behind stands in a tick (R359). -/
def advanceRef (s : State) : State :=
  { s with reft := s.reft + 1, skew := Vector.ofFn fun d => if s.skew[d] < s.skewTo[d] then s.skew[d] + 1 else s.skew[d] }

/-- What every step does first: the clock of free choices, the reference timer (log 10, DESIGN CHOICE) unless a step is due at this
tick, with the static energy of a tick (R362) and the ticks of relock windows (R361), a walk ahead of need (R257); and no context runs. -/
def tick (s : State) : State :=
  let s := walkAhead { s with clock := s.clock + 1, cur := none, lane := none }
  if s.refOn && (dueSteps s).isEmpty then relockTicks (staticEnergy (advanceRef s)) else s

/-- Between two steps no context runs. -/
def settleStep (s : State) : State := { s with cur := none, lane := none }

/-- What runs in the same step after a step of the table that let a context issue, or handed an instruction to the lanes:
nothing, an idle helper's take of a record (IDLE_HELPER_POP), or an instruction. -/
inductive Following where
  | done (s : State)
  | lane (i : Instr) (s : State)
  | pop (x : Ctx) (s : State)
  | issue (x : Ctx) (i : Instr) (s : State)
  deriving DecidableEq, Repr

/-- What follows: the instruction of a lane step; an idle helper's take; or what is at the chosen context's PC, decoded, or the fault of a
fetch or a decoding that fails. -/
def following (s : State) : Following :=
  match s.lane, s.cur with
  | some e, some _ => .lane e.instr s
  | none, some x =>
    if x.isHelper && (s.helper x.core (x.ctx - 4)).idle then .pop x s
    else match fetchInstr s x with
      | .ok (i, s') => .issue x i s'
      | .error s' => .done (noIssue x s')
  | _, none => .done s

end Sys2Proof.Machine
end

