-- ==== Sys2Proof/Machine/Step.lean ====
section
/-! DEFINITION. One step of the machine. -/

namespace Sys2Proof.Machine
open Sys2Proof

/-- Every state a step gives has no running context. -/
def settleOut : Host.Outcome State Fault Refusal → Host.Outcome State Fault Refusal
  | .next s => .next (settleStep s)
  | o => o

/-- After a step of the table: the instruction that issues in it, if one does (R271), counted (R361). -/
def follow : Host.Outcome State Fault Refusal → Host.Outcome State Fault Refusal
  | .next s => match following s with
    | .lane i s' => settleOut (exec i s')
    | .issue x i s' => settleOut (issueOut s' x i (exec i s'))
    | .pop x s' => settleOut (countOut s' x (Sys2Proof.Machine.execIdleHelperPop x.core (x.ctx - 4) s'))
    | .done s' => .next (settleStep s')
  | o => o

/-- A step in which nothing of the table is possible: time passes, or a part that failed to start begins again with what is
installed (R377). -/
def idle (s : State) : Host.Outcome State Fault Refusal :=
  if restartDue s then settleOut (Sys2Proof.Machine.execPowerUpReset (installed s) s) else .next s

/-- One step: the next input or possible step of the table, and the instruction it lets issue. An instruction is no input: one in
the agenda is discarded. -/
def step (s : State) : Host.Outcome State Fault Refusal :=
  match pick (tick s) with
  | none => idle (tick s)
  | some (i, s') => if i.op.isSome then .next s' else follow (exec i s')

/-- The state with an instruction placed where the very next step fetches: in core 0's scratchpad, with thread 0 of core 0
running at it under every feature, and the step's input its issue cycle (log 4, DESIGN CHOICE). -/
def State.withFetchWord (s : State) (nbits w : Nat) : State :=
  let pc : PC := 0xFF000000000000
  let c := s.core 0
  let t := s.thread 0 0
  let t := { t with pc := pc, st := .running, stall := 0, stop := none, yld := false, undos := [], nest := none, hostAcc := none, since := none, owed := false, barEnd := none,
                    task := some (t.task.getD default) }
  let c := { c with
    sp := Memory.write c.sp 0 (bytesOfTableWord nbits w)
    pois := c.pois.filter fun k => 2 ≤ k
    icache := c.icache.filter fun e => e.1 < pc.toNat || pc.toNat + 16 ≤ e.1
    threads := c.threads.setIfInBounds 0 t
    pipeA := [], pipeM := [], pipeX := []
    corecfg := 0, gcur := some 0, grun := 0, sinceHelper := 0, frame := 1, frameDuty := 64 }
  let r := s.lodge.record.getD {}
  let r := { r with enabled := mapSet r.enabled 0 ((mapGet r.enabled 0).getD 0 ||| 1), feat := mapSet r.feat 0 0xFFFF }
  { s with
    agenda := [.issueCycle 0]
    cores := mapSet s.cores 0 c
    pavs := mapSet s.pavs 0 { s.pav 0 with part := some 0, scrub := none }
    isles := mapSet s.isles 0 { s.isle 0 with relock := none }
    lodge := { s.lodge with record := some r } }

end Sys2Proof.Machine
end

