-- ==== Sys2Proof/Safety.lean ====
section
/-! DEFINITION. The terms in which statements about the machine are made: when an instruction runs, what it leaves alone, and the
invariants of the state. -/

namespace Sys2Proof.Machine
open Sys2Proof

/-! ## When an instruction runs -/

/-- Context `x` executes instruction `i` now, and nothing of R28, R29, R52 or R126 keeps it from doing so: the context exists, the
opcode is one of its kind, HOLD is satisfied, no vector instruction of the thread waits in a pipe, a vector instruction finds no
register word of the thread in error (R63), and the guard is true. -/
structure Runs (s : State) (x : Ctx) (i : Instr) : Prop where
  cur : s.cur = some x
  lane : s.lane = none
  real : x.ctx < 6
  may : ∃ o, i.op = some o ∧ ctxOk x o = true
  hold : i.ctl.hold = false ∨ holdOk s x = true
  quiet : x.isHelper = true ∨ s.inPipe x.core x.ctx = false
  clean : i.op.bind pipeOf = none ∨ (s.thread x.core x.ctx).errs = []
  guard : guardTrue s x i.ctl = true

/-- The state after an instruction whose effect gave `u` and that goes on in sequence: the next pass of an open nest or the next
PC (R25, R119), and the instruction has retired (R29). -/
def closed (u s : State) (x : Ctx) (i : Instr) : State := retired (arrive u x (s.pcAt x + BitVec.ofNat 56 i.len)) x i.ctl

/-- The state after an instruction whose effect gave `u` and that goes to `pc`. -/
def jumped (u : State) (x : Ctx) (i : Instr) (pc : PC) : State := retired (u.setPcAt x pc) x i.ctl

/-- A scalar register is ready and not poisoned (R103). -/
def present (s : State) (x : Ctx) (r : Reg) : Prop := s.scalarPres x r = .pres

/-! ## What an instruction leaves alone -/

/-- The machine outside the cores is the same: memory, partitions, links, queues, the Lodge. `free` numbers free values (log 5, DESIGN CHOICE). -/
def SamePackage (s u : State) : Prop := { u with cores := s.cores, free := s.free } = s

/-- The core apart from its contexts is the same; hole records may have lost their destination (R162). -/
def SameCore (c d : Core) : Prop :=
  { d with threads := c.threads, helpers := c.helpers, mire := c.mire } = c ∧
    d.mire.map (fun r => { r with superseded := true }) = c.mire.map (fun r => { r with superseded := true })

/-- Only context `x` differs: the package, the other cores, the rest of its core and its other contexts are the same. -/
structure OnlyCtx (s u : State) (x : Ctx) : Prop where
  package : SamePackage s u
  cores : ∀ k, k ≠ x.core → u.core k = s.core k
  core : SameCore (s.core x.core) (u.core x.core)
  threads : ∀ t, t ≠ x.ctx → u.thread x.core t = s.thread x.core t
  helpers : ∀ h, h + 4 ≠ x.ctx → u.helper x.core h = s.helper x.core h

/-- The only effect is that scalar register `d` of context `x` has the value `v`, PRESENT: no other scalar register, vector
register, predicate, mask, flag, control register, PC, nest, command or byte of memory differs. Of the bookkeeping, HWM and the
marks of R126 may differ. -/
structure WroteScalar (s u : State) (x : Ctx) (d : Reg) (v : W64) : Prop where
  only : OnlyCtx s u x
  value : u.scalar x d = v
  ready : present u x d
  others : ∀ r, r ≠ d → u.scalar x r = s.scalar x r ∧ u.scalarPres x r = s.scalarPres x r
  vectors : ∀ r k, r ≠ d.toNat → (u.thread x.core x.ctx).word r k = (s.thread x.core x.ctx).word r k
  thread : { u.thread x.core x.ctx with
      v := (s.thread x.core x.ctx).v, hwm := (s.thread x.core x.ctx).hwm, undos := (s.thread x.core x.ctx).undos
      errs := (s.thread x.core x.ctx).errs, slots := (s.thread x.core x.ctx).slots } = s.thread x.core x.ctx
  helper : { u.helper x.core (x.ctx - 4) with s := (s.helper x.core (x.ctx - 4)).s } = s.helper x.core (x.ctx - 4)

/-- Instruction `i`, which context `x` executes, writes `v` to scalar register `d`, does nothing else, and goes on in sequence. -/
def Gives (s : State) (x : Ctx) (i : Instr) (d : Reg) (v : W64) : Prop :=
  Runs s x i → ∃ u, WroteScalar s u x d v ∧ exec i s = .next (closed u s x i)

/-- The only effect is that predicate `d` of context `x` reads `b` (p0 reads 1 and discards the write, R65). -/
structure WrotePred (s u : State) (x : Ctx) (d : PReg) (b : Bool) : Prop where
  only : OnlyCtx s u x
  value : predBit (u.predsAt x) d = (d == 0 || b)
  others : ∀ p, p ≠ d → predBit (u.predsAt x) p = predBit (s.predsAt x) p
  thread : { u.thread x.core x.ctx with p := (s.thread x.core x.ctx).p } = s.thread x.core x.ctx
  helper : { u.helper x.core (x.ctx - 4) with p := (s.helper x.core (x.ctx - 4)).p } = s.helper x.core (x.ctx - 4)

/-- Instruction `i`, which context `x` executes, writes `b` to predicate `d`, does nothing else, and goes on in sequence. -/
def GivesPred (s : State) (x : Ctx) (i : Instr) (d : PReg) (b : Bool) : Prop :=
  Runs s x i → ∃ u, WrotePred s u x d b ∧ exec i s = .next (closed u s x i)

/-! ## Scalar floating point -/

/-- The rounding of one step of a scalar instruction with mode field `rm` (R97, R98, R109), and the state after the draw that mode
SR makes: a task thread draws from SRSTATE, a helper uses the word of its record. -/
def drawn (s : State) (x : Ctx) (rounds : Bool) (rm : RMode) : Rnd × State :=
  if rounds = false then (⟨.rne, 0⟩, s)
  else if scalarMode s x rm ≠ .sr then (⟨scalarMode s x rm, 0⟩, s)
  else if x.isHelper then (⟨.sr, (s.helper x.core (x.ctx - 4)).rnd.toNat⟩, s)
  else (⟨.sr, (srNext (s.thread x.core x.ctx).srstate).2⟩,
    s.modThread x.core x.ctx fun t => { t with srstate := (srNext t.srstate).1 })

/-- A flag of `f` has its trap enabled in the context's FCTL (R114). -/
def trapDue (s : State) (x : Ctx) (f : W64) : Prop := f &&& (trapEnables (s.fctlAt x)).setWidth 64 ≠ 0

/-- A scalar FP instruction with the result `op` of its operands under a rounding: its flags are raised; a trap leaves D and SRSTATE
unchanged (R114); otherwise D has the result, zero-extended (R108). -/
def GivesFp (s : State) (x : Ctx) (i : Instr) (rounds : Bool) (rm : RMode) (d : Reg) (op : Rnd → FRes) : Prop :=
  Runs s x i →
    let r := op (drawn s x rounds rm).1
    (trapDue s x r.flags → exec i s =
      .next (takeFault (s.raiseFlags x r.flags) x .precise { cls := 3, code := 1, aux := (r.flags &&& 31).toNat })) ∧
    (¬ trapDue s x r.flags → ∃ u, WroteScalar ((drawn s x rounds rm).2.raiseFlags x r.flags) u x d (BitVec.ofNat 64 r.code) ∧
      exec i s = .next (closed u s x i))

/-! ## Memory -/

/-- The byte at a location. -/
def byteAt (s : State) : Loc → Byte
  | .sp k o => Memory.get (s.core k).sp o
  | .ts k o => Memory.get (s.core k).ts o
  | .hbm p => Memory.get s.hbm p
  | .host p => Memory.get s.host p

/-- The `n` bytes from a location, as a little-endian number (R7). -/
def bytesAt (s : State) (l : Loc) (n : Nat) : Nat := leNat ((List.range n).map fun j => byteAt s (l.add j))

/-- Every byte of every memory reads the same. -/
def SameMemory (s u : State) : Prop := ∀ l, byteAt u l = byteAt s l

/-- The `n` bytes from `l` read as the low bytes of `v`, and every other byte of every memory reads as before. -/
def StoredAt (s u : State) (l : Loc) (n v : Nat) : Prop :=
  (∀ j, j < n → byteAt u (l.add j) = BitVec.ofNat 8 (v / 256 ^ j)) ∧ ∀ m, (∀ j, j < n → m ≠ l.add j) → byteAt u m = byteAt s m

/-- An access of `n` bytes at `ea` of context `x` reaches location `l` of HBM or of a scratchpad: it is aligned, lies in no tile
store, translates, and the range checker does not hold it back (R205, R216, R217, R249, R256). -/
structure Reaches (s : State) (x : Ctx) (kind : Access) (n : Nat) (store : Bool) (ea : W64) (l : Loc) : Prop where
  aligned : ea.toNat % n = 0
  window : ∀ o, window s x.core ea ≠ .ts o
  located : ∃ leaf, locate s x.core kind ea = .ok (l, leaf)
  inside : ∀ p, l ≠ .host p
  free : heldBack s x.core l n store = false

/-- Of a core: its landing zones, tag table, copies, latched planes, CORECFG and suspect mark. -/
def Core.unitsOf (c : Core) : Vector Zone 16 × NMap TagEntry × List Pend × List Pend × Option Latch × W64 × Bool :=
  (c.zones, c.tagTab, c.copyQ, c.units, c.latched, c.corecfg, c.suspect)

/-- A thread without its vector registers, HWM, the slots that its FAULTED elements refer to, the marks of R126, and the stop
that a data breakpoint may ask for. -/
def Thread.rest (t : Thread) : Thread :=
  { t with v := Vector.replicate 64 (Vector.replicate 128 {}), slots := Vector.replicate 8 none, hwm := 0, undos := [], errs := [], stop := none }

/-- Of the contexts of the package, only the registers `W` of context `x` differ, HWM and what `Thread.rest` leaves out: every
other scalar and vector register, mask, predicate, flag, control register, PC, nest, command and output is the same, and so are the
units of every core. -/
structure RegFrame (s u : State) (x : Ctx) (W : List Reg) : Prop where
  regs : ∀ r, r ∉ W → u.scalar x r = s.scalar x r ∧ u.scalarPres x r = s.scalarPres x r
  vectors : ∀ r k, (∀ d ∈ W, r ≠ d.toNat) → (u.thread x.core x.ctx).word r k = (s.thread x.core x.ctx).word r k
  thread : (u.thread x.core x.ctx).rest = (s.thread x.core x.ctx).rest
  helper : { u.helper x.core (x.ctx - 4) with s := (s.helper x.core (x.ctx - 4)).s } = s.helper x.core (x.ctx - 4)
  threads : ∀ k t, (k ≠ x.core ∨ t ≠ x.ctx) → u.thread k t = s.thread k t
  helpers : ∀ k h, (k ≠ x.core ∨ h + 4 ≠ x.ctx) → u.helper k h = s.helper k h
  units : ∀ k, Core.unitsOf (u.core k) = Core.unitsOf (s.core k)

/-- The task thread waits for `w`, and its instruction, whose first try REFT is kept of (R366), runs again (R270). -/
def waitingFor (s : State) (x : Ctx) (w : Wait) : State :=
  s.modThread x.core x.ctx fun t => { t with st := .waiting w, since := some (t.since.getD (s.reftAt x.core)) }

/-- Instruction `i`, whose access of `n` bytes at `ea` reaches no location, takes the fault of what is wrong: it is misaligned (R217),
lies in no window that it may reach (R205, R216), or its translation is malformed, does not permit it, or is missing (R255, R256,
R259). Before it, a misaligned access takes no other of these faults. -/
structure Refused (s : State) (x : Ctx) (i : Instr) (kind : Access) (n : Nat) (ea : W64) : Prop where
  misaligned : ea.toNat % n ≠ 0 → exec i s = .next (takeFault s x .precise { cls := 2, code := 2, addr := ea })
  address : ea.toNat % n = 0 → (window s x.core ea = .none ∨ ∃ o, window s x.core ea = .ts o) →
    exec i s = .next (takeFault s x .precise { cls := 2, code := 1, addr := ea })
  table : ∀ va p l, ea.toNat % n = 0 → window s x.core ea = .global va → s.partOf x.core = some p → leafFor s x.core p va = .bad l →
    exec i s = .next (takeFault s x .precise { cls := 2, code := 5, aux := l, addr := ea })
  permission : ∀ va p e, ea.toNat % n = 0 → window s x.core ea = .global va → s.partOf x.core = some p → leafFor s x.core p va = .leaf e →
    e.allows kind = false → exec i s = .next (takeFault s x .precise { cls := 2, code := 4, aux := kind.kindCode, addr := ea })
  missing : ∀ va p, ea.toNat % n = 0 → window s x.core ea = .global va → s.partOf x.core = some p → leafFor s x.core p va = .missing →
    exec i s = .next (pageMissing s x (va / 4096) kind ea)

/-- From `s` to `v` only the waits of `barwait` on word `o` of core `k` ended: all of them when the word is no longer live (`phase` is
none), and those for another phase when it is (R233). -/
structure BarwaitsEnded (s v : State) (k o : Nat) (phase : Option Nat) : Prop where
  ended : ∀ c t ea ph, (s.thread c t).st = .waiting (.barwait ea ph) → window s c ea = .sp k o →
    (v.thread c t).barEnd = (s.thread c t).barEnd.or (match phase with
      | none => some true
      | some p => if BitVec.ofNat 32 p ≠ ph then some false else none)
  others : ∀ c t, (∀ ea ph, (s.thread c t).st = .waiting (.barwait ea ph) → window s c ea ≠ .sp k o) → v.thread c t = s.thread c t
  threads : ∀ c t, v.thread c t = { s.thread c t with barEnd := (v.thread c t).barEnd }
  helpers : ∀ c h, v.helper c h = s.helper c h
  units : ∀ c, Core.unitsOf (v.core c) = Core.unitsOf (s.core c)

/-! ## Vector instructions -/

/-- The element a vector instruction starts at (R70). -/
def startOf (t : Thread) : Nat := t.vstart.toNat % 2048

/-- Elements the instruction computes, and those that it writes: under ZP inactive ones too (R129). -/
def computed (t : Thread) (p : Pfx) (i : Nat) : Bool := decide (startOf t ≤ i) && decide (i < t.vl.toNat) && active t p i
def written (t : Thread) (p : Pfx) (i : Nat) : Bool := decide (startOf t ≤ i) && decide (i < t.vl.toNat) && (active t p i || p.zp)

/-- The computed elements, rising. -/
def actives (t : Thread) (p : Pfx) : List Nat := (indices (startOf t) t.vl.toNat).filter (active t p)

/-- The groups are aligned and no longer than eight registers, and the destination meets a source only where it may (R59, R60). -/
def GroupsOk (strict : Bool) (d : Grp) (srcs : List Grp) : Prop :=
  (∀ g ∈ d :: srcs, g.base.toNat % g.size = 0 ∧ g.len * g.w ≤ 65536) ∧
    ∀ g ∈ srcs, d.meets g = true → strict = false ∧ g.base = d.base ∧ g.size = d.size

/-- No half-slot of the group is PENDING or FAULTED. -/
def Settled (t : Thread) (g : Grp) : Prop :=
  ∀ j, j < g.size → ∀ h, h < 512 → t.halfPres ((g.base.toNat + j) % 64) h = .pres ∨ t.halfPres ((g.base.toNat + j) % 64) h = .pois

/-- An element is PRESENT or POISONED. -/
def Known (t : Thread) (g : Grp) (i : Nat) : Prop := elPres t g i = .pres ∨ elPres t g i = .pois

/-- Two elements lie in one half-slot (R62). -/
def sameHalf (g : Grp) (i j : Nat) : Prop := g.w < 16 ∧ i / (16 / g.w) = j / (16 / g.w)

/-- From thread `v` to `u`, elements `w` of group `g` were written: they have the bits `val` where that says so, and are PRESENT, or
POISONED where `bad`. A half-slot of several elements is POISONED when one that is written is, or when it was and an element of it
is not written (R62). Other elements of the group whose first bit lies below `lim` are the same. -/
structure ElemsOf (v u : Thread) (g : Grp) (lim : Nat) (w bad : Nat → Bool) (val : Nat → Option Nat) : Prop where
  value : ∀ i n, w i = true → val i = some n → elBits u g i = n
  poison : ∀ i, w i = true → (elPres u g i = .pois ↔
    (∃ j, (j = i ∨ sameHalf g j i) ∧ w j = true ∧ bad j = true) ∨ (elPres v g i = .pois ∧ ∃ j, sameHalf g j i ∧ w j = false))
  known : ∀ i, w i = true → Known u g i
  bits : ∀ i, i * g.w < lim → w i = false → elBits u g i = elBits v g i
  pres : ∀ i, i * g.w < lim → w i = false → (∀ j, w j = true → ¬ sameHalf g i j) → elPres u g i = elPres v g i

/-- From `v` to `u`, elements of one group of context `x` were written as `ElemsOf` says. Other registers, memory, flags and the rest
of the contexts are the same. -/
structure WroteElems (v u : State) (x : Ctx) (g : Grp) (w bad : Nat → Bool) (val : Nat → Option Nat) : Prop where
  elems : ElemsOf (v.thread x.core x.ctx) (u.thread x.core x.ctx) g (8192 * g.size) w bad val
  frame : RegFrame v u x (regRun g.base g.size)
  memory : SameMemory v u

/-- The state after a vector instruction that ran to its end and whose effect gave `u`: VSTART is 0 (R70), and in verify mode a mismatch
has the outcome of R349. -/
def vecDone (u s : State) (x : Ctx) (i : Instr) : State :=
  match i.op with
  | none => u
  | some o => verified s x o (laneDone (closed u s x i) x true)

/-- Vector instruction `i`, which executes and finds its pipe empty, writes elements as `WroteElems` says, over `v`, and goes on. -/
def GivesElems (s v : State) (x : Ctx) (i : Instr) (q : Pipe) (g : Grp) (w bad : Nat → Bool) (val : Nat → Option Nat) : Prop :=
  Runs s x i → s.pipe x.core q = [] → ∃ u, WroteElems v u x g w bad val ∧ exec i s = .next (vecDone u s x i)

/-- The state with the flags of the computed elements that are not `bad` raised, and the PMK bits of those that are set (R74). -/
def consumed (s : State) (x : Ctx) (p : Pfx) (bad : Nat → Bool) (fl : Nat → W64) : State :=
  let l := actives (s.thread x.core x.ctx) p
  (l.filter bad).foldl (fun s i => s.setPmk x i) (s.raiseFlags x ((l.filter fun i => !bad i).foldl (fun f i => f ||| fl i) 0))

/-- What an element-wise instruction writes: the code of each computed element, no known bits where a source is POISONED, and the
code `z` of zero in an inactive element. -/
def elemValZ (z : Nat) (t : Thread) (p : Pfx) (bad : Nat → Bool) (code : Nat → Nat) (i : Nat) : Option Nat :=
  if active t p i then (if bad i then none else some (code i)) else some z

/-- The same for a format whose zero is 0. -/
def elemVal (t : Thread) (p : Pfx) (bad : Nat → Bool) (code : Nat → Nat) (i : Nat) : Option Nat := elemValZ 0 t p bad code i

/-- An element-wise instruction of pipe A without a rounding step. -/
def Elementwise (s : State) (x : Ctx) (i : Instr) (p : Pfx) (g : Grp) (bad : Nat → Bool) (code : Nat → Nat) (fl : Nat → W64) : Prop :=
  let t := s.thread x.core x.ctx
  GivesElems s (consumed s x p bad fl) x i .a g (written t p) (fun j => computed t p j && bad j) (elemVal t p bad code)

/-- SRSTATE after `n` draws (R98). -/
def srAfter (t : Thread) (n : Nat) : W64 := Nat.repeat (fun v => (srNext v).1) n t.srstate

/-- The rounding of computed element `i`: under mode SR each computed element draws in rising order (R98, R99). -/
def elemRnd (t : Thread) (p : Pfx) (i : Nat) : Rnd :=
  let m := vecMode t p
  ⟨m, if m = .sr then (srNext (srAfter t ((actives t p).filter (· < i)).length)).2 else 0⟩

/-- The state with SRSTATE after the draws of the instruction. -/
def State.drew (s : State) (x : Ctx) (p : Pfx) : State :=
  s.modThread x.core x.ctx fun t => if vecMode t p = .sr then { t with srstate := srAfter t (actives t p).length } else t

/-- Vector instruction `i` writes the mask `d`: `bit` in the computed elements, 0 in those that ZP zeroes (R64). -/
def GivesMask (s v : State) (x : Ctx) (i : Instr) (d : PReg) (p : Pfx) (test : Nat → Bool) : Prop :=
  let t := s.thread x.core x.ctx
  Runs s x i → s.pipe x.core .a = [] → ∃ u m, exec i s = .next (vecDone u s x i) ∧ SameMemory s u ∧
    (∀ j, j < 2048 → maskBit m j = (if computed t p j then test j else if written t p j then false else maskBit (maskReg t d) j)) ∧
    RegFrame (v.modThread x.core x.ctx fun t => { t with m := t.m.setIfInBounds d.toNat m }) u x []

/-! ## Vector memory -/

/-- Every cached translation of the page of an address is the one its tables give (R257). -/
def Fresh (s : State) (core : Nat) (ea : W64) : Prop :=
  ∀ p, s.partOf core = some p →
    ∀ e ∈ tlbHits (s.core core).tlb (ea.toNat / 4096) ++ tlbHits (s.pav (pavOf core)).tlb (ea.toNat / 4096), walk s p ea.toNat = .leaf e

/-- The translation of an address does not depend on the bytes of HBM with the addresses `hot`. -/
def WalkKept (s : State) (core : Nat) (ea : W64) (hot : Nat → Prop) : Prop :=
  ∀ p (m : List Host.Cell) (q : List Nat), s.partOf core = some p → (∀ a, ¬ hot a → Memory.get m a = Memory.get s.hbm a) →
    (∀ k, (∀ a, hot a → a / 64 ≠ k) → (k ∈ q ↔ k ∈ s.hbmPois)) → walk { s with hbm := m, hbmPois := q } p ea.toNat = walk s p ea.toNat

/-- The accesses `acc` of a vector instruction, each an address and a number of bytes, reach the locations `at'`. -/
def AllReach (s : State) (x : Ctx) (store : Bool) (acc : W64 × Nat → Prop) (at' : W64 → Loc) : Prop :=
  ∀ e, acc e → Reaches s x (if store then .write else .read) e.2 store e.1 (at' e.1) ∧ Fresh s x.core e.1 ∧
    (store = true → touchesLive s (at' e.1) e.2 = false ∧
      WalkKept s x.core e.1 fun a => ∃ f j, acc f ∧ j < f.2 ∧ (at' f.1).add j = .hbm a)

/-! ## Invariants -/

/-- The memories of a core are in canonical form. -/
def Core.memOk (c : Core) : Bool := Memory.wf c.sp && Memory.wf c.ts

/-- Every memory of the package is in canonical form. -/
def State.memOk (s : State) : Bool := Memory.wf s.hbm && Memory.wf s.host && s.cores.all fun e => e.2.memOk

end Sys2Proof.Machine
end

