-- ==== Sys2Proof/Certificates/Slice0/Obligations.lean ====
section
/-! DEFINITION. The statements for the provers. -/

open Sys2Proof Sys2Proof.Machine

/-! ## Scalar instructions -/

/-- R105, R106: the integer instructions write the result of their row of the table, modulo 2^64, to D, and nothing else; the 56-bit
immediate is sign-extended, a shift takes six bits, and leading and trailing zeros of 0 are 64. Division rounds toward zero; by 0 the
quotient is 2^64 - 1 and the remainder the dividend, with IDZ; -2^63 by -1 gives -2^63 and 0, with IOV; nothing traps. In a helper the
registers are its own. -/
def Obligations.ScalarInteger : Prop :=
  (∀ (s : State) (x : Ctx) (c : Ctl) (d ra rb : Reg), present s x ra → present s x rb →
    let a := s.scalar x ra
    let b := s.scalar x rb
    Gives s x (.add c d ra rb) d (BitVec.ofNat 64 (a.toNat + b.toNat)) ∧
    Gives s x (.sub c d ra rb) d (BitVec.ofInt 64 (a.toInt - b.toInt)) ∧
    Gives s x (.mul c d ra rb) d (BitVec.ofNat 64 (a.toNat * b.toNat)) ∧
    Gives s x (.mulh c d ra rb) d (BitVec.ofInt 64 (a.toInt * b.toInt / 2 ^ 64)) ∧
    Gives s x (.mulhu c d ra rb) d (BitVec.ofNat 64 (a.toNat * b.toNat / 2 ^ 64)) ∧
    Gives s x (.and c d ra rb) d (a &&& b) ∧
    Gives s x (.or c d ra rb) d (a ||| b) ∧
    Gives s x (.xor c d ra rb) d (a ^^^ b) ∧
    Gives s x (.shl c d ra rb) d (BitVec.ofNat 64 (a.toNat * 2 ^ (b.toNat % 64))) ∧
    Gives s x (.shr c d ra rb) d (BitVec.ofNat 64 (a.toNat / 2 ^ (b.toNat % 64))) ∧
    Gives s x (.sra c d ra rb) d (BitVec.ofInt 64 (a.toInt / 2 ^ (b.toNat % 64))) ∧
    Gives s x (.rot c d ra rb) d (a.rotateLeft (b.toNat % 64)) ∧
    Gives s x (.min c d ra rb) d (if a.toInt ≤ b.toInt then a else b) ∧
    Gives s x (.max c d ra rb) d (if a.toInt ≤ b.toInt then b else a) ∧
    Gives s x (.minu c d ra rb) d (if a.toNat ≤ b.toNat then a else b) ∧
    Gives s x (.maxu c d ra rb) d (if a.toNat ≤ b.toNat then b else a)) ∧
  (∀ (s : State) (x : Ctx) (c : Ctl) (d ra : Reg) (imm : BitVec 56) (k : BitVec 6), present s x ra →
    let a := s.scalar x ra
    Gives s x (.addi c d ra imm) d (BitVec.ofInt 64 (a.toInt + imm.toInt)) ∧
    Gives s x (.andi c d ra imm) d (a &&& imm.signExtend 64) ∧
    Gives s x (.ori c d ra imm) d (a ||| imm.signExtend 64) ∧
    Gives s x (.xori c d ra imm) d (a ^^^ imm.signExtend 64) ∧
    Gives s x (.shli c d ra k) d (BitVec.ofNat 64 (a.toNat * 2 ^ k.toNat)) ∧
    Gives s x (.shri c d ra k) d (BitVec.ofNat 64 (a.toNat / 2 ^ k.toNat)) ∧
    Gives s x (.srai c d ra k) d (BitVec.ofInt 64 (a.toInt / 2 ^ k.toNat)) ∧
    Gives s x (.movi c d imm) d (BitVec.ofInt 64 imm.toInt) ∧
    (∃ n, n ≤ 64 ∧ (∀ j, j < n → a.getLsbD (63 - j) = false) ∧ (n < 64 → a.getLsbD (63 - n) = true) ∧
      Gives s x (.clz c d ra) d (BitVec.ofNat 64 n)) ∧
    (∃ n, n ≤ 64 ∧ (∀ j, j < n → a.getLsbD j = false) ∧ (n < 64 → a.getLsbD n = true) ∧
      Gives s x (.ctz c d ra) d (BitVec.ofNat 64 n)) ∧
    Gives s x (.popc c d ra) d (BitVec.ofNat 64 ((List.range 64).map fun j => (a.getLsbD j).toNat).sum)) ∧
  (∀ (s : State) (x : Ctx) (c : Ctl) (d ra rb : Reg), present s x ra → present s x rb →
    let a := s.scalar x ra
    let b := s.scalar x rb
    let min : W64 := BitVec.ofInt 64 (-(2 ^ 63))
    let ovf := a.toInt = -(2 ^ 63) ∧ b.toInt = -1
    let flagged (i : Instr) (f v : W64) : Prop := Runs s x i → ∃ u, WroteScalar (s.raiseFlags x f) u x d v ∧ exec i s = .next (closed u s x i)
    (b = 0 → flagged (.div c d ra rb) flagIDZ (BitVec.ofNat 64 (2 ^ 64 - 1)) ∧ flagged (.divu c d ra rb) flagIDZ (BitVec.ofNat 64 (2 ^ 64 - 1))
      ∧ flagged (.rem c d ra rb) flagIDZ a ∧ flagged (.remu c d ra rb) flagIDZ a) ∧
    (ovf → flagged (.div c d ra rb) flagIOV min ∧ flagged (.rem c d ra rb) flagIOV 0) ∧
    (b ≠ 0 → ¬ ovf → Gives s x (.div c d ra rb) d (BitVec.ofInt 64 (a.toInt.tdiv b.toInt)) ∧
      Gives s x (.rem c d ra rb) d (BitVec.ofInt 64 (a.toInt.tmod b.toInt))) ∧
    (b ≠ 0 → Gives s x (.divu c d ra rb) d (BitVec.ofNat 64 (a.toNat / b.toNat)) ∧
      Gives s x (.remu c d ra rb) d (BitVec.ofNat 64 (a.toNat % b.toNat))))

/-- R105, R104, R107, R115: `sel` reads only the source that its predicate selects; `cmp` writes its condition to a predicate; the
predicate instructions write the result of their row; p0 reads 1, and a write to it is discarded without a fault (R65). -/
def Obligations.SelectAndPredicates : Prop :=
  ∀ (s : State) (x : Ctx) (c : Ctl) (d ra rb : Reg) (pd pa pb : PReg),
    let a := s.scalar x ra
    let b := s.scalar x rb
    let p := predBit (s.predsAt x) pa
    let q := predBit (s.predsAt x) pb
    predBit (s.predsAt x) 0 = true ∧
    (p = true → present s x ra → Gives s x (.sel c d ra rb pa) d a) ∧
    (p = false → present s x rb → Gives s x (.sel c d ra rb pa) d b) ∧
    (present s x ra → present s x rb →
      GivesPred s x (.cmp c pd ra rb .eq) pd (decide (a = b)) ∧ GivesPred s x (.cmp c pd ra rb .ne) pd (decide (a ≠ b)) ∧
      GivesPred s x (.cmp c pd ra rb .lt) pd (decide (a.toInt < b.toInt)) ∧ GivesPred s x (.cmp c pd ra rb .ge) pd (decide (b.toInt ≤ a.toInt)) ∧
      GivesPred s x (.cmp c pd ra rb .ltu) pd (decide (a.toNat < b.toNat)) ∧ GivesPred s x (.cmp c pd ra rb .geu) pd (decide (b.toNat ≤ a.toNat))) ∧
    GivesPred s x (.pand c pd pa pb) pd (p && q) ∧ GivesPred s x (.por c pd pa pb) pd (p || q) ∧
    GivesPred s x (.pxor c pd pa pb) pd (p ^^ q) ∧ GivesPred s x (.pnot c pd pa) pd (!p) ∧ GivesPred s x (.pmov c pd pa) pd p

/-- R103, R104, R216, R346 on the scalar sources of a task thread's instructions: while one is PENDING the instruction does not issue;
the first FAULTED one delivers its helper fault and nothing else; a POISONED one makes the scalar destination POISONED and sets PMK bit
0, with no flag and no other register or byte of memory changed, or, where it is taken into control or an address, is the fatal
poison-consumed fault. R67, R131: a vector instruction reads its format word, its address register and its other scalar operands at
dispatch: while one is PENDING it stays in its pipe's queue; the first FAULTED one delivers its helper fault; the one that it reads
first is fatal when it is POISONED. The order among several sources is the model's choice. The model's own readings in it: log 17
(DEDUCED). -/
def Obligations.ScalarPresence : Prop :=
  (∀ (s : State) (x : Ctx) (c : Ctl) (d ra rb rc : Reg) (pd pc : PReg) (imm : BitVec 56) (sh : BitVec 6) (n m : BitVec 12) (off : BitVec 48) (rm : RMode)
      (k : Cmp) (fk : FCmp) (cs : CvtS) (cd : CvtD) (sg : Sgn) (sz : Size) (sx : Bool) (o : AmoOp) (ord : BitVec 4) (sc : Scope) (i : Instr) (srcs ctl : List Reg),
    -- the instructions with a scalar result, with their sources
    let data : List (Instr × List Reg) :=
      ([.add c d ra rb, .sub c d ra rb, .mul c d ra rb, .mulh c d ra rb, .mulhu c d ra rb, .div c d ra rb, .divu c d ra rb, .rem c d ra rb,
        .remu c d ra rb, .and c d ra rb, .or c d ra rb, .xor c d ra rb, .shl c d ra rb, .shr c d ra rb, .sra c d ra rb, .rot c d ra rb, .min c d ra rb,
        .max c d ra rb, .minu c d ra rb, .maxu c d ra rb, .faddS c d ra rb rm, .faddD c d ra rb rm, .fsubS c d ra rb rm, .fsubD c d ra rb rm,
        .fmulS c d ra rb rm, .fmulD c d ra rb rm, .fdivS c d ra rb rm, .fdivD c d ra rb rm, .fminS c d ra rb, .fminD c d ra rb, .fmaxS c d ra rb,
        .fmaxD c d ra rb, .fsgnS c d ra rb sg, .fsgnD c d ra rb sg] : List Instr).map (fun i => (i, [ra, rb])) ++
      ([.addi c d ra imm, .andi c d ra imm, .ori c d ra imm, .xori c d ra imm, .shli c d ra sh, .shri c d ra sh, .srai c d ra sh, .clz c d ra, .ctz c d ra,
        .popc c d ra, .fsqrtS c d ra rm, .fsqrtD c d ra rm, .fcvtS c d ra cs rm, .fcvtD c d ra cd rm, .fclassS c d ra, .fclassD c d ra] : List Instr).map
        (fun i => (i, [ra])) ++
      [(.ffmaS c d ra rb rc rm, [ra, rb, rc]), (.ffmaD c d ra rb rc rm, [ra, rb, rc]), (.sel c d ra rb pc, if predBit (s.predsAt x) pc then [ra] else [rb])]
    -- those that take a source into control or an address, with their sources and those among them that they take so
    let control : List (Instr × List Reg × List Reg) :=
      ([.cmp c pd ra rb k, .fcmpS c pd ra rb fk, .fcmpD c pd ra rb fk, .setvl c d ra rb, .tlbinv c ra rb .range, .icinv c ra rb sx] : List Instr).map
        (fun i => (i, [ra, rb], [ra, rb])) ++
      ([.jmp c ra imm, .ret c ra, .csrw c ra n, .csrs c ra n, .csrc c ra n, .csrw c ra m, .csrc c ra m, .tlbinv c ra rb .page, .ld c d ra sz sx off,
        .bararr c d ra off, .barfree c ra off] : List Instr).map (fun i => (i, [ra], [ra])) ++
      [(.st c d ra sz off, [d, ra], [ra]), (.sigst c d ra sc off, [d, ra], [ra]), (.amo c d ra rb o sx ord off, [ra, rb], [ra]),
        (.cas c d ra rb sx ord off, [d, ra, rb], [d, ra]), (.barinit c d ra off, [d, ra], [d, ra]), (.barwait c d ra off, [d, ra], [d, ra])]
    let pres (r : Reg) : Presence := s.scalarPres x r
    let clear : Prop := ∀ r ∈ srcs, pres r = .pres ∨ pres r = .pois
    -- the control registers that are written by number, and the words of PMK (R55)
    n ∈ ([0x000, 0x001, 0x004, 0x006, 0x009, 0x00A] : List (BitVec 12)) → 0x020 ≤ m → m ≤ 0x03F →
    (i, srcs, ctl) ∈ data.map (fun e => (e.1, e.2, [])) ++ control → Runs s x i →
    ((∃ r ∈ srcs, pres r = .pend) → exec i s = .next s) ∧
    (∀ l r l' k, srcs = l ++ r :: l' → (∀ q ∈ srcs, pres q ≠ .pend) → (∀ q ∈ l, pres q ≠ .flt) → pres r = .flt →
      (s.thread x.core x.ctx).slotAt r.toNat (faultedHalf s x r) = some k → exec i s = .next (deliverSlot s x k)) ∧
    (clear → ctl = [] → (∃ r ∈ srcs, pres r = .pois) →
      ∃ u, exec i s = .next (closed u s x i) ∧ u.scalarPres x d = .pois ∧ maskBit (u.thread x.core x.ctx).pmk 0 = true ∧
        RegFrame (s.setPmk x 0) u x [d] ∧ SameMemory s u) ∧
    (clear → (∃ r ∈ ctl, pres r = .pois) → exec i s = .next (takeFault s x .fatal { cls := 5, code := 1 }))) ∧
  (∀ (s : State) (x : Ctx) (c : Ctl) (z : Option Pfx) (d ra rb rc f : Reg) (pd pc : PReg) (k : VCmp) (fk : FCmp) (sg : Sgn) (tie : Tie) (lg : BitVec 3)
      (tr : Bool) (vw : VW) (sz : Size) (off : BitVec 48) (i : Instr) (q : Pipe) (srcs : List Reg) (ok : Prop) (p : Nat) (tk : Task),
    let t := s.thread x.core x.ctx
    let whole : Prop := t.vstart = 0
    let aligned (n : Nat) : Prop := let g : Grp := ⟨d, n, t.vl.toNat⟩; d.toNat % g.size = 0 ∧ g.tooLong = false
    let forms : List (Instr × Pipe × List Reg × Prop) :=
      ([.vadd c z d ra rb f, .vsub c z d ra rb f, .vmul c z d ra rb f, .vmulh c z d ra rb f, .vdiv c z d ra rb f, .vrem c z d ra rb f, .vmin c z d ra rb f,
        .vmax c z d ra rb f, .vand c z d ra rb f, .vor c z d ra rb f, .vxor c z d ra rb f, .vshl c z d ra rb f, .vshr c z d ra rb f, .vsra c z d ra rb f,
        .vsadd c z d ra rb f, .vssub c z d ra rb f, .vwmul c z d ra rb f, .vwmacc c z d ra rb f, .vcmp c z pd ra rb f k, .vmerge c z d ra rb pc f,
        .vcvt c z d ra f, .vfadd c z d ra rb f, .vfsub c z d ra rb f, .vfmul c z d ra rb f, .vfma c z d ra rb rc f, .vfnma c z d ra rb rc f,
        .vfdiv c z d ra rb f, .vfrcp c z d ra f, .vfsqrt c z d ra f, .vfrsqrt c z d ra f, .vfexp2 c z d ra f, .vflog2 c z d ra f, .vfsin c z d ra f,
        .vfcos c z d ra f, .vftanh c z d ra f, .vfmin c z d ra rb f, .vfmax c z d ra rb f, .vfcmp c z pd ra rb f fk, .vfcvt c z d ra rb f,
        .vfwma c z d ra rb rc f, .vfclass c z d ra f, .vfsgn c z d ra rb f sg] : List Instr).map (fun i => (i, .a, [f], True)) ++
      ([.vrsum c z d ra f, .vrmax c z d ra f, .vrmin c z d ra f, .vrssum c z d ra f, .vrmaxw c z d ra rb f tie lg, .vrminw c z d ra rb f tie lg,
        .vrmedw c z d ra rb f tie lg, .vrssumw c z d ra rb f tie lg, .vadjb c z d ra rb rc f tr] : List Instr).map (fun i => (i, .a, [f], whole)) ++
      ([.vperm c z d ra rb f, .vcompress c z d ra pc f, .vexpand c z d ra pc f, .mmul c z d ra f tr] : List Instr).map (fun i => (i, .x, [f], whole)) ++
      [(.vclampw c z d ra rb rc f, .a, [f, rc, rc + 1], whole), (.vslide c z d ra rb f tr, .x, [f, rb], whole), (.vreshape c z d ra rb f, .x, [f, rb], whole),
        (.vbcast c z d ra f, .x, [f, ra], whole), (.vext c z d ra rb f, .x, [f, rb], whole), (.vins c z d ra rb f, .x, [f, ra, rb], whole),
        (.vwhdr c d ra rb, .a, [ra, rb], whole), (.mset c pd ra, .a, [ra], whole), (.msel c ra rb, .x, [ra, rb], whole),
        (.vld c z d ra vw off, .m, [ra], aligned (vwReg vw)), (.vst c z d ra vw off, .m, [ra], aligned (vwReg vw)),
        (.vlds c z d ra rb sz off, .m, [ra, rb], aligned (sizeBits sz)), (.vsts c z d ra rb sz off, .m, [ra, rb], aligned (sizeBits sz)),
        (.vspill c d ra sz off, .m, [ra], aligned (sizeBits sz)), (.vfill c d ra sz off, .m, [ra], aligned (sizeBits sz))]
    let pres (r : Reg) : Presence := s.scalarPres x r
    (i, q, srcs, ok) ∈ forms → ok → Runs s x i → s.pipe x.core q = [] →
    ((∃ r ∈ srcs, pres r = .pend) → ∃ u e, exec i s = .next u ∧ u.pipe x.core q = [e] ∧ e.instr = i ∧ e.why = .queued ∧ SameMemory s u) ∧
    -- a fault enters its record and stops the thread at the instruction, or ends it
    (s.partOf x.core = some p → (s.part p).fq.length < 256 → (s.part p).fqWait = [] → t.undos = [] →
      (∀ l r l' k y, srcs = l ++ r :: l' → (∀ q ∈ srcs, pres q ≠ .pend) → (∀ q ∈ l, pres q ≠ .flt) → pres r = .flt → t.slotAt r.toNat (faultedHalf s x r) = some k →
        t.slots.getD k none = some y → ∃ u r, exec i s = .next u ∧ SameMemory s u ∧ (u.part p).fq = (s.part p).fq ++ [r] ∧ r.cls = 4 ∧ r.code = 1 ∧
          r.flags = 1 ∧ r.pc = t.pc.setWidth 64 ∧ r.aux = BitVec.ofNat 32 y.cause.toNat ∧ r.aux2 = y.pc.setWidth 64 ∧ r.elem = BitVec.ofNat 16 y.elem ∧
          (let v := u.thread x.core x.ctx
           v.st = .stopped ∧ v.pc = t.pc ∧ v.slots.getD k none = none)) ∧
      (t.task = some tk → tk.part = p → t.st = .running → (s.part p).dump.armed = false → hasFrozen s p tk.inst = false → inDump s p (.live x.core x.ctx) = false →
        (∀ r ∈ srcs, pres r = .pres ∨ pres r = .pois) → (∀ r, srcs.head? = some r → pres r = .pois) →
        ∃ u r, exec i s = .next u ∧ (u.thread x.core x.ctx).st = .free ∧ r ∈ (u.part p).fq ∧ r.cls = 5 ∧ r.code = 1 ∧ r.flags = 2 ∧ r.elem = 0xFFFF ∧
          r.pc = t.pc.setWidth 64 ∧ r.ident = s.thid x.core x.ctx)))

/-! ## Branches, loop nests, traps -/

/-- R116, R117: `br`, `jmp`, `call` and `ret`; a target that is no multiple of 4 is the misaligned-target fault and leaves the PC. The
model's own readings in it: log 22 (DEDUCED). -/
def Obligations.Branches : Prop :=
  ∀ (s : State) (x : Ctx) (c : Ctl) (d ra : Reg) (tgt : BitVec 56),
    let pc := s.pcAt x
    let dest : PC := (s.scalar x ra + tgt.signExtend 64).setWidth 56
    let back : PC := (s.scalar x ra).setWidth 56
    (Runs s x (.br c tgt) → exec (.br c tgt) s = .next (jumped s x (.br c tgt) (pc + tgt))) ∧
    (Runs s x (.call c d tgt) → ∃ u, WroteScalar s u x d ((pc + 12).setWidth 64) ∧
      exec (.call c d tgt) s = .next (jumped u x (.call c d tgt) (pc + tgt))) ∧
    (Runs s x (.jmp c ra tgt) → present s x ra →
      (dest.toNat % 4 = 0 → exec (.jmp c ra tgt) s = .next (jumped s x (.jmp c ra tgt) dest)) ∧
      (dest.toNat % 4 ≠ 0 → ∃ a, exec (.jmp c ra tgt) s = .next (takeFault s x .precise { cls := 2, code := 3, addr := a }))) ∧
    (Runs s x (.ret c ra) → present s x ra →
      (back.toNat % 4 = 0 → exec (.ret c ra) s = .next (jumped s x (.ret c ra) back)) ∧
      (back.toNat % 4 ≠ 0 → ∃ a, exec (.ret c ra) s = .next (takeFault s x .precise { cls := 2, code := 3, addr := a })))

/-- R28, R29, R118, R122, R223: `nop` and `fence` only go on; `yield` goes on with its YLD mark set, whatever its guard; every
instruction, scalar, vector or any other, whose guard is false does the same as `nop`, and its hints act; `lninc` records a pending
binding in its slot, and reads no register. The model's own readings in it: log 7 (DEDUCED). -/
def Obligations.NopAndBinding : Prop :=
  (∀ (s : State) (x : Ctx) (c : Ctl) (sc : Scope) (k : FenceKind),
    (Runs s x (.nop c) → exec (.nop c) s = .next (closed s s x (.nop c))) ∧
    (Runs s x (.fence c sc k) → exec (.fence c sc k) s = .next (closed s s x (.fence c sc k))) ∧
    (s.cur = some x → s.lane = none → x.ctx < 6 → (c.hold = false ∨ holdOk s x = true) → (x.isHelper = true ∨ s.inPipe x.core x.ctx = false) →
      exec (.yield c) s = .next (closed s s x (.yield { c with yld := true })))) ∧
  (∀ (s : State) (x : Ctx) (c : Ctl) (d ra : Reg) (k : BitVec 2), Runs s x (.lninc c d ra k) →
    exec (.lninc c d ra k) s = .next (closed (s.setBindsAt x ((s.bindsAt x).setIfInBounds k.toNat (some ⟨d, ra⟩))) s x (.lninc c d ra k))) ∧
  (∀ (s : State) (x : Ctx) (i : Instr) (o : Op), i.op = some o → o ≠ .yield → s.cur = some x → s.lane = none → x.ctx < 6 → ctxOk x o = true →
    (i.ctl.hold = false ∨ holdOk s x = true) → (x.isHelper = true ∨ s.inPipe x.core x.ctx = false) → guardTrue s x i.ctl = false →
    exec i s = .next (closed s s x i))

/-- R119, R120: a legal `lnest` clears the index registers, reads the counts, strides and bases in the order of R119 (a register that
it has just cleared reads 0), consumes the bindings, and opens the nest at the body, or, when a count is 0, goes to the end of the
body. When sequential execution reaches the end of the body, the innermost level that is not at its last index steps, those inside it
start again, the index and bound registers follow, and the PC goes to the start; at the end of every level the nest closes and the PC
stays. While an older vector instruction of the thread still needs those registers, the step is owed (R58, R128; log 8, DEDUCED). The
model's own readings in it: log 8 (DEDUCED), log 49 (DESIGN CHOICE). -/
def Obligations.LoopNests : Prop :=
  (∀ (s : State) (x : Ctx) (c : Ctl) (d ra : Reg) (imm : BitVec 8) (fin : PC) (v : State),
    let i : Instr := .lnest c d ra imm
    let lev := imm.toNat % 8
    let blen := imm.toNat / 8
    let idx := regRun d lev
    let start := s.pcAt x + 12
    let cnt := (List.range lev).map fun l => if ra + BitVec.ofNat 6 l ∈ idx.take l then (0 : W64) else s.scalar x (ra + BitVec.ofNat 6 l)
    let pend : List (Nat × Bind) := (List.range 4).filterMap fun k => ((s.bindsAt x).getD k none).map fun b => (k, b)
    let binds := pend.map fun e => (⟨e.1, e.2.reg, e.2.stride, s.scalar x e.2.reg,
      (regRun e.2.stride lev).map fun r => if r ∈ idx then (0 : W64) else s.scalar x r⟩ : NestBind)
    Runs s x i → 1 ≤ lev → lev ≤ 6 → 1 ≤ blen → blen ≤ 16 → d.toNat + lev ≤ 64 → ra.toNat + lev ≤ 64 → s.nestAt x = none →
    (∀ e ∈ pend, e.2.stride.toNat + lev ≤ 64 ∧ present s x e.2.reg ∧ ∀ r ∈ regRun e.2.stride lev, r ∉ idx → present s x r) →
    (idx ++ pend.map (fun e => e.2.reg)).Nodup →
    (∀ l, l < lev → ra + BitVec.ofNat 6 l ∉ idx.take l → present s x (ra + BitVec.ofNat 6 l)) →
    bodyScan x blen start false s = .ok ((fin, false), v) →
    ∃ u, exec i s = .next (jumped u x i (if (0 : W64) ∈ cnt then fin else start)) ∧
      (∀ r ∈ idx, u.scalar x r = 0 ∧ present u x r) ∧ (∀ r, r ∉ idx → u.scalar x r = s.scalar x r) ∧
      u.bindsAt x = Vector.replicate 4 none ∧
      u.nestAt x = (if (0 : W64) ∈ cnt then none else some ⟨lev, blen, d, start, fin, cnt, List.replicate lev 0, binds⟩) ∧
      SameMemory s u) ∧
  (∀ (s : State) (x : Ctx) (n : Nest), x.ctx < 6 → s.nestAt x = some n → n.cnt.length = n.lev → n.idx.length = n.lev → 1 ≤ n.lev →
    (regRun n.idxReg n.lev ++ n.binds.map (fun b => b.reg)).Nodup →
    let u := arrive s x n.bodyEnd
    let free := x.isHelper = true ∨ s.inPipe x.core x.ctx = false ∧ (s.thread x.core x.ctx).undos = []
    (advanceWaits s x n = true → u = (s.setPcAt x n.bodyEnd).modThread x.core x.ctx fun t => { t with owed := true }) ∧
    (free → (∀ l, l < n.lev → n.idx.getD l 0 = n.cnt.getD l 0 - 1) →
      u.nestAt x = none ∧ u.pcAt x = n.bodyEnd ∧ u.bindsAt x = Vector.replicate 4 none ∧ ∀ r, u.scalar x r = s.scalar x r) ∧
    (∀ l, free → l < n.lev → (∀ j, j < l → n.idx.getD j 0 = n.cnt.getD j 0 - 1) → n.idx.getD l 0 ≠ n.cnt.getD l 0 - 1 →
      ∃ idx, u.nestAt x = some { n with idx := idx } ∧ u.pcAt x = n.bodyStart ∧ idx.length = n.lev ∧
        (∀ j, j < l → idx.getD j 0 = 0) ∧ idx.getD l 0 = n.idx.getD l 0 + 1 ∧ (∀ j, l < j → idx.getD j 0 = n.idx.getD j 0) ∧
        (∀ j, j < n.lev → u.scalar x (n.idxReg + BitVec.ofNat 6 j) = idx.getD j 0) ∧
        (∀ b ∈ n.binds, u.scalar x b.reg = b.base + (List.range n.lev).foldl (fun a j => a + idx.getD j 0 * b.strides.getD j 0) 0) ∧
        ∀ r, r ∉ regRun n.idxReg n.lev → r ∉ n.binds.map (fun b => b.reg) → u.scalar x r = s.scalar x r))

/-- R33, R52, R122, R341 to R344: an opcode that is not of the context's kind is an illegal instruction, whatever its guard. `trap` and
`svc` in a task thread enter their record and stop it at its PC, to go on at PC + 12; any other precise fault enters the record of its
cause and stops the thread at its PC with its registers as they were, and the host's resumption lets it execute PC again. A fatal fault
enters its record and ends the thread. That SEQ is the thread's last sequence number where the fault concerns no command is the model's
choice. The model's own readings in it: log 19 (DEDUCED). -/
def Obligations.PreciseStops : Prop :=
  (∀ (s : State) (x : Ctx) (i : Instr) (o : Op), i.op = some o → ctxOk x o = false → s.cur = some x → s.lane = none → s.inPipe x.core x.ctx = false →
    exec i s = .next (takeFault s x .precise { cls := 1, code := 1, aux := o.code })) ∧
  (∀ (s : State) (x : Ctx) (c : Ctl) (imm : BitVec 16) (p : Nat), x.isHelper = false → s.partOf x.core = some p →
    (s.part p).fq.length < 256 → (s.part p).fqWait = [] →
    let t := s.thread x.core x.ctx
    let stops (i : Instr) (code : Nat) (st : Status) : Prop := Runs s x i → ∃ u r, exec i s = .next u ∧
      (u.thread x.core x.ctx) = { t with st := st, instret := t.instret + 1, hostAcc := none, since := none } ∧
      (u.part p).fq = (s.part p).fq ++ [r] ∧ r.cls = 3 ∧ r.code = BitVec.ofNat 8 code ∧ r.flags = 1 ∧ r.aux = imm.setWidth 32 ∧
      r.pc = t.pc.setWidth 64 ∧ r.seq = t.seq ∧ r.elem = 0xFFFF ∧ r.addr = 0 ∧ r.aux2 = 0 ∧ r.ident = s.thid x.core x.ctx ∧ r.time = s.reft ∧
      SameMemory s u
    stops (.trap c imm) 2 (.stoppedAfter false) ∧ stops (.svc c imm) 3 (.stoppedAfter true)) ∧
  (∀ (s : State) (x : Ctx) (c : Cause) (p : Nat), x.ctx < 4 → s.lane = none → s.partOf x.core = some p → (c.cls ≠ 3 ∨ c.code = 1) →
    (s.part p).fq.length < 256 → (s.part p).fqWait = [] →
    let u := takeFault s x .precise c
    let t := s.thread x.core x.ctx
    u.thread x.core x.ctx = { t with st := .stopped, hostAcc := none, since := none } ∧
    (∃ r, (u.part p).fq = (s.part p).fq ++ [r] ∧ r.cls = BitVec.ofNat 8 c.cls ∧ r.code = BitVec.ofNat 8 c.code ∧ r.flags = 1 ∧
      r.aux = BitVec.ofNat 32 c.aux ∧ r.pc = t.pc.setWidth 64 ∧ r.seq = (if c.seq = 0 then t.seq else c.seq) ∧ r.elem = BitVec.ofNat 16 c.elem ∧
      r.addr = c.addr ∧ r.aux2 = c.aux2 ∧ r.ident = s.thid x.core x.ctx ∧ r.time = s.reft) ∧
    SameMemory s u ∧ (∀ k t, (k ≠ x.core ∨ t ≠ x.ctx) → u.thread k t = s.thread k t) ∧
    (resumeThread u x.core x.ctx).thread x.core x.ctx = { t with st := .running, hostAcc := none, since := none, brkSkip := true }) ∧
  (∀ (s : State) (x : Ctx) (c : Cause) (p : Nat) (k : Task), x.ctx < 4 → s.lane = none → s.partOf x.core = some p →
    (s.part p).fq.length < 256 → (s.part p).fqWait = [] →
    let u := takeFault s x .fatal c
    let t := s.thread x.core x.ctx
    t.task = some k → k.part = p → t.st = .running → (s.part p).dump.armed = false → hasFrozen s p k.inst = false → inDump s p (.live x.core x.ctx) = false →
    (u.thread x.core x.ctx).st = .free ∧ (u.thread x.core x.ctx).task = none ∧
      ∃ r, r ∈ (u.part p).fq ∧ r.cls = BitVec.ofNat 8 c.cls ∧ r.code = BitVec.ofNat 8 c.code ∧ r.flags = 2 ∧ r.aux = BitVec.ofNat 32 c.aux ∧
        r.pc = t.pc.setWidth 64 ∧ r.seq = (if c.seq = 0 then t.seq else c.seq) ∧ r.elem = BitVec.ofNat 16 c.elem ∧ r.addr = c.addr ∧ r.aux2 = c.aux2 ∧
        r.ident = s.thid x.core x.ctx ∧ r.time = s.reft)

/-! ## Scalar memory -/

/-- R216, R218, R7: a load of unpoisoned bytes of HBM or a scratchpad writes them to D, little-endian, zero- or sign-extended; no
memory and no other register changes. Poisoned bytes make D POISONED in a task thread and are a fault of its own in a helper (R208,
R161); an access that reaches no location, such as one of the tile store, takes its fault (R217, R205, R255, R256, R259). The model's
own readings in it: log 7 (DEDUCED). -/
def Obligations.Load : Prop :=
  ∀ (s : State) (x : Ctx) (c : Ctl) (d ra : Reg) (k : Size) (sx : Bool) (off : BitVec 48) (l : Loc),
    let i : Instr := .ld c d ra k sx off
    let n := sizeBytes k
    let v := bytesAt s l n
    let ea := s.scalar x ra + off.signExtend 64
    Runs s x i → present s x ra →
    Refused s x i .read n ea ∧
    (Reaches s x .read n false ea l →
      ((readLoc s l n).2 = false → ∃ u, exec i s = .next (closed u s x i) ∧
        u.scalar x d = (if sx then (BitVec.ofNat (8 * n) v).signExtend 64 else BitVec.ofNat 64 v) ∧ present u x d ∧
        RegFrame s u x [d] ∧ SameMemory s u) ∧
      ((readLoc s l n).2 = true → x.isHelper = false → ∃ u, exec i s = .next (closed u s x i) ∧ u.scalarPres x d = .pois ∧
        RegFrame (s.setPmk x 0) u x [d] ∧ SameMemory s u) ∧
      ((readLoc s l n).2 = true → x.isHelper = true → ∃ u, RegFrame s u x [] ∧ SameMemory s u ∧
        exec i s = .next (takeFault u x .fatal { cls := 5, code := 1, addr := ea })))

/-- R216, R218, R220, R234: `st` and `sigst` write the low bytes of D at the effective address and nothing else, unless the bytes touch
a live barrier word: then memory is unchanged and the barrier-corruption fault is taken. A store that reaches no location, such as one
to the tile store, takes its fault (R217, R205, R255, R256, R259). `memOk` is the invariant of `MemoryStep`. The model's own readings
in it: log 7 (DEDUCED). -/
def Obligations.Store : Prop :=
  ∀ (s : State) (x : Ctx) (c : Ctl) (d ra : Reg) (k : Size) (sc : Scope) (off : BitVec 48) (l : Loc),
    let stores (i : Instr) (n : Nat) : Prop :=
      Runs s x i → s.memOk = true → present s x ra → present s x d →
      Refused s x i .write n (s.scalar x ra + off.signExtend 64) ∧
      (Reaches s x .write n true (s.scalar x ra + off.signExtend 64) l →
      (touchesLive s l n = false → ∃ u, exec i s = .next (closed u s x i) ∧ StoredAt s u l n (s.scalar x d).toNat ∧ RegFrame s u x []) ∧
      (touchesLive s l n = true → ∃ u, SameMemory s u ∧ RegFrame s u x [] ∧
        exec i s = .next (takeFault u x .precise { cls := 2, code := 9, addr := s.scalar x ra + off.signExtend 64 })))
    stores (.st c d ra k off) (sizeBytes k) ∧ stores (.sigst c d ra sc off) 8

/-- R220, R221: an atomic reads the old value, writes the new one of its operation at the same bytes (`cas` only when the old value is
the expected one, the low bits of D), and writes the old value, sign-extended, to D. One that touches a live barrier word is the
barrier-corruption fault and leaves memory; one that reads poison writes nothing, and D becomes POISONED, or in a helper it is a fault
of its own code (R208, R161); a POISONED B poisons the granule where it is written, and D has the old value. One that reaches no
location takes its fault (R216, R217, R205, R255, R256, R259). The model's own readings in it: log 7 (DEDUCED). -/
def Obligations.Atomics : Prop :=
  ∀ (s : State) (x : Ctx) (c : Ctl) (d ra rb : Reg) (o : AmoOp) (dbl : Bool) (ord : BitVec 4) (off : BitVec 48) (l : Loc),
    let n := if dbl then 8 else 4
    let w := 8 * n
    let old := bytesAt s l n
    let b := (s.scalar x rb).toNat % 2 ^ w
    let e := (s.scalar x d).toNat % 2 ^ w
    let sg (v : Nat) : Int := (BitVec.ofNat w v).toInt
    let new := match o with
      | .add => (old + b) % 2 ^ w
      | .swap => b
      | .and => old &&& b
      | .or => old ||| b
      | .xor => old ^^^ b
      | .min => if sg old ≤ sg b then old else b
      | .max => if sg old ≤ sg b then b else old
      | .maxu => max old b
    let done (i : Instr) (v : Nat) : Prop := ∃ u, exec i s = .next (closed u s x i) ∧ StoredAt s u l n v ∧
      u.scalar x d = (BitVec.ofNat w old).signExtend 64 ∧ present u x d ∧ RegFrame s u x [d]
    let ea := s.scalar x ra + off.signExtend 64
    s.memOk = true → present s x ra → (present s x rb →
    (Runs s x (.amo c d ra rb o dbl ord off) → Refused s x (.amo c d ra rb o dbl ord off) .amo n (s.scalar x ra + off.signExtend 64)) ∧
    (Runs s x (.cas c d ra rb dbl ord off) → present s x d →
      Refused s x (.cas c d ra rb dbl ord off) .amo n (s.scalar x ra + off.signExtend 64)) ∧
    (Reaches s x .amo n true (s.scalar x ra + off.signExtend 64) l → (readLoc s l n).2 = false → touchesLive s l n = false →
    (Runs s x (.amo c d ra rb o dbl ord off) → done (.amo c d ra rb o dbl ord off) new) ∧
    (Runs s x (.cas c d ra rb dbl ord off) → present s x d → done (.cas c d ra rb dbl ord off) (if old = e then b else old)))) ∧
    (∀ i ∈ ([.amo c d ra rb o dbl ord off, .cas c d ra rb dbl ord off] : List Instr), Runs s x i → (i.op = some .cas → present s x d) →
      s.scalarPres x rb = .pres ∨ s.scalarPres x rb = .pois → Reaches s x .amo n true ea l →
      let back (u : State) : Prop := exec i s = .next (closed u s x i) ∧ u.scalar x d = (BitVec.ofNat w old).signExtend 64 ∧ present u x d ∧ RegFrame s u x [d]
      let marks (u : State) : Prop := ∀ m k, (readLoc u m k).2 = (readLoc s m k).2
      (touchesLive s l n = true → ∃ u, SameMemory s u ∧ RegFrame s u x [] ∧ exec i s = .next (takeFault u x .precise { cls := 2, code := 9, addr := ea })) ∧
      (touchesLive s l n = false → (readLoc s l n).2 = true →
        (x.isHelper = false → ∃ u, exec i s = .next (closed u s x i) ∧ u.scalarPres x d = .pois ∧ maskBit (u.thread x.core x.ctx).pmk 0 = true ∧
          RegFrame (s.setPmk x 0) u x [d] ∧ SameMemory s u ∧ marks u) ∧
        (x.isHelper = true → ∃ u, RegFrame s u x [] ∧ SameMemory s u ∧ exec i s = .next (takeFault u x .fatal { cls := 5, code := 1, addr := ea }))) ∧
      (touchesLive s l n = false → (readLoc s l n).2 = false → s.scalarPres x rb = .pois →
        (i.op = some .amo ∨ old = e → ∃ u, back u ∧ (readLoc u l n).2 = true ∧ ∀ m, (∀ j, j < n → m ≠ l.add j) → byteAt u m = byteAt s m) ∧
        (i.op = some .cas → old ≠ e → ∃ u, back u ∧ SameMemory s u ∧ marks u)))

/-- R232, R233: barrier words. `barinit` makes a word live with a target of 1 to 65,535; `bararr` counts an arrival, or completes the
phase, and returns the phase from before; `barwait` goes on when the phase differs from D[31:0] and waits when it does not; `barfree`
writes 0 and the word is no longer live, unless it is the arrival barrier of an open zone. A write or the freeing of the word ends the
waits on it, and a wait that ended with the word freed is the barrier-state fault. The model's own readings in it: log 7 (DEDUCED). -/
def Obligations.Barriers : Prop :=
  ∀ (s : State) (x : Ctx) (c : Ctl) (d ra : Reg) (off : BitVec 48) (k o : Nat),
    let ea := s.scalar x ra + off.signExtend 64
    let l := Loc.sp k o
    let w := bytesAt s l 8
    let v := (s.scalar x d).toNat
    let phase := w / 2 ^ 32
    let arrived := w / 2 ^ 16 % 2 ^ 16
    let target := w % 2 ^ 16
    let live (u : State) : Prop := o / 8 ∈ (u.core k).live
    let good : Prop := live s ∧ (readLoc s l 8).2 = false
    s.memOk = true → present s x ra →
    (Runs s x (.barinit c d ra off) → present s x d → Reaches s x .write 8 true ea l → ¬ live s → 0 < v → v < 2 ^ 16 →
      ∃ u, exec (.barinit c d ra off) s = .next (closed u s x (.barinit c d ra off)) ∧ live u ∧ StoredAt s u l 8 v ∧ RegFrame s u x []) ∧
    (Runs s x (.bararr c d ra off) → Reaches s x .amo 8 true ea l → good →
      let full := (arrived + 1) % 2 ^ 16 = target
      let now := if full then (phase + 1) % 2 ^ 32 else phase
      ∃ u v, exec (.bararr c d ra off) s = .next (closed u s x (.bararr c d ra off)) ∧ u.scalar x d = BitVec.ofNat 64 phase ∧
        StoredAt s u l 8 (now * 2 ^ 32 + (if full then 0 else (arrived + 1) % 2 ^ 16 * 2 ^ 16) + target) ∧
        BarwaitsEnded s v k o (some now) ∧ RegFrame v u x [d]) ∧
    (Runs s x (.barwait c d ra off) → present s x d → Reaches s x .read 8 false ea l →
      let ended := if x.isHelper then none else (s.thread x.core x.ctx).barEnd
      let v' := s.modThread x.core x.ctx fun t => { t with barEnd := none }
      let on (r : State) : Prop := ∃ u, exec (.barwait c d ra off) s = .next (closed u s x (.barwait c d ra off)) ∧ SameMemory s u ∧ RegFrame r u x []
      (ended = none → good → phase ≠ v % 2 ^ 32 → on s) ∧
      (ended = none → good → phase = v % 2 ^ 32 → x.isHelper = false → ∃ u, SameMemory s u ∧ RegFrame s u x [] ∧
        exec (.barwait c d ra off) s = .next (waitingFor u x (.barwait ea (BitVec.ofNat 32 phase)))) ∧
      (ended = some false → on v') ∧
      (ended = some true → ∃ u, SameMemory s u ∧ RegFrame v' u x [] ∧
        exec (.barwait c d ra off) s = .next (takeFault u x .precise { cls := 2, code := 0xA, addr := ea }))) ∧
    (Runs s x (.barfree c ra off) → Reaches s x .write 8 true ea l → live s → (∀ z ∈ (s.core k).zones.toList, z.isOpen = true → z.bar.toNat ≠ o) →
      ∃ u v, exec (.barfree c ra off) s = .next (closed u s x (.barfree c ra off)) ∧ ¬ live u ∧ StoredAt s u l 8 0 ∧
        BarwaitsEnded s v k o none ∧ RegFrame v u x [])

/-! ## Control registers, invalidations, the vector length -/

/-- R55, R56, R68 to R79, R124, R355: `csrr` reads the register of its number, and a read of CYCN also latches the fraction that CYCNF
reads; what `csrw`, `csrs` and `csrc` leave in each register a context may write, from A, from the bits of the register or of A, and
from those of the register that are not in A: reserved bits stay 0, RM never becomes 000 or 111, SRSTATE never 0; on a PMK word `csrw`
and `csrc` clear the bits that are 1 in A, and `csrs` is illegal; so is a number that the table omits or gives no such access in the
context. -/
def Obligations.ControlRegisters : Prop :=
  (∀ (s : State) (x : Ctx) (c : Ctl) (d : Reg),
    let t := s.thread x.core x.ctx
    let h := s.helper x.core (x.ctx - 4)
    let k := s.core x.core
    let nj (e : BitVec 80) : W64 := e.extractLsb' 16 64
    let reads (n : BitVec 12) (v : W64) : Prop := Gives s x (.csrr c d n) d v
    let refused (n : BitVec 12) : Prop := Runs s x (.csrr c d n) →
      exec (.csrr c d n) s = .next (takeFault s x .precise { cls := 1, code := 1, aux := Op.csrr.code })
    reads 0x000 (s.fctlAt x) ∧ reads 0x001 (s.istatAt x) ∧ reads 0x00B (s.thid x.core x.ctx) ∧ reads 0x010 k.corecfg ∧
    reads 0x011 ((s.featmask x.core).setWidth 64) ∧ reads 0x100 k.cyc ∧ reads 0x103 (s.reftAt x.core) ∧
    reads 0x012 (BitVec.ofNat 64 ((if 512 ≤ k.mire.length then 2 ^ 20 else 0) + (k.mire.filter (recReady k.mire)).length * 2 ^ 10 + k.mire.length)) ∧
    (∀ p, s.partOf x.core = some p → reads 0x105 (BitVec.ofNat 64 (s.part p).duty) ∧ reads 0x106 (nj (s.part p).energy)) ∧
    (∀ j, j < 16 → reads (BitVec.ofNat 12 (0x110 + j)) (k.evt.getD j 0)) ∧
    (x.isHelper = false → reads 0x002 t.vl ∧ reads 0x003 t.vtype ∧ reads 0x004 t.vstart ∧ reads 0x005 t.hwm ∧ reads 0x006 t.mprog ∧
      reads 0x007 t.tags ∧ reads 0x008 t.cerr ∧ reads 0x009 t.srstate ∧ reads 0x00A t.hentry ∧ reads 0x102 t.cycnf ∧ reads 0x104 t.instret ∧
      (∀ tk, t.task = some tk → reads 0x107 (nj ((s.part tk.part).queues.getD tk.queue {}).energy)) ∧
      ∀ j, j < 32 → reads (BitVec.ofNat 12 (0x020 + j)) (t.pmk.getD j 0)) ∧
    (x.isHelper = true → reads 0x00A h.hent ∧ reads 0x102 h.cycnf ∧ reads 0x104 h.instret ∧
      (∀ n ∈ ([0x002, 0x003, 0x004, 0x005, 0x006, 0x007, 0x008, 0x009, 0x107] : List (BitVec 12)), refused n) ∧
      ∀ j, j < 32 → refused (BitVec.ofNat 12 (0x020 + j))) ∧
    (∀ n : BitVec 12, ¬ (n ≤ 0x00B ∨ (0x010 ≤ n ∧ n ≤ 0x012) ∨ (0x020 ≤ n ∧ n ≤ 0x03F) ∨ (0x100 ≤ n ∧ n ≤ 0x107) ∨ (0x110 ≤ n ∧ n ≤ 0x11F)) → refused n) ∧
    (Runs s x (.csrr c d 0x101) → ∃ u, exec (.csrr c d 0x101) s = .next (closed u s x (.csrr c d 0x101)) ∧ u.scalar x d = k.cycn ∧
      csrRead u x 0x102 = some (BitVec.ofNat 64 k.cycnFrac))) ∧
  (∀ (s : State) (x : Ctx) (c : Ctl) (ra : Reg), present s x ra →
    let v := s.scalar x ra
    let t := s.thread x.core x.ctx
    let h := s.helper x.core (x.ctx - 4)
    let fctl (w : W64) : W64 := (w &&& 0x1F0) ||| (if w &&& 7 = 0 ∨ w &&& 7 = 7 then 1 else w &&& 7)
    -- register `n`, which holds `old`, is written: the state is `put` of the word that is stored
    let writes (n : BitVec 12) (old : W64) (put : W64 → State) : Prop :=
      (Runs s x (.csrw c ra n) → exec (.csrw c ra n) s = .next (closed (put v) s x (.csrw c ra n))) ∧
      (Runs s x (.csrs c ra n) → exec (.csrs c ra n) s = .next (closed (put (old ||| v)) s x (.csrs c ra n))) ∧
      (Runs s x (.csrc c ra n) → exec (.csrc c ra n) s = .next (closed (put (old &&& ~~~v)) s x (.csrc c ra n)))
    let task (f : Thread) : State := s.setThread x.core x.ctx f
    let helper (f : Helper) : State := s.setHelper x.core (x.ctx - 4) f
    let refused (i : Instr) (o : Op) : Prop := Runs s x i → exec i s = .next (takeFault s x .precise { cls := 1, code := 1, aux := o.code })
    let illegal (n : BitVec 12) : Prop := refused (.csrw c ra n) .csrw ∧ refused (.csrs c ra n) .csrs ∧ refused (.csrc c ra n) .csrc
    (x.isHelper = false →
      writes 0x000 t.fctl (fun w => task { t with fctl := fctl w }) ∧ writes 0x001 t.istat (fun w => task { t with istat := w &&& 0x71F }) ∧
      writes 0x004 t.vstart (fun w => task { t with vstart := w &&& 0x7FF }) ∧ writes 0x006 t.mprog (fun w => task { t with mprog := w &&& ~~~0xF0 }) ∧
      writes 0x009 t.srstate (fun w => task { t with srstate := if w = 0 then 0x5DEECE66D1CE4E5B else w }) ∧
      writes 0x00A t.hentry (fun w => task { t with hentry := w &&& 0xFFFFFFFFFFFFFC }) ∧
      ∀ j, j < 32 →
        let n := BitVec.ofNat 12 (0x020 + j)
        let u := task { t with pmk := t.pmk.setIfInBounds j (t.pmk.getD j 0 &&& ~~~v) }
        (Runs s x (.csrw c ra n) → exec (.csrw c ra n) s = .next (closed u s x (.csrw c ra n))) ∧
        (Runs s x (.csrc c ra n) → exec (.csrc c ra n) s = .next (closed u s x (.csrc c ra n))) ∧ refused (.csrs c ra n) .csrs) ∧
    (x.isHelper = true →
      writes 0x000 h.fctl (fun w => helper { h with fctl := fctl w }) ∧ writes 0x001 h.istat (fun w => helper { h with istat := w &&& 0x71F }) ∧
      (∀ n ∈ ([0x004, 0x006, 0x009, 0x00A] : List (BitVec 12)), illegal n) ∧ ∀ j, j < 32 → illegal (BitVec.ofNat 12 (0x020 + j))) ∧
    (∀ n : BitVec 12, n ∉ ([0x000, 0x001, 0x004, 0x006, 0x009, 0x00A] : List (BitVec 12)) → ¬ (0x020 ≤ n ∧ n ≤ 0x03F) → illegal n))

/-- R125, R262: after `tlbinv` no TLB of the partition holds a translation of a page it names, and while an access that used one is
still to perform the instruction waits; after `icinv` the core's cache holds no word with a byte of the range. No register and no
memory changes. The model's own readings in it: log 12 (DEDUCED), log 49 (DESIGN CHOICE). -/
def Obligations.Invalidations : Prop :=
  ∀ (s : State) (x : Ctx) (c : Ctl) (ra rb : Reg) (p : Nat), present s x ra → present s x rb → s.partOf x.core = some p →
    let va := (s.scalar x ra).toNat
    let n := (s.scalar x rb).toNat
    let covers (q : Nat) (e : Nat × TlbEntry) : Prop := e.1 / 4 ≤ q ∧ q < e.1 / 4 + e.2.span
    let gone (u : State) (q : Nat) : Prop :=
      (∀ k ∈ u.cores, u.partOf k.1 = some p → ∀ e ∈ k.2.tlb, ¬ covers q e) ∧ (∀ v ∈ u.pavs, v.2.part = some p → ∀ e ∈ v.2.tlb, ¬ covers q e)
    -- the instruction names the pages `lo` to `hi`
    let drops (i : Instr) (lo hi : Nat) : Prop := Runs s x i →
      (usesPages s p [(lo, hi)] = false → ∃ u, exec i s = .next (closed u s x i) ∧ (∀ q, lo ≤ q → q ≤ hi → gone u q) ∧ SameMemory s u ∧
        RegFrame s u x []) ∧
      (usesPages s p [(lo, hi)] = true → x.isHelper = false → exec i s = .next (waitingFor s x (.pages [(lo, hi)])))
    drops (.tlbinv c ra rb .page) (va / 4096) (va / 4096) ∧
    (0 < n → va + n ≤ 2 ^ 64 → drops (.tlbinv c ra rb .range) (va / 4096) ((va + n - 1) / 4096)) ∧
    drops (.tlbinv c ra rb .all) 0 (2 ^ 52) ∧
    (Runs s x (.icinv c ra rb false) → 0 < n → va + n ≤ 2 ^ 64 → ∃ u, exec (.icinv c ra rb false) s = .next (closed u s x (.icinv c ra rb false)) ∧
      (∀ e ∈ (u.core x.core).icache, e.1 + 3 < va ∨ va + n ≤ e.1) ∧ SameMemory s u ∧ RegFrame s u x []) ∧
    (Runs s x (.icinv c ra rb true) → 0 < n → va + n ≤ 2 ^ 64 → ∃ u, exec (.icinv c ra rb true) s = .next (closed u s x (.icinv c ra rb true)) ∧
      (∀ k ∈ u.cores, u.partOf k.1 = some p → ∀ e ∈ k.2.icache, e.1 + 3 < va ∨ va + n ≤ e.1) ∧ SameMemory s u ∧ RegFrame s u x [])

/-- R66, R133, R134: `setvl` and `setvli` set VL to the request, at most 2,048, BLK, and VSTART to 0, and write the new VL to D; BLK 3
is illegal; `vlq` gives the bytes of a spill frame. -/
def Obligations.VectorLength : Prop :=
  ∀ (s : State) (x : Ctx) (c : Ctl) (d ra rb : Reg) (imm : BitVec 56) (k : Size), x.ctx < 4 →
    let sets (i : Instr) (n blk : Nat) : Prop := ∃ u v, exec i s = .next (closed u s x i) ∧
      v = s.setThread x.core x.ctx { s.thread x.core x.ctx with vl := BitVec.ofNat 64 (min n 2048), vtype := BitVec.ofNat 64 blk, vstart := 0 } ∧
      WroteScalar v u x d (BitVec.ofNat 64 (min n 2048))
    let illegal (i : Instr) (o : Op) : Prop := exec i s = .next (takeFault s x .precise { cls := 1, code := 1, aux := o.code })
    (Runs s x (.setvl c d ra rb) → present s x ra → present s x rb →
      ((s.scalar x rb).toNat < 3 → sets (.setvl c d ra rb) (s.scalar x ra).toNat (s.scalar x rb).toNat) ∧
      (3 ≤ (s.scalar x rb).toNat → illegal (.setvl c d ra rb) .setvl)) ∧
    (Runs s x (.setvli c d imm) → (imm.toNat < 3 * 2 ^ 12 → sets (.setvli c d imm) (imm.toNat % 2 ^ 12) (imm.toNat / 2 ^ 12)) ∧
      (3 * 2 ^ 12 ≤ imm.toNat → illegal (.setvli c d imm) .setvli)) ∧
    (let vl := (s.thread x.core x.ctx).vl.toNat
     let data := (vl * (8 * sizeBytes k) + 7) / 8
     let codes := ((data + 1) / 2 * 2 + 7) / 8
     Gives s x (.vlq c d k) d (BitVec.ofNat 64 ((data + 63) / 64 * 64 + (codes + 63) / 64 * 64)))

/-! ## Scalar floating point -/

/-- R108 to R110, R114: `fadd`, `fsub`, `fmul`, `fdiv`, `ffma`, `fsqrt` deliver the operation of their row, in binary32 on bits [31:0]
of the sources and in binary64 on all, rounded once; `fmin` and `fmax` do not round. R82, R84, R85, R97, R98: the rounding step of
every format delivers the exact value where it is one of a code, and else one of the two codes that enclose it, the nearest or the one
of the mode, or what an overflow delivers, with NX, UF and OF. The model's own readings in it: log 49 (DESIGN CHOICE). -/
def Obligations.ScalarFp : Prop :=
  (∀ (s : State) (x : Ctx) (c : Ctl) (d ra rb rc : Reg) (rm : RMode), present s x ra → present s x rb → present s x rc →
    let low (r : Reg) : Nat := (s.scalar x r).toNat % 2 ^ 32
    let v (r : Reg) : FVal := fp32.decode (low r)
    GivesFp s x (.faddS c d ra rb rm) true rm d (fun r => fp32.add r (v ra) (v rb)) ∧
    GivesFp s x (.fsubS c d ra rb rm) true rm d (fun r => fp32.add r (v ra) (v rb).negate) ∧
    GivesFp s x (.fmulS c d ra rb rm) true rm d (fun r => fp32.mul r (v ra) (v rb)) ∧
    GivesFp s x (.fdivS c d ra rb rm) true rm d (fun r => fp32.div r (v ra) (v rb)) ∧
    GivesFp s x (.ffmaS c d ra rb rc rm) true rm d (fun r => fp32.fma r (v ra) (v rb) (v rc)) ∧
    GivesFp s x (.fsqrtS c d ra rm) true rm d (fun r => fp32.sqrt r (v ra)) ∧
    GivesFp s x (.fminS c d ra rb) false .dyn d (fun _ => fp32.minMax false (low ra) (low rb)) ∧
    GivesFp s x (.fmaxS c d ra rb) false .dyn d (fun _ => fp32.minMax true (low ra) (low rb))) ∧
  (∀ (s : State) (x : Ctx) (c : Ctl) (d ra rb rc : Reg) (rm : RMode), present s x ra → present s x rb → present s x rc →
    let v (r : Reg) : FVal := fp64.decode (s.scalar x r).toNat
    GivesFp s x (.faddD c d ra rb rm) true rm d (fun r => fp64.add r (v ra) (v rb)) ∧
    GivesFp s x (.fsubD c d ra rb rm) true rm d (fun r => fp64.add r (v ra) (v rb).negate) ∧
    GivesFp s x (.fmulD c d ra rb rm) true rm d (fun r => fp64.mul r (v ra) (v rb)) ∧
    GivesFp s x (.fdivD c d ra rb rm) true rm d (fun r => fp64.div r (v ra) (v rb)) ∧
    GivesFp s x (.ffmaD c d ra rb rc rm) true rm d (fun r => fp64.fma r (v ra) (v rb) (v rc)) ∧
    GivesFp s x (.fsqrtD c d ra rm) true rm d (fun r => fp64.sqrt r (v ra)) ∧
    GivesFp s x (.fminD c d ra rb) false .dyn d (fun _ => fp64.minMax false (s.scalar x ra).toNat (s.scalar x rb).toNat) ∧
    GivesFp s x (.fmaxD c d ra rb) false .dyn d (fun _ => fp64.minMax true (s.scalar x ra).toNat (s.scalar x rb).toNat)) ∧
  -- the rounding step of every format: the magnitude lies between those of two neighbouring codes `c` and `c + 1`, and is exact, or goes to one
  -- of them by the mode; `sticky` is a magnitude strictly above `m * 2^e` and below `(m + 1) * 2^e`
  (∀ (f : FFmt) (conv : Bool) (r : Rnd) (neg : Bool) (x : Mag) (c : Nat), f ∈ [fp64, fp32, bf16, fp16, e4m3, e5m2, e2m1] → r.mode ≠ .dyn → 0 < x.m →
    c ≤ f.maxCode → (x.sticky = true → 2 ^ (f.fbits + 18) ≤ x.m) →
    let low : Int := min x.e (1 - (f.bias : Int) - f.fbits)
    let scaled (m : Nat) (e : Int) : Nat := m * 2 ^ (e - low).toNat
    -- the magnitude of a code, in units of 2^low (R82)
    let mag (k : Nat) : Nat := match f.decode k with
      | .fin _ m e => scaled m e
      | _ => 0
    let v := scaled x.m x.e
    let next := if c < f.maxCode then mag (c + 1) else 2 * mag c - mag (c - 1)
    let exact : Prop := v = mag c ∧ x.sticky = false
    let up : Bool := match r.mode with
      | .rtz => false
      | .rdn => neg
      | .rup => !neg
      | .rmm => decide (mag c + next ≤ 2 * v)
      | .sr => decide (65536 ≤ (v - mag c) * 65536 / (next - mag c) + r.word)
      | .rne | .dyn => decide (mag c + next < 2 * v) || (decide (mag c + next = 2 * v) && (x.sticky || c % 2 == 1))
    let sign (k : Nat) : Nat := k + (if neg then 2 ^ (f.width - 1) else 0)
    let most : Bool := conv || r.mode == .rtz || (r.mode == .rdn && !neg) || (r.mode == .rup && neg)
    let beyond : FRes := ⟨sign (if most then f.maxCode else f.infCode.getD f.maxCode), flagOF ||| flagNX⟩
    (mag c ≤ v → v < next →
      (exact → f.round conv r neg x = ⟨sign c, 0⟩) ∧
      (¬ exact → up = true → c = f.maxCode → f.round conv r neg x = beyond) ∧
      (¬ exact → up = false ∨ c < f.maxCode → ∃ fl, f.round conv r neg x = ⟨sign (if up then c + 1 else c), fl⟩ ∧
        -- inexact; and tiny, where the result rounded to the format's precision is below the smallest normal (R84)
        (mag (2 ^ f.fbits) ≤ v → fl = flagNX) ∧ (2 * v < mag (2 ^ f.fbits) + mag (2 ^ f.fbits - 1) → fl = flagUF ||| flagNX))) ∧
    (c = f.maxCode → next ≤ v → f.round conv r neg x = beyond))

/-- R111, R112, R113: `fcmp` writes its condition, with NV for a signalling NaN and, under `.lt` and `.le`, for any NaN; `fclass` sets
one bit; `fsgn` changes only the sign; the conversions deliver the converted value. -/
def Obligations.ScalarFpOther : Prop :=
  ∀ (s : State) (x : Ctx) (c : Ctl) (d ra rb : Reg) (pd : PReg) (k : FCmp) (g : Sgn) (ks : CvtS) (kd : CvtD) (rm : RMode),
    present s x ra → present s x rb →
    let a := (s.scalar x ra).toNat
    let b := (s.scalar x rb).toNat
    let compares (i : Instr) (v w : FVal) : Prop :=
      let nan := v.isNan || w.isNan
      let holds := match k with
        | .eq => !nan && v.cmp w == 0 | .lt => !nan && decide (v.cmp w < 0) | .le => !nan && decide (v.cmp w ≤ 0)
        | .un => nan | .ne => nan || v.cmp w != 0
      let f := if v.isSig || w.isSig || (nan && (k == .lt || k == .le)) then flagNV else 0
      Runs s x i → (¬ trapDue s x f → ∃ u, WrotePred (s.raiseFlags x f) u x pd holds ∧ exec i s = .next (closed u s x i)) ∧
        (trapDue s x f → exec i s = .next (takeFault (s.raiseFlags x f) x .precise { cls := 3, code := 1, aux := (f &&& 31).toNat }))
    compares (.fcmpS c pd ra rb k) (fp32.decode (a % 2 ^ 32)) (fp32.decode (b % 2 ^ 32)) ∧
    compares (.fcmpD c pd ra rb k) (fp64.decode a) (fp64.decode b) ∧
    (∃ j, j < 10 ∧ fp32.classify (a % 2 ^ 32) = 2 ^ j ∧ GivesFp s x (.fclassS c d ra) false .dyn d (fun _ => ⟨2 ^ j, 0⟩)) ∧
    (∃ j, j < 10 ∧ fp64.classify a = 2 ^ j ∧ GivesFp s x (.fclassD c d ra) false .dyn d (fun _ => ⟨2 ^ j, 0⟩)) ∧
    (let sign := match g with
        | .cp => b / 2 ^ 31 % 2 | .neg => (b / 2 ^ 31 + 1) % 2 | .xor => (a / 2 ^ 31 + b / 2 ^ 31) % 2
     GivesFp s x (.fsgnS c d ra rb g) false .dyn d (fun _ => ⟨sign * 2 ^ 31 + a % 2 ^ 31, 0⟩)) ∧
    (let sign := match g with
        | .cp => b / 2 ^ 63 % 2 | .neg => (b / 2 ^ 63 + 1) % 2 | .xor => (a / 2 ^ 63 + b / 2 ^ 63) % 2
     GivesFp s x (.fsgnD c d ra rb g) false .dyn d (fun _ => ⟨sign * 2 ^ 63 + a % 2 ^ 63, 0⟩)) ∧
    GivesFp s x (.fcvtS c d ra ks rm) (!exactS ks) rm d (fun r => cvtS ks r (s.scalar x ra)) ∧
    GivesFp s x (.fcvtD c d ra kd rm) (!exactD kd) rm d (fun r => cvtD kd r (s.scalar x ra))

/-! ## Vector arithmetic -/

/-- R130, R136, R137, R86, R129, R155 on the two-source integer instructions: every computed element gets the result of its row in the
format FA, an element with a POISONED source is POISONED and sets its PMK bit, inactive elements follow ZP, and nothing else changes.
R347, R349: in verify mode an instruction that meets a mismatch completes after a retry that agrees, and counts as a correction, and
else takes the fatal verify-mismatch fault with nothing of it written, and the core is suspect. The model's own readings in it: log 13
(DESIGN CHOICE). -/
def Obligations.VectorInteger : Prop :=
  ∀ (s : State) (x : Ctx) (c : Ctl) (p : Option Pfx) (d a b f : Reg),
    let t := s.thread x.core x.ctx
    let F : FWord := ⟨(s.scalar x f).toNat⟩
    let w := codeWidth F.fa
    let ga : Grp := ⟨a, w, t.vl.toNat⟩
    let gb : Grp := ⟨b, w, t.vl.toNat⟩
    let gd : Grp := ⟨d, w, t.vl.toNat⟩
    let signed := F.fa.toNat % 2 = 0
    let A (i : Nat) : Int := if signed then (BitVec.ofNat w (elBits t ga i)).toInt else elBits t ga i
    let B (i : Nat) : Int := if signed then (BitVec.ofNat w (elBits t gb i)).toInt else elBits t gb i
    let lo : Int := if signed then -(2 ^ (w - 1)) else 0
    let hi : Int := if signed then 2 ^ (w - 1) - 1 else 2 ^ w - 1
    let code (v : Int) : Nat := (v % 2 ^ w).toNat
    let bad (i : Nat) : Bool := elPres t ga i == .pois || elPres t gb i == .pois
    let met := if (s.core x.core).verify then (s.core x.core).flaws else []
    let outcome (i : Instr) (u : State) : State :=
      let done := laneDone (closed u s x i) x true
      match met with
      | [] => done
      | m :: rest =>
        if m.again then fatalFault (s.modCore x.core fun k => { k with flaws := rest, suspect := true }) x
          { cls := 9, code := 1, aux2 := BitVec.ofNat 64 m.group } true
        else done.modCore x.core fun k => { evtAdd k 14 1 with flaws := rest }
    let gives (i : Instr) (r : Nat → Nat) (fl : Nat → W64) : Prop := Runs s x i → s.pipe x.core .a = [] →
      ∃ u, WroteElems (consumed s x (pfx p) bad fl) u x gd (written t (pfx p)) (fun j => computed t (pfx p) j && bad j) (elemVal t (pfx p) bad r) ∧
        exec i s = .next (outcome i u)
    let exact (sat : Bool) (v : Nat → Int) (i : Instr) : Prop :=
      gives i (fun j => code (if sat then max lo (min hi (v j)) else v j)) (fun j => if sat ∧ ¬ (lo ≤ v j ∧ v j ≤ hi) then flagISAT else 0)
    let plain (v : Nat → Nat) (i : Instr) : Prop := gives i v fun _ => 0
    let ovf (j : Nat) : Prop := signed ∧ A j = lo ∧ B j = -1
    present s x f → F.w < 2 ^ 27 → isI F.fa = true → F.fb = F.fa → F.fd = F.fa → GroupsOk false gd [ga, gb] → Settled t gd →
    (∀ i, computed t (pfx p) i = true → Known t ga i ∧ Known t gb i) →
    exact F.sati (fun j => A j + B j) (.vadd c p d a b f) ∧ exact F.sati (fun j => A j - B j) (.vsub c p d a b f) ∧
    exact F.sati (fun j => A j * B j) (.vmul c p d a b f) ∧ exact true (fun j => A j + B j) (.vsadd c p d a b f) ∧
    exact true (fun j => A j - B j) (.vssub c p d a b f) ∧
    plain (fun j => code (A j * B j / 2 ^ w)) (.vmulh c p d a b f) ∧
    gives (.vdiv c p d a b f) (fun j => if B j = 0 then 2 ^ w - 1 else if ovf j then code lo else code ((A j).tdiv (B j)))
      (fun j => if B j = 0 then flagIDZ else if ovf j then flagIOV else 0) ∧
    gives (.vrem c p d a b f) (fun j => if B j = 0 then code (A j) else if ovf j then 0 else code ((A j).tmod (B j)))
      (fun j => if B j = 0 then flagIDZ else if ovf j then flagIOV else 0) ∧
    plain (fun j => code (min (A j) (B j))) (.vmin c p d a b f) ∧ plain (fun j => code (max (A j) (B j))) (.vmax c p d a b f) ∧
    plain (fun j => elBits t ga j &&& elBits t gb j) (.vand c p d a b f) ∧ plain (fun j => elBits t ga j ||| elBits t gb j) (.vor c p d a b f) ∧
    plain (fun j => elBits t ga j ^^^ elBits t gb j) (.vxor c p d a b f) ∧
    plain (fun j => elBits t ga j * 2 ^ (elBits t gb j % w) % 2 ^ w) (.vshl c p d a b f) ∧
    plain (fun j => elBits t ga j / 2 ^ (elBits t gb j % w)) (.vshr c p d a b f) ∧
    plain (fun j => code ((BitVec.ofNat w (elBits t ga j)).toInt / 2 ^ (elBits t gb j % w))) (.vsra c p d a b f)

/-- R140, R139, R131: `vwmul` and `vwmacc` give the exact product of twice the width, added to D in the second, which saturates under
SATI; `vcvt` delivers the integer in FD; `vmerge` moves the element that its mask chooses, with its presence. -/
def Obligations.VectorConvert : Prop :=
  ∀ (s : State) (x : Ctx) (c : Ctl) (p : Option Pfx) (d a b f : Reg) (m : PReg),
    let t := s.thread x.core x.ctx
    let F : FWord := ⟨(s.scalar x f).toNat⟩
    let q := pfx p
    let n := t.vl.toNat
    let ga : Grp := ⟨a, codeWidth F.fa, n⟩
    let gb : Grp := ⟨b, codeWidth F.fb, n⟩
    let gd : Grp := ⟨d, codeWidth F.fd, n⟩
    let num (k : BitVec 6) (g : Grp) (i : Nat) : Int := if k.toNat % 2 = 0 then (BitVec.ofNat (codeWidth k) (elBits t g i)).toInt else elBits t g i
    let lo : Int := if F.fd.toNat % 2 = 0 then -(2 ^ (codeWidth F.fd - 1)) else 0
    let hi : Int := if F.fd.toNat % 2 = 0 then 2 ^ (codeWidth F.fd - 1) - 1 else 2 ^ codeWidth F.fd - 1
    let code (v : Int) : Nat := (v % 2 ^ codeWidth F.fd).toNat
    let bad (l : List Grp) (i : Nat) : Bool := l.any fun g => elPres t g i == .pois
    let exact (sat : Bool) (l : List Grp) (v : Nat → Int) (i : Instr) : Prop :=
      (∀ g ∈ l, ∀ i, computed t q i = true → Known t g i) →
      Elementwise s x i q gd (bad l) (fun j => code (if sat then max lo (min hi (v j)) else v j))
        (fun j => if sat ∧ ¬ (lo ≤ v j ∧ v j ≤ hi) then flagISAT else 0)
    let prod (j : Nat) : Int := num F.fa ga j * num F.fb gb j
    let src (j : Nat) : Grp := if maskBit (maskReg t m) j then ga else gb
    present s x f → F.w < 2 ^ 27 → Settled t gd →
    (isI32 F.fa = true → isI32 F.fb = true → codeWidth F.fa = codeWidth F.fb → F.fd = wideCode F.fa F.fb → GroupsOk true gd [ga, gb] →
      exact false [ga, gb] prod (.vwmul c p d a b f) ∧
      (F.fc = F.fd → exact F.sati [ga, gb, gd] (fun j => num F.fd gd j + prod j) (.vwmacc c p d a b f))) ∧
    (isI4 F.fa = true → isI4 F.fd = true → GroupsOk (decide (ga.w < gd.w)) gd [ga] → exact F.sati [ga] (num F.fa ga) (.vcvt c p d a f)) ∧
    (isX F.fa = true → F.fb = F.fa → F.fd = F.fa → GroupsOk false gd [ga, gb] → (∀ i, computed t q i = true → Known t (src i) i) →
      GivesElems s s x (.vmerge c p d a b m f) .a gd (written t q) (fun j => computed t q j && elPres t (src j) j == .pois)
        (fun j => some (if active t q j then (if F.fd = 0x06 then elBits t (src j) j % 64 else elBits t (src j) j) else zeroCode F.fd)))

/-- R64, R132, R138, R145, R148: `vcmp` and `vfcmp` write a mask bit for every computed element, 0 where a source is POISONED, and
flags of `vfcmp` whose trap is enabled make it stop with nothing written; the mask instructions act on all 2,048 bits, and `mpop` and
`mffs` count and find among the bits below VL. -/
def Obligations.ComparesAndMasks : Prop :=
  (∀ (s : State) (x : Ctx) (c : Ctl) (p : Option Pfx) (d : PReg) (a b f : Reg) (k : VCmp) (kf : FCmp),
    let t := s.thread x.core x.ctx
    let F : FWord := ⟨(s.scalar x f).toNat⟩
    let q := pfx p
    let w := codeWidth F.fa
    let ga : Grp := ⟨a, w, t.vl.toNat⟩
    let gb : Grp := ⟨b, w, t.vl.toNat⟩
    let num (g : Grp) (i : Nat) : Int := if F.fa.toNat % 2 = 0 then (BitVec.ofNat w (elBits t g i)).toInt else elBits t g i
    let bad (i : Nat) : Bool := elPres t ga i == .pois || elPres t gb i == .pois
    let holds (j : Nat) : Bool := match k with
      | .eq => num ga j == num gb j | .ne => num ga j != num gb j | .lt => decide (num ga j < num gb j) | .ge => decide (num gb j ≤ num ga j)
    let val (g : Grp) (j : Nat) : FVal := ((ffmtOf F.fa).getD fp32).decode (elBits t g j)
    let fl (j : Nat) : W64 := (fcmpHolds kf (val ga j) (val gb j)).2
    let all := ((actives t q).filter fun j => !bad j).foldl (fun g j => g ||| fl j) 0
    let j : Instr := .vfcmp c p d a b f kf
    present s x f → F.w < 2 ^ 27 → F.fb = F.fa → (∀ g ∈ [ga, gb], g.base.toNat % g.size = 0 ∧ g.len * g.w ≤ 65536) →
    (∀ i, computed t q i = true → Known t ga i ∧ Known t gb i) →
    (isI F.fa = true → GivesMask s (consumed s x q bad fun _ => 0) x (.vcmp c p d a b f k) d q fun i => !bad i && holds i) ∧
    (isF F.fa = true → ¬ trapDue s x all →
      GivesMask s (consumed s x q bad fl) x j d q fun i => !bad i && (fcmpHolds kf (val ga i) (val gb i)).1) ∧
    (isF F.fa = true → trapDue s x all → t.undos = [] → Runs s x j → s.pipe x.core .a = [] →
      ∃ u, exec j s = .next u ∧ SameMemory s u ∧ (u.thread x.core x.ctx).v = t.v ∧ (u.thread x.core x.ctx).m = t.m ∧
        (u.thread x.core x.ctx).st = .stopped ∧ (u.thread x.core x.ctx).pc = t.pc ∧ (u.thread x.core x.ctx).istat = t.istat ||| all)) ∧
  (∀ (s : State) (x : Ctx) (c : Ctl) (d a b : PReg) (r ra : Reg),
    let t := s.thread x.core x.ctx
    let bit (k : PReg) (j : Nat) : Bool := maskBit (maskReg t k) j
    let gives (i : Instr) (v : Nat → Bool) : Prop := Runs s x i → s.pipe x.core .a = [] → ∃ u m, exec i s = .next (vecDone u s x i) ∧
      SameMemory s u ∧ (∀ j, j < 2048 → maskBit m j = v j) ∧
      RegFrame (s.modThread x.core x.ctx fun t => { t with m := t.m.setIfInBounds d.toNat m }) u x []
    let scalar (i : Instr) (v : Nat) : Prop := Runs s x i → s.pipe x.core .a = [] → ∃ u, exec i s = .next (vecDone u s x i) ∧
      SameMemory s u ∧ RegFrame s u x [r] ∧ u.scalar x r = BitVec.ofNat 64 v ∧ present u x r
    t.vstart = 0 →
    gives (.mand c d a b) (fun j => bit a j && bit b j) ∧ gives (.mor c d a b) (fun j => bit a j || bit b j) ∧
    gives (.mxor c d a b) (fun j => bit a j ^^ bit b j) ∧ gives (.mnot c d a) (fun j => !bit a j) ∧
    (present s x ra → gives (.mset c d ra) (fun j => decide (j < (s.scalar x ra).toNat))) ∧
    scalar (.mpop c r a) ((List.range t.vl.toNat).map fun j => (bit a j).toNat).sum ∧
    (∀ n, n < t.vl.toNat → bit a n = true → (∀ j, j < n → bit a j = false) → scalar (.mffs c r a) n) ∧
    ((∀ j, j < t.vl.toNat → bit a j = false) → scalar (.mffs c r a) (2 ^ 64 - 1)))

/-- R141, R142, R155, R99: a vector floating-point instruction whose computed elements are all easy and raise no flag with an enabled
trap delivers the operation of its row, rounded once, in every computed element; under mode SR each computed element draws. The model's
own readings in it: log 14 (DEDUCED), log 19 (DEDUCED), log 49 (DESIGN CHOICE). -/
def Obligations.VectorFloat : Prop :=
  ∀ (s : State) (x : Ctx) (c : Ctl) (p : Option Pfx) (d a b e f : Reg) (k : Sgn),
    let t := s.thread x.core x.ctx
    let F : FWord := ⟨(s.scalar x f).toNat⟩
    let q := pfx p
    let w := codeWidth F.fa
    let ft := (ffmtOf F.fa).getD fp32
    let gd : Grp := ⟨d, w, t.vl.toNat⟩
    let gives (i : Instr) (o : Op) (srcs : List Reg) (rounds : Bool) (res : Rnd → (Nat → Nat) → (Nat → FVal) → FRes) : Prop :=
      let gs := srcs.map fun r => (⟨r, w, t.vl.toNat⟩ : Grp)
      let el (j n : Nat) : Nat := elBits t (gs.getD n gd) j
      let bad (j : Nat) : Bool := gs.any fun g => elPres t g j == .pois
      let rnd (j : Nat) : Rnd := if rounds then elemRnd t q j else ⟨vecMode t q, 0⟩
      let r (j : Nat) : FRes := res (rnd j) (el j) fun n => ft.decode (el j n)
      let codes (j : Nat) : List Nat := gs.map fun g => elBits t g j
      let hard (j : Nat) : Bool := rounds && ((codes j).any ft.subnormal || opHard o F.fa ft (vecMode t q) (codes j))
      (2 ≤ srcs.length → F.fb = F.fa) → (3 ≤ srcs.length → F.fc = F.fa) → GroupsOk false gd gs →
      (∀ j, computed t q j = true → (∀ g ∈ gs, Known t g j) ∧ (bad j = false → hard j = false ∧ ¬ trapDue s x (r j).flags)) →
      let s' := consumed s x q bad fun j => (r j).flags
      GivesElems s (if rounds then s'.drew x q else s') x i .a gd (written t q) (fun j => computed t q j && bad j)
        (elemVal t q bad fun j => (r j).code)
    present s x f → F.w < 2 ^ 27 → isF F.fa = true → F.fd = F.fa → Settled t gd →
    gives (.vfadd c p d a b f) .vfadd [a, b] true (fun r _ v => ft.add r (v 0) (v 1)) ∧
    gives (.vfsub c p d a b f) .vfsub [a, b] true (fun r _ v => ft.add r (v 0) (v 1).negate) ∧
    gives (.vfmul c p d a b f) .vfmul [a, b] true (fun r _ v => ft.mul r (v 0) (v 1)) ∧
    gives (.vfdiv c p d a b f) .vfdiv [a, b] true (fun r _ v => ft.div r (v 0) (v 1)) ∧
    gives (.vfma c p d a b e f) .vfma [a, b, e] true (fun r _ v => ft.fma r (v 0) (v 1) (v 2)) ∧
    gives (.vfnma c p d a b e f) .vfnma [a, b, e] true (fun r _ v => ft.fma r (v 0).negate (v 1) (v 2)) ∧
    gives (.vfrcp c p d a f) .vfrcp [a] true (fun r _ v => ft.div r oneVal (v 0)) ∧
    gives (.vfsqrt c p d a f) .vfsqrt [a] true (fun r _ v => ft.sqrt r (v 0)) ∧
    gives (.vfrsqrt c p d a f) .vfrsqrt [a] true (fun r _ v => ft.rsqrt r (v 0)) ∧
    gives (.vfexp2 c p d a f) .vfexp2 [a] true (fun r _ v => ft.exp2 r (v 0)) ∧
    gives (.vflog2 c p d a f) .vflog2 [a] true (fun r _ v => ft.log2 r (v 0)) ∧
    gives (.vfsin c p d a f) .vfsin [a] true (fun r _ v => ft.trig false r (v 0)) ∧
    gives (.vfcos c p d a f) .vfcos [a] true (fun r _ v => ft.trig true r (v 0)) ∧
    gives (.vftanh c p d a f) .vftanh [a] true (fun r _ v => ft.tanh r (v 0)) ∧
    gives (.vfmin c p d a b f) .vfmin [a, b] false (fun _ e _ => ft.minMax false (e 0) (e 1)) ∧
    gives (.vfmax c p d a b f) .vfmax [a, b] false (fun _ e _ => ft.minMax true (e 0) (e 1)) ∧
    gives (.vfsgn c p d a b f k) .vfsgn [a, b] false (fun _ e _ => ⟨ft.signOp k (e 0) (e 1), 0⟩)

/-- R146, R95, R94: `vfcvt` converts each computed element, with its block scale in A and the scale of its block divided out for D; the
scales of the blocks with a computed element are written to B. No element is hard and no flag has its trap enabled. The model's own
readings in it: log 19 (DEDUCED), log 24 (DESIGN CHOICE). -/
def Obligations.BlockScaledConversion : Prop :=
  ∀ (s : State) (x : Ctx) (c : Ctl) (p : Option Pfx) (d a b f : Reg),
    let t := s.thread x.core x.ctx
    let F : FWord := ⟨(s.scalar x f).toNat⟩
    let q := pfx p
    let bl := blockLen t
    let ga : Grp := ⟨a, codeWidth F.fa, t.vl.toNat⟩
    let gd : Grp := ⟨d, codeWidth F.fd, t.vl.toNat⟩
    let ge := scaleGrp t q.e
    let gb := scaleGrp t b
    let srcs := ga :: if F.sca then [ge] else []
    let src (j : Nat) : FVal := if F.sca then scaled (valueOf F.fa (elBits t ga j)) (elBits t ge (j / bl)) else valueOf F.fa (elBits t ga j)
    let bad (j : Nat) : Bool := elPres t ga j == .pois || (F.sca && elPres t ge (j / bl) == .pois)
    let scale (k : Nat) : Nat := chooseScale F.fd (((actives t q).filter fun j => j / bl == k && !bad j).map src)
    let y (j : Nat) : FVal := if F.scb then unscaled (src j) (scale (j / bl)) else src j
    let r (j : Nat) : FRes := convertTo F.fd (elemRnd t q j) (y j)
    let hard (j : Nat) : Bool := isF F.fd && (srcSubnormal F.fa (elBits t ga j) ||
      (match src j with | .fin _ m e => ((ffmtOf F.fd).getD fp32).below m e | _ => false))
    let i : Instr := .vfcvt c p d a b f
    present s x f → F.w < 2 ^ 27 → cvtPair F.fa F.fd = true → (F.sca = true → blockScalable F.fa = true) → (F.scb = true → blockScalable F.fd = true) →
    F.sca = q.ev → (F.sca = true ∨ F.scb = true → blk t ≠ 0) → (F.scb = true ↔ b ≠ 0) →
    GroupsOk (decide (ga.w < gd.w)) gd srcs → Settled t gd → (F.scb = true → GroupsOk (decide (ga.w < gd.w)) gb srcs ∧ Settled t gb) →
    (∀ j, computed t q j = true → Known t ga j ∧ (F.sca = true → Known t ge (j / bl)) ∧
      (bad j = false → hard j = false ∧ ¬ trapDue s x (r j).flags)) →
    Runs s x i → s.pipe x.core .a = [] →
    ∃ u v, WroteElems ((consumed s x q bad fun j => (r j).flags).drew x q) u x gd (written t q) (fun j => computed t q j && bad j)
        (elemValZ (zeroCode F.fd) t q bad fun j => (r j).code) ∧
      (F.scb = false → v = u) ∧
      (F.scb = true → WroteElems u v x gb (fun k => (actives t q).any fun j => j / bl == k) (fun _ => false) fun k => some (scale k)) ∧
      exec i s = .next (vecDone v s x i)

/-- R147, R94, R145: `vfwma` adds the product of two narrow elements with their block scales to a binary32 element with one rounding;
`vfclass` gives the class mask of R113 in an unsigned element. The model's own readings in it: log 19 (DEDUCED), log 24 (DESIGN
CHOICE). -/
def Obligations.WideningMultiplyAdd : Prop :=
  ∀ (s : State) (x : Ctx) (c : Ctl) (p : Option Pfx) (d a b e f : Reg),
    let t := s.thread x.core x.ctx
    let F : FWord := ⟨(s.scalar x f).toNat⟩
    let q := pfx p
    let bl := blockLen t
    let ga : Grp := ⟨a, codeWidth F.fa, t.vl.toNat⟩
    let gb : Grp := ⟨b, codeWidth F.fb, t.vl.toNat⟩
    let gd : Grp := ⟨d, codeWidth F.fd, t.vl.toNat⟩
    let ge := scaleGrp t q.e
    let gc := scaleGrp t e
    let ca (j : Nat) : Nat := if F.sca then elBits t ge (j / bl) else 127
    let cb (j : Nat) : Nat := if F.scb then elBits t gc (j / bl) else 127
    let prod (j : Nat) : Option FVal := scaledProduct F.fa F.fb (elBits t ga j) (elBits t gb j) (ca j) (cb j)
    let acc (j : Nat) : Nat := elBits t gd j
    let r (j : Nat) : FRes := wmaResult (elemRnd t q j) (prod j) (fp32.decode (acc j))
    let bad (j : Nat) : Bool := elPres t ga j == .pois || elPres t gb j == .pois || elPres t gd j == .pois ||
      (F.sca && elPres t ge (j / bl) == .pois) || (F.scb && elPres t gc (j / bl) == .pois)
    let hard (j : Nat) : Bool := fp32.subnormal (acc j) || (match prod j with | some v => sumHard fp32 v (fp32.decode (acc j)) | none => false)
    present s x f → F.w < 2 ^ 27 → Settled t gd →
    (isN F.fa = true → isN F.fb = true → F.fc = 0 → F.fd = 0 → (F.sca = true → blockScalable F.fa = true) →
      (F.scb = true → blockScalable F.fb = true) → F.sca = q.ev → (F.sca = true ∨ F.scb = true → blk t ≠ 0) → (F.scb = false → e = 0) →
      GroupsOk true gd (ga :: gb :: (if F.sca then [ge] else []) ++ if F.scb then [gc] else []) →
      (∀ j, computed t q j = true → Known t ga j ∧ Known t gb j ∧ (F.sca = true → Known t ge (j / bl)) ∧ (F.scb = true → Known t gc (j / bl)) ∧
        (bad j = false → hard j = false ∧ ¬ trapDue s x (r j).flags)) →
      GivesElems s ((consumed s x q bad fun j => (r j).flags).drew x q) x (.vfwma c p d a b e f) .a gd (written t q)
        (fun j => computed t q j && bad j) (elemVal t q bad fun j => (r j).code)) ∧
    (isF F.fa = true → F.fd = 0x13 ∨ F.fd = 0x15 → GroupsOk (decide (ga.w < gd.w)) gd [ga] → (∀ j, computed t q j = true → Known t ga j) →
      Elementwise s x (.vfclass c p d a f) q gd (fun j => elPres t ga j == .pois)
        (fun j => ((ffmtOf F.fa).getD fp32).classify (elBits t ga j)) fun _ => 0)

/-- R131, R142, R155, R156 on every element-wise instruction with elements of 16 bits or more: an element with a POISONED source is
POISONED; else one with a FAULTED source is FAULTED with the same slot; else one that is hard, or has a PENDING source, is PENDING and
has a record in the Mire, in element order: its place, PC, opcode, formats, mode, traps, and its operands as values or as links to
their records; the records that were there stay, or are superseded where their element is written (R162). A move (`vmerge`) has a move
record. The model's own readings in it: log 23 (DEDUCED). -/
def Obligations.HolesAndPresence : Prop :=
  ∀ (s : State) (x : Ctx) (c : Ctl) (p : Option Pfx) (d a b e f : Reg) (m : PReg) (k : Sgn),
    let t := s.thread x.core x.ctx
    let F : FWord := ⟨(s.scalar x f).toNat⟩
    let q := pfx p
    let n := t.vl.toNat
    let bl := blockLen t
    let mire := (s.core x.core).mire
    let grp (r : Reg) (c : BitVec 6) : Grp := ⟨r, codeWidth c, n⟩
    let ge := scaleGrp t q.e
    let gc := scaleGrp t e
    let ten (fl : W64) : Bool := fl &&& (trapEnables t.fctl).setWidth 64 != 0
    let src (g : Grp) (j : Nat) (v : MOpnd) : Prop := (elPres t g j = .pres → v = .val (BitVec.ofNat 64 (elBits t g j))) ∧
      (elPres t g j = .pend → 16 ≤ g.w → ∀ r : MireRec, (s.core x.core).recAt x.ctx (g.reg j) (halfIn t g j .pend) = some r →
        r.half = g.half j → r.width = g.halves → ∃ rest, v = .link r.id 0 0 g.w rest)
    -- `reads j` are the sources element `j` reads, `sp` says that a scale of it is POISONED, `hard` that its operation is hard or traps
    let rules (i : Instr) (o : Op) (fa fb fd : BitVec 6) (sop : BitVec 2) (strict move sat rounds : Bool) (srcs : List Grp)
        (reads : Nat → List Grp) (sp hard : Nat → Bool) : Prop :=
      let gd := grp d fd
      let any (k : Presence) (j : Nat) : Bool := (reads j).any fun g => elPres t g j == k
      let pois (j : Nat) : Bool := any .pois j || sp j
      let holes := (actives t q).filter fun j => !pois j && !any .flt j && (any .pend j || hard j)
      let overlap (r h w j : Nat) : Prop := j < n ∧ r = gd.reg j ∧ h < gd.half j + gd.halves ∧ gd.half j < h + w
      GroupsOk strict gd srcs → 16 ≤ gd.w →
      -- what is PENDING or FAULTED in D's registers has the places of D's elements, and every record and slot reference is one element's
      (∀ r ∈ mire, r.id < (s.core x.core).nextRec) →
      (∀ r ∈ mire, ∀ j, r.thr = x.ctx → r.superseded = false → overlap r.reg.toNat r.half r.width j → r.half = gd.half j ∧ r.width = gd.halves) →
      (∀ k sl, t.slots.getD k none = some sl → ∀ e ∈ sl.refs, ∀ j, overlap e.1.toNat e.2.1 e.2.2 j → e.2.1 = gd.half j ∧ e.2.2 = gd.halves ∧
        t.halfPres e.1.toNat e.2.1 = .flt ∧ ∀ l tl, t.slots.getD l none = some tl → ∀ g ∈ tl.refs, overlap g.1.toNat g.2.1 g.2.2 j → l = k) →
      (∀ j, ∀ g ∈ reads j, elPres t g j = .flt → ∃ k, t.slotAt (g.reg j) (halfIn t g j .flt) = some k) →
      mire.length + holes.length ≤ 512 → Runs s x i → s.pipe x.core .a = [] →
      ∃ u old recs, exec i s = .next (vecDone u s x i) ∧ SameMemory s u ∧ (u.core x.core).mire = old ++ recs ∧ recs.length = holes.length ∧
        old.map (fun r => { r with superseded := true }) = mire.map (fun r => { r with superseded := true }) ∧
        (∀ j, computed t q j = true →
          elPres (u.thread x.core x.ctx) gd j = (if pois j then .pois else if any .flt j then .flt else if j ∈ holes then .pend else .pres) ∧
          (pois j = false → any .flt j = true → (u.thread x.core x.ctx).slotAt (gd.reg j) (gd.half j) =
            ((reads j).find? fun g => elPres t g j == .flt).map fun g => elSlot t g j)) ∧
        ∀ (l j : Nat), holes[l]? = some j → ∃ r : MireRec, recs[l]? = some r ∧ r.thr = x.ctx ∧ r.pc = t.pc ∧ r.op = BitVec.ofNat 10 o.code ∧
          r.sop = sop ∧ r.elem = j ∧ r.reg.toNat = gd.reg j ∧ r.half = gd.half j ∧ r.width = gd.halves ∧ r.fa = fa ∧ r.fb = fb ∧ r.fd = fd ∧
          r.rm = (vecMode t q).code ∧ r.rnd = BitVec.ofNat 16 (if rounds then (elemRnd t q j).word else 0) ∧ r.ten = trapEnables t.fctl ∧
          r.sat = sat ∧ r.move = move ∧ r.superseded = false ∧ r.taken = false ∧ r.dead = false ∧ (any .pend j = false → r.chained = false) ∧
          (∀ h g, (reads j)[h]? = some g → src g j ([r.a, r.b, r.c].getD h .none)) ∧
          ∀ h, (reads j).length ≤ h → [r.a, r.b, r.c].getD h .none = .none
    let none' (_ : Nat) : Bool := false
    present s x f → F.w < 2 ^ 27 →
    -- integer instructions on A and B
    (isI F.fa = true → F.fb = F.fa → F.fd = F.fa →
      let gs := [grp a F.fa, grp b F.fa]
      let int (i : Instr) (o : Op) (sat : Bool) : Prop := rules i o F.fa F.fa F.fa 0 false false sat false gs (fun _ => gs) none' none'
      int (.vadd c p d a b f) .vadd F.sati ∧ int (.vsub c p d a b f) .vsub F.sati ∧ int (.vmul c p d a b f) .vmul F.sati ∧
      int (.vsadd c p d a b f) .vsadd false ∧ int (.vssub c p d a b f) .vssub false ∧ int (.vmulh c p d a b f) .vmulh false ∧
      int (.vdiv c p d a b f) .vdiv false ∧ int (.vrem c p d a b f) .vrem false ∧ int (.vmin c p d a b f) .vmin false ∧
      int (.vmax c p d a b f) .vmax false ∧ int (.vand c p d a b f) .vand false ∧ int (.vor c p d a b f) .vor false ∧
      int (.vxor c p d a b f) .vxor false ∧ int (.vshl c p d a b f) .vshl false ∧ int (.vshr c p d a b f) .vshr false ∧
      int (.vsra c p d a b f) .vsra false) ∧
    -- floating-point instructions of one format
    (isF F.fa = true → F.fd = F.fa →
      let ft := (ffmtOf F.fa).getD fp32
      let fp (i : Instr) (o : Op) (l : List Reg) (sop : BitVec 2) (rounds : Bool) : Prop :=
        let gs := l.map fun r => grp r F.fa
        let codes (j : Nat) : List Nat := gs.map fun g => elBits t g j
        (2 ≤ l.length → F.fb = F.fa) → (3 ≤ l.length → F.fc = F.fa) →
        rules i o F.fa (if 2 ≤ l.length then F.fa else 0) F.fa sop false false false rounds gs (fun _ => gs) none' fun j =>
          (rounds && ((codes j).any ft.subnormal || opHard o F.fa ft (vecMode t q) (codes j))) ||
            ten (fpResult o sop F.fa F.fa F.fa (codes j) 127 127 (if rounds then elemRnd t q j else ⟨vecMode t q, 0⟩)).flags
      fp (.vfadd c p d a b f) .vfadd [a, b] 0 true ∧ fp (.vfsub c p d a b f) .vfsub [a, b] 0 true ∧ fp (.vfmul c p d a b f) .vfmul [a, b] 0 true ∧
      fp (.vfdiv c p d a b f) .vfdiv [a, b] 0 true ∧ fp (.vfma c p d a b e f) .vfma [a, b, e] 0 true ∧
      fp (.vfnma c p d a b e f) .vfnma [a, b, e] 0 true ∧ fp (.vfrcp c p d a f) .vfrcp [a] 0 true ∧ fp (.vfsqrt c p d a f) .vfsqrt [a] 0 true ∧
      fp (.vfrsqrt c p d a f) .vfrsqrt [a] 0 true ∧ fp (.vfexp2 c p d a f) .vfexp2 [a] 0 true ∧ fp (.vflog2 c p d a f) .vflog2 [a] 0 true ∧
      fp (.vfsin c p d a f) .vfsin [a] 0 true ∧ fp (.vfcos c p d a f) .vfcos [a] 0 true ∧ fp (.vftanh c p d a f) .vftanh [a] 0 true ∧
      fp (.vfmin c p d a b f) .vfmin [a, b] 0 false ∧ fp (.vfmax c p d a b f) .vfmax [a, b] 0 false ∧
      fp (.vfsgn c p d a b f k) .vfsgn [a, b] (k.code.extractLsb' 3 2) false) ∧
    -- widening, conversions, merge, classification
    (isI32 F.fa = true → isI32 F.fb = true → codeWidth F.fa = codeWidth F.fb → F.fd = wideCode F.fa F.fb →
      let gs := [grp a F.fa, grp b F.fb]
      rules (.vwmul c p d a b f) .vwmul F.fa F.fb F.fd 0 true false false false gs (fun _ => gs) none' none' ∧
      (F.fc = F.fd → rules (.vwmacc c p d a b f) .vwmacc F.fa F.fb F.fd 0 true false F.sati false gs (fun _ => gs ++ [grp d F.fd]) none' none')) ∧
    (isI4 F.fa = true → isI4 F.fd = true →
      rules (.vcvt c p d a f) .vcvt F.fa 0 F.fd 0 (decide (codeWidth F.fa < codeWidth F.fd)) false F.sati false [grp a F.fa] (fun _ => [grp a F.fa])
        none' none') ∧
    (isX F.fa = true → F.fb = F.fa → F.fd = F.fa →
      rules (.vmerge c p d a b m f) .vmerge F.fa F.fa F.fa 0 false true false false [grp a F.fa, grp b F.fa]
        (fun j => if maskBit (maskReg t m) j then [grp a F.fa] else [grp b F.fa]) none' none') ∧
    (isF F.fa = true → F.fd = 0x13 ∨ F.fd = 0x15 →
      rules (.vfclass c p d a f) .vfclass F.fa 0 F.fd 0 (decide (codeWidth F.fa < codeWidth F.fd)) false false false [grp a F.fa]
        (fun _ => [grp a F.fa]) none' none') ∧
    -- `vfcvt` without result scaling, and `vfwma`: the scales they read are no holes
    (cvtPair F.fa F.fd = true → (F.sca = true → blockScalable F.fa = true ∧ blk t ≠ 0) → F.sca = q.ev → F.scb = false → b = 0 →
      (∀ j, computed t q j = true → F.sca = true → Known t ge (j / bl)) →
      let ga := grp a F.fa
      let v (j : Nat) : FVal := if F.sca then scaled (valueOf F.fa (elBits t ga j)) (elBits t ge (j / bl)) else valueOf F.fa (elBits t ga j)
      let fl (j : Nat) : W64 := (convertTo F.fd (elemRnd t q j) (v j)).flags
      let sp (j : Nat) : Bool := F.sca && elPres t ge (j / bl) == .pois
      (isF F.fd = false → ∀ j, computed t q j = true → elPres t ga j = .pres → sp j = false → ten (fl j) = false) →
      rules (.vfcvt c p d a b f) .vfcvt F.fa 0 F.fd 0 (decide (ga.w < codeWidth F.fd)) false F.sati true (ga :: if F.sca then [ge] else [])
        (fun _ => [ga]) sp fun j => isF F.fd && (srcSubnormal F.fa (elBits t ga j) || ten (fl j) ||
          (match v j with | .fin _ m e => ((ffmtOf F.fd).getD fp32).below m e | _ => false))) ∧
    (isN F.fa = true → isN F.fb = true → F.fc = 0 → F.fd = 0 → (F.sca = true → blockScalable F.fa = true ∧ blk t ≠ 0) →
      (F.scb = true → blockScalable F.fb = true ∧ blk t ≠ 0) → F.sca = q.ev → (F.scb = false → e = 0) →
      (∀ j, computed t q j = true → (F.sca = true → Known t ge (j / bl)) ∧ (F.scb = true → Known t gc (j / bl))) →
      let gs := [grp a F.fa, grp b F.fb]
      let ca (j : Nat) : Nat := if F.sca then elBits t ge (j / bl) else 127
      let cb (j : Nat) : Nat := if F.scb then elBits t gc (j / bl) else 127
      let prod (j : Nat) : Option FVal := scaledProduct F.fa F.fb (elBits t (grp a F.fa) j) (elBits t (grp b F.fb) j) (ca j) (cb j)
      let acc (j : Nat) : Nat := elBits t (grp d 0) j
      rules (.vfwma c p d a b e f) .vfwma F.fa F.fb 0 0 true false false true (gs ++ (if F.sca then [ge] else []) ++ if F.scb then [gc] else [])
        (fun _ => gs ++ [grp d 0]) (fun j => (F.sca && elPres t ge (j / bl) == .pois) || (F.scb && elPres t gc (j / bl) == .pois))
        fun j => fp32.subnormal (acc j) || ten (wmaResult (elemRnd t q j) (prod j) (fp32.decode (acc j))).flags ||
          (match prod j with | some v => sumHard fp32 v (fp32.decode (acc j)) | none => false))

/-! ## Permutes, reductions, witnesses -/

/-- R149 to R153, R131, R104: the moves of a whole group name the source element that a destination element takes, with its presence;
`vbcast` and `vins` write the low bits of s[A], or poison where s[A] is POISONED; `vext` writes element s[B] of A to s[D], an integer
extended by its format and another code in the low bits, 0 beyond VL, and poison where the element is POISONED. -/
def Obligations.Permutes : Prop :=
  (∀ (s : State) (x : Ctx) (c : Ctl) (p : Option Pfx) (d a b f : Reg) (m : PReg),
    let t := s.thread x.core x.ctx
    let F : FWord := ⟨(s.scalar x f).toNat⟩
    let q := pfx p
    let n := t.vl.toNat
    let k := (s.scalar x b).toNat
    let ga : Grp := ⟨a, codeWidth F.fa, n⟩
    let gb : Grp := ⟨b, codeWidth F.fb, n⟩
    let gd : Grp := ⟨d, codeWidth F.fa, n⟩
    let ge : Grp := ⟨d, codeWidth F.fd, n⟩
    let strip (c : BitVec 6) (v : Nat) : Nat := if c = 0x06 then v % 64 else v
    -- `dest j` is the source element of `j`; outside the source a zero is written, and where `w` is false nothing
    let moves (i : Instr) (w : Nat → Bool) (dest : Nat → Option Nat) : Prop :=
      (∀ j, j < n → w j = true → ∀ l, dest j = some l → Known t ga l) →
      GivesElems s s x i .x gd (fun j => decide (j < n) && w j) (fun j => match dest j with | some l => elPres t ga l == .pois | none => false)
        (fun j => some (match dest j with | some l => strip F.fa (elBits t ga l) | none => zeroCode F.fa))
    let on (j : Nat) : Bool := active t q j
    let sel := (List.range n).filter (maskBit (maskReg t m))
    let cast (i : Instr) (w act : Nat → Bool) : Prop := s.scalarPres x a = .pres ∨ s.scalarPres x a = .pois →
      GivesElems s (if s.scalarPres x a = .pois then ((List.range n).filter fun j => w j && act j).foldl (fun s j => s.setPmk x j) s else s) x i .x ge
        (fun j => decide (j < n) && w j) (fun j => act j && s.scalarPres x a == .pois)
        (fun j => if act j = false then some (zeroCode F.fd) else if s.scalarPres x a = .pois then none
          else some (strip F.fd ((s.scalar x a).toNat % 2 ^ codeWidth F.fd)))
    t.vstart = 0 → present s x f → F.w < 2 ^ 27 →
    (isX F.fa = true → F.fd = F.fa → GroupsOk true gd [ga] → Settled t gd →
      (present s x b →
        moves (.vslide c p d a b f false) (fun j => if on j then decide (k ≤ j) else q.zp) (fun j => if on j then some (j - k) else none) ∧
        moves (.vslide c p d a b f true) (fun j => on j || q.zp) (fun j => if on j && decide (j + k < n) then some (j + k) else none) ∧
        (k ≠ 0 → n % k = 0 → moves (.vreshape c p d a b f) (fun j => on j || q.zp)
          (fun j => if on j then some (j % (n / k) * k + j / (n / k)) else none))) ∧
      ((F.fb = 0x13 ∨ F.fb = 0x15) → GroupsOk true gd [ga, gb] → (∀ j, j < n → on j = true → Known t gb j ∧
          (elPres t gb j = .pres → elBits t gb j < n → Known t ga (elBits t gb j))) →
        let at' (j : Nat) : Option Nat := if on j && decide (elBits t gb j < n) then some (elBits t gb j) else none
        let lost (j : Nat) : Bool := on j && elPres t gb j == .pois
        GivesElems s (((List.range n).filter lost).foldl (fun s j => s.setPmk x j) s) x (.vperm c p d a b f) .x gd
          (fun j => decide (j < n) && (on j || q.zp)) (fun j => lost j || (match at' j with | some l => elPres t ga l == .pois | none => false))
          (fun j => if lost j then none else some (match at' j with | some l => strip F.fa (elBits t ga l) | none => zeroCode F.fa))) ∧
      moves (.vcompress c p d a m f) (fun j => decide (j < sel.length) || q.zp) (fun j => sel[j]?) ∧
      moves (.vexpand c p d a m f) (fun j => maskBit (maskReg t m) j || q.zp)
        (fun j => if maskBit (maskReg t m) j then some (sel.filter (· < j)).length else none)) ∧
    (isX F.fd = true → GroupsOk true ge [] → Settled t ge →
      cast (.vbcast c p d a f) (fun j => on j || q.zp) on ∧
      (present s x b → cast (.vins c p d a b f) (fun j => decide (j = k)) fun _ => true))) ∧
  (∀ (s : State) (x : Ctx) (c : Ctl) (p : Option Pfx) (d a b f : Reg),
    let t := s.thread x.core x.ctx
    let F : FWord := ⟨(s.scalar x f).toNat⟩
    let k := (s.scalar x b).toNat
    let w := codeWidth F.fa
    let ga : Grp := ⟨a, w, t.vl.toNat⟩
    let v := elBits t ga k
    let i : Instr := .vext c p d a b f
    let out : W64 := if t.vl.toNat ≤ k then 0 else if isI4 F.fa then
        (if F.fa.toNat % 2 = 0 then (BitVec.ofNat w v).signExtend 64 else BitVec.ofNat 64 v)
      else BitVec.ofNat 64 (if F.fa = 0x06 then v % 64 else v)
    t.vstart = 0 → present s x f → present s x b → F.w < 2 ^ 27 → isX F.fa = true → ga.base.toNat % ga.size = 0 → ga.len * ga.w ≤ 65536 →
    (k < t.vl.toNat → Known t ga k) → Runs s x i → s.pipe x.core .x = [] →
    ∃ u, exec i s = .next (vecDone u s x i) ∧ SameMemory s u ∧
      (if k < t.vl.toNat ∧ elPres t ga k = .pois then RegFrame (s.setPmk x 0) u x [d] ∧ u.scalarPres x d = .pois
       else RegFrame s u x [d] ∧ u.scalar x d = out ∧ present u x d))

/-- R154, R100, R101, R99: the plain reductions write element 0 of D: in floating point the root of the tree over the active elements,
inactive ones being the identity, a NaN canonical and NV raised for a signalling one that meets no node (R83, R84); in integers the
exact result of the active elements, delivered under R86. A POISONED active element makes element 0 POISONED. VL 0 writes nothing. The
model's own readings in it: log 49 (DESIGN CHOICE). -/
def Obligations.Reductions : Prop :=
  ∀ (s : State) (x : Ctx) (c : Ctl) (p : Option Pfx) (d a f : Reg) (i : Instr) (k : Red) (sat : Bool),
    let t := s.thread x.core x.ctx
    let F : FWord := ⟨(s.scalar x f).toNat⟩
    let q := pfx p
    let n := t.vl.toNat
    let ga : Grp := ⟨a, codeWidth F.fa, n⟩
    let gd : Grp := ⟨d, codeWidth F.fd, 1⟩
    let ft := (ffmtOf F.fa).getD fp32
    let bad := (actives t q).any fun j => elPres t ga j == .pois
    let leaf (j : Nat) : TNode := if j < n ∧ active t q j then (elBits t ga j, elPres t ga j == .pois) else (k.identity ft, false)
    let root := treeReduce (k.node ft) (vecMode t q) (k == .sum) n leaf t.srstate
    let vals : List Int := (actives t q).map fun j =>
      if F.fa.toNat % 2 = 0 then (BitVec.ofNat ga.w (elBits t ga j)).toInt else (elBits t ga j : Int)
    let lo : Int := if F.fd.toNat % 2 = 0 then -(2 ^ (gd.w - 1)) else 0
    let hi : Int := if F.fd.toNat % 2 = 0 then 2 ^ (gd.w - 1) - 1 else 2 ^ gd.w - 1
    let sum := vals.foldl (· + ·) 0
    let clip := sat || (k == .sum && F.sati)
    let first (v : State) (bad : Bool) (code : Nat) : Prop := GivesElems s v x i .a gd (fun j => decide (j = 0)) (fun _ => bad)
      fun _ => if bad then none else some code
    (i, k, sat) ∈ ([(.vrsum c p d a f, .sum, false), (.vrmax c p d a f, .max, false), (.vrmin c p d a f, .min, false),
      (.vrssum c p d a f, .sum, true)] : List (Instr × Red × Bool)) →
    t.vstart = 0 → present s x f → F.w < 2 ^ 27 → ga.base.toNat % ga.size = 0 → ga.len * ga.w ≤ 65536 → Settled t gd →
    (∀ j ∈ actives t q, Known t ga j) →
    (isF F.fa = true → sat = false → F.fd = F.fa → 0 < n →
      let top := ft.decode root.1.1
      let fl := if top.isSig && !root.1.2 then root.2.2 ||| flagNV else root.2.2
      ¬ trapDue s x fl →
      first ((if root.1.2 then s.setPmk x 0 else s).modThread x.core x.ctx fun t =>
        { t with srstate := root.2.1, istat := t.istat ||| fl }) root.1.2 (if top.isNan then ft.nan else root.1.1)) ∧
    (isI F.fa = true → isI F.fd = true → F.fa.toNat % 2 = F.fd.toNat % 2 → codeWidth F.fa ≤ codeWidth F.fd → 0 < n →
      (bad = true → first (s.setPmk x 0) true 0) ∧
      (bad = false → k = .sum → first (if clip ∧ ¬ (lo ≤ sum ∧ sum ≤ hi) then s.raiseFlags x flagISAT else s) false
        ((if clip then max lo (min hi sum) else sum) % 2 ^ gd.w).toNat) ∧
      (bad = false → k ≠ .sum → actives t q = [] → first s false ((if k = .max then lo else hi) % 2 ^ gd.w).toNat) ∧
      (bad = false → k ≠ .sum → ∀ v ∈ vals, (∀ e ∈ vals, if k = .max then e ≤ v else v ≤ e) → first s false (v % 2 ^ gd.w).toNat)) ∧
    ((isF F.fa = true ∧ sat = false ∧ F.fd = F.fa ∨ isI F.fa = true ∧ F.fd = F.fa) → n = 0 →
      GivesElems s s x i .a gd (fun _ => false) (fun _ => false) fun _ => none)

/-- R190 to R195: a witness reduction whose groups have no POISONED active element writes the result of each group with a contributor
to D, 0 under ZP in the others, and the entries of all groups, packed, to the register B. -/
def Obligations.WitnessReductions : Prop :=
  ∀ (s : State) (x : Ctx) (c : Ctl) (p : Option Pfx) (d a b e f : Reg) (tie : Tie) (lg : BitVec 3),
    let t := s.thread x.core x.ctx
    let F : FWord := ⟨(s.scalar x f).toNat⟩
    let q := pfx p
    let n := t.vl.toNat
    let G := 2 ^ lg.toNat
    let ga : Grp := ⟨a, codeWidth F.fa, n⟩
    let gives (i : Instr) (G eb : Nat) (res : List Nat → (Nat → Nat) → WRes) : Prop :=
      let gd : Grp := ⟨d, codeWidth F.fd, n / G⟩
      let r (j : Nat) : WRes := res ((List.range G).filter fun k => active t q (j * G + k)) fun k => elBits t ga (j * G + k)
      let sig : W64 := if isF F.fa && (actives t q).any (fun j => (valueOf F.fa (elBits t ga j)).isSig) then flagNV else 0
      let fl := (List.range (n / G)).foldl (fun f j => f ||| (((r j).out.map (·.2)).getD 0)) sig
      0 < n → n % G = 0 → n / G * eb ≤ 8192 → (∀ g ∈ [ga, gd], g.base.toNat % g.size = 0 ∧ g.len * g.w ≤ 65536) →
      ([gd, ga, ⟨b, 16, 1⟩] : List Grp).Pairwise (fun g h => g.meets h = false) → Settled t gd → Settled t ⟨b, 16, 512⟩ →
      ¬ trapDue s x fl → Runs s x i → s.pipe x.core .a = [] →
      ∃ u v, WroteElems (s.raiseFlags x fl) u x ⟨b, 16, 512⟩ (fun h => decide (h * 16 < n / G * eb)) (fun _ => false)
          (fun h => some (bits ((List.range (n / G)).foldr (fun j m => (r j).entry + 2 ^ eb * m) 0) (16 * h) 16)) ∧
        WroteElems u v x gd (fun j => decide (j < n / G) && ((r j).out.isSome || q.zp)) (fun _ => false)
          (fun j => some (((r j).out.map (·.1)).getD 0)) ∧ exec i s = .next (vecDone v s x i)
    let lo := (s.scalar x e).toNat % 2 ^ codeWidth F.fa
    let hi := (s.scalar x (e + 1)).toNat % 2 ^ codeWidth F.fa
    t.vstart = 0 → present s x f → F.w < 2 ^ 27 → (∀ j ∈ actives t q, elPres t ga j = .pres) →
    ((isF F.fa = true ∨ isI F.fa = true) → F.fd = F.fa →
      gives (.vrmaxw c p d a b f tie lg) G (if tie = .split then G else 8) (extremeW true tie F.fa) ∧
      gives (.vrminw c p d a b f tie lg) G (if tie = .split then G else 8) (extremeW false tie F.fa) ∧
      gives (.vrmedw c p d a b f tie lg) G 8 (medianW F.fa) ∧
      (present s x e → present s x (e + 1) → codeNan F.fa lo = false → codeNan F.fa hi = false → ordCmp F.fa lo hi ≤ 0 →
        gives (.vclampw c p d a b e f) 1 2 (clampW F.fa lo hi))) ∧
    (isI F.fa = true → isI F.fd = true → F.fa.toNat % 2 = F.fd.toNat % 2 → codeWidth F.fa ≤ codeWidth F.fd →
      gives (.vrssumw c p d a b f tie lg) G 2 (satSumW F.fa F.fd))

/-- R192 to R194 on what the witness results mean: a maximum or minimum is a contributor that no other exceeds, its entry names the
first or last such contributor, with a bit for a tie, or all of them; a median has half the others, rounded down, before it in the
sorted order; a saturated sum names the bound it met. -/
def Obligations.WitnessEntries : Prop :=
  ∀ (fa fd : BitVec 6) (cs : List Nat) (a : Nat → Nat) (big : Bool) (tie : Tie),
    let sgn (k j : Nat) : Int := if big then ordCmp fa (a k) (a j) else -ordCmp fa (a k) (a j)
    cs ≠ [] → cs.Pairwise (· < ·) → (∀ k ∈ cs, k < 64 ∧ codeNan fa (a k) = false ∧ a k < 2 ^ codeWidth fa) → (isF fa = true ∨ isI fa = true) →
    (∃ k ∈ cs, (extremeW big tie fa cs a).out = some (a k, 0) ∧ (∀ j ∈ cs, sgn j k ≤ 0) ∧
      (tie = .split → ∀ j, j < 64 → (bit (extremeW big tie fa cs a).entry j = true ↔ j ∈ cs ∧ sgn j k = 0)) ∧
      (tie ≠ .split → ∃ l ∈ cs, sgn l k = 0 ∧ (∀ j ∈ cs, sgn j k = 0 → if tie = .last then j ≤ l else l ≤ j) ∧
        (extremeW big tie fa cs a).entry = l + (if ∃ j ∈ cs, j ≠ l ∧ sgn j k = 0 then 0x40 else 0))) ∧
    (∃ j ∈ cs, (medianW fa cs a).out = some (a j, 0) ∧ (medianW fa cs a).entry % 64 = j ∧
      (cs.filter fun k => sortedBefore fa a k j).length = (cs.length - 1) / 2) ∧
    (isI fa = true → isI fd = true → let v := (cs.map fun k => (intFmt fa).val (a k)).sum
      (satSumW fa fd cs a).entry = if (intFmt fd).hi < v then 1 else if v < (intFmt fd).lo then 2 else 0)

/-! ## Vector memory -/

/-- R225, R226, R229: the vector loads. Field `f` of computed element `i` gets the `mw` bits from bit `sh` of the little-endian bytes
of its accesses, and is POISONED where one of them is; nothing else changes. The model's own readings in it: log 7 (DEDUCED), log 25
(DEDUCED). -/
def Obligations.VectorLoads : Prop :=
  ∀ (s : State) (x : Ctx) (c : Ctl) (p : Option Pfx) (d a b : Reg) (k : Size) (kv : VW) (i64 : Bool) (nf : BitVec 3) (off : BitVec 48)
    (at' : W64 → Loc),
    let t := s.thread x.core x.ctx
    let q := pfx p
    let n := t.vl.toNat
    let ea := s.scalar x a + off.signExtend 64
    let w := 8 * sizeBytes k
    let ix : Grp := ⟨b, if i64 then 64 else 32, n⟩
    let gives (i : Instr) (gs : List Grp) (mw : Nat) (sh : Nat → Nat) (acc : Nat → Nat → List (W64 × Nat)) : Prop :=
      let read (f j : Nat) : List (List Byte × Bool) := (acc f j).map fun e => readLoc s (at' e.1) e.2
      let bad (f j : Nat) : Bool := (read f j).any (·.2)
      (∀ g ∈ gs, g.base.toNat % g.size = 0 ∧ g.len * g.w ≤ 65536 ∧ Settled t g) → t.hostAcc = none →
      AllReach s x false (fun e => ∃ f j, f < gs.length ∧ computed t q j = true ∧ e ∈ acc f j) at' →
      Runs s x i → s.pipe x.core .m = [] → ∃ u, exec i s = .next (vecDone u s x i) ∧ SameMemory s u ∧
        RegFrame (consumed s x q (fun j => (List.range gs.length).any fun f => bad f j) fun _ => 0) u x (gs.flatMap fun g => regRun g.base g.size) ∧
        ∀ (f : Nat) (g : Grp), gs[f]? = some g → ElemsOf t (u.thread x.core x.ctx) g (8192 * g.size) (written t q)
          (fun j => computed t q j && bad f j)
          (elemValZ (if mw = 6 then 0x10 else 0) t q (bad f) fun j => leNat ((read f j).flatMap (·.1)) / 2 ^ sh j % 2 ^ mw)
    present s x a →
    (let mw := match kv with | .b => 8 | .h => 16 | .w => 32 | .d => 64 | .n => 4 | .l6 => 6
     let g : Grp := ⟨d, if mw = 6 then 8 else mw, n⟩
     gives (.vld c p d a kv off) [g] mw (fun j => j * mw % 8) fun _ j =>
       if mw < 8 then (List.range ((j * mw + mw - 1) / 8 - j * mw / 8 + 1)).map fun r => (ea + BitVec.ofNat 64 (j * mw / 8 + r), 1)
       else [(ea + BitVec.ofNat 64 (j * (mw / 8)), mw / 8)]) ∧
    (present s x b → gives (.vlds c p d a b k off) [⟨d, w, n⟩] w (fun _ => 0)
      fun _ j => [(ea + BitVec.ofNat 64 j * s.scalar x b, w / 8)]) ∧
    (GroupsOk true ⟨d, w, n⟩ [ix] → (∀ j, computed t q j = true → elPres t ix j = .pres) →
      gives (.vldx c p d a b k i64 off) [⟨d, w, n⟩] w (fun _ => 0) fun _ j => [(ea + BitVec.ofNat 64 (elBits t ix j), w / 8)]) ∧
    (let z := (⟨d, w, n⟩ : Grp).size
     d.toNat + (nf.toNat + 1) * z ≤ 64 →
      gives (.vldseg c p d a k nf off) ((List.range (nf.toNat + 1)).map fun f => ⟨d + BitVec.ofNat 6 (f * z), w, n⟩) w (fun _ => 0)
        fun f j => [(ea + BitVec.ofNat 64 ((j * (nf.toNat + 1) + f) * (w / 8)), w / 8)])

/-- R225, R227, R229, R93: the vector stores. Where several elements store to one byte, the last in element and field order stays.
Elements narrower than a byte change only their bits, and bits past the last element of an LNS6 run are written 0. Every other byte of
memory, and every register, is the same. The model's own readings in it: log 7 (DEDUCED), log 25 (DEDUCED). -/
def Obligations.VectorStores : Prop :=
  ∀ (s : State) (x : Ctx) (c : Ctl) (p : Option Pfx) (d a b : Reg) (k : Size) (kv : VW) (i64 : Bool) (nf : BitVec 3) (off : BitVec 48)
    (at' : W64 → Loc),
    let t := s.thread x.core x.ctx
    let q := pfx p
    let n := t.vl.toNat
    let ea := s.scalar x a + off.signExtend 64
    let w := 8 * sizeBytes k
    let ix : Grp := ⟨b, if i64 then 64 else 32, n⟩
    let ok (gs : List Grp) (i : Instr) : Prop := (∀ g ∈ gs, g.base.toNat % g.size = 0 ∧ g.len * g.w ≤ 65536) ∧
      (∀ g ∈ gs, ∀ j, computed t q j = true → Known t g j) ∧ t.hostAcc = none ∧ s.memOk = true ∧ Runs s x i ∧ s.pipe x.core .m = []
    let gives (i : Instr) (gs : List Grp) (w : Nat) (adr : Nat → Nat → W64) : Prop :=
      let covers (f j r : Nat) (l : Loc) : Prop := f < gs.length ∧ computed t q j = true ∧ r < w / 8 ∧ (at' (adr f j)).add r = l
      ok gs i → AllReach s x true (fun e => ∃ f j, f < gs.length ∧ computed t q j = true ∧ e = (adr f j, w / 8)) at' →
      ∃ u, exec i s = .next (vecDone u s x i) ∧ RegFrame s u x [] ∧ (∀ l, (∀ f j r, ¬ covers f j r l) → byteAt u l = byteAt s l) ∧
        ∀ f j r l, covers f j r l → (∀ f' j' r', covers f' j' r' l → j' < j ∨ (j' = j ∧ f' ≤ f)) →
          byteAt u l = BitVec.ofNat 8 (elBits t (gs.getD f default) j / 256 ^ r)
    present s x a →
    (∀ mw ∈ [8, 16, 32, 64], mw = (match kv with | .b => 8 | .h => 16 | .w => 32 | .d => 64 | .n => 4 | .l6 => 6) →
      gives (.vst c p d a kv off) [⟨d, mw, n⟩] mw fun _ j => ea + BitVec.ofNat 64 (j * (mw / 8))) ∧
    (present s x b → gives (.vsts c p d a b k off) [⟨d, w, n⟩] w fun _ j => ea + BitVec.ofNat 64 j * s.scalar x b) ∧
    ((∀ g ∈ [(⟨d, w, n⟩ : Grp), ix], g.base.toNat % g.size = 0 ∧ g.len * g.w ≤ 65536) → (∀ j, computed t q j = true → elPres t ix j = .pres) →
      gives (.vstx c p d a b k i64 off) [⟨d, w, n⟩] w fun _ j => ea + BitVec.ofNat 64 (elBits t ix j)) ∧
    (let z := (⟨d, w, n⟩ : Grp).size
     d.toNat + (nf.toNat + 1) * z ≤ 64 →
      gives (.vstseg c p d a k nf off) ((List.range (nf.toNat + 1)).map fun f => ⟨d + BitVec.ofNat 6 (f * z), w, n⟩) w
        fun f j => ea + BitVec.ofNat 64 ((j * (nf.toNat + 1) + f) * (w / 8))) ∧
    (∀ mw, (kv = .n ∧ mw = 4 ∨ kv = .l6 ∧ mw = 6) →
      let i : Instr := .vst c p d a kv off
      let g : Grp := ⟨d, if mw = 6 then 8 else mw, n⟩
      let byte (j : Nat) : Loc := at' (ea + BitVec.ofNat 64 j)
      let mine (j : Nat) : Prop := ∃ e r, computed t q e = true ∧ r < mw ∧ (e * mw + r) / 8 = j
      ok [g] i → AllReach s x true (fun e => ∃ j, mine j ∧ e = (ea + BitVec.ofNat 64 j, 1)) at' →
      (∀ j l, mine j → mine l → byte j = byte l → j = l) →
      ∃ u, exec i s = .next (vecDone u s x i) ∧ RegFrame s u x [] ∧ (∀ l, (∀ j, mine j → byte j ≠ l) → byteAt u l = byteAt s l) ∧
        (∀ e r, computed t q e = true → r < mw →
          (byteAt u (byte ((e * mw + r) / 8))).getLsbD ((e * mw + r) % 8) = (elBits t g e).testBit r) ∧
        ∀ j r, mine j → r < 8 → computed t q ((8 * j + r) / mw) = false →
          (byteAt u (byte j)).getLsbD r = (!(mw == 6 && decide (6 * n ≤ 8 * j + r)) && (byteAt s (byte j)).getLsbD r))

/-- R134, R135: `vspill` stores the bytes of its elements and, after them, two presence bits for each half-slot, all 1 where an element
is POISONED and 0 where it is PRESENT; `vfill` reads both back: an element whose presence bits are not all 0 is POISONED. The model's
own readings in it: log 7 (DEDUCED), log 26 (DEDUCED). -/
def Obligations.SpillFrames : Prop :=
  ∀ (s : State) (x : Ctx) (c : Ctl) (d a : Reg) (k : Size) (off : BitVec 48) (at' : W64 → Loc),
    let t := s.thread x.core x.ctx
    let n := t.vl.toNat
    let ea := s.scalar x a + off.signExtend 64
    let w := 8 * sizeBytes k
    let g : Grp := ⟨d, w, n⟩
    let on (j : Nat) : Prop := startOf t ≤ j ∧ j < n
    let data (j : Nat) : W64 := ea + BitVec.ofNat 64 (j * (w / 8))
    let code (j : Nat) : W64 := ea + BitVec.ofNat 64 ((n * w / 8 + 63) / 64 * 64 + j * w / 64)
    let lo (j : Nat) : Nat := 2 * (j * w / 16 % 4)
    let cnt : Nat := if w < 16 then 2 else w / 8
    let acc (e : W64 × Nat) : Prop := ∃ j, on j ∧ (e = (data j, w / 8) ∨ e = (code j, 1))
    present s x a → ea.toNat % 64 = 0 → g.base.toNat % g.size = 0 → g.len * g.w ≤ 65536 → t.hostAcc = none → s.pipe x.core .m = [] →
    (Runs s x (.vspill c d a k off) → (∀ j, on j → Known t g j) → s.memOk = true → AllReach s x true acc at' →
      (∀ e f i j, acc e → acc f → i < e.2 → j < f.2 → (at' e.1).add i = (at' f.1).add j → e.1 + BitVec.ofNat 64 i = f.1 + BitVec.ofNat 64 j) →
      ∃ u, exec (.vspill c d a k off) s = .next (vecDone u s x (.vspill c d a k off)) ∧ RegFrame s u x [] ∧
        (∀ j, on j → elPres t g j = .pres → ∀ r, r < w / 8 → byteAt u ((at' (data j)).add r) = BitVec.ofNat 8 (elBits t g j / 256 ^ r)) ∧
        (∀ j, on j → (byteAt u (at' (code j))).toNat / 2 ^ lo j % 2 ^ cnt = if elPres t g j = .pois then 2 ^ cnt - 1 else 0) ∧
        ∀ l, (∀ e r, acc e → r < e.2 → (at' e.1).add r ≠ l) → byteAt u l = byteAt s l) ∧
    (Runs s x (.vfill c d a k off) → Settled t g → AllReach s x false acc at' →
      let dead (j : Nat) : Bool := (readLoc s (at' (data j)) (w / 8)).2 || (readLoc s (at' (code j)) 1).2
      let bad (j : Nat) : Bool := dead j || decide ((byteAt s (at' (code j))).toNat / 2 ^ lo j % 2 ^ cnt ≠ 0)
      ∃ u, exec (.vfill c d a k off) s = .next (vecDone u s x (.vfill c d a k off)) ∧ SameMemory s u ∧
        RegFrame (consumed s x {} bad fun _ => 0) u x (regRun d g.size) ∧
        ElemsOf t (u.thread x.core x.ctx) g (n * w) (fun j => decide (startOf t ≤ j) && decide (j < n)) bad
          fun j => if dead j then none else some (bytesAt s (at' (data j)) (w / 8)))

/-- R230, R231, R96: block records. Record `r` has 1,024 elements packed in their memory width, transposed where the instruction says
so, a scale byte, and zeros. `vldmx` reads the elements and the scales of its records, `vstmx` writes whole records. The model's own
readings in it: log 7 (DEDUCED), log 27 (DEDUCED). -/
def Obligations.BlockRecords : Prop :=
  ∀ (s : State) (x : Ctx) (c : Ctl) (p : Option Pfx) (d a b e f : Reg) (tr : Bool) (at' : W64 → Loc) (mw : Nat),
    let t := s.thread x.core x.ctx
    let q := pfx p
    let n := t.vl.toNat
    let F : FWord := ⟨(s.scalar x f).toNat⟩
    let adr (r : Nat) : W64 := s.scalar x a + BitVec.ofNat 64 r * s.scalar x b
    let recs : List Nat := (List.range (n / 1024)).filter fun r => decide (startOf t / 1024 ≤ r)
    let byte (r j : Nat) : Loc := (at' (adr r + BitVec.ofNat 64 (64 * (j / 64)))).add (j % 64)
    let pos (k : Nat) : Nat := if tr then 32 * (k % 32) + k / 32 else k
    let acc (e : W64 × Nat) : Prop := ∃ r ∈ recs, ∃ j, j < 2 * mw + 1 ∧ e = (adr r + BitVec.ofNat 64 (64 * j), 64)
    let is (fmt : BitVec 6) : Prop := (fmt = 3 ∨ fmt = 4) ∧ mw = 8 ∨ fmt = 5 ∧ mw = 4 ∨ fmt = 6 ∧ mw = 6
    let g : Grp := ⟨d, if mw = 6 then 8 else mw, n⟩
    let gs : Grp := ⟨e, 8, n / 1024⟩
    t.vtype = 2 → n = 0 ∨ n = 1024 ∨ n = 2048 → t.vstart.toNat % 1024 = 0 → present s x f → present s x a → present s x b → F.w < 2 ^ 27 →
    (s.scalar x a).toNat % 64 = 0 → (s.scalar x b).toNat % 64 = 0 → g.base.toNat % g.size = 0 → g.meets ⟨e, 8, 1⟩ = false → s.pipe x.core .m = [] →
    (Runs s x (.vldmx c p d a b e f tr) → is F.fd → Settled t g → Settled t gs → AllReach s x false acc at' →
      let place (i : Nat) : Nat := pos (i % 1024) * mw
      let bytes (i : Nat) : List Loc := (List.range ((place i + mw - 1) / 8 - place i / 8 + 1)).map fun j => byte (i / 1024) (place i / 8 + j)
      let bad (i : Nat) : Bool := (bytes i).any fun l => (readLoc s l 1).2
      let sbad (r : Nat) : Bool := (readLoc s (byte r (128 * mw)) 1).2
      ∃ u, exec (.vldmx c p d a b e f tr) s = .next (vecDone u s x (.vldmx c p d a b e f tr)) ∧ SameMemory s u ∧
        RegFrame ((recs.filter sbad).foldl (fun s r => s.setPmk x r) (consumed s x q bad fun _ => 0)) u x (e :: regRun d g.size) ∧
        ElemsOf t (u.thread x.core x.ctx) g (8192 * g.size) (written t q) (fun i => computed t q i && bad i)
          (elemValZ (if mw = 6 then 0x10 else 0) t q bad fun i => leNat ((bytes i).map (byteAt s)) / 2 ^ (place i % 8) % 2 ^ mw) ∧
        ElemsOf t (u.thread x.core x.ctx) gs 8192 (fun r => recs.contains r) sbad
          fun r => if sbad r then none else some (byteAt s (byte r (128 * mw))).toNat) ∧
    (Runs s x (.vstmx c p d a b e f tr) → is F.fa → (n = 2048 → 128 * mw + 64 ≤ (s.scalar x b).toInt.natAbs) →
      (∀ r ∈ recs, Known t gs r ∧ ∀ k, k < 1024 → Known t g (1024 * r + k)) → s.memOk = true → AllReach s x true acc at' →
      (∀ r ∈ recs, midRecord s ((List.range (2 * mw + 1)).map fun j => (at' (adr r + BitVec.ofNat 64 (64 * j)), 64)) = false) →
      (∀ r ∈ recs, ∀ r' ∈ recs, ∀ j j', j < 128 * mw + 64 → j' < 128 * mw + 64 → byte r j = byte r' j' → r = r' ∧ j = j') →
      ∃ u, exec (.vstmx c p d a b e f tr) s = .next (vecDone u s x (.vstmx c p d a b e f tr)) ∧ RegFrame s u x [] ∧
        (∀ r ∈ recs, (∀ k m, k < 1024 → m < mw →
            (byteAt u (byte r ((k * mw + m) / 8))).getLsbD ((k * mw + m) % 8) = (elBits t g (1024 * r + pos k)).testBit m) ∧
          byteAt u (byte r (128 * mw)) = BitVec.ofNat 8 (elBits t gs r) ∧ ∀ j, j < 63 → byteAt u (byte r (128 * mw + 1 + j)) = 0) ∧
        ∀ l, (∀ r ∈ recs, ∀ j, j < 128 * mw + 64 → byte r j ≠ l) → byteAt u l = byteAt s l)

/-- R196: `vwhdr` writes to register D the descriptor, the stamp that the buffer has or will have, the buffer's number, and zeros. R197
to R200: `vadjb` gives each active element the gradient of its group's result, divided among the contributors that the witness names,
or 0, or adds it to D; no operand is POISONED. -/
def Obligations.HeadersAndAdjoint : Prop :=
  ∀ (s : State) (x : Ctx) (c : Ctl) (p : Option Pfx) (d a b e f : Reg) (acc : Bool) (tk : Task) (g : Inst) (buf : Buf) (ds : Desc) (num : Nat),
    let t := s.thread x.core x.ctx
    let q := pfx p
    let n := t.vl.toNat
    let F : FWord := ⟨(s.scalar x f).toNat⟩
    let head (k : Nat) : Nat := ((t.word e.toNat k).bits).toNat
    let stamp := head 1 % 2 ^ 32
    let outs : List Nat := (g.nodes[tk.node]?.map fun k => k.outs).getD []
    let G := 2 ^ ds.logg
    let eb := if ds.kind = 1 then 8 else if ds.kind = 2 then G else 2
    let ga : Grp := ⟨a, codeWidth F.fa, ds.count⟩
    let gd : Grp := ⟨d, codeWidth F.fa, n⟩
    let gb : Grp := ⟨b, 16, 512⟩
    let entry (j : Nat) : Nat := (List.range eb).foldl (fun v r =>
      v + if (elBits t gb ((j * eb + r) / 16)).testBit ((j * eb + r) % 16) then 2 ^ r else 0) 0
    let share (i : Nat) : Option Nat := shareOf ds.kind (entry (i / G)) (i % G)
    let ft := (ffmtOf F.fa).getD fp32
    let val (h : Grp) (i : Nat) : FVal := ft.decode (elBits t h i)
    let r (i : Nat) : FRes := match share i with
      | none => ⟨0, 0⟩
      | some k => if acc then addShare ft (elemRnd t q i) (val gd i) (val ga (i / G)) k
        else if k = 1 then ft.deliver false (elemRnd t q i) (val ga (i / G)) else ft.div (elemRnd t q i) (val ga (i / G)) (.fin false k 0)
    let all := (actives t q).foldl (fun f i => f ||| (r i).flags) 0
    t.vstart = 0 → t.task = some tk → instOf s x = some (tk, g) → g.bufs[num]? = some buf →
    (present s x a → present s x b → Desc.parse (s.scalar x a).toNat ≠ none → s.scalar x b = BitVec.ofNat 64 num → num < 2 ^ 16 →
      Settled t ⟨d, 64, 128⟩ → GivesElems s s x (.vwhdr c d a b) .a ⟨d, 64, 128⟩ (fun k => decide (k < 8)) (fun _ => false) fun k => some (
        if k = 0 then (s.scalar x a).toNat
        else if k = 1 then (if buf.full then buf.gen else buf.gen + 1).toNat + num * 2 ^ 32 else 0)) ∧
    (present s x f → F.w < 2 ^ 27 → isF F.fa = true → F.fd = F.fa → (∀ h, h < 32 → t.halfPres e.toNat h = .pres) → Desc.parse (head 0) = some ds →
      head 1 / 2 ^ 32 = num → num < 2 ^ 16 → (∀ k, 2 ≤ k → k < 8 → head k = 0) → n = ds.count * G →
      (∀ h ∈ [gd, ga], h.base.toNat % h.size = 0 ∧ h.len * h.w ≤ 65536) →
      ([gd, ga, ⟨b, 16, 1⟩, ⟨e, 16, 1⟩] : List Grp).Pairwise (fun h k => h.meets k = false) →
      (if buf.full then buf.gen.toNat = stamp else num ∈ outs ∧ (buf.gen + 1).toNat = stamp) → Settled t gd →
      (∀ i, computed t q i = true → (∀ h, h < 512 → elPres t gb h = .pres) ∧ elPres t ga (i / G) = .pres ∧ elPres t gd i = .pres) →
      ¬ trapDue s x all →
      GivesElems s ((s.raiseFlags x all).drew x q) x (.vadjb c p d a b e f acc) .a gd
        (fun i => written t q i && !(acc && active t q i && (share i).isNone)) (fun _ => false)
        fun i => some (if active t q i then (r i).code else 0))

/-! ## Settling, presence, hole records -/

/-- R169 to R172: `vsettle` goes on when no hole and no held fault slot is in its reach; with a hole it waits, and otherwise the oldest
due slot is delivered; `vpres` writes a mask of the elements in a state; `mpoison` makes the elements of a mask POISONED with their
bits. The model's own readings in it: log 16 (DESIGN CHOICE), log 49 (DESIGN CHOICE). -/
def Obligations.SettleAndPoison : Prop :=
  ∀ (s : State) (x : Ctx) (c : Ctl) (a d : Reg) (m : PReg) (k : Reach) (sz : Size) (st : Presence),
    let t := s.thread x.core x.ctx
    let n := match k with | .all => 64 | .g1 => 1 | .g2 => 2 | .g4 => 4 | .g8 => 8
    let base := if k = .all then 0 else a.toNat
    let i : Instr := .vsettle c a k
    let hole : Prop := (∃ r h, base ≤ r ∧ r < base + n ∧ r < 64 ∧ h < 512 ∧ t.halfPres r h = .pend) ∨
      (k = .all ∧ ∃ r ∈ (s.core x.core).mire, r.thr = x.ctx ∧ r.dead = false)
    let due (j : Nat) : Prop := ∃ sl, t.slots.getD j none = some sl ∧ (k = .all ∨ ∃ e ∈ sl.refs, base ≤ e.1.toNat ∧ e.1.toNat < base + n)
    let g : Grp := ⟨a, 8 * sizeBytes sz, t.vl.toNat⟩
    let gd : Grp := ⟨d, 8 * sizeBytes sz, t.vl.toNat⟩
    (Runs s x i → base % n = 0 →
      (hole → exec i s = .next (waitingFor s x (.settle (decide (k = .all)) base n))) ∧
      (¬ hole → (∀ j, ¬ due j) → exec i s = .next (closed s s x i)) ∧
      (¬ hole → ∀ j sl, due j → t.slots.getD j none = some sl → (∀ l sl', due l → t.slots.getD l none = some sl' → sl.age < sl'.age ∨ l = j) →
        exec i s = .next (deliverSlot s x j))) ∧
    (t.vstart = 0 → g.base.toNat % g.size = 0 → g.len * g.w ≤ 65536 → Runs s x (.vpres c m a sz st) → s.pipe x.core .a = [] →
      ∃ u w, exec (.vpres c m a sz st) s = .next (vecDone u s x (.vpres c m a sz st)) ∧ SameMemory s u ∧
        (∀ j, j < 2048 → maskBit w j = if j < t.vl.toNat then elPres t g j == st else maskBit (maskReg t m) j) ∧
        RegFrame (s.modThread x.core x.ctx fun t => { t with m := t.m.setIfInBounds m.toNat w }) u x []) ∧
    (t.vstart = 0 → gd.base.toNat % gd.size = 0 → gd.len * gd.w ≤ 65536 → Settled t gd → Runs s x (.mpoison c d m sz) → s.pipe x.core .a = [] →
      let sel := (List.range t.vl.toNat).filter (maskBit (maskReg t m))
      ∃ u, exec (.mpoison c d m sz) s = .next (vecDone u s x (.mpoison c d m sz)) ∧ SameMemory s u ∧
        RegFrame (sel.foldl (fun s j => s.setPmk x j) s) u x (regRun d gd.size) ∧
        (∀ j, j * gd.w < 8192 * gd.size → elBits (u.thread x.core x.ctx) gd j = elBits t gd j) ∧
        ∀ j, j * gd.w < 8192 * gd.size → elPres (u.thread x.core x.ctx) gd j =
          if sel.any (fun l => l == j || (decide (gd.w < 16) && l / (16 / gd.w) == j / (16 / gd.w))) then .pois else elPres t gd j)

/-- R160, R163, R164: `hpop` takes the oldest ready record: its descriptor goes to D, the helper holds it, and the PC goes to the
owner's HENTRY; an IDLE helper does so with register 1 and IDLE as its return. R165: `hopnd` gives a field or a widened operand of it.
With a record held `hpop` is illegal, and without one `hopnd` is. The model's own readings in it: log 29 (DEDUCED), log 31 (DEDUCED).
-/
def Obligations.TakingRecords : Prop :=
  ∀ (s : State) (x : Ctx) (c : Ctl) (d : Reg) (e : MireRec) (k : Opnd),
    let h := s.helper x.core (x.ctx - 4)
    let entry : PC := (s.thread x.core e.thr).hentry.setWidth 56
    let mine : Prop := ∀ p, s.partOf x.core = some p → (s.part p).libEntry ≠ some entry
    let marked : State := s.modCore x.core fun c => { c with mire := c.mire.map fun r => if r.id = e.id then { r with taken := true } else r }
    let with' (d : Reg) (ret : Ret) : Helper := { h with
      s := h.s.setIfInBounds d.toNat (descriptor e), held := some e.id, ret := ret, rnd := e.rnd, hent := entry.setWidth 64, idle := false }
    let i : Instr := .hpop c d
    let opnd (o : MOpnd) (f : BitVec 6) : W64 := match o with | .val v => widened f v.toNat | _ => 0
    let illegal (i : Instr) (o : Op) : Prop := exec i s = .next (takeFault s x .precise { cls := 1, code := 1, aux := o.code })
    (Runs s x i → h.held = none → oldestReady (s.core x.core) = some e → mine →
      exec i s = .next (jumped (marked.setHelper x.core (x.ctx - 4) (with' d (.addr (h.pc + 12)))) x i entry)) ∧
    (Runs s x i → h.held = none → oldestReady (s.core x.core) = none → exec i s = .next s) ∧
    (Runs s x i → h.held ≠ none → holdsDead s x = false → illegal i .hpop) ∧
    (4 ≤ x.ctx → x.ctx < 6 → h.idle = true → oldestReady (s.core x.core) = some e → mine →
      exec (.idleHelperPop x.core (x.ctx - 4)) s = .next (marked.setHelper x.core (x.ctx - 4)
        { with' 1 .idle with pc := entry, instret := h.instret + 1 })) ∧
    (heldRec s x = some e → Gives s x (.hopnd c d k) d (match k with
      | .a => opnd e.a e.fa | .b => opnd e.b e.fb | .c => opnd e.c e.fd | .sa => if e.sca then e.sa.setWidth 64 else 0
      | .sb => if e.scb then e.sb.setWidth 64 else 0
      | .pc => e.pc.setWidth 64 | .p => recOperand e .p)) ∧
    (Runs s x (.hopnd c d k) → heldRec s x = none → illegal (.hopnd c d k) .hopnd)

/-- R73, R122, R160, R166 to R168: `hfill` writes the low bits of s[A] to the element of the record that the helper holds, merges the
flags s[B][4:0] into the owner's ISTAT and gives the value to the records linked to it; where one of the flags is trapped it ends the
record as `hflt` does, which keeps the fault in a free slot with the element FAULTED, or, without one, makes the element POISONED with
an asynchronous record; the record's descendants end with it. A move record that waits for a record has its value with it and leaves
the Mire, with its own element written (R386). `eret` in a helper goes to the return address that `hpop` gave and releases it, or
becomes IDLE; in a task thread, or without a return address, or with a live record still held, it is an illegal instruction. The
model's own readings in it: log 16 (DESIGN CHOICE), log 23 (DEDUCED), log 31 (DEDUCED). -/
def Obligations.HelperReturns : Prop :=
  (∀ (s : State) (x : Ctx) (c : Ctl) (a b : Reg) (e : MireRec),
    let v := s.scalar x a
    let fl : BitVec 5 := (s.scalar x b).setWidth 5
    let own (u : State) : Thread := u.thread x.core e.thr
    let w := 16 * e.width
    let bitsOf (u : State) : Nat := (own u).fieldBits e.reg.toNat (16 * e.half) w
    let pres (u : State) (p : Presence) : Prop := ∀ j, j < e.width → (own u).halfPres e.reg.toNat (e.half + j) = p
    let mire := (s.core x.core).mire
    let ds := descendants mire e.id
    let done (u : State) (i : Instr) : Prop := exec i s = .next (closed u s x i) ∧ (u.helper x.core (x.ctx - 4)).held = none ∧ SameMemory s u
    let faulted (u : State) (cause : BitVec 16) : Prop :=
      (own u).istat = (own s).istat ||| (cause.setWidth 5).setWidth 64 ∧
      (u.core x.core).mire = mire.filter (fun r => r.id != e.id && !ds.contains r.id) ∧
      (∀ k, k < 8 → (own s).slots.getD k none = none → (∀ j, j < k → (own s).slots.getD j none ≠ none) →
        (e.superseded = false → pres u .flt) ∧ ∃ sl, (own u).slots.getD k none = some sl ∧ sl.val = BitVec.ofNat 64 (v.toNat % 2 ^ w) ∧ sl.pc = e.pc ∧
          sl.cause = cause ∧ sl.elem = e.elem ∧ sl.reg = e.reg ∧ sl.half = e.half ∧ sl.width = e.width) ∧
      ((∀ k, k < 8 → (own s).slots.getD k none ≠ none) → (e.superseded = false → pres u .pois ∧ maskBit (own u).pmk e.elem = true) ∧
        ∀ p, s.partOf x.core = some p → (s.part p).fq.length < 256 → (s.part p).fqWait = [] →
          ∃ r, (u.part p).fq = (s.part p).fq ++ [r] ∧ r.cls = 4 ∧ r.code = 3 ∧ r.flags = 4 ∧ r.aux = cause.setWidth 32 ∧ r.aux2 = e.pc.setWidth 64 ∧
            r.elem = BitVec.ofNat 16 e.elem)
    heldRec s x = some e → holdsDead s x = false → e.thr < 4 → e.width ∈ [1, 2, 4] → e.half % e.width = 0 → e.half < 512 → e.elem < 2048 →
    (∀ r ∈ mire, r.move = false) → (mire.map (·.id)).Nodup → 
    (∀ r ∈ mire, r.id ∈ ds → r.thr = e.thr ∧ (r.superseded = true ∨ r.reg ≠ e.reg ∨ r.half + r.width ≤ e.half ∨ e.half + e.width ≤ r.half)) →
    (Runs s x (.hfill c a b) → (fl &&& e.ten = 0 → ∃ u, done u (.hfill c a b) ∧
        (e.superseded = false → bitsOf u = v.toNat % 2 ^ w ∧ pres u .pres) ∧ (e.superseded = true → (own u).v = (own s).v) ∧
        (own u).istat = (own s).istat ||| fl.setWidth 64 ∧
        (u.core x.core).mire = (mire.filter fun r => r.id != e.id).map fun r => { r with
          a := r.a.filled e.id (v.toNat % 2 ^ w), b := r.b.filled e.id (v.toNat % 2 ^ w), c := r.c.filled e.id (v.toNat % 2 ^ w) }) ∧
      (fl &&& e.ten ≠ 0 → ∃ u, done u (.hfill c a b) ∧ faulted u (fl.setWidth 16))) ∧
    (Runs s x (.hflt c a b) → ∃ u, done u (.hflt c a b) ∧ faulted u ((s.scalar x b).setWidth 16))) ∧
  (∀ (s : State) (x : Ctx) (c : Ctl) (a b : Reg) (e m : MireRec) (rest : W64),
    let v := s.scalar x a
    let w := 16 * e.width
    let mire := (s.core x.core).mire
    heldRec s x = some e → holdsDead s x = false → e.thr < 4 → e.width ∈ [1, 2, 4] → (s.scalar x b).setWidth 5 &&& e.ten = 0 → (mire.map (·.id)).Nodup →
    m ∈ mire → m.move = true → m.thr = e.thr → m.superseded = false → m.a = .link e.id 0 0 w rest → m.width = e.width → m.half % m.width = 0 →
    m.half < 512 →
    (∀ r ∈ mire, r ≠ m → r.superseded = true ∨ r.thr ≠ m.thr ∨ r.reg ≠ m.reg ∨ r.half + r.width ≤ m.half ∨ m.half + m.width ≤ r.half) →
    Runs s x (.hfill c a b) →
    ∃ u, exec (.hfill c a b) s = .next (closed u s x (.hfill c a b)) ∧ SameMemory s u ∧ (∀ r ∈ (u.core x.core).mire, r.id ≠ e.id ∧ r.id ≠ m.id) ∧
      (u.thread x.core m.thr).fieldBits m.reg.toNat (16 * m.half) w = v.toNat % 2 ^ w ∧
      ∀ j, j < m.width → (u.thread x.core m.thr).halfPres m.reg.toNat (m.half + j) = .pres) ∧
  (∀ (s : State) (x : Ctx) (c : Ctl), Runs s x (.eret c) →
    let h := s.helper x.core (x.ctx - 4)
    let illegal : Out := .next (takeFault s x .precise { cls := 1, code := 1, aux := Op.eret.code })
    (x.ctx < 4 → exec (.eret c) s = illegal) ∧
    (4 ≤ x.ctx → holdsDead s x = false → (h.held ≠ none ∨ h.ret = .none) → exec (.eret c) s = illegal) ∧
    (4 ≤ x.ctx → h.held = none → ∀ pc, h.ret = .addr pc → exec (.eret c) s =
      .next (jumped (s.setHelper x.core (x.ctx - 4) { h with ret := .none }) x (.eret c) pc)) ∧
    (4 ≤ x.ctx → h.held = none → h.ret = .idle → exec (.eret c) s =
      .next (jumped (s.setHelper x.core (x.ctx - 4) { h with ret := .none, idle := true }) x (.eret c) h.pc)))

/-! ## The matrix unit -/

/-- R178, R180, R187: `msel` replaces the selection by a legal one and clears MPROG.PART; `mstat` reads the selection and `mclr` drops
it; PLANE_LATCH takes the tile of a thread's selection into the planes, after which an `mmul` that waits for it goes on. The model's
own readings in it: log 28 (DESIGN CHOICE). -/
def Obligations.Selections : Prop :=
  ∀ (s : State) (x : Ctx) (c : Ctl) (a b d : Reg),
    let t := s.thread x.core x.ctx
    let off := s.scalar x a
    let w := s.scalar x b
    let done (i : Instr) (v : State) (W : List Reg) (u : State) : Prop :=
      exec i s = .next (laneDone (closed u s x i) x false) ∧ SameMemory s u ∧ RegFrame v u x W
    let part : W64 := t.mprog &&& ~~~8
    (t.vstart = 0 → s.pipe x.core .x = [] → Runs s x (.msel c a b) → present s x a → present s x b → shapeFault w.toNat = none → off.toNat % 64 = 0 →
      off.toNat + (Shape.ofNat w.toNat).bytes ≤ 0x400000 → ∃ u, done (.msel c a b) (s.setThread x.core x.ctx { t with
        sel := BitVec.ofNat 64 (2 ^ 63 + off.toNat * 2 ^ 26 + w.toNat), selNum := (s.core x.core).nextCmd, mprog := part }) [] u) ∧
    (t.vstart = 0 → s.pipe x.core .x = [] → Runs s x (.mstat c d) → ∃ u, done (.mstat c d) s [d] u ∧ u.scalar x d = t.sel ∧ present u x d) ∧
    (t.vstart = 0 → s.pipe x.core .x = [] → Runs s x (.mclr c) → ∃ u, done (.mclr c) (s.setThread x.core x.ctx { t with sel := 0, mprog := part }) [] u) ∧
    (let h := selShape t.sel
     let byte (j : Nat) : Byte := Memory.get (s.core x.core).ts (selOff t.sel + j)
     let latch : Latch := ⟨x.ctx, t.sel, t.selNum, (List.range h.bytes).map byte,
       (List.range h.bytes).filter fun j => (s.core x.core).tsBad.contains ((selOff t.sel + j) / 8)⟩
     let u := s.modCore x.core fun c => { c with latched := some latch }
     canLatch s x.core x.ctx = true →
      ((∀ e ∈ (s.pipe x.core .x).head?, e.why ≠ .latch ∨ e.thr ≠ x.ctx) → exec (.planeLatch x.core x.ctx) s = .next u) ∧
      (∀ e, (s.pipe x.core .x).head? = some e → e.why = .latch → e.thr = x.ctx →
        exec (.planeLatch x.core x.ctx) s = .next { u with lane := some e, cur := some x }))

/-- R181, R182, R184, R185, R102: `mmul` in a thread whose selection is latched runs one plane at a time: for each active column the
groups of 16 products of the plane are summed, rounded once, and added to the accumulator, which starts as D where the instruction
accumulates or resumes; in INT8 the exact sums are added to INT32. With planes left it goes on to the next. When a stop has been asked
for since its last plane, and no trap is due, the columns are written as that plane left them, MPROG keeps the next one, and the PC
stays at the instruction. After the last plane the columns are written, those with a POISONED input or an uncorrectable byte POISONED,
and MPROG.PART is clear. While the selection is not latched it waits. `run` is where a row in the lanes stands; a row resumes only with
a value that a stop has left in MPROG. The model's own readings in it: log 28 (DESIGN CHOICE), log 49 (DESIGN CHOICE). -/
def Obligations.MatrixMultiply : Prop :=
  ∀ (s : State) (x : Ctx) (c : Ctl) (p : Option Pfx) (d a f : Reg) (acc : Bool) (l : Latch) (fw : W64) (pc : PC) (run : Option RowRun),
    let t := s.thread x.core x.ctx
    let q := pfx p
    let F : FWord := ⟨fw.toNat⟩
    let i : Instr := .mmul c p d a f acc
    let h := selShape t.sel
    let int := mmulClass F.fa == some 5
    let out : BitVec 6 := if int then 0x14 else 0
    let ga : Grp := ⟨a, codeWidth F.fa, h.k⟩
    let gd : Grp := ⟨d, 32, 64⟩
    let ge : Grp := ⟨q.e, 8, (h.k + 31) / 32⟩
    let resume := t.mprog.getLsbD 3 && decide (t.mprog.toNat / 256 = pc.toNat)
    let groups := (h.k + 15) / 16
    let on := (List.range h.n).filter (active t q)
    let bad (n : Nat) : Bool := (List.range h.k).any (fun i => elPres t ga i == .pois) ||
      (F.sca && (List.range ge.len).any fun i => elPres t ge i == .pois) || badColumn h l.bad n || ((resume || acc) && elPres t gd n == .pois)
    -- where the row stands, and the group after its next plane
    let first : NMap Nat := on.map fun n => (n, if resume || acc then elBits t gd n else if int then 0 else 0x80000000)
    let r : RowRun := run.getD ⟨if resume then t.mprog.toNat % 8 * kblock h.fb / 16 else 0, first, 0, t.srstate⟩
    let size := max 1 (kblock h.fb / 16)
    let g1 := min groups ((r.g / size + 1) * size)
    let terms (g n : Nat) : List (Nat × Nat) :=
      ((List.range 16).filter fun j => decide (16 * g + j < h.k)).map fun j => (elBits t ga (16 * g + j), tileElem h l.bytes (16 * g + j) n)
    let mode := vecMode t q
    let draw (m : Nat) : W64 := Nat.repeat (fun v => (srNext v).1) m r.sr
    let word (m : Nat) : Rnd := ⟨mode, if mode = .sr then (srNext (draw m)).2 else 0⟩
    -- column `k` of the active ones: its accumulator and the flags of the plane
    let column (k : Nat) : Nat × W64 := (List.range (g1 - r.g)).foldl (fun z j =>
      let n := on.getD k 0
      let g := r.g + j
      if int then
        let v := (BitVec.ofNat 32 z.1).toInt + ((terms g n).map fun e => (intFmt F.fa).val e.1 * (intFmt h.fb).val e.2).sum
        let fits := decide (-(2 ^ 31) ≤ v) && decide (v < 2 ^ 31)
        (((if F.sati then max (-(2 ^ 31)) (min (2 ^ 31 - 1) v) else v) % 2 ^ 32).toNat, if F.sati && !fits then z.2 ||| flagISAT else z.2)
      else
        let m := 2 * (j * on.length + k)
        let s1 := groupSum F.fa h.fb (word m) (terms g n) (if F.sca then elBits t ge (g / 2) else 127) (tileScale h l.bytes (16 * g) n)
        let s2 := fp32.add (word (m + 1)) (fp32.decode z.1) (fp32.decode s1.code)
        (s2.code, z.2 ||| s1.flags ||| s2.flags)) ((mapGet r.acc (on.getD k 0)).getD 0, 0)
    let fl := (List.range on.length).foldl (fun f k => if bad (on.getD k 0) then f else f ||| (column k).2) r.fl
    let sr := if mode = .sr ∧ int = false then draw (2 * on.length * (g1 - r.g)) else r.sr
    let trap : Prop := trapDue s x fl
    let w (n : Nat) : Bool := decide (n < h.n) && (active t q n || q.zp)
    let pois (n : Nat) : Bool := active t q n && bad n
    let val (n : Nat) : Option Nat := if active t q n then (if bad n then none else some (column (on.filter (· < n)).length).1) else some 0
    -- the columns are written, with MPROG `m`
    let v (m : W64) : State := ((on.filter bad).foldl (fun s n => s.setPmk x n) s).modThread x.core x.ctx fun t => { t with
      istat := t.istat ||| fl, mprog := m, srstate := sr }
    -- a stop between two planes
    let halt : Prop := t.stop ≠ none ∧ ¬ trapDue s x r.fl
    let val0 (n : Nat) : Option Nat := if active t q n then (if bad n then none else some ((mapGet r.acc n).getD 0)) else some 0
    let kept : W64 := pc.setWidth 64 <<< 8 ||| 8 ||| BitVec.ofNat 64 (16 * r.g / kblock h.fb)
    -- the entry of the row, which goes on at its next plane
    let goesOn (e : PipeEntry) : Prop := e.thr = x.ctx ∧ e.pc = pc ∧ e.instr = i ∧ e.why = .plane ∧
      ∃ A, e.row = some ⟨g1, A, fl, sr⟩ ∧ ∀ n ∈ on, bad n = false → (mapGet A n).getD 0 = (column (on.filter (· < n)).length).1
    let same (u : State) : Prop := SameMemory s u ∧ (u.thread x.core x.ctx).v = t.v ∧ (u.thread x.core x.ctx).istat = t.istat ∧
      (u.thread x.core x.ctx).mprog = t.mprog
    let legal : Prop := t.vstart = 0 ∧ F.w < 2 ^ 27 ∧ mmulClass F.fa ≠ none ∧ F.fd = out ∧ (acc = true → F.fc = out) ∧
      (F.sca = true → blockScalable F.fa = true ∧ blk t = 1) ∧ F.sca = q.ev ∧ F.fb = h.fb ∧ (F.scb = true ↔ h.sblk ≠ 0) ∧
      (F.scb = true → blockScalable F.fb = true) ∧ mmulClass h.fb = mmulClass F.fa ∧ selValid t.sel = true ∧ t.vl.toNat = h.k ∧
      ga.base.toNat % ga.size = 0 ∧ ga.len * ga.w ≤ 65536 ∧ gd.meets ga = false ∧ (F.sca = true → ge.meets ga = false ∧ q.e ≠ d) ∧ Settled t gd ∧
      (∀ i, i < h.k → Known t ga i) ∧ (F.sca = true → ∀ i, i < ge.len → Known t ge i) ∧ h.n ≤ 64
    let latched : Prop := (s.core x.core).latched = some l ∧ latchedFor s x.core x.ctx = true ∧ r.g < groups ∧ (resume = true → t.mprog ∈ t.rowStops)
    -- at issue, with the pipe empty
    (run = none → pc = t.pc → fw = s.scalar x f → present s x f → legal → Runs s x i → s.pipe x.core .x = [] →
      (latched → g1 = groups → ¬ trap → GivesElems s (v (t.mprog &&& ~~~8)) x i .x gd w pois val) ∧
      (latched → g1 = groups → trap → t.undos = [] → ∃ u, exec i s = .next u ∧ SameMemory s u ∧ (u.thread x.core x.ctx).v = t.v ∧
        (u.thread x.core x.ctx).st = .stopped ∧ (u.thread x.core x.ctx).pc = t.pc ∧ (u.thread x.core x.ctx).istat = t.istat ||| fl) ∧
      (latched → g1 < groups → (t.stop = none ∨ trap) → ∃ u e, exec i s = .next u ∧ u.pipe x.core .x = [e] ∧ goesOn e ∧ u.lane = none ∧
        (s.nestAt x = none → same u ∧ u.pcAt x = t.pc + BitVec.ofNat 56 i.len)) ∧
      (latchedFor s x.core x.ctx = false → ∃ u e, exec i s = .next u ∧ u.pipe x.core .x = [e] ∧ e.thr = x.ctx ∧ e.pc = pc ∧ e.instr = i ∧
        e.why = .latch ∧ u.lane = none ∧ (s.nestAt x = none → same u ∧ u.pcAt x = t.pc + BitVec.ofNat 56 i.len))) ∧
    -- in the lanes, at a later plane
    (∀ (e : PipeEntry) (rest : List PipeEntry), run ≠ none → e.row = run → e.pc = pc → e.thr = x.ctx → e.instr = i → e.ctl = t.ctl →
      e.scal.map (fun v => v.getD f.toNat 0) = some fw → legal → latched → s.cur = some x → x.ctx < 4 → s.lane = some e → s.pipe x.core .x = e :: rest →
      s.hasElder x.core x.ctx e.num = false → t.owed = false → (s.core x.core).verify = false →
      (¬ halt → g1 = groups → ¬ trap → ∃ u, exec i s = .next u ∧ SameMemory s u ∧ u.lane = none ∧ u.pipe x.core .x = rest ∧
        ElemsOf t (u.thread x.core x.ctx) gd 8192 w pois val ∧ (u.thread x.core x.ctx).istat = t.istat ||| fl ∧
        (u.thread x.core x.ctx).mprog = t.mprog &&& ~~~8 ∧ (u.thread x.core x.ctx).srstate = sr) ∧
      (¬ halt → g1 < groups → ∃ u e', exec i s = .next u ∧ u.pipe x.core .x = e' :: rest ∧ goesOn e' ∧ u.lane = none ∧ same u) ∧
      (halt → (∀ u ∈ t.undos, u.lows = []) → ∃ u, exec i s = .next u ∧ SameMemory s u ∧ u.lane = none ∧
        ElemsOf t (u.thread x.core x.ctx) gd 8192 w pois val0 ∧ (u.thread x.core x.ctx).mprog = kept ∧ (u.thread x.core x.ctx).pc = pc ∧
        (u.thread x.core x.ctx).stop = t.stop ∧ (u.thread x.core x.ctx).srstate = r.sr ∧
        ∀ e' ∈ u.pipe x.core .x, e' ∈ rest ∧ (e'.thr = x.ctx → e'.num < e.num)))

/-! ## Engines, landing zones -/

/-- R312 to R314, R266: a push whose image is well formed appends its command to the FIFO with the next sequence number; without room
it does not issue; an image that breaks its limits, or is longer than the slots of its open input zone, is the engine-command fault,
and a site that R42 forbids is the address fault. The model's own readings in it: log 32 (DEDUCED). -/
def Obligations.EnginePushes : Prop :=
  ∀ (s : State) (x : Ctx) (c : Ctl) (a b : Reg) (tag : BitVec 6) (site : Site) (zone : BitVec 4),
    let t := s.thread x.core x.ctx
    let k := s.core x.core
    let img : List Byte := (List.range 8).flatMap fun j => natLe 8 (t.word a.toNat j).bits.toNat
    let pushed (o : Op) (img : List Byte) (tag : Option (BitVec 6)) (zone : BitVec 4) (site : Site) (fill : W64) : State :=
      let m : Cmd := { op := o, img, tag, zone, site, fill, seq := t.seq + 1, pc := t.pc, num := k.nextCmd, past := t.vnum }
      (s.modCore x.core fun k => { k with nextCmd := k.nextCmd + 1 }).modThread x.core x.ctx fun t => { t with
        -- the command keeps that it would write into the selection that its thread holds now (R179)
        seq := t.seq + 1, fifo := t.fifo ++ [{ m with own := intoOwn s x.core x.ctx m }]
        outRes := if o = .lzres ∨ o = .lzclean then t.outRes + 1 else t.outRes }
    let whole : Prop := ∀ h, h < 32 → t.readPres a.toNat h = .pres
    let room : Prop := t.fifo.length < 32
    let gives (i : Instr) (u : State) : Prop := Runs s x i → room → exec i s = .next (closed u s x i)
    let here (g : Site) : Prop := g.row.toNat < 12 ∧ g.col.toNat < 12 ∧ (g.chip = s.chip → s.enabled g.core = true ∧ s.partOf g.core = s.partOf x.core)
    let refused (i : Instr) (o : Op) : Prop := Runs s x i → room → whole →
      exec i s = .next (takeFault s x .precise { cls := 2, code := 0xC, aux := o.code })
    let noSite : State := takeFault s x .precise { cls := 2, code := 1 }
    (whole → (CopyImg.parse false img ≠ none → gives (.cpy c a tag) (pushed .cpy img (some tag) 0 {} 0)) ∧
      (TileImg.parse img ≠ none → gives (.cpyt c a tag) (pushed .cpyt img (some tag) 0 {} 0)) ∧
      (CopyImg.parse true img ≠ none → present s x b → gives (.cfill c a b tag) (pushed .cfill img (some tag) 0 {} (s.scalar x b))) ∧
      (PutImg.parse img ≠ none → here site → gives (.lzput c a site zone tag) (pushed .lzput img (some tag) zone site 0)) ∧
      (∀ g, RedImg.parse img = some g → (let z := k.zones.getD g.zin.toNat {}; z.isOpen = true → g.len ≤ 2 ^ (z.lsz.toNat + 6)) →
        (g.toRemote = true → here site) → gives (.xred c a site zone tag) (pushed .xred img (some tag) zone site 0))) ∧
    (t.outs.length + t.outRes < 16 → (here site → gives (.lzres c site zone) (pushed .lzres [] none zone site 0)) ∧
      gives (.lzclean c zone) (pushed .lzclean [] none zone {} 0)) ∧
    (CopyImg.parse false img = none → refused (.cpy c a tag) .cpy) ∧ (TileImg.parse img = none → refused (.cpyt c a tag) .cpyt) ∧
    (RedImg.parse img = none → refused (.xred c a site zone tag) .xred) ∧
    (∀ g, RedImg.parse img = some g → (let z := k.zones.getD g.zin.toNat {}; z.isOpen = true ∧ 2 ^ (z.lsz.toNat + 6) < g.len) →
      refused (.xred c a site zone tag) .xred) ∧
    (CopyImg.parse true img = none → present s x b → refused (.cfill c a b tag) .cfill) ∧
    (PutImg.parse img = none → here site → refused (.lzput c a site zone tag) .lzput) ∧
    (¬ here site → room → (Runs s x (.lzput c a site zone tag) → exec (.lzput c a site zone tag) s = .next noSite) ∧
      (t.outs.length + t.outRes < 16 → Runs s x (.lzres c site zone) → exec (.lzres c site zone) s = .next noSite)) ∧
    (¬ room → ∀ i ∈ ([.cpy c a tag, .cpyt c a tag, .cfill c a b tag, .lzres c site zone, .lzput c a site zone tag, .lzclean c zone,
      .xred c a site zone tag] : List Instr), Runs s x i → exec i s = .next s)

/-- R315, R316, R322, R235 to R237: the tag instructions, the output FIFO and the tag table. `cwany`, `cwall` and `epop` wait while
what they wait for has not come about. -/
def Obligations.TagsAndOutputs : Prop :=
  ∀ (s : State) (x : Ctx) (c : Ctl) (d a b e : Reg),
    let t := s.thread x.core x.ctx
    let m := s.scalar x a
    let g := t.tags &&& m
    let tab := (s.core x.core).tagTab
    let hit (q : Nat × TagEntry) : Prop := q ∈ tab ∧ q.2.valid = true ∧ q.2.key = m
    let waits (i : Instr) (w : Wait) : Prop := exec i s = .next (waitingFor s x w)
    let tabled (i : Instr) (tab' : NMap TagEntry) : Prop :=
      Runs s x i → exec i s = .next (closed (s.modCore x.core fun k => { k with tagTab := tab' }) s x i)
    let noKey : NMap TagEntry := tab.filter fun q => !(q.2.valid && q.2.key == m)
    present s x a →
    ((m = 0 ∨ g ≠ 0) → Gives s x (.cwany c d a) d g) ∧ (m ≠ 0 → g = 0 → Runs s x (.cwany c d a) → waits (.cwany c d a) (.tags false m)) ∧
    (g = m → Gives s x (.cwall c d a) d (t.cerr &&& m)) ∧ (g ≠ m → Runs s x (.cwall c d a) → waits (.cwall c d a) (.tags true m)) ∧
    (g = 0 → Gives s x (.cffr c d a) d (BitVec.ofNat 64 (2 ^ 64 - 1))) ∧
    (∀ n, n < 64 → g.getLsbD n = true → (∀ j, j < n → g.getLsbD j = false) → Gives s x (.cffr c d a) d (BitVec.ofNat 64 n)) ∧
    (Runs s x (.ctclr c a) → exec (.ctclr c a) s = .next (closed (s.setThread x.core x.ctx
      { t with tags := t.tags &&& ~~~m, cerr := t.cerr &&& ~~~m }) s x (.ctclr c a))) ∧
    (t.outs = [] → Runs s x (.epop c d) → waits (.epop c d) .epop) ∧
    (∀ v r, t.outs = v :: r → Runs s x (.epop c d) → ∃ u, WroteScalar (s.setThread x.core x.ctx { t with outs := r }) u x d v.1 ∧
      exec (.epop c d) s = .next (closed u s x (.epop c d))) ∧
    ((∀ q, ¬ hit q) → Gives s x (.tglk c d a) d (BitVec.ofNat 64 (2 ^ 64 - 1))) ∧
    (∀ q, hit q → (∀ r, hit r → r = q) → Gives s x (.tglk c d a) d (q.2.val.setWidth 64)) ∧
    (present s x b → present s x e → (s.scalar x e).toNat < 256 → (s.scalar x b).toNat < 2 ^ 32 → (tab.filter fun q => q.2.valid && q.2.key == m).length ≤ 1 →
      (tab.map (·.1)).Nodup →
      tabled (.tgset c a b e) (mapSet noKey (s.scalar x e).toNat ⟨true, m, (s.scalar x b).setWidth 32⟩)) ∧
    (m.toNat < 256 → tabled (.tginv c a .entry) (tab.filter fun q => q.1 != m.toNat)) ∧
    ((tab.filter fun q => q.2.valid && q.2.key == m).length ≤ 1 → (tab.map (·.1)).Nodup → tabled (.tginv c a .key) noKey) ∧
    tabled (.tginv c a .all) []

/-- R323, R324, R328: `lzopen` opens a closed zone with the geometry of its operands; `lzclose` closes it; `lzwait` gives the arrived
slots of its mask once they are there, and waits until its limit otherwise; LZWAIT_TIMEOUT ends that wait; `lzfree` makes arrived slots
FREE; `lzclose`, `lzwait` and `lzfree` raise the zone-state fault on a closed zone, and so does `lzopen` on an open one. The model's
own readings in it: log 7 (DEDUCED). -/
def Obligations.ZoneInstructions : Prop :=
  ∀ (s : State) (x : Ctx) (c : Ctl) (d a b : Reg) (any : Bool) (zone : BitVec 4),
    let z := (s.core x.core).zones.getD zone.toNat {}
    let ga := (s.scalar x a).toNat
    let ba := (s.scalar x b).toNat
    let cnt := ga / 2 ^ 24
    let lsz := ga / 2 ^ 20 % 16
    let base := ga % 2 ^ 20
    let bar := ba % 2 ^ 20
    let fresh : Zone := {
      isOpen := true, cnt := BitVec.ofNat 7 cnt, lsz := BitVec.ofNat 4 lsz, base := BitVec.ofNat 19 base, mask := BitVec.ofNat 10 (ba / 2 ^ 32)
      accept := BitVec.ofNat 10 (ba / 2 ^ 20), bar := BitVec.ofNat 19 bar, slots := List.replicate cnt {} }
    let zoned (v : Zone) : State := s.modCore x.core fun k => { k with zones := k.zones.setIfInBounds zone.toNat v }
    let arrived (j : Nat) : Bool := decide (j < z.slots.length) && (z.slots.getD j {}).st == .arrived
    let m := s.scalar x a
    let full : Prop := if any then ∃ j, j < 64 ∧ m.getLsbD j = true ∧ arrived j = true else ∀ j, j < 64 → m.getLsbD j = true → arrived j = true
    let w : Instr := .lzwait c d a b any zone
    let closedFault (i : Instr) : Prop := Runs s x i → z.isOpen = false → exec i s = .next (takeFault s x .precise { cls := 2, code := 0xB, aux := zone.toNat })
    present s x a →
    (Runs s x (.lzopen c a b zone) → present s x b → z.isOpen = false → ga < 2 ^ 31 → base < 2 ^ 19 → ba < 2 ^ 42 → ba / 2 ^ 30 % 4 = 0 → bar < 2 ^ 19 →
      1 ≤ cnt → cnt ≤ 64 → lsz ≤ 10 → base % 2 ^ (lsz + 6) = 0 → base + cnt * 2 ^ (lsz + 6) ≤ 0x80000 →
      (base + cnt * 2 ^ (lsz + 6) ≤ bar ∨ bar + 8 ≤ base) → bar % 8 = 0 → bar / 8 ∈ (s.core x.core).live →
      exec (.lzopen c a b zone) s = .next (closed (zoned fresh) s x (.lzopen c a b zone))) ∧
    (Runs s x (.lzclose c zone) → z.isOpen = true → exec (.lzclose c zone) s = .next (closed (zoned {}) s x (.lzclose c zone))) ∧
    (z.isOpen = true → z.slots.length ≤ 64 → present s x b → (s.thread x.core x.ctx).st = .running →
      (full ∨ s.scalar x b = 0 → ∃ v, (∀ j, j < 64 → v.getLsbD j = (m.getLsbD j && arrived j)) ∧ Gives s x w d v) ∧
      (¬ full → s.scalar x b ≠ 0 → Runs s x w →
        exec w s = .next (waitingFor s x (.lzwait (s.reftAt x.core) (s.scalar x b) false (!any) m zone.toNat)))) ∧
    (∀ start lim all m z, x.ctx < 4 → (s.thread x.core x.ctx).st = .waiting (.lzwait start lim false all m z) → clocked s x.core = true →
      lim ≤ s.reftAt x.core - start →
      exec (.lzwaitTimeout x.core x.ctx) s = .next (s.modThread x.core x.ctx fun t => { t with st := .waiting (.lzwait start lim true all m z) })) ∧
    (Runs s x (.lzfree c a zone) → z.isOpen = true → exec (.lzfree c a zone) s = .next (closed (zoned { z with
      slots := z.slots.mapIdx fun j k => if m.getLsbD j && k.st = .arrived then {} else k }) s x (.lzfree c a zone))) ∧
    closedFault (.lzclose c zone) ∧ closedFault (.lzfree c a zone) ∧ (present s x b → closedFault w) ∧
    (present s x b → z.isOpen = true → Runs s x (.lzopen c a b zone) →
      exec (.lzopen c a b zone) s = .next (takeFault s x .precise { cls := 2, code := 0xB, aux := zone.toNat }))

/-- R325 to R327, R322, R337: a reservation request takes the lowest FREE slot of an open zone that accepts the sender, and is
answered, or is answered with its reason; the answer is the output of the request; a put to a slot that its sender holds writes the
slot's bytes, makes it ARRIVED and arrives at the zone's barrier; any other is refused, and one over a live barrier word leaves its
slot ORPHANED; the acknowledgement ends the put. The model's own readings in it: log 35 (DEDUCED). -/
def Obligations.ZoneMessages : Prop :=
  ∀ (s : State) (q : ResReq) (a : ResAns) (l : Land) (k : Ack) (p : Pend),
    let core := q.dst.core
    let z := (s.core core).zones.getD q.zone.toNat {}
    let here (dst : Site) (fabric : Nat) : Prop := dst.chip = s.chip ∧ dst.inGrid = true ∧ s.enabled dst.core = true ∧
      ∃ p, s.partOf dst.core = some p ∧ s.fabricOf p = fabric
    let free (j : Nat) : Prop := j < z.slots.length ∧ (z.slots.getD j {}).st = .free
    let answers (s : State) (a : ResAns) : State := { s with net := s.net ++ [.reservationAnswer a] }
    let accepts : Prop := q.src.chip &&& z.mask = z.accept &&& z.mask
    let y := (s.core l.dst.core).zones.getD l.zone.toNat {}
    let slot := y.slots.getD l.slot.toNat {}
    let off := y.base.toNat + l.slot.toNat * 2 ^ (y.lsz.toNat + 6)
    let w := leNat (Memory.read (s.core l.dst.core).sp y.bar.toNat 8)
    let n := l.bytes.length
    let mine : Prop := here l.dst l.fabric ∧ y.isOpen = true ∧ slot.st = .reserved ∧ slot.holder = l.src ∧ n ≤ 2 ^ (y.lsz.toNat + 6)
    let acks (s : State) (cause : Nat) : State := { s with net := s.net ++ [.putAck ⟨l.src, l.id, cause⟩] }
    (edgeHeld s q.dst = false → q.src.chip = s.chip →
      let out (u : State) : Prop := exec (.reservationRequest q) s = .next u
      let ok : Prop := here q.dst q.fabric ∧ z.isOpen = true ∧ accepts
      (¬ here q.dst q.fabric → out (answers s ⟨q.src, q.id, false, 3⟩)) ∧
      (here q.dst q.fabric → z.isOpen = false → out (answers s ⟨q.src, q.id, false, 2⟩)) ∧
      (here q.dst q.fabric → z.isOpen = true → ¬ accepts → out (answers s ⟨q.src, q.id, false, 3⟩)) ∧
      (ok → (∀ j, ¬ free j) → out (answers s ⟨q.src, q.id, false, 1⟩)) ∧
      (∀ j, ok → free j → (∀ k, k < j → ¬ free k) →
        let v := { z with slots := z.slots.set j ⟨.reserved, q.src⟩ }
        out (answers (s.modCore core fun c => { c with zones := c.zones.setIfInBounds q.zone.toNat v }) ⟨q.src, q.id, true, j⟩))) ∧
    (∀ o t, findPend s a.dst.core a.id = some p → a.dst.chip = s.chip → p.phase = .sent → p.owner = .live o t → p.cmd.tag = none → t < 4 →
      (∀ b ∈ (s.part p.part).brk.toList, b.kind ≠ .cmd) →
      ∃ u, exec (.reservationAnswer a) s = .next u ∧ findPend u a.dst.core p.id = none ∧
        (u.thread o t).outs = (s.thread o t).outs ++ [(BitVec.ofNat 64 ((if a.granted then 1 else 2) * 2 ^ 56 + p.cmd.seq.toNat % 2 ^ 24 * 2 ^ 32 +
          a.value % 256), p.cmd.seq)]) ∧
    (edgeHeld s l.dst = false → l.src.chip = s.chip → mine → touchesLive s (.sp l.dst.core off) n = false → (s.core l.dst.core).pois = [] →
      l.pois = [] → n % 64 = 0 → (y.bar.toNat + 8 ≤ off ∨ off + n ≤ y.bar.toNat) → s.memOk = true →
      ∃ u, exec (.landing l) s = .next u ∧ u.net = s.net ++ [.putAck ⟨l.src, l.id, 0⟩] ∧
        (∀ j, j < n → byteAt u (.sp l.dst.core (off + j)) = l.bytes.getD j 0) ∧
        leNat (Memory.read (u.core l.dst.core).sp y.bar.toNat 8) = barArrive w ∧
        (∀ m, (∀ j, j < n → m ≠ .sp l.dst.core (off + j)) → (∀ j, j < 8 → m ≠ .sp l.dst.core (y.bar.toNat + j)) → byteAt u m = byteAt s m) ∧
        (u.core l.dst.core).zones.getD l.zone.toNat {} = { y with slots := y.slots.modify l.slot.toNat fun k => { k with st := .arrived } }) ∧
    (edgeHeld s l.dst = false → l.src.chip = s.chip → ¬ mine → exec (.landing l) s = .next (acks s 9)) ∧
    (edgeHeld s l.dst = false → l.src.chip = s.chip → mine → touchesLive s (.sp l.dst.core off) n = true →
      ∃ u, exec (.landing l) s = .next u ∧ u.net = s.net ++ [.putAck ⟨l.src, l.id, 5⟩] ∧
        (u.core l.dst.core).zones.getD l.zone.toNat {} = { y with slots := y.slots.modify l.slot.toNat fun k => { k with st := .orphaned } } ∧
        (s.memOk = true → ∀ m, (∀ j, j < 2 ^ (y.lsz.toNat + 6) → m ≠ .sp l.dst.core (off + j)) → byteAt u m = byteAt s m)) ∧
    (findPend s k.dst.core k.id = some p → k.dst.chip = s.chip → p.phase = .forwarded → p.cmd.op = .lzput → ∀ o t, p.owner = .live o t → t < 4 →
      ∀ tag, p.cmd.tag = some tag →
      ∃ u, exec (.putAck k) s = .next u ∧ findPend u k.dst.core p.id = none ∧
        (k.cause ≠ 0 → (u.thread o t).cerr.getLsbD tag.toNat = true ∧ ((s.part p.part).fq.length < 256 → (s.part p.part).fqWait = [] →
          ∃ r, (u.part p.part).fq = (s.part p.part).fq ++ [r] ∧ r.cls = 7 ∧ r.code = 1 ∧ r.aux = BitVec.ofNat 32 k.cause)) ∧
        (k.cause = 0 → (u.thread o t).cerr = (s.thread o t).cerr))

/-- R265, R266, R318, R320, R321, R325, R326, R328, R331: a command at the head of a FIFO enters its engine; a segment of a copy or a
fill moves the bytes of its elements and nothing else, one of `cpyt` writes the next block of the tile, and the command completes with
its last one; a put reads its source and then sends it to its zone; an `xred` whose gate is met goes on, and one whose input has
arrived writes the reduction of its operands. Nothing that R248, R249 or R358 name holds the accesses. The model's own readings in it:
log 32 (DEDUCED), log 33 (DEDUCED). -/
def Obligations.EngineSteps : Prop :=
  ∀ (s : State) (core thr id : Nat) (p : Pend) (at' : W64 → Loc),
    let t := s.thread core thr
    let pend (m : Cmd) (k : Task) : Pend := { id := m.num, cmd := m, owner := .live core thr, part := k.part, inst := k.inst, queue := k.queue,
                                              done := 0, segs := 0, phase := .run }
    let took (r : List Cmd) : State := s.modThread core thr fun t => { t with fifo := r }
    let finds (u : State) (q : Option Pend) : Prop := findPend u core id = q
    -- an access of the command that reaches HBM, a scratchpad or the tile store at `at'`, outside a relock window
    let goes (kind : Access) (ea : W64) (n : Nat) : Prop := (∃ leaf, locate s core kind ea = .ok (at' ea, leaf)) ∧ (∀ p, at' ea ≠ .host p) ∧
      Fresh s core ea ∧ ea.toNat % 4096 + n ≤ 4096 ∧ relockHeld s (at' ea) = false
    let free (l : List (Bool × W64 × Nat)) : Prop :=
      cmdBlocked s core p.cmd p.owner (l.map fun e => ⟨e.1, at' e.2.1, e.2.2⟩) = false ∧ ∀ e ∈ l, e.1 = true → touchesLive s (at' e.2.1) e.2.2 = false
    -- the bytes that the segment reads: those of a source block that the command holds already, or memory's
    let held (ea : W64) (j : Nat) : Option (Nat × List PByte) := p.blocks.find? fun b => b.1 == (ea.toNat + j) / 64
    let got (ea : W64) (j : Nat) : Byte := match held ea j with
      | some b => (b.2.getD ((ea.toNat + j) % 64) (0, false)).1
      | none => byteAt s ((at' ea).add j)
    -- the engine may read `n` bytes at `ea`, and all that it is still to read of the blocks that it reads with them
    let takes (ea : W64) (n : Nat) : Prop := goes .read ea n ∧ ownSource s core p.cmd ea n = false ∧ ∀ j, j < n → held ea j = none →
      ∀ q ∈ p.cmd.covers p.done ((ea.toNat + j) / 64), cmdBlocked s core p.cmd p.owner [⟨false, ((at' ea).add j).block.add q.1, q.2⟩] = false
    let onward (u : State) (n : Nat) (last : Prop) : Prop :=
      (¬ last → ∃ bl, finds u (some { p with done := p.done + n, segs := p.segs + 1, blocks := p.blocks ++ bl })) ∧ (last → finds u none)
    let moved (g : CopyImg) (fill : Bool) : Prop :=
      let l := g.segElems p.done
      (∀ k ∈ l, (fill = false → (g.srcAt k).toNat % g.size = 0 ∧ takes (g.srcAt k) g.size) ∧
        (g.dstAt k).toNat % g.size = 0 ∧ goes .write (g.dstAt k) g.size) →
      free (l.map fun k => (true, g.dstAt k, g.size)) →
      (∀ k ∈ l, ∀ k' ∈ l, ∀ i j, i < g.size → j < g.size → (at' (g.dstAt k)).add i = (at' (g.dstAt k')).add j → k = k' ∧ i = j) →
      (∀ k ∈ l, (at' (g.dstAt k)).block = (at' (g.dstAt (l.headD 0))).block ∧ (at' (g.dstAt k)).inBlock + g.size ≤ 64) →
      ∃ u, exec (.copySegment core id) s = .next u ∧
        (∀ k ∈ l, ∀ j, j < g.size → byteAt u ((at' (g.dstAt k)).add j) =
          if fill then BitVec.ofNat 8 (p.cmd.fill.toNat / 256 ^ j) else got (g.srcAt k) j) ∧
        (∀ m, (∀ k ∈ l, ∀ j, j < g.size → (at' (g.dstAt k)).add j ≠ m) → byteAt u m = byteAt s m) ∧
        onward u l.length (g.elems ≤ p.done + l.length)
    let tiled (g : TileImg) : Prop :=
      let d := g.dstAt p.done
      (∀ e ∈ g.reads p.done, takes e.1 e.2) → goes .write d 64 → (∃ o, at' d = .ts core o) → free [(true, d, 64)] →
      ∃ u, exec (.copySegment core id) s = .next u ∧
        (∀ j, j < 64 → byteAt u ((at' d).add j) =
          ((g.block p.done ((g.reads p.done).map fun e => (List.range e.2).map fun j => (got e.1 j, false))).getD j (0, false)).1) ∧
        (∀ m, (∀ j, j < 64 → (at' d).add j ≠ m) → byteAt u m = byteAt s m) ∧ onward u 1 (g.segs ≤ p.done + 1)
    let put (g : PutImg) : Prop :=
      let ea : W64 := BitVec.ofNat 64 (g.src + 64 * p.done)
      let bytes := readBytes s (at' ea) 64
      let buf := p.buf ++ bytes.map (·.1)
      let bad := p.bad ++ ((List.range 8).filter fun k => ((bytes.drop (8 * k)).take 8).any (·.2)).map (· + 8 * p.segs)
      takes ea 64 → held ea 0 = none → (at' ea).inBlock = 0 →
      ∃ u, exec (.copySegment core id) s = .next u ∧ SameMemory s u ∧
        (p.done + 1 < g.len / 64 → u.net = s.net ∧
          ∃ bl, finds u (some { p with done := p.done + 1, segs := p.segs + 1, blocks := p.blocks ++ bl, buf := buf, bad := bad })) ∧
        (g.len / 64 ≤ p.done + 1 → p.cmd.site.chip = s.chip → (∃ q, finds u (some q) ∧ q.phase = .forwarded ∧ q.cmd = p.cmd) ∧
          u.net = s.net ++ [.landing ⟨Site.ofCore s.chip core, s.fabricOf p.part, p.id, p.cmd.site, p.cmd.zone, g.slot, buf, bad⟩])
    -- a push is a release: its command waits for the older vector accesses of its thread (R243)
    (∀ m r, t.fifo = m :: r → released s core thr m = false → exec (.engineCommandAccept core thr) s = .next s) ∧
    (∀ m r k, t.fifo = m :: r → t.task = some k → clocked s core = true → t.st ≠ .frozen → thr < 4 → released s core thr m = true →
      (m.op = .lzput → exec (.engineCommandAccept core thr) s = .next ((took r).modCore core fun c => { c with units := c.units ++ [pend m k] })) ∧
      ((m.op = .cpy ∨ m.op = .cpyt ∨ m.op = .cfill) → (copyQueued (s.core core)).length < 1024 →
        ((copyQueued (s.core core)).filter fun q => q.owner == .live core thr).length < 256 → intoLive s core m = false →
        m.own = false → m.total ≠ 0 →
        exec (.engineCommandAccept core thr) s = .next ((took r).modCore core fun c => { c with copyQ := c.copyQ ++ [pend m k] })) ∧
      (m.op = .lzres → m.site.chip = s.chip →
        exec (.engineCommandAccept core thr) s = .next (let v := (took r).modCore core fun c => { c with units := c.units ++ [pend m k] }
          { modPend v core m.num fun q => { q with phase := .sent } with
            net := s.net ++ [.reservationRequest ⟨Site.ofCore s.chip core, s.fabricOf k.part, m.num, m.site, m.zone⟩] })) ∧
      (m.op = .lzclean → m.tag = none → (∀ b ∈ (s.part k.part).brk.toList, b.kind ≠ .cmd) → (∀ q ∈ (s.core core).copyQ ++ (s.core core).units, q.id ≠ m.num) →
        let z := (s.core core).zones.getD m.zone.toNat {}
        let n := (z.slots.filter fun k => k.st == .orphaned).length
        ∃ u, exec (.engineCommandAccept core thr) s = .next u ∧
          (z.isOpen = true → (u.core core).zones.getD m.zone.toNat {} = { z with slots := z.slots.map fun k => if k.st = .orphaned then {} else k }) ∧
          (u.thread core thr).outs = t.outs ++ [(BitVec.ofNat 64 (3 * 2 ^ 56 + m.seq.toNat % 2 ^ 24 * 2 ^ 32 + (if z.isOpen then n else 0) % 256), m.seq)])) ∧
    (∀ o j, finds s (some p) → p.owner = .live o j → p.phase = .run → clocked s core = true → s.memOk = true →
      (∀ g, p.cmd.op = .cpy → CopyImg.parse false p.cmd.img = some g → p.done < g.elems → moved g false) ∧
      (∀ g, p.cmd.op = .cfill → CopyImg.parse true p.cmd.img = some g → p.done < g.elems → moved g true) ∧
      (∀ g, p.cmd.op = .cpyt → TileImg.parse p.cmd.img = some g → p.done < g.segs → tiled g) ∧
      (∀ g, p.cmd.op = .lzput → PutImg.parse p.cmd.img = some g → p.done < g.len / 64 → put g)) ∧
    (∀ g o j, finds s (some p) → p.owner = .live o j → p.phase = .run → p.cmd.op = .xred → RedImg.parse p.cmd.img = some g →
      (p.gated = true → goes .read (BitVec.ofNat 64 g.sig) 8 → g.sval ≤ bytesAt s (at' (BitVec.ofNat 64 g.sig)) 8 →
        ∃ u, exec (.xredGateRead core id) s = .next u ∧ finds u (some { p with gated := false }) ∧ SameMemory s u) ∧
      (let z := (s.core core).zones.getD g.zin.toNat {}
       let adr (k : Nat) : W64 := BitVec.ofNat 64 (g.loc + 64 * k)
       let slot (k : Nat) : Loc := .sp core (z.slotOff g.slotIn + 64 * k)
       let out (k : Nat) : List PByte := reduce64 g (readBytes s (at' (adr k)) 64) (readBytes s (slot k) 64)
       p.gated = false → p.slotAt = none → p.buf = [] → p.done = 0 → g.toLocal = true → g.toRemote = false → g.fits (s.core core) = true →
       (z.slots.getD g.slotIn {}).st = .arrived → s.memOk = true →
       (∀ k, k < g.len / 64 → goes .read (adr k) 64 ∧ goes .write (adr k) 64 ∧ relockHeld s (slot k) = false ∧ (at' (adr k)).inBlock = 0 ∧
         WalkKept s core (adr k) fun a => ∃ j i, j < g.len / 64 ∧ i < 64 ∧ (at' (adr j)).add i = .hbm a) →
       -- the signal word of a gated command is not compared (R334)
       (∀ k, k < g.len / 64 → touchesLive s (at' (adr k)) 64 = false ∧ ∀ w ∈ ([[⟨false, at' (adr k), 64⟩, ⟨false, slot k, 64⟩], [⟨true, at' (adr k), 64⟩]] : List (List Piece)),
         cmdBlocked s core p.cmd p.owner (p.cmd.compared s core w) = false) →
       (∀ k j i i', k < g.len / 64 → j < g.len / 64 → i < 64 → i' < 64 → (at' (adr k)).add i = (at' (adr j)).add i' → k = j ∧ i = i') →
       ∃ u, exec (.xredReduce core id) s = .next u ∧ finds u none ∧
         (∀ k i, k < g.len / 64 → i < 64 → byteAt u ((at' (adr k)).add i) = ((out k).getD i (0, false)).1) ∧
         ∀ m, (∀ k i, k < g.len / 64 → i < 64 → (at' (adr k)).add i ≠ m) → byteAt u m = byteAt s m))

/-! ## Tasks -/

/-- R295, R306 to R311: `tbtest` and `tbset` give the snapshot of a buffer, and `tbset` changes the state of one that nobody claims;
`glaunch` appends its 64-byte record to a queue; `texit` retires the node and frees the context once nothing of the task is open;
`tsusp` asks for a stop with CAUSE 3; `tdclass` loads an entry of every pavilion of the partition; `tdoffer` gives the core's bid. The
model's own readings in it: log 37 (DEDUCED). -/
def Obligations.TaskInstructions : Prop :=
  ∀ (s : State) (x : Ctx) (c : Ctl) (d a b : Reg) (set : Bool) (k : Task) (g : Inst) (l : Loc),
    let t := s.thread x.core x.ctx
    let av := (s.scalar x a).toNat
    let bv := (s.scalar x b).toNat
    let u := g.bufs.getD av default
    let word : W64 := BitVec.ofNat 64 ((if u.full then 2 ^ 63 else 0) + (if u.wr then 2 ^ 62 else 0) + u.rd % 2 ^ 13 * 2 ^ 32 + u.gen.toNat)
    let v := claimNodes (modInst s k.part k.inst fun i => { i with
      bufs := i.bufs.set av { u with full := set, gen := if set then u.gen + 1 else u.gen } }) k.part k.inst
    let faults (i : Instr) (cls code aux : Nat) : Prop :=
      Runs s x i → exec i s = .next (takeFault s x .precise { cls := cls, code := code, aux := aux })
    let record (n : Nat) : List Byte := (List.range n).map fun j => byteAt s (l.add j)
    let reads (n : Nat) : Prop := Reaches s x .read n false (s.scalar x a) l ∧ (readLoc s l n).2 = false
    let settled : Prop := (∀ r h, r < 64 → h < 512 → t.halfPres r h ≠ .pend) ∧ (∀ e ∈ (s.core x.core).mire, e.thr = x.ctx → e.dead = true) ∧
      ∀ j, t.slots.getD j none = none
    -- the context without its task; a GTO run that it held is over (R287)
    let freed : State := (s.modThread x.core x.ctx fun t => { ({} : Thread) with instret := t.instret, cycnf := t.cycnf }).modCore x.core fun c =>
      { c with gcur := if c.gcur = some x.ctx then none else c.gcur }
    t.task = some k → findInst s k.part k.inst = some g →
    (settled → (Runs s x (.tsusp c) → exec (.tsusp c) s = .next (closed (s.modThread x.core x.ctx fun t => { t with stop := some 3 }) s x (.tsusp c))) ∧
      (Runs s x (.texit c) → t.fifo = [] → (∀ e ∈ s.cores, ∀ p ∈ e.2.copyQ ++ e.2.units, p.owner ≠ .live x.core x.ctx) →
        exec (.texit c) s = .next (retireNode (freed.modThread x.core x.ctx fun t => { t with instret := t.instret + 1 }) k.part k.inst k.node)) ∧
      (Runs s x (.texit c) → t.fifo ≠ [] → exec (.texit c) s = .next (waitingFor s x .commands))) ∧
    (present s x a →
    (av < g.bufs.length → av < 2 ^ 16 → Gives s x (.tbtest c d a) d word ∧
      (u.wr = true ∨ u.rd ≠ 0 ∨ u.full = set → Gives s x (.tbset c d a set) d word) ∧
      (u.wr = false → u.rd = 0 → u.full ≠ set → Runs s x (.tbset c d a set) →
        ∃ w, WroteScalar v w x d word ∧ exec (.tbset c d a set) s = .next (closed w s x (.tbset c d a set)))) ∧
    (g.bufs.length ≤ av → av < 2 ^ 16 → faults (.tbtest c d a) 6 2 av ∧ faults (.tbset c d a set) 6 2 av) ∧
    (present s x b → Runs s x (.glaunch c a b) → reads 64 → bv < 64 → ∀ p, s.partOf x.core = some p →
      let q := (s.part p).queues.getD bv {}
      q.enabled = true → q.recs.length < 256 →
      ∃ w, exec (.glaunch c a b) s = .next (closed w s x (.glaunch c a b)) ∧ ((w.part p).queues.getD bv {}).recs = q.recs ++ [record 64] ∧
        (∀ j, j < 64 → j ≠ bv → ((w.part p).queues.getD j {}).recs = ((s.part p).queues.getD j {}).recs) ∧ RegFrame s w x [] ∧ SameMemory s w) ∧
    (present s x b → Runs s x (.tdclass c a b) → reads 16 → bv < 16 →
      let lo := leNat ((record 16).take 8)
      let hi := leNat ((record 16).drop 8)
      let win := hi / 2 ^ 32 % 2 ^ 11
      let ok : Prop := lo < 2 ^ 16 ∧ hi / 2 ^ 43 = 2 ^ 20 ∧ 8 ≤ win ∧ win ≤ 1024
      let loaded (v : ClassRec) : Prop := ∃ w, exec (.tdclass c a b) s = .next (closed w s x (.tdclass c a b)) ∧ RegFrame s w x [] ∧ SameMemory s w ∧
        ∀ q, (mapGet s.pavs q).isSome = true →
          (w.pav q).classes = if (s.pav q).part = s.partOf x.core then (s.pav q).classes.setIfInBounds bv v else (s.pav q).classes
      (hi < 2 ^ 63 → loaded {}) ∧
      (ok → loaded { valid := true, win := win, wbias := hi / 2 ^ 24 % 256, whop := hi / 2 ^ 16 % 256, wq := hi / 2 ^ 8 % 256, wres := hi % 256,
                     cfeat := BitVec.ofNat 16 lo }) ∧
      (2 ^ 63 ≤ hi → ¬ ok → ∃ w, exec (.tdclass c a b) s = .next (takeFault w x .precise { cls := 6, code := 3, aux := bv }) ∧ RegFrame s w x [] ∧
        SameMemory s w ∧ ∀ q, (w.pav q).classes = (s.pav q).classes)) ∧
    (present s x b → av < 16 → bv < g.nodes.length → bv < 4096 → (s.pav g.home).part = some k.part →
      let n := g.nodes.getD bv default
      let cls := (s.pav g.home).classes.getD av {}
      let ins := n.ins.map fun j => g.bufs.getD j default
      let here (b : Buf) : Bool := b.loc1 && b.site == Site.ofCore s.chip x.core
      let nres := min 65535 ((((ins.filter fun b => !here b).map (·.size)).foldl (· + ·) 0 + 1023) / 1024)
      let qd := min 255 (((List.range 4).filter fun t => (s.thread x.core t).st != .free).length +
        ((s.part k.part).saved.filter fun (e : Nat × Saved) => e.2.home == x.core).length)
      let apart (m n : Nat) : Nat := max m n - min m n
      let hop (b : Buf) : Nat :=
        if b.site.chip ≠ s.chip then 64
        else if pavOf b.site.core = pavOf x.core then apart (siteOf x.core / 12) b.site.row.toNat + apart (siteOf x.core % 12) b.site.col.toNat
        else if pavOf b.site.core / 4 = pavOf x.core / 4 then 32 else 48
      let bids : Prop := s.enabled x.core = true ∧ s.partOf x.core = some k.part ∧ (s.pav (pavOf x.core)).scrub = none ∧ (s.core x.core).suspect = false ∧
        (∃ t, t < 4 ∧ (s.thread x.core t).st = .free ∧ reserved s x.core t = false) ∧ (cls.cfeat ||| n.feat) &&& ~~~(s.featmask x.core) = 0
      (cls.valid = true → bids → Gives s x (.tdoffer c d a b) d (BitVec.ofNat 64 (min 65535
        (cls.wres * nres + cls.wq * qd + cls.whop * ((ins.find? (·.loc1)).map hop).getD 0 + cls.wbias)))) ∧
      (cls.valid = true → ¬ bids → Gives s x (.tdoffer c d a b) d (BitVec.ofNat 64 (2 ^ 64 - 1))) ∧
      (cls.valid = false → faults (.tdoffer c d a b) 6 3 av)))

/-- R20, R54, R267, R291 to R299: LAUNCH_RECORD_WRITE enters a record or counts it as lost; LAUNCH_INSTANTIATE takes the oldest record
of the first queue by priority, whose image becomes an instance or is refused with status 2 (`checkLaunch` holds what R291 asks of the
image); DISPATCH starts a pinned node in a free context of its core, and gives a saved task a context of its home core. The first node
of an instance that may claim its buffers claims them and enters its dispatcher, in ascending index until none may; a retired node
frees its inputs, which become EMPTY, and fills its outputs; the last one ends the instance with status 0, which takes it away and
writes the status and CVAL at CADDR. The model's own readings in it: log 36 (DEDUCED), log 37 (DEDUCED). -/
def Obligations.LaunchesAndClaims : Prop :=
  (∀ (s : State) (part queue : Nat) (rec r : List Byte) (rest : List (List Byte)) (pav prio : Nat) (es : List DEntry) (l : Loc),
    let p := s.part part
    let q := p.queues.getD queue {}
    let setQ (v : LQueue) : State := s.modPart part fun p => { p with queues := p.queues.setIfInBounds queue v }
    let taken := setQ { q with recs := rest }
    let next : Prop := q.enabled = true ∧ q.prio < 4 ∧ queue < 64 ∧ q.recs = r :: rest ∧ p.insts.length < 256 ∧ ∀ j, j < 64 → j ≠ queue →
      let o := p.queues.getD j {}
      o.enabled = true → o.recs ≠ [] → q.prio < o.prio ∨ (q.prio = o.prio ∧ queue < j)
    let inst (home : Nat) (nodes : List Node) (bufs : List Buf) (gang : Option Gang) : Inst := {
      id := p.nextInst, queue := queue, qprio := q.prio, home := home, caddr := BitVec.ofNat 64 (leAt r 8 8), cval := BitVec.ofNat 64 (leAt r 16 8),
      nodes := nodes, bufs := bufs, gang := gang }
    -- code that the host wrote before the launch is fetched anew (R34)
    let made (i : Inst) : State := (freshCode taken part).modPart part fun p => { p with insts := p.insts ++ [i], nextInst := p.nextInst + 1 }
    let v := s.pav pav
    let first (e : DEntry) : Prop := v.part = some part ∧ v.scrub = none ∧ prio < 4 ∧ v.disp.getD prio [] = e :: es ∧ (∀ j, j < prio → v.disp.getD j [] = []) ∧
      (∀ j, j < 4 → v.passed.getD j 0 < 64) ∧ ∀ l ∈ v.disp.toList, ∀ e ∈ l, victimFreed s e = false
    let left (e : DEntry) : Pav := { v with disp := v.disp.map fun l => l.erase e, passed := v.passed.mapIdx fun j n => if j = prio then 0 else if prio < j then n + 1 else n }
    (rec.length = 64 → queue < 64 → s.reaches part = true →
      (q.enabled = true → q.recs.length < 256 → exec (.launchRecordWrite part queue rec) s = .next (setQ { q with recs := q.recs ++ [rec] })) ∧
      ((q.enabled = false ∨ 256 ≤ q.recs.length) → ∃ u, exec (.launchRecordWrite part queue rec) s = .next u ∧
        (u.part part).queues.getD queue {} = { q with overflow := q.overflow + 1 } ∧ (p.fq.length < 256 → p.fqWait = [] →
          ∃ f, (u.part part).fq = p.fq ++ [f] ∧ f.cls = 6 ∧ f.code = 9 ∧ f.flags = 4 ∧ f.aux = BitVec.ofNat 32 queue))) ∧
    (next →
      (∀ home nodes bufs, checkLaunch s part q.prio r = .ready home nodes bufs none →
        exec (.launchInstantiate part) s = .next (claimNodes (made (inst home nodes bufs none)) part p.nextInst)) ∧
      (∀ home nodes bufs g, checkLaunch s part q.prio r = .ready home nodes bufs (some g) →
        exec (.launchInstantiate part) s = .next (gangPrepared (made (inst home nodes bufs (some g))) part p.nextInst g)) ∧
      (checkLaunch s part q.prio r = .refused → locatePart s part .write (BitVec.ofNat 64 (leAt r 8 8)) = .ok l → s.memOk = true →
        ∃ u, exec (.launchInstantiate part) s = .next u ∧ u.part part = taken.part part ∧ bytesAt u l 8 = 2 ∧ bytesAt u (l.add 8) 8 = leAt r 16 8 ∧
          ∀ m, (∀ j, j < 16 → m ≠ l.add j) → byteAt u m = byteAt s m)) ∧
    (∀ i k g t, let n := g.nodes.getD k default
      let core := n.pin.core
      first (.fresh part i k) → findInst s part i = some g → k < g.nodes.length → n.tend = false → n.prio = prio → n.victim = none →
      takesTasks s part core = true → n.feat &&& ~~~(s.featmask core) = 0 → t < 4 → (s.thread core t).st = .free → reserved s core t = false →
      ∃ u t, t < 4 ∧ exec (.dispatch pav) s = .next u ∧ (s.thread core t).st = .free ∧ reserved s core t = false ∧ u.pav pav = left (.fresh part i k) ∧
        findInst u part i = some { g with nodes := g.nodes.modify k fun n => { n with st := .placed, victim := none } } ∧
        (u.core core).wait.getD t 0 = 0 ∧ u.thread core t = { ({} : Thread) with
          instret := (s.thread core t).instret, cycnf := (s.thread core t).cycnf, pc := n.code.setWidth 56,
          srstate := (if n.seed = 0#64 then 0x5DEECE66D1CE4E5B else n.seed), hentry := n.hent &&& 0xFFFFFFFFFFFFFC, st := .running,
          task := some ⟨part, i, k, g.queue, n.prio, p.order⟩ }) ∧
    (∀ sl x g t, let n := g.nodes.getD x.task.node default
      first (.resume part sl) → mapGet p.saved sl = some x → findInst s part x.task.inst = some g → x.wait = .none → x.task.prio = prio →
      takesTasks s part x.home = true → n.feat &&& ~~~(s.featmask x.home) = 0 → t < 4 → (s.thread x.home t).st = .free → reserved s x.home t = false →
      ∃ u t, t < 4 ∧ exec (.dispatch pav) s = .next u ∧ u.pav pav = left (.resume part sl) ∧ (u.thread x.home t).st = .restoring sl ∧
        (s.thread x.home t).st = .free)) ∧
  (∀ (s : State) (part inst k status : Nat) (g : Inst) (l : Loc),
    let n := g.nodes.getD k default
    let buf (b : Nat) : Buf := g.bufs.getD b default
    let begun : Prop := g.aborted = false ∧ ∀ m, g.gang = some m → m.committed = true
    let ready (j : Nat) : Prop := let n := g.nodes.getD j default
      n.st = .pending ∧ (∀ b ∈ n.ins, (buf b).full = true ∧ (buf b).wr = false) ∧
        ∀ b ∈ n.outs, (buf b).full = false ∧ (buf b).wr = false ∧ (buf b).rd = 0
    let pointwise (bufs : List Buf) (v : Nat → Buf → Buf) : Prop := bufs.length = g.bufs.length ∧
      ∀ b, b < g.bufs.length → bufs.getD b default = v b (buf b)
    let pav := if n.tend then g.home else pavOf n.pin.core
    findInst s part inst = some g →
    ((¬ begun ∨ ∀ j, j < g.nodes.length → ¬ ready j) → claimNodes s part inst = s) ∧
    (begun → k < g.nodes.length → ready k → (∀ j, j < k → ¬ ready j) → (n.ins ++ n.outs).Nodup →
      ∃ bufs, pointwise bufs (fun b u => if b ∈ n.ins then { u with rd := u.rd + 1 } else if b ∈ n.outs then { u with wr := true } else u) ∧
        claimNodes s part inst = claimNodes ((modInst s part inst fun i => { i with
          bufs := if i = g then bufs else claim i.bufs n, nodes := i.nodes.modify k fun n => { n with st := .eligible } }).modPav pav fun p =>
            { p with disp := p.disp.setIfInBounds n.prio (p.disp.getD n.prio [] ++ [.fresh part inst k]) }) part inst) ∧
    (k < g.nodes.length → (n.ins ++ n.outs).Nodup → (∀ i ∈ (s.part part).insts, i.id = inst → i = g) →
      ∃ bufs, pointwise bufs (fun b u => if b ∈ n.ins then { u with rd := u.rd - 1, full := false } else if b ∈ n.outs then
          { u with wr := false, full := true, gen := if u.full then u.gen else u.gen + 1 } else u) ∧
        (let w := claimNodes (modInst s part inst fun i => { i with
          bufs := bufs, nodes := i.nodes.modify k fun n => { n with st := .retired } }) part inst
         ((∃ i, findInst w part inst = some i ∧ ∃ n ∈ i.nodes, n.st ≠ .retired) → retireNode s part inst k = w) ∧
         (∀ i, findInst w part inst = some i → (∀ n ∈ i.nodes, n.st = .retired) → retireNode s part inst k = endInstance w part inst 0))) ∧
    ((∀ e ∈ s.cores, ∀ j, j < 4 → ∀ x, (s.thread e.1 j).task = some x → x.part = part → x.inst ≠ inst) →
      (∀ e ∈ (s.part part).saved, e.2.task.inst ≠ inst) → locatePart s part .write g.caddr = .ok l → s.memOk = true →
      let u := endInstance s part inst status
      (u.part part).insts = (s.part part).insts.filter (fun i => i.id != inst) ∧ bytesAt u l 8 = status % 2 ^ 64 ∧ bytesAt u (l.add 8) 8 = g.cval.toNat ∧
        ∀ m, (∀ j, j < 16 → m ≠ l.add j) → byteAt u m = byteAt s m))

/-- R301 to R303: a home dispatcher announces its next tendered node with the class entry it reads then, and each core that bids sends
its cost; bids count until the window closes; the lowest cost wins and ROT advances; without a bid the node is announced again WIN
ticks later; an award starts the task in a free context, or is withdrawn with a record and a new announcement; the ninth announcement
starves the instance, which is then announced no more. The model's own readings in it: log 37 (DEDUCED). -/
def Obligations.Tenders : Prop :=
  ∀ (s : State) (pav serial k core : Nat) (e : Tender) (q : Bid) (g : Inst),
    let v := s.pav pav
    let n := g.nodes.getD k default
    let cls := (classesAt s e.part pav).getD n.cls {}
    let now := s.reft.toNat
    let tender (t : Option Tender) : State := s.modPav pav fun p => { p with tender := t }
    let announced (s u : State) : Prop :=
      (∀ i, findInst u e.part e.inst = some i → i = { g with nodes := g.nodes.modify k fun n => { n with announced := n.announced + 1 } }) ∧
      u.pav pav = { v with serial := v.serial + 1, tender := some ⟨v.serial, e.part, e.inst, k, cls, [], .bidding (now + cls.win)⟩ } ∧
      ∃ l : List Bid, u.net = s.net ++ l.map .bid ∧ (∀ b, b ∈ l ↔ b.pav = pav ∧ b.serial = v.serial ∧ b.core ∈ s.coresOf e.part ∧ bidCost s e.part b.core cls g n = some b.cost)
    let starved (u : State) : Prop := findInst u e.part e.inst = none ∧ ((s.part e.part).fq.length < 256 → (s.part e.part).fqWait = [] →
      ∃ r, r ∈ (u.part e.part).fq ∧ r.cls = 6 ∧ r.code = 4 ∧ r.flags = 2 ∧ r.aux = BitVec.ofNat 32 k)
    let noneFrozen : Prop := hasFrozen s e.part e.inst = false
    let uncounted : Prop := n.announced < 8 ∧ cls.valid = true
    let held (ph : TenderPhase) : Prop := v.tender = some e ∧ e.serial = serial ∧ e.node = k ∧ e.phase = ph
    let beats (a b : Bid) : Prop := a.cost < b.cost ∨ (a.cost = b.cost ∧
      let rank (q : Bid) : Nat := (logicalSite s q.core + 128 - v.rot % 128) % 128
      (rank a < rank b ∨ (rank a = rank b ∧ pavOf a.core < pavOf b.core)))
    findInst s e.part e.inst = some g → k < g.nodes.length →
    (nextTender s pav = some (e.part, e.inst, k) →
      (uncounted → ∃ u, exec (.tenderAnnounce pav) s = .next u ∧ announced s u) ∧
      (¬ uncounted → noneFrozen → ∃ u, exec (.tenderAnnounce pav) s = .next u ∧ starved u) ∧
      (¬ uncounted → ¬ noneFrozen → ∃ u i, exec (.tenderAnnounce pav) s = .next u ∧ nextTender u pav ≠ some (e.part, e.inst, k) ∧
        findInst u e.part e.inst = some i ∧ i.aborted = true)) ∧
    (∀ closes, held (.bidding closes) →
      (q.pav = pav → q.serial = serial → now ≤ closes → exec (.bid q) s = .next (tender (some { e with bids := e.bids ++ [q] }))) ∧
      (q.pav = pav → q.serial = serial → closes < now → exec (.bid q) s = .next s) ∧
      (closes ≤ now → e.bids = [] → n.announced < 8 →
        exec (.bidWindowClose pav serial) s = .next (tender (some { e with phase := .again (now + e.cls.win) }))) ∧
      (closes ≤ now → e.bids = [] → 8 ≤ n.announced → noneFrozen → ∃ u, exec (.bidWindowClose pav serial) s = .next u ∧ starved u) ∧
      (closes ≤ now → q ∈ e.bids → (∀ b ∈ e.bids, b = q ∨ beats q b) → exec (.bidWindowClose pav serial) s = .next
        { s.modPav pav fun p => { p with rot := (p.rot + 1) % 128, tender := some { e with phase := .awarded q.core } } with
          net := s.net ++ [.award pav serial q.core] })) ∧
    (held (.awarded core) →
      ((∃ t, t ∈ freeCtxs s core) → takesTasks s e.part core = true → ∃ u t, exec (.award pav serial core) s = .next u ∧ (u.pav pav).tender = none ∧
        t ∈ freeCtxs s core ∧ (u.thread core t).st = .running ∧ (u.thread core t).pc = n.code.setWidth 56 ∧
        (u.thread core t).task = some ⟨e.part, e.inst, k, g.queue, n.prio, (s.part e.part).order⟩) ∧
      (freeCtxs s core = [] → uncounted → ∃ u r, exec (.award pav serial core) s = .next u ∧ announced s u ∧
        ((s.part e.part).fq.length < 256 → (s.part e.part).fqWait = [] → (u.part e.part).fq = (s.part e.part).fq ++ [r] ∧ r.cls = 6 ∧ r.code = 5 ∧
          r.flags = 4 ∧ r.aux = BitVec.ofNat 32 k ∧ r.ident = s.thid core 7))) ∧
    (∀ due, held (.again due) → due ≤ now → uncounted → ∃ u, exec (.retenderTimer pav serial) s = .next u ∧ announced s u)

/-- R304, R305: a prepared leader asks every other member and waits 1 ms; a prepared member answers and waits 10 ms; the last answer
makes the leader send commit to all, itself included; a commit begins dispatch; an abort before it ends the instance with status 3; a
commit that is lost, an abort after the commit, and one of a member that has raised the gang-member-lost fault end it with that fault.
Every route of the gang holds a link. The model's own readings in it: log 38 (DEDUCED). -/
def Obligations.Gangs : Prop :=
  ∀ (s : State) (q : GangMsg) (p : Nat) (i : Inst) (g : Gang),
    let now := s.reft.toNat
    let told (m : GangMsg → PeerMsg) : State := { s with
      peerTx := s.peerTx ++ ((List.range g.members.length).filter fun k => k != g.idx).map fun k => m ⟨g.gid, g.members.getD k 0, k, 0, false⟩ }
    let side (s : State) (f : Gang) : State := modInst s p i.id fun i => { i with gang := i.gang.map fun _ => f }
    let lost (i' : Instr) (m : Nat) : Prop := hasFrozen s p i.id = false → ∃ u, exec i' s = .next u ∧ findInst u p i.id = none ∧
      ((s.part p).fq.length < 256 → (s.part p).fqWait = [] →
        ∃ r, r ∈ (u.part p).fq ∧ r.cls = 6 ∧ r.code = 7 ∧ r.flags = 2 ∧ r.aux = BitVec.ofNat 32 g.gid ∧ r.aux2 = BitVec.ofNat 64 m)
    let acks := setIns g.acks q.fromIdx
    let lead := g.members.getD 0 0
    findInst s p i.id = some i → i.gang = some g → (∀ j ∈ (s.part p).insts, j.id = i.id → j = i) → (∀ k, k < g.members.length → routeOk s (g.members.getD k 0) = true) →
    (g.idx = 0 → gangPrepared s p i.id g = side (told .prepare) { g with asked := true, deadline := some (now + 1000000) }) ∧
    (g.idx ≠ 0 → gangPrepared s p i.id g = side s { g with deadline := some (now + 10000000) }) ∧
    (gangInst s q = some (p, i, g) → g.committed = false →
      (g.idx ≠ 0 → 0 < g.members.length → exec (.gangPrepare q) s = .next (side { s with peerTx := s.peerTx ++ [.gangAck ⟨g.gid, lead, 0, g.idx, false⟩] }
        { g with acked := true, deadline := some (now + 10000000) })) ∧
      (g.idx = 0 → 0 < q.fromIdx → q.fromIdx < g.members.length →
        (acks.length + 1 < g.members.length → exec (.gangAck q) s = .next (side s { g with acks := acks })) ∧
        (g.members.length ≤ acks.length + 1 → q.fromIdx ∉ g.acks → exec (.gangAck q) s = .next
          { side (told .commit) { g with acks := acks, deadline := none } with net := s.net ++ [.gangCommit ⟨g.gid, s.chip.toNat, 0, 0, false⟩] })) ∧
      exec (.gangCommit q) s = .next (claimNodes (side s { g with committed := true, deadline := none }) p i.id) ∧
      (q.lost = false → exec (.gangAbort q) s = .next (endInstance s p i.id 3))) ∧
    (gangInst s q = some (p, i, g) → g.committed = true ∨ q.lost = true → lost (.gangAbort q) q.fromIdx) ∧
    (∀ d, g.committed = false → g.deadline = some d → d ≤ now →
      (g.idx = 0 → exec (.gangPrepareTimeout p i.id) s = .next (endInstance (told .abort) p i.id 3)) ∧
      (g.idx ≠ 0 → lost (.gangCommitTimeout p i.id) 0))

/-! ## Cores and pipes -/

/-- R18, R19, R271, R356, R364: a cycle of a core whose clock runs counts in CYC and in the frame of 64; under the duty of the frame it
is an issue cycle or a throttled one; in an issue cycle the context issues that the policy chooses among those that are ready, a helper
first when seven cycles have passed without one; the Wait of the others grows. A context that is ready at a PC breakpoint has stopped
before the choice (R373), and with nothing running in its pipes the core takes over the verify mode (R347). R70, R158, R159, R233,
R249, R272, R275: the head of a pipe queue goes to the lanes at its dispatch, or again when what it waits for may have come about; a
`barwait` ends when its word is no longer live or its phase differs; a scalar result is written and clears its mark. That a context at
a PC breakpoint has stopped before the choice (R373 says before the instruction), that a core takes verify mode over when every entry
of its pipes is queued (R347), when the results of scalar instructions come, and which choices count as an issue, are the model's
choice. The model's own readings in it: log 8 (DEDUCED), log 9 (DEDUCED), log 10 (DESIGN CHOICE), log 20 (DESIGN CHOICE), log 42
(DESIGN CHOICE), log 46 (DEDUCED). -/
def Obligations.IssueAndPipes : Prop :=
  (∀ (s : State) (core k : Nat),
    let r := resultsCome s core
    let c := r.core core
    let duty := ((s.partOf core).map fun p => (s.part p).duty).getD 64
    let d := if c.frame = 0 then duty else c.frameDuty
    let idle : Prop := ∀ e ∈ c.pipeA ++ c.pipeM ++ c.pipeX, e.why = .queued
    let mode := ((s.partOf core).map fun p => (s.part p).verify).getD false
    let counted (m : Core) : Prop := { m with cyc := c.cyc, cycn := c.cycn, cycnFrac := c.cycnFrac, frame := c.frame, frameDuty := c.frameDuty, evt := c.evt
                                              verify := c.verify } = c ∧
      m.cyc = c.cyc + 1 ∧ m.frame = (c.frame + 1) % 64 ∧ m.frameDuty = d ∧ (idle → m.verify = mode) ∧ (¬ idle → m.verify = c.verify)
    let ev (m : Core) (j n : Nat) : Prop := m.evt.getD j 0 = c.evt.getD j 0 + BitVec.ofNat 64 n
    let i : Instr := .issueCycle core
    (finishes s core = true → (mapGet s.cores core).isSome = true → i ∈ dueSteps s) ∧ (clocked s core = true ∨ finishes s core = true →
    ((c.frame + 1) * d / 64 = c.frame * d / 64 → ∃ m, counted m ∧ ev m 0 0 ∧ ev m 1 0 ∧ ev m 2 1 ∧ exec i s = .next { r.setCore core m with cur := none }) ∧
    (c.frame * d / 64 < (c.frame + 1) * d / 64 → ∃ m, counted m ∧ ev m 0 0 ∧ ev m 1 0 ∧ ev m 2 0 ∧
      let v := meetBreakpoints (r.setCore core m) core
      let ready (j : Nat) : Prop := j < 6 ∧ ctxReady v ⟨core, j⟩ = true
      let waited (j : Nat) : Nat := c.wait.getD j 0
      let helperDue : Prop := (oldestReady c).isSome = true ∧ (ready 4 ∨ ready 5) ∧ 7 ≤ c.sinceHelper
      let longest (P : Nat → Prop) : Prop := P k ∧ ∀ j, P j → waited j < waited k ∨ (waited j = waited k ∧ k ≤ j)
      let keep (j : Nat) : Prop := c.gcur = some j ∧ ready j ∧ c.grun < 256 ∧ yldOf c j = false
      let down (a : Core) : Prop := (∀ t, t < 4 → (a.threads.getD t {}).stall = (c.threads.getD t {}).stall - 1) ∧
        ∀ h, h < 2 → (a.helpers.getD h {}).stall = (c.helpers.getD h {}).stall - 1
      let issues (f : Core → Prop) : Prop := ∃ u, exec i s = .next u ∧ u.cur = some ⟨core, k⟩ ∧ (let a := u.core core
        a.wait.getD k 0 = 0 ∧ (∀ j, j < 6 → j ≠ k → a.wait.getD j 0 = waited j + 1) ∧ a.sinceHelper = (if 4 ≤ k then 0 else c.sinceHelper + 1) ∧ ev a 0 0 ∧
        ev a 1 0 ∧ down a ∧ f a)
      ((∀ j, ¬ ready j) → ∃ u, exec i s = .next u ∧ u.cur = none ∧ (let a := u.core core
        ev a 0 0 ∧ ev a 1 1 ∧ down a ∧ ∀ j, j < 6 → a.wait.getD j 0 = waited j + 1)) ∧
      (helperDue → longest (fun j => ready j ∧ 4 ≤ j) → issues fun _ => True) ∧
      (¬ helperDue → c.corecfg.getLsbD 0 = true → (∀ j, 1 ≤ j → j ≤ 6 → k = (c.glast + j) % 6 → ready k → (∀ l, 1 ≤ l → l < j → ¬ ready ((c.glast + l) % 6)) →
        issues fun a => a.glast = k)) ∧
      (¬ helperDue → c.corecfg.getLsbD 0 = false →
        (keep k → issues fun a => a.gcur = some k ∧ a.grun = c.grun + 1) ∧
        ((∀ j, ¬ keep j) → longest (fun j => ready j ∧ c.gcur ≠ some j) → issues fun a => a.gcur = some k ∧ a.grun = 1) ∧
        ((∀ j, ¬ keep j) → c.gcur = some k → ready k → (∀ j, ready j → j = k) → issues fun a => a.gcur = some k ∧ a.grun = 1))))) ∧
  -- in a cycle of the core the results of scalar instructions may come, and their marks clear; they come after a bounded time (R275)
  (∀ (s : State) (core k : Nat),
    let t := s.thread core k
    let u := resultsCome s core
    let u' := u.thread core k
    (t.busyS = 0 → t.busyP = 0 → k < 4 → u' = t) ∧ SameMemory s u ∧
      (t.busyS ≠ 0 ∨ t.busyP ≠ 0 → k < 4 → u' = { t with busyS := 0, busyP := 0, busyFor := 0 } ∨ (t.busyFor < Config.patience ∧ u' = { t with busyFor := t.busyFor + 1 }))) ∧
  -- the issue cycle counts when the chosen instruction issues, and as one without an issue when it stays where it was (R361)
  (∀ (s u : State) (x : Ctx) (j n : Nat),
    let v := countIssue s x u
    let ev (j n : Nat) : Prop := (v.core x.core).evt.getD j 0 = (u.core x.core).evt.getD j 0 + BitVec.ofNat 64 n
    SameMemory u v ∧ v.thread x.core n = u.thread x.core n ∧ (∀ k, k ≠ x.core → v.core k = u.core k) ∧ (j < 16 → j ≠ 0 → j ≠ 1 → j ≠ 12 → ev j 0) ∧
    (hasIssued s x = true ∨ stayed s u x = true → ev 0 0 ∧ ev 1 1 ∧ ev 12 0 ∧ v.parts = u.parts) ∧
    (hasIssued s x = false → stayed s u x = false → ev 0 1 ∧ ev 1 0 ∧ ev 12 (if x.isHelper then 1 else 0) ∧
      ∀ p, s.partOf x.core = some p → (v.part p).energy = (u.part p).energy + BitVec.ofNat 80 (weights u).issue)) ∧
  (∀ (s : State) (core thr : Nat) (q : Pipe) (e : PipeEntry) (l : List PipeEntry) (d : Reg),
    let t := s.thread core thr
    let hand (e : PipeEntry) : State := { s with lane := some e, cur := some ⟨core, e.thr⟩ }
    (s.pipe core q = e :: l →
      (e.why = .queued → (s.hasElder core e.thr e.num = false ∨ dispatchable s core e = true) → exec (.pipeDispatch core q none) s = .next (hand e)) ∧
      (e.why = .presence ∨ e.why = .range ∨ e.why = .host ∨ e.why = .plane ∨ (e.why = .elder ∧ s.hasElder core e.thr e.num = false) →
        exec (.laneWaitRelease core q) s = .next (hand e)) ∧
      (e.why = .mireRoom → exec (.mireStallResume core q) s = .next (hand e))) ∧
    (∀ ea ph k o, t.st = .waiting (.barwait ea ph) → window s core ea = .sp k o →
      let done : Prop := t.barEnd ≠ none ∨ o / 8 ∉ (s.core k).live ∨ BitVec.ofNat 32 (barPhase (bytesAt s (.sp k o) 8)) ≠ ph
      (done → exec (.barwaitRelease core thr) s = .next (s.modThread core thr fun t => { t with st := .running })) ∧
      (¬ done → exec (.barwaitRelease core thr) s = .next s)) ∧
    -- the result that a busy mark waits for is there: no instruction that reads it waits for it any longer (R275)
    (thr < 4 → (∃ u, exec (.scalarResultWrite core thr d false) s = .next u ∧
        (∀ j, j < 64 → (u.thread core thr).busyS.getLsbD j = (t.busyS.getLsbD j && decide (j ≠ d.toNat))) ∧
        { u.thread core thr with busyS := t.busyS } = t ∧ SameMemory s u) ∧
      ∃ u, exec (.scalarResultWrite core thr d true) s = .next u ∧
        (∀ j, j < 8 → (u.thread core thr).busyP.getLsbD j = (t.busyP.getLsbD j && decide (j ≠ d.toNat))) ∧
        { u.thread core thr with busyP := t.busyP } = t ∧ SameMemory s u))

/-! ## Stopping, saving, dumping -/

/-- R276 to R284, R299: a host's suspend request asks a thread to stop with CAUSE 4; a stopping thread with nothing left to finish
freezes its copies; its context is written to the lowest free slot, byte by byte as the layout says, and becomes free; a context that
holds a slot's task reads back its registers with their presence, masks, flags, slots, nest, outputs and frozen commands, and the slot
is free, unless a line of the slot is poisoned: then the task ends with a fatal record. R268, R341, R350 to R353: DUMP_ARM arms the
engine; DUMP_REQUEST adds a stopped context to the dump, and the first one's header says that the dump is in progress; DUMP_END writes
the header and the image of each frozen context, enters the dump record, disarms and ends the contexts that were frozen; after a write
that returns an error it ends with status 3. One context fits into the buffer. That DUMP_ARM changes nothing while a dump is under way,
that a request for a context that is in the dump changes nothing, and what a dump waits for, are the model's choice. The model's own
readings in it: log 11 (DESIGN CHOICE), log 39 (DEDUCED), log 40 (DEDUCED). -/
def Obligations.SavesAndDumps : Prop :=
  (∀ (s : State) (core thr sl part : Nat) (k : Task) (x : Saved),
    let t := s.thread core thr
    let p := s.part k.part
    let at' (off : Nat) : Nat := p.saveBase.toNat + 131072 * sl + off
    let live : Prop := t.task = some k ∧ t.st ≠ .free ∧ t.st ≠ .frozen ∧ (∀ n, t.st ≠ .restoring n) ∧ ∀ n, t.st ≠ .ending n
    let room : Prop := (s.part part).fq.length < 256 ∧ (s.part part).fqWait = []
    -- a slot of the partition that is read: a byte, and whether it is poisoned
    let there (off : Nat) : Byte := byteAt s (.hbm ((s.part part).saveBase.toNat + 131072 * sl + off))
    let bad (off : Nat) : Bool := linePoisoned s ((s.part part).saveBase.toNat + 131072 * sl + off)
    let num (off n : Nat) : Nat := leNat ((List.range n).map fun j => there (off + j))
    let img := contextImage s core thr (t.stop.getD 0) (match t.st with | .stopped | .stoppedAfter _ => true | _ => false)
    let word (off : Nat) : W64 := BitVec.ofNat 64 (bytesAt s (.hbm ((s.part part).saveBase.toNat + 131072 * sl + off)) 8)
    (thr < 4 → live → s.reaches k.part = true → (t.stop = none → exec (.hostSuspendRequest core thr) s = .next (s.setThread core thr { t with stop := some 4 })) ∧
      -- two requests give one save (R277); one that comes while the thread stops for a page is kept
      (t.stop ≠ none → t.stop ≠ some 2 → exec (.hostSuspendRequest core thr) s = .next (s.setThread core thr t)) ∧
      (t.stop = some 2 → exec (.hostSuspendRequest core thr) s = .next (s.setThread core thr { t with asked := true }))) ∧
    (live → t.stop ≠ none → t.drained = false → s.inPipe core thr = false → (∀ r ∈ (s.core core).mire, r.thr = thr → r.dead = true) → t.fifo = [] →
      t.hostAcc = none → ∃ u, exec (.stopDrain core thr) s = .next u ∧ u.thread core thr = { t with drained := true, stall := 0 } ∧
        (u.core core).copyQ = (s.core core).copyQ.map (fun e =>
          if e.owner = .live core thr ∧ (e.cmd.op = .cpy ∨ e.cmd.op = .cpyt ∨ e.cmd.op = .cfill) then { e with phase := .frozen, blocks := [] } else e) ∧ SameMemory s u) ∧
    (thr < 4 → live → t.drained = true → (∀ r ∈ p.fqWait, r.cls = 8 → r.ident ≠ s.thid core thr) → sl < p.saveCnt.toNat → mapGet p.saved sl = none →
      (∀ j, j < sl → mapGet p.saved j ≠ none) → sl ≤ p.saved.length → s.memOk = true →
      ∃ u y, exec (.contextSave core thr) s = .next u ∧ (∀ j, j < img.length → byteAt u (.hbm (at' j)) = img.getD j 0) ∧
        (∀ m, (∀ j, j < img.length → m ≠ .hbm (at' j)) → byteAt u m = byteAt s m) ∧ mapGet (u.part k.part).saved sl = some y ∧ y.task = k ∧ y.home = core ∧
        y.slots = t.slots ∧ y.outRes = t.outRes ∧ y.sel = t.sel ∧
        u.thread core thr = { ({} : Thread) with instret := t.instret, cycnf := t.cycnf } ∧
        (∀ e ∈ (u.core core).copyQ ++ (u.core core).units, e.owner ≠ .live core thr) ∧
        (t.st = .running → t.stop ≠ some 4 → y.wait = .none ∧ (u.pav (pavOf core)).disp = (let l := (s.pav (pavOf core)).disp.getD k.prio []
          (s.pav (pavOf core)).disp.setIfInBounds k.prio (if t.stop = some 1 then .resume k.part sl :: l else l ++ [.resume k.part sl]))) ∧
        (t.st = .running → t.stop = some 4 → y.wait = .release) ∧ (t.st = .stopped → y.wait = .host) ∧ (t.st = .stoppedAfter true → y.wait = .svc)) ∧
    (let w (off : Nat) : Nat := leAt img off 8
     [w 0x08, w 0x10, w 0x18, w 0x20, w 0x28, w 0x30, w 0x38, w 0x40, w 0x48, w 0x50, w 0x58, w 0x60, w 0x68, w 0x70, w 0x78, w 0x80] =
       [t.pc.toNat, t.vl.toNat, t.vtype.toNat, t.fctl.toNat, t.istat.toNat, t.vstart.toNat, t.hwm.toNat, t.mprog.toNat, t.tags.toNat, t.cerr.toNat,
        t.srstate.toNat, t.hentry.toNat, t.sel.toNat, t.p.toNat / 2 * 2, (s.thid core thr).toNat, t.seq.toNat] ∧
     (∀ j, j < 32 → w (0x100 + 8 * j) = (t.pmk.getD j 0).toNat) ∧
     (∀ m j, m < 8 → j < 32 → w (0x200 + 256 * m + 8 * j) = ((t.m.getD m default).getD j 0).toNat) ∧
     (∀ j, j < 8 → t.slots.getD j none = none → ∀ b, b < 32 → img.getD (0xA00 + 32 * j + b) 0 = 0) ∧
     (∀ j x, j < 8 → t.slots.getD j none = some x → (let o := 0xA00 + 32 * j
       [leAt img o 8, leAt img (o + 8) 8, leAt img (o + 16) 2, leAt img (o + 20) 1] = [x.val.toNat, x.pc.toNat, x.cause.toNat, x.reg.toNat])) ∧
     (∀ j, j < t.outs.length → j < 16 → let v := t.outs.getD j default
       w (0xD00 + 16 * j) = v.1.toNat ∧ w (0xD08 + 16 * j) = v.2.toNat) ∧
     -- the registers, and after them their presence, that the rectangle of HWM covers (R71, R80)
     (let cp := (s.core core).copyQ.filter fun e => e.owner == .live core thr && e.phase == .frozen
      let regs := t.hwm.toNat % 64 + 1
      let ext := t.hwm.toNat / 64 % 2 ^ 11
      let from' := 0x1000 + 128 * cp.length
      let after := (from' + regs * ext + 63) / 64 * 64
      (∀ e ∈ cp, e.cmd.img.length = 64) → t.hwm.getLsbD 17 = true →
        (∀ r b, r < regs → b < ext → img.getD (from' + r * ext + b) 0 = BitVec.ofNat 8 ((t.word r (b / 8)).bits.toNat / 256 ^ (b % 8))) ∧
        (∀ r j, r < regs → 8 * j < ext → img.getD (after + r * ((ext + 7) / 8) + j) 0 = (t.word r j).pres) ∧
        img.length = after + regs * ((ext + 7) / 8))) ∧
    (t.st = .restoring sl → s.partOf core = some part → mapGet (s.part part).saved sl = some x →
      (badField s part sl = none → ∃ u, exec (.contextRestore core thr) s = .next u ∧ mapGet (u.part part).saved sl = none ∧ SameMemory s u ∧
        (let v := u.thread core thr
         -- a control register holds what a write of the word stores: its reserved bits read 0 (R6), and the seed 0 is the default (R75)
         [v.vl, v.vtype, v.istat, v.vstart, v.hwm, v.mprog, v.tags, v.cerr, v.hentry, v.sel, v.seq] =
           [word 0x10 &&& 0xFFF, word 0x18 &&& 3, word 0x28 &&& 0x71F, word 0x30 &&& 0x7FF, word 0x38 &&& 0x3FFFF, word 0x40 &&& ~~~0xF0, word 0x48,
            word 0x50, word 0x60 &&& 0xFFFFFFFFFFFFFC, word 0x68 &&& 0x8000FFFFFFFFFFFF, word 0x80] ∧
         v.fctl = fctlStore (word 0x20) ∧ v.srstate = (if word 0x58 = 0 then 0x5DEECE66D1CE4E5B else word 0x58) ∧
         v.pc = ((word 0x08).setWidth 56 &&& ~~~3) + (if x.after then 12 else 0) ∧ v.p = (word 0x70).setWidth 8 ||| 1 ∧ v.st = .running ∧
         v.task = some { x.task with order := (s.part part).order } ∧
         (∀ m j, m < 8 → j < 32 → (v.m.getD m default).getD j 0 = word (0x200 + 256 * m + 8 * j)) ∧
         -- the registers of the rectangle of HWM, the scalar ones their first words, with their presence; the others are 0 and PRESENT
         (let hwm := (word 0x38).toNat
          let regs := if hwm / 2 ^ 17 % 2 = 1 then hwm % 64 + 1 else 0
          let ext := hwm / 64 % 2 ^ 11
          let k := (ext + 7) / 8
          let from' := 0x1000 + 128 * (num 0 8 / 2 ^ 32 % 2 ^ 9)
          let after := (from' + regs * ext + 63) / 64 * 64
          let poisoned (r j : Nat) : Prop := ∃ b, 8 * j + b < ext ∧ b < 8 ∧ bad (from' + r * ext + 8 * j + b) = true
          (∀ r j, r < regs → j < k → j < 128 → (v.word r j).bits = BitVec.ofNat 64 (num (from' + r * ext + 8 * j) (min 8 (ext - 8 * j))) ∧
            (poisoned r j → (v.word r j).pres = 0xFF) ∧ (¬ poisoned r j → (v.word r j).pres = there (after + r * k + j))) ∧
          (∀ r j, r < 64 → j < 128 → (regs ≤ r ∨ k ≤ j) → v.word r j = {}) ∧
          -- PMK, with the elements that poison reached
          (∀ i, i < 2048 → (maskBit v.pmk i = true ↔ (word (0x100 + i / 64 * 8)).getLsbD (i % 64) = true ∨
            (∃ r, r < regs ∧ i / 4 < k ∧ poisoned r (i / 4)) ∨ ∃ m, m < 8 ∧ bad (0x200 + 256 * m + i / 512 * 64) = true))) ∧
         -- the fault slots, the nest and the outputs
         (∀ j, j < 8 → (num 0 8).testBit (48 + j) = false → v.slots.getD j none = none) ∧
         (∀ j, j < 8 → (num 0 8).testBit (48 + j) = true → ∃ y, v.slots.getD j none = some y ∧ (let o := 0xA00 + 32 * j
           [y.val.toNat, y.pc.toNat, y.cause.toNat, y.elem, y.reg.toNat, y.half] =
             [num o 8, num (o + 8) 8 % 2 ^ 56, num (o + 16) 2, num (o + 18) 2, num (o + 20) 1 % 64, num (o + 22) 2 % 512])) ∧
         ((num 0 8).testBit 47 = false → v.nest = none) ∧
         ((num 0 8).testBit 47 = true → ∃ y, v.nest = some y ∧ y.lev = min 6 ((word 0xB00).toNat % 8) ∧ y.blen = (word 0xB00).toNat / 256 % 32 ∧
           y.bodyStart = (word 0xB08).setWidth 56 &&& ~~~3 ∧ y.cnt.length = y.lev ∧ y.idx.length = y.lev ∧
           (∀ j, j < y.lev → y.cnt.getD j 0 = word (0xB10 + 8 * j) ∧ y.idx.getD j 0 = word (0xB40 + 8 * j)) ∧
           ∀ b, b ∈ y.binds ↔ ∃ j, j < 4 ∧ (let o := 0xB80 + 64 * j
             num (o + 2) 1 ≠ 0 ∧ b = ⟨j, BitVec.ofNat 6 (num o 1), BitVec.ofNat 6 (num (o + 1) 1), word (o + 8),
               (List.range y.lev).map fun i => word (o + 16 + 8 * i)⟩)) ∧
         v.outs = (List.range (num 0 8 / 2 ^ 16 % 2 ^ 5)).map (fun j => (word (0xD00 + 16 * j), word (0xD08 + 16 * j)))) ∧
        -- the frozen commands, in push order, go on as the slot's records hold them
        (let held := (s.core x.home).copyQ.filter fun e => e.owner == .saved part sl && e.phase == .frozen
         (held.map (·.id)).Nodup → x.copies.Nodup → ∀ j p, p ∈ held → x.copies[j]? = some p.id → j < num 0 8 / 2 ^ 32 % 2 ^ 9 → let o := 0x1000 + 128 * j
           ∃ q ∈ (u.core x.home).copyQ, q.id = p.id ∧ q.owner = .live core thr ∧ q.phase = .run ∧ q.cmd.img = (List.range 64).map (fun b => there (o + b)) ∧
             q.cmd.seq = word (o + 64) ∧ q.cmd.tag = some (BitVec.ofNat 6 (num (o + 73) 1)) ∧ q.segs = num (o + 104) 8)) ∧
      (∀ off, badField s part sl = some off →
        (room → (s.part part).dump.armed = false → hasFrozen s part x.task.inst = false → ∃ u r, exec (.contextRestore core thr) s = .next u ∧
          (u.thread core thr).st = .free ∧ findInst u part x.task.inst = none ∧ mapGet (u.part part).saved sl = none ∧
          r ∈ (u.part part).fq ∧ r.cls = 5 ∧ r.code = 2 ∧ r.flags = 2 ∧ r.aux = BitVec.ofNat 32 off) ∧
        -- a record that finds no room keeps the task stopped (R268), and an armed dump engine freezes it (R350)
        (256 ≤ (s.part part).fq.length → (s.part part).dump.armed = false → ∃ u y who, exec (.contextRestore core thr) s = .next u ∧
          (u.thread core thr).st = .free ∧ mapGet (u.part part).saved sl = some y ∧ y.wait = .ending who ∧ (u.part part).insts = (s.part part).insts) ∧
        ((s.part part).dump.armed = true → inDump s part (.saved part sl) = false → ∃ u y r, exec (.contextRestore core thr) s = .next u ∧ (u.thread core thr).st = .free ∧
          mapGet (u.part part).saved sl = some y ∧ y.wait = .frozen ∧ (u.part part).dump.frozen = (s.part part).dump.frozen ++ [(.saved part sl, some r)])))) ∧
  (∀ (s : State) (part base len core thr : Nat) (k : Task) (f : Option FRec),
    let p := s.part part
    let d := p.dump
    let t := s.thread core thr
    let rec' (f : Option FRec) : List Byte := (f.map recordBytes).getD (List.replicate 64 0)
    let img := contextImage s core thr 5 (match t.st with | .stopped | .stoppedAfter _ => true | _ => false)
    let body := rec' f ++ natLe 8 img.length ++ img
    let head := natLe 4 0x504D5544 ++ [1, 1] ++ natLe 1 d.nsec ++ [1] ++ natLe 8 (256 + body.length) ++ rec' f ++ rec' d.second ++ List.replicate 112 0
    let image := head ++ body
    (s.reaches part = true → base % 4096 = 0 → d.frozen = [] →
      exec (.dumpArm part base len) s = .next (s.setPart part { p with dump := { base := base, len := len, armed := true } })) ∧
    (d.frozen ≠ [] → exec (.dumpArm part base len) s = .next s) ∧
    (∀ who, stoppedFor s who ≠ some part ∨ inDump s part who = true → exec (.dumpRequest part who) s = .next s) ∧
    (∀ sl x, mapGet p.saved sl = some x → x.wait = .host ∨ x.wait = .svc ∨ x.wait = .release → s.reaches part = true → d.armed = true →
      inDump s part (.saved part sl) = false → ∃ u, exec (.dumpRequest part (.saved part sl)) s = .next u ∧ u.cores = s.cores ∧
        u.part part = { p with dump := { d with frozen := d.frozen ++ [(.saved part sl, none)] } }) ∧
    (∀ svc, t.st = .stopped ∨ t.st = .stoppedAfter svc ∨ t.drained = true → t.task = some k → k.part = part → thr < 4 → s.reaches part = true → d.armed = true →
      inDump s part (.live core thr) = false → s.memOk = true →
      ∃ u, exec (.dumpRequest part (.live core thr)) s = .next u ∧ u.cores = s.cores ∧ u.part part = { p with dump := { d with frozen := d.frozen ++ [(.live core thr, none)] } } ∧
        -- the first context begins the dump: its header says that it is in progress (R351)
        (d.frozen = [] → 256 ≤ d.len → ∀ j, j < 256 → byteAt u (.hbm (d.base + j)) = (natLe 4 0x504D5544 ++ [1, 0] ++ natLe 1 d.nsec ++ [0] ++ natLe 8 256
          ++ rec' none ++ rec' d.second ++ List.replicate 112 0).getD j 0) ∧
        ∀ m, (∀ j, d.frozen = [] → 256 ≤ d.len → j < 256 → m ≠ .hbm (d.base + j)) → byteAt u m = byteAt s m) ∧
    -- while a context of the dump has a record that is not discarded, the dump waits (R80, R173)
    (∀ r ∈ (s.core core).mire, r.thr = thr → r.dead = false → (.live core thr, f) ∈ d.frozen → exec (.dumpEnd part none) s = .next s) ∧
    (d.frozen = [(.live core thr, f)] → t.st = .frozen → t.task = some k → k.part = part → p.fqWait = [] → (∀ r ∈ (s.core core).mire, r.thr = thr → r.dead = true) →
      (∀ i ∈ p.insts, i.aborted = true → i.id = k.inst) → 256 + body.length ≤ d.len → s.memOk = true →
      ∃ v, exec (.dumpEnd part none) s = .next (abortInstance (endThread v core thr) part k.inst) ∧ v.cores = s.cores ∧ (v.part part).dump = {} ∧
        (∀ j, j < image.length → byteAt v (.hbm (d.base + j)) = image.getD j 0) ∧
        (∀ m, (∀ j, j < image.length → m ≠ .hbm (d.base + j)) → byteAt v m = byteAt s m) ∧ (p.fq.length < 256 → p.fqWait = [] →
          ∃ r, (v.part part).fq = p.fq ++ [r] ∧ r.cls = 0xA ∧ r.code = 1 ∧ r.flags = 4 ∧ r.aux = 1 ∧ r.aux2 = BitVec.ofNat 64 (256 + body.length)) ∧
        ∀ n, 256 ≤ n → n < 256 + body.length → ∃ v, exec (.dumpEnd part (some n)) s = .next (abortInstance (endThread v core thr) part k.inst) ∧
          (∀ j, j < 256 → byteAt v (.hbm (d.base + j)) = (natLe 4 0x504D5544 ++ [1, 3] ++ natLe 1 d.nsec ++ [0] ++ natLe 8 n ++ rec' f ++ rec' d.second
            ++ List.replicate 112 0).getD j 0) ∧ (∀ j, 256 ≤ j → j < n → byteAt v (.hbm (d.base + j)) = image.getD j 0) ∧
          (p.fq.length < 256 → p.fqWait = [] → ∃ r, (v.part part).fq = p.fq ++ [r] ∧ r.cls = 0xA ∧ r.aux = 3 ∧ r.aux2 = BitVec.ofNat 64 n)))

/-- R122, R259, R260, R268, R294, R333, R344: the host resumes a thread that stopped at a precise fault at its PC, and one that stopped
at a trap or a service call at PC + 12; it releases, resumes or ends a saved task; a page answer lets the thread, the saved task or the
command go on, or ends it with a fatal fault; consuming records lets those that wait enter, and the contexts of fatal ones end then.
That a resumption of a thread that stopped at a service call, and a release of a task that does not wait for its release, change
nothing is the model's choice. The model's own readings in it: log 11 (DESIGN CHOICE), log 34 (DEDUCED), log 39 (DEDUCED). -/
def Obligations.HostAnswers : Prop :=
  ∀ (s : State) (core thr part sl n page : Nat) (k : Task) (x : Saved) (ok : Bool),
    let t := s.thread core thr
    let p := s.part part
    let who : ThreadName := .live core thr
    let away : ThreadName := .saved part sl
    let goes (i : Instr) (v : Thread) : Prop := exec i s = .next (s.setThread core thr v)
    let woken (s : State) (head : Bool) : State := (s.modPart part fun p => { p with saved := mapSet p.saved sl { x with wait := .none } }).modPav
      (pavOf x.home) fun v =>
        let l := v.disp.getD x.task.prio []
        { v with disp := v.disp.setIfInBounds x.task.prio (if head then .resume part sl :: l else l ++ [.resume part sl]) }
    let gone (u : State) (part inst : Nat) : Prop := findInst u part inst = none
    let room : Prop := p.fq.length < 256 ∧ p.fqWait = []
    let fatal (u : State) (part : Nat) : Prop := ∃ r, r ∈ (u.part part).fq ∧ r.cls = 2 ∧ r.code = 6 ∧ r.flags = 2
    -- a task of the host's, which no dump holds
    let mine : Prop := t.task = some k ∧ s.reaches k.part = true ∧ inDump s k.part who = false
    let asked (w : List PageWaiter) : Prop := p.pageReqs.find? (fun r => r.page == page) = some ⟨page, w⟩
    let answered : State := s.modPart part fun p => { p with pageReqs := p.pageReqs.filter fun q => q.page != page }
    let i : Instr := .pageRequestResponse part page ok
    (mine → t.st = .stopped → goes (.hostResume who) { t with st := .running, brkSkip := true }) ∧
    (mine → t.st = .stoppedAfter false → goes (.hostResume who) { t with st := .running, pc := t.pc + 12, brkSkip := false }) ∧
    (mine → t.st = .stoppedAfter true → goes (.serviceAnswer who) { t with st := .running, pc := t.pc + 12, brkSkip := false } ∧ exec (.hostResume who) s = .next s) ∧
    (∀ svc, t.st = .stopped ∨ t.st = .stoppedAfter svc → mine → hasFrozen s k.part k.inst = false →
      ∃ u, exec (.hostEndThread who) s = .next u ∧ (u.thread core thr).st = .free ∧ gone u k.part k.inst) ∧
    (mapGet p.saved sl = some x → s.reaches part = true → inDump s part away = false →
      (x.wait = .release → exec (.hostRelease part sl) s = .next (woken s true)) ∧ (x.wait ≠ .release → exec (.hostRelease part sl) s = .next s) ∧
      (x.wait = .host → exec (.hostResume away) s = .next (woken s true)) ∧ (x.wait = .svc → exec (.serviceAnswer away) s = .next (woken s true)) ∧
      (x.wait = .host ∨ x.wait = .svc ∨ x.wait = .release → hasFrozen s part x.task.inst = false →
        ∃ u, exec (.hostEndThread away) s = .next u ∧ mapGet (u.part part).saved sl = none ∧ gone u part x.task.inst) ∧
      (∀ ea, x.wait = .page page ea → asked [.thread away] → (ok = true → exec i s = .next (woken answered false)) ∧
        (ok = false → room → p.dump.armed = false → hasFrozen s part x.task.inst = false →
          ∃ u, exec i s = .next u ∧ mapGet (u.part part).saved sl = none ∧ gone u part x.task.inst ∧ fatal u part))) ∧
    (∀ ea, t.st = .waiting (.page page ea) → mine → s.partOf core = some part → k.part = part → asked [.thread who] →
      (ok = true → reserved s core thr = false → ∃ u, exec i s = .next u ∧
        u.thread core thr = { t with st := .running, drained := false, stop := if t.asked then some 4 else none, asked := false } ∧ (u.part part).pageReqs = p.pageReqs.filter fun q => q.page != page) ∧
      (ok = false → room → p.dump.armed = false → hasFrozen s k.part k.inst = false →
        ∃ u, exec i s = .next u ∧ (u.thread core thr).st = .free ∧ gone u k.part k.inst ∧ fatal u part)) ∧
    (∀ c e, findPend s c n = some e → s.reaches part = true → e.phase = .page page → asked [.cmd c n] → ok = true →
      ∃ u, exec i s = .next u ∧ findPend u c n = some { e with phase := .run }) ∧
    (s.reaches part = true →
      ((∀ c j w, (s.thread c j).st ≠ .ending w) → (∀ e ∈ p.saved, ∀ w, e.2.wait ≠ .ending w) →
        exec (.faultQueueConsume part n) s = .next (s.setPart part (let q := p.fq.drop n
          { p with fq := q ++ p.fqWait.take (256 - q.length), fqWait := p.fqWait.drop (256 - q.length) }))) ∧
      -- a thread that a fatal fault has stopped ends once its record is in the queue
      (∀ w, t.st = .ending w → thr < 4 → t.task = some k → k.part = part → p.fq.length - n + p.fqWait.length ≤ 256 → hasFrozen s part k.inst = false →
        ∃ u, exec (.faultQueueConsume part n) s = .next u ∧ (u.thread core thr).st = .free ∧ gone u part k.inst))

/-! ## Pavilions, power, trace -/

/-- R209 to R211, R213, R215, R383: an assignment gives a free pavilion to a partition, and is refused whole when it names one of
another; a withdrawal scrubs the pavilion, which joins the partition that it was assigned to meanwhile once the scrub completes with
every core at its reset values; patrol scrub takes the lines in ascending order, and a new deadline with the next pass. R63, R208,
R349: an error in a register word is poison for its reads, while its presence stays, one in a scratchpad word poisons it, and a
mismatch waits for the next instruction of verify mode. That a patrol line is charged to the partition which the input names, and that
a deadline of 0 or above 72 hours changes nothing, is the model's choice. The model's own readings in it: log 11 (DESIGN CHOICE), log
13 (DESIGN CHOICE), log 41 (DEDUCED), log 42 (DESIGN CHOICE). -/
def Obligations.Pavilions : Prop :=
  ∀ (s : State) (pav n m hours : Nat),
    let v := s.pav pav
    let i (dest : Option Nat) : Instr := .pavilionAssign dest [pav]
    let ready : Prop := s.lodge.ready = true ∧ s.lodge.min = false ∧ pav < 32
    let idle : Prop := v.queued = []
    let joined (u : State) (n : Nat) : Prop := (u.pav pav).part = some n ∧ (u.pav pav).scrub = none ∧
      ∀ k, pavOf k = pav → (u.core k).corecfg = 0 ∧ (u.core k).cyc = 0 ∧ (u.core k).cycn = 0 ∧ ∀ j, j < 16 → (u.core k).evt.getD j 0 = 0
    let line := s.patrolPos
    let last : Prop := 0x9000000000 / 64 ≤ line + 1
    let next (s : State) : State := { s with patrolPos := line + 1 }
    (ready → idle → v.scrub = none → v.part = none → n < 32 → homePavs s n = [] → (∀ e ∈ s.pavs, pavGoal e.2 ≠ some n) →
      ∃ u, exec (i (some n)) s = .next u ∧ joined u n ∧ (u.fn n).apbase = 0 ∧ (u.part n).cap = 0) ∧
    (ready → (∃ k, pavGoal v = some k ∧ k ≠ n) → exec (i (some n)) s = .next s) ∧
    (ready → idle → v.scrub = none → v.part = some m → ∃ u, exec (i none) s = .next u ∧ (u.pav pav).part = none ∧ (u.pav pav).scrub = some none ∧
      -- each of its threads has stopped with its record, and has ended unless it is frozen for a dump or its record waits for room
      (∀ k t, pavOf k = pav → t < 4 → (u.thread k t).task = none ∨ (u.thread k t).st.lingers = true) ∧
      ∀ k t x, pavOf k = pav → t < 4 → (s.thread k t).task = some x → (s.thread k t).st.lingers = false →
        ∃ r ∈ (u.part m).fq ++ (u.part m).fqWait, r.cls = 6 ∧ r.code = 8 ∧ r.flags = 2 ∧ r.ident = s.thid k t) ∧
    (ready → v.scrub = some none → v.queued = [] → n < 32 →
      (s.pavs.filter fun e => pavGoal e.2 == some n).length < 32 → ∃ u, exec (i (some n)) s = .next u ∧ (u.pav pav).scrub = some (some n)) ∧
    (∀ dest, v.scrub = some dest → v.queued = [] → (∀ e ∈ s.cores, pavOf e.1 = pav → ∀ t, t < 4 → (e.2.threads.getD t {}).st.lingers = false) →
      (∀ e ∈ s.parts, ∀ x ∈ e.2.saved, x.2.wait = .frozen → pavOf x.2.home ≠ pav) →
      ∃ u, exec (.scrubComplete pav) s = .next u ∧ (dest = none → (u.pav pav).part = none ∧ (u.pav pav).scrub = none) ∧ (∀ n, dest = some n → joined u n) ∧
        (∀ k, pavOf k = pav → (u.core k) = { ({} : Core) with suspect := (s.core k).suspect }) ∧
        ∀ k, pavOf k ≠ pav → u.core k = s.core k) ∧
    (s.lodge.ready = true → s.lodge.min = false → ¬ last → exec (.patrolScrubLine ⟨.clean, none⟩) s = .next (next s) ∧
      ((mapGet s.parts m).isSome = true → exec (.patrolScrubLine ⟨.clean, some m⟩) s = .next (next (charge s m none (weights s).hbmLine))) ∧
      exec (.patrolScrubLine ⟨.corrected, none⟩) s = .next (next { s with corrected := s.corrected + 1 }) ∧
      ∃ u, exec (.patrolScrubLine ⟨.uncorrectable, none⟩) s = .next (next u) ∧ (∀ k, k ∈ u.hbmPois ↔ k = line ∨ k ∈ s.hbmPois) ∧ u.errlog = s.errlog ++ [64 * line]) ∧
    (s.lodge.ready = true → s.lodge.min = false → last → exec (.patrolScrubLine ⟨.clean, none⟩) s = .next
      { s with patrolPos := 0, patrolD := s.patrolNext, patrolStart := s.reft.toNat }) ∧
    (1 ≤ hours → hours ≤ 72 → exec (.patrolDeadlineWrite hours) s = .next { s with patrolNext := hours }) ∧
    (hours = 0 ∨ 72 < hours → exec (.patrolDeadlineWrite hours) s = .next s) ∧
    (∀ (core thr w g : Nat) (q : Pipe) (r : Reg) (again : Bool),
      let t := s.thread core thr
      s.pipe core q = [] →
        (thr < 4 → w < 256 → ∃ u, exec (.pipeDispatch core q (some (.word thr r w))) s = .next (s.setThread core thr u) ∧
          (∀ k h, u.readPres k h = if k = r.toNat ∧ h / 2 = w then .pois else t.readPres k h) ∧ { u with errs := t.errs } = t) ∧
        exec (.pipeDispatch core q (some (.mismatch g again))) s =
          .next (s.setCore core { s.core core with flaws := (s.core core).flaws ++ [⟨g, again⟩] }) ∧
        (w < 0x10000 → ∃ u, exec (.pipeDispatch core q (some (.scratchpad w))) s = .next (s.setCore core { s.core core with pois := u }) ∧
          ∀ k, k ∈ u ↔ k = w ∨ k ∈ (s.core core).pois))

/-- R358, R361, R363, R364: a frequency write opens a relock window of 1,024 ticks, or is held during one; the window's end brings the
new frequency, and each tick of it counts in the event of its cores; a cap is 0 to 4,000 W; the governor's evaluation lowers the duty
in proportion when the window's energy exceeds the cap, raises it by 1 below 15/16 of it, and 64 is the duty without a cap. Energy is
in units of 2^-16 nJ, and a watt over 10,000 ticks is 10,000 nJ. R365 to R368, R371, R372: a record goes whole to TRWR, and TRWR moves
past it; it is lost while HALT is set and when it would reach TRRD; TRACE_RECORD_WRITE takes the oldest staged record of a core;
TRACE_SAMPLE stages one of each core of the partition, or loses the whole sample; FLUSH writes every staged record. The page of the
record is translated. That a cap above 4,000 W and a frequency code outside 6 to 18 change nothing, and how weights become units of a
counter, is the model's choice. The model's own readings in it: log 10 (DESIGN CHOICE), log 11 (DESIGN CHOICE), log 42 (DESIGN CHOICE),
log 43 (DEDUCED), log 44 (DEDUCED). -/
def Obligations.PowerAndTrace : Prop :=
  (∀ (s : State) (isle code part cap : Nat),
    let i := s.isle isle
    let p := s.part part
    let relocks (s : State) (code : Nat) : State := s.setIsle isle { s.isle isle with relock := some (s.reft.toNat + 1024), next := code, held := none }
    let e := p.windowEnergy
    let w := 10000 * 2 ^ 16
    let duty (d : Nat) : State := s.setPart part { p with
      duty := d, power := e * 1000 / w, windowEnergy := 0, nextEval := (s.reft.toNat / 10000 + 1) * 10000 }
    let gov (d : Nat) : Prop := exec (.governorEvaluation part) s = .next (duty d)
    (6 ≤ code → code ≤ 18 → isle < 512 → s.lodge.ready = true →
      (i.relock = none → code ≠ i.freq → exec (.frequencyWrite isle code) s = .next (relocks s code)) ∧
      (i.relock = none → code = i.freq → exec (.frequencyWrite isle code) s = .next s) ∧
      (i.relock ≠ none → exec (.frequencyWrite isle code) s = .next (s.setIsle isle { i with held := some code }))) ∧
    (code < 6 ∨ 18 < code → exec (.frequencyWrite isle code) s = .next s) ∧
    (∀ t, i.relock = some t → t ≤ s.reft.toNat →
      let ended : State := s.setIsle isle { i with freq := i.next, relock := none, held := none }
      ((i.held = none ∨ i.held = some i.next) → exec (.relockEnd isle) s = .next ended) ∧
      (∀ h, i.held = some h → h ≠ i.next → exec (.relockEnd isle) s =
        .next (s.setIsle isle { i with freq := i.next, relock := some (s.reft.toNat + 1024), next := h, held := none }))) ∧
    -- every tick of a window counts in the event of the cores of its island
    (∀ k, (mapGet s.cores k).isSome = true → ((relockTicks s).core k).evt.getD 3 0 =
      (s.core k).evt.getD 3 0 + (if (s.isleAt k).relock.isSome then 1 else 0)) ∧
    ((mapGet s.parts part).isSome = true → (cap ≤ 4000 → exec (.capWrite part cap) s = .next (s.setPart part { p with cap := cap })) ∧
      (4000 < cap → exec (.capWrite part cap) s = .next s)) ∧
    ((mapGet s.parts part).isSome = true → s.refOn = true → p.nextEval ≤ s.reft.toNat →
      (p.cap = 0 → gov 64) ∧ (p.cap ≠ 0 → p.cap * w < e → gov (max 1 (p.duty * p.cap * w / e))) ∧
      (p.cap ≠ 0 → 16 * e < 15 * (p.cap * w) → gov (min 64 (p.duty + 1))) ∧ (e ≤ p.cap * w → 15 * (p.cap * w) ≤ 16 * e → p.cap ≠ 0 → gov p.duty))) ∧
  (∀ (s : State) (part core : Nat) (rec : List Byte) (r : List (Nat × List Byte)) (fr : List Nat) (pg : Nat),
    let c := s.core core
    let q := (s.part part).trace
    let base := q.base.toNat
    let wr := q.wr.toNat
    let size := q.size.toNat
    let used := if q.rd.toNat ≤ wr then wr - q.rd.toNat else size - q.rd.toNat + wr
    let wraps := decide (size < wr + rec.length)
    let need := if wraps then size - wr + rec.length else rec.length
    let off := if wraps then 0 else wr
    let halted := q.ctl.getLsbD 0
    let at' (j : Nat) : Nat := fr.getD ((base + off + j) % 65536 / 4096) 0 + (base + off + j) % 4096
    let lost (s : State) (n : Nat) : State := s.modPart part fun p => { p with trace := { p.trace with lost := p.trace.lost + BitVec.ofNat 64 n } }
    let cached : Prop := q.xl = some (pg, fr) ∧ fr.length = 16 ∧ (∀ f ∈ fr, f + 4096 ≤ 0x9000000000) ∧ pg = (base + off) / 65536 ∧
      (base + off + rec.length - 1) / 65536 = pg ∧ fr.Pairwise (fun f g => f + 4096 ≤ g ∨ g + 4096 ≤ f)
    (halted = true ∨ size ≤ used + need → traceWrite s part rec = lost s 1) ∧
    (halted = false → used + need < size → wraps = false → cached → 0 < rec.length → s.memOk = true →
      let u := traceWrite s part rec
      (∀ j, j < rec.length → byteAt u (.hbm (at' j)) = rec.getD j 0) ∧ (∀ m, (∀ j, j < rec.length → m ≠ .hbm (at' j)) → byteAt u m = byteAt s m) ∧
        (u.part part).trace = { q with wr := BitVec.ofNat 64 ((wr + rec.length) % size) }) ∧
    -- a record that would cross the end of the ring goes to its start, with zeros in what it leaves; here the ring is one 64 KiB page
    (halted = false → used + need < size → wraps = true → wr ≤ size → size = 65536 → base % 65536 = 0 → q.xl = some (base / 65536, fr) → fr.length = 16 →
      (∀ f ∈ fr, f + 4096 ≤ 0x9000000000) → fr.Pairwise (fun f g => f + 4096 ≤ g ∨ g + 4096 ≤ f) → 0 < rec.length → s.memOk = true →
      let u := traceWrite s part rec
      let cell (j : Nat) : Loc := .hbm (fr.getD (j / 4096) 0 + j % 4096)
      (∀ j, j < rec.length → byteAt u (cell j) = rec.getD j 0) ∧ (∀ j, wr ≤ j → j < size → byteAt u (cell j) = 0) ∧
        (∀ m, (∀ j, j < rec.length ∨ (wr ≤ j ∧ j < size) → m ≠ cell j) → byteAt u m = byteAt s m) ∧
        (u.part part).trace = { q with wr := BitVec.ofNat 64 rec.length }) ∧
    (c.staging = (part, rec) :: r → exec (.traceRecordWrite core) s = .next (traceWrite (s.setCore core { c with staging := r }) part rec)) ∧
    -- a sample of tick T, of which the host die has latched the partition's record `head` and some cores theirs: each other core latches once
    -- its own die's REFT has reached T, and when all have, the records are staged, or lost together when they cannot all be staged (R367)
    ((mapGet s.parts part).isSome = true →
      let sampled (T : W64) (head : List Byte) (old : List (Nat × List Byte)) (next : Nat) : Prop :=
        let new := ((s.coresOf part).filter fun x => !(old.any fun e => e.1 == x) && decide (T.toNat ≤ (s.reftAt x).toNat)).map fun x =>
          (x, coreSample s x (s.part part).duty T)
        let mine := (old ++ new).filter fun e => (s.coresOf part).contains e.1
        let missing : Prop := ∃ x ∈ s.coresOf part, ∀ e ∈ old ++ new, e.1 ≠ x
        let part' (u : State) : Trace := (u.part part).trace
        ∃ u, exec (.traceSample part) s = .next u ∧
          (missing → u.cores = s.cores ∧ part' u = { q with nextSample := next, taking := some (T, head), latched := old ++ new }) ∧
          (¬ missing → (∃ e ∈ mine, 64 ≤ (s.core e.1).staging.length) → u.cores = s.cores ∧
            part' u = { q with nextSample := next, taking := none, latched := [], lost := q.lost + BitVec.ofNat 64 (mine.length + 1) }) ∧
          (¬ missing → (∀ e ∈ mine, (s.core e.1).staging.length < 64) → (mine.map (·.1)).Nodup → ∃ v, u = traceWrite v part head ∧
            part' v = { q with nextSample := next, taking := none, latched := [] } ∧ (∀ x, x ∉ mine.map (·.1) → u.core x = s.core x) ∧
            ∀ e ∈ mine, u.core e.1 = { s.core e.1 with staging := (s.core e.1).staging ++ [(part, e.2)] })
      let k := 2 ^ (q.ctl.toNat / 8 % 32)
      (q.taking = none → s.refOn = true → q.ctl.getLsbD 2 = true → q.nextSample ≤ s.reft.toNat →
        let T : W64 := BitVec.ofNat 64 (s.reft.toNat / k * k)
        ∃ who, sampled T (partSample (s.part part) who T) [] ((s.reft.toNat / k + 1) * k)) ∧
      (∀ T head, q.taking = some (T, head) →
        (∃ x ∈ s.coresOf part, (∀ e ∈ q.latched, e.1 ≠ x) ∧ T.toNat ≤ (s.reftAt x).toNat) ∨ (∀ x ∈ s.coresOf part, ∃ e ∈ q.latched, e.1 = x) →
        sampled T head q.latched q.nextSample)) ∧
    -- the staged records of the partition are written, core by core in rising number and each core's in order, and none stays staged
    (s.reaches part = true → (mapGet s.parts part).isSome = true → (s.cores.map (·.1)).Pairwise (· < ·) →
      let staged := s.cores.flatMap fun e => (e.2.staging.filter fun x => x.1 == part).map (·.2)
      let clear : State := { s with cores := s.cores.map fun e => (e.1, { e.2 with staging := e.2.staging.filter fun x => x.1 != part }) }
      exec (.trctlFlush part) s = .next ((staged.foldl (fun u x => traceWrite u part x) clear).modPart part fun p =>
        { p with trace := { p.trace with xl := none } })))

/-! ## Start-up, attestation, management -/

/-- R338, R375 to R378, R380: power-up verifies the images and the record and starts the timer with the measurements fixed; stages
follow one another, and in minimal mode the seventh follows the second; a start fails with its REASON and UNIT, counts in FAILS, and
leaves nothing running; READY fixes block 7; a full start may be asked for in minimal mode after an install; each function's mailbox
answers. The model's own readings in it: log 13 (DESIGN CHOICE), log 15 (PRESUMED), log 47 (DEDUCED). -/
def Obligations.StartAndAttestation : Prop :=
  ∀ (s : State) (q : StartInput) (unit n : Nat) (ok : Bool) (fn : Nat) (nonce : List Byte) (blocks : List Nat),
    let l := s.lodge
    let empty (u : State) : Prop := u.cores = [] ∧ u.parts = [] ∧ u.pavs = [] ∧ u.hbm = [] ∧ u.net = [] ∧ u.links = Vector.replicate 18 .down ∧ u.vfs = 0
    let failed (u : State) (reason unit : Nat) : Prop := empty u ∧ u.refOn = false ∧ u.lodge.reason = reason ∧ u.lodge.unit = unit ∧
      u.lodge.fails = min 3 (l.fails + 1) ∧ u.lodge.ready = false ∧ u.lodge.starting = false
    let ends (i : Instr) (reason unit : Nat) : Prop := ∃ u, exec i s = .next u ∧ failed u reason unit
    let digest (b : List Byte) : List Byte := Sha3.digest b
    -- what a power-up starts from: what the host has installed, or else the persistent images and record
    let src : StartInput := if l.installed then ⟨l.images, l.signed, l.recordNew.getD {}, l.recordSigned⟩ else q
    let begun (u : State) (q : StartInput) (small : Bool) : Prop := empty u ∧ u.refOn = true ∧ u.reft = 0 ∧ u.lodge.stage = 2 ∧ u.lodge.record = some q.record ∧
      u.lodge.ready = false ∧ u.lodge.starting = true ∧ u.lodge.min = small ∧ u.lodge.fails = l.fails ∧
      u.lodge.meas = [(1, natLe 64 Config.romDigest.toNat), (2, digest (q.images.getD 0 [])), (3, digest (q.images.getD 1 [])),
        (4, digest (q.images.getD 2 [])), (5, digest (q.images.getD 3 [])), (6, digest (recordImage q.record))]
    let accepted (r : ConfigRecord) : Prop := ∀ v, v < 32 → let e := (mapGet r.enabled v).getD 0
      ((List.range 144).filter fun k => e.getLsbD k).length = 128 ∧ e &&& (mapGet r.defect v).getD 0 = 0 ∧
        ∀ k, k < 144 → e.getLsbD k = true → ((mapGet r.feat (144 * v + k)).getD 0xFFFF) &&& 0x4109 = 0x4109
    let next := if l.min = true ∧ l.stage = 2 then 7 else l.stage + 1
    let stage : Instr := .startStageComplete ok unit
    let status (l : Lodge) : Nat := 0x02 * 2 ^ 32 + l.stage % 256 * 2 ^ 24 + l.reason % 256 * 2 ^ 16 + l.unit % 256 * 2 ^ 8 + l.fails % 4 * 4 +
      (if l.min then 2 else 0) + (if l.ready then 1 else 0)
    let answers (i : Instr) (code : Nat) (body : List Byte) (sig : Bool) : Prop := fn ≤ s.vfs → exec i s = .next { s with lodge := { l with
      answers := l.answers ++ [⟨fn, code, body, if sig then some (Config.sign body).toList else none⟩] } }
    (src.signed = false ∨ src.recordSigned = false → ends (.powerUpReset q) 1 0xFF) ∧
    (src.signed = true → src.recordSigned = true → ¬ accepted src.record → ends (.powerUpReset q) 2 0xFF) ∧
    (src.signed = true → src.recordSigned = true → accepted src.record → ∃ u, exec (.powerUpReset q) s = .next u ∧ begun u src (l.fails == 3)) ∧
    (l.starting = true → (ok = false → next < 6 → ends stage next unit) ∧
      (ok = true ∨ 6 ≤ next → next ≠ 7 → exec stage s = .next { s with lodge := { l with stage := next } }) ∧
      (ok = true ∨ 6 ≤ next → next = 7 → ∃ u, exec stage s = .next u ∧ u.lodge.stage = 7 ∧ u.lodge.ready = true ∧ u.lodge.starting = false ∧
        u.lodge.fails = (if l.min then l.fails else 0) ∧ mapGet u.lodge.meas 7 = some (natLe 8 (status u.lodge)) ∧
        (l.min = true → ∀ k, k < 16 → (u.isle k).freq = 10) ∧ (l.min = false → u.isles = s.isles)) ∧
      ends .startWatchdog 7 0xFF) ∧
    (l.min = true → l.ready = true → l.installed = true → l.signed = true → l.recordSigned = true → accepted (l.recordNew.getD {}) →
      ∃ u, exec .fullStartRequest s = .next u ∧ begun u src false) ∧
    (l.ready = true → n ≤ 32 → ∃ u, exec (.vfEnable n) s = .next u ∧ u.vfs = n ∧ (∀ p, s.vfs ≤ p → p < n → (u.fn p).apbase = 0) ∧
      ∀ p, p < n → revisionId u (p + 1) = some 0x02) ∧ revisionId s 0 = some 0x02 ∧ (s.vfs ≤ n → revisionId s (n + 1) = none) ∧
    (l.ready = false → exec (.vfEnable n) s = .next s) ∧
    answers (.spdmGetVersion fn) 0x04 [0x13] false ∧ answers (.spdmGetCapabilities fn) 0x61 [0x84, 0xE1, 0xE3, 0x81, 0x82, 0x83, 0xE0] false ∧
    answers (.spdmNegotiateAlgorithms fn) 0x63 (("ML-DSA-87 SHA3-512".toList).map fun c => BitVec.ofNat 8 c.toNat) false ∧
    answers (.spdmGetDigests fn) 0x01 (digest Config.certificate) false ∧ answers (.spdmGetCertificate fn) 0x02 Config.certificate false ∧
    answers (.spdmChallenge fn nonce) 0x03 (digest Config.certificate ++ nonce) true ∧
    ((∀ b ∈ blocks, 1 ≤ b ∧ b ≤ 7 ∧ mapGet l.meas b ≠ none) →
      answers (.spdmGetMeasurements fn blocks) 0x60 (blocks.flatMap fun b => natLe 1 b ++ (mapGet l.meas b).getD []) true) ∧
    ((∀ b ∈ blocks, 1 ≤ b ∧ b ≤ 7) → 7 ∈ blocks → mapGet l.meas 7 = none → answers (.spdmGetMeasurements fn blocks) 0x7F [0x03] false)

/-- R78, R253, R264, R280, R293, R332, R347, R349, R354, R365, R373, R380 to R382: the writes of the management windows, the zeroing
command, which makes its range of HBM zero without poison and changes no other byte, and accesses through the aperture, AtomicOps among
them, whose failed translation is a Completer Abort where an answer is expected and a host-store record for a write. The model's own
readings in it: log 45 (DEDUCED), log 46 (DEDUCED). -/
def Obligations.Management : Prop :=
  ∀ (s : State) (part core pa len off n k a : Nat) (val new : W64) (b : List Byte) (on en : Bool) (prio : Nat) (bk : Brk) (r : ConfigRecord)
    (images : List (List Byte)) (l : Loc),
    let p := s.part part
    let there : Prop := s.reaches part = true
    let gives (i : Instr) (v : Part) : Prop := exec i s = .next (s.setPart part v)
    let writes (q : MgmtWrite) (v : Part) : Prop := gives (.managementRegisterWrite q) v
    let covers (q : Nat) (e : Nat × TlbEntry) : Prop := e.1 / 4 ≤ q ∧ q < e.1 / 4 + e.2.span
    let dropped (range : Option (Nat × Nat)) (q : Nat) : Prop := ∃ u, exec (.hostInvalidate part range) s = .next u ∧ SameMemory s u ∧
      u.hostTx = s.hostTx ++ [.invalidated part] ∧
      (∀ k ∈ u.cores, u.partOf k.1 = some part → ∀ e ∈ k.2.tlb, ¬ covers q e) ∧ (∀ v ∈ u.pavs, v.2.part = some part → ∀ e ∈ v.2.tlb, ¬ covers q e)
    -- no access that used a translation of the range is still to perform (R264)
    let settled (range : Option (Nat × Nat)) : Prop := usesPages s part (hostPages range) = false
    let va : W64 := (s.fn part).apbase + BitVec.ofNat 64 off
    let inPage : Prop := va.toNat % 4096 + n ≤ 4096 ∧ 0 < n ∧ off + n ≤ 2 ^ 40
    let host (op : HostOp) : Instr := .apertureAccess part off n op
    let old := bytesAt s l n
    let atomic (op : HostOp) (v : Nat) : Prop := ∃ u, exec (host op) s = .next u ∧ HostTx.read part ((List.range n).map fun j => byteAt s (l.add j)) false ∈ u.hostTx ∧
      StoredAt s u l n v
    let refused (op : HostOp) : Prop := exec (host op) s = .next { s with hostTx := s.hostTx ++ [.completerAbort part] }
    let fails (kind : Access) : Prop := ∃ e, locatePart s part kind va = .error e
    let K := val.toNat / 8 % 32
    let t := p.trace
    let q := p.queues.getD k {}
    let lodge (i : Instr) (v : Lodge) : Prop := exec i s = .next { s with lodge := v }
    (there → gives (.translationRootWrite part val) { p with root := val &&& 0xFFFFFFFFFF001 } ∧
      gives (.verifyModeSet part on) { p with verify := on } ∧ (∀ range, ¬ settled range → exec (.hostInvalidate part range) s = .next s) ∧
      (∀ j, j < 2 ^ 52 → settled none → dropped none j) ∧
      (∀ j, 0 < n → a + n ≤ 2 ^ 64 → n < 2 ^ 64 → a / 4096 ≤ j → j ≤ (a + n - 1) / 4096 → settled (some (a, n)) → dropped (some (a, n)) j) ∧
      (val.toNat % 131072 = 0 → writes (.saveBase part val) { p with saveBase := val }) ∧ writes (.saveCnt part val) { p with saveCnt := val } ∧
      (k < 64 → prio < 4 → writes (.queueCtl part k en prio) { p with queues := p.queues.setIfInBounds k { q with enabled := en, prio := prio } }) ∧
      writes (.lshare part val) { p with lshare := val &&& 0xFFF } ∧ writes (.breakpoint part k bk) { p with brk := p.brk.setIfInBounds k bk } ∧
      (val.toNat % 65536 = 0 → writes (.trbase part val) { p with trace := { t with base := val, xl := none } } ∧
        writes (.trsize part val) { p with trace := { t with size := val } }) ∧
      writes (.trrd part val) { p with trace := { t with rd := val } } ∧ writes (.clearTrlost part) { p with trace := { t with lost := 0 } } ∧
      writes (.clearEnergy part) { p with energy := 0 } ∧ writes (.clearQueueEnergy part k) { p with queues := p.queues.setIfInBounds k { q with energy := 0 } } ∧
      (val.getLsbD 8 = false → ∃ c, writes (.trctl part val) { p with trace := { t with
          ctl := c, xl := if val.getLsbD 0 then none else t.xl, nextSample := (s.reft.toNat / 2 ^ (c.toNat / 8 % 32) + 1) * 2 ^ (c.toNat / 8 % 32) } } ∧
        c.toNat / 8 % 32 = (if 10 ≤ K ∧ K ≤ 20 then K else 20) ∧ c.getLsbD 1 = false ∧ c.getLsbD 8 = false ∧
        ∀ j ∈ [0, 2, 9, 10, 11], c.getLsbD j = val.getLsbD j) ∧
      (val.getLsbD 8 = true → ∀ u, exec (.trctlFlush part) s = .next u →
        exec (.managementRegisterWrite (.trctl part val)) s = exec (.managementRegisterWrite (.trctl part (val &&& ~~~0x100))) u)) ∧
    (s.fnOn part = true → exec (.apbaseWrite part val) s = .next (s.modFn part fun f => { f with apbase := val &&& 0x7FFFFFC0000000 })) ∧
    exec (.managementRegisterWrite (.linkIde on)) s = .next { s with linkIde := on } ∧
    lodge (.managementRegisterWrite (.installRecord r on)) { s.lodge with recordNew := some r, recordSigned := on, installed := true } ∧
    lodge (.managementRegisterWrite (.installImages images on)) { s.lodge with images := images, signed := on, installed := true } ∧
    ((∃ q, s.partOf core = some q ∧ s.reaches q = true) → s.enabled core = true →
      exec (.corecfgWrite core val) s = .next (s.setCore core { s.core core with corecfg := val &&& 1, grun := 0 })) ∧
    ((mapGet s.cores core).isSome = true → exec (.suspectClear core) s = .next (s.setCore core { s.core core with suspect := false })) ∧
    (pa % 65536 = 0 → len % 65536 = 0 → pa + len ≤ 0x9000000000 → s.lodge.min = false → ∃ u, exec (.zeroingCommand pa len) s = .next u ∧
      (∀ j, pa ≤ j → j < pa + len → byteAt u (.hbm j) = 0 ∧ j / 64 ∉ u.hbmPois) ∧ (∀ m, (∀ j, pa ≤ j → j < pa + len → m ≠ .hbm j) → byteAt u m = byteAt s m) ∧
      ∀ j, (64 * j < pa ∨ pa + len ≤ 64 * j) → (j ∈ u.hbmPois ↔ j ∈ s.hbmPois)) ∧
    (there → inPage → n ≤ 4096 →
      (fails .read → refused .read) ∧
      (locatePart s part .read va = .ok l → ∃ u, exec (host .read) s = .next u ∧ SameMemory s u ∧
        u.hostTx = s.hostTx ++ [.read part ((List.range n).map fun j => byteAt s (l.add j)) (readLoc s l n).2]) ∧
      (b.length = n → fails .write → ∃ u, exec (.apertureAccess part off len (.write b)) s = .next u ∧ SameMemory s u ∧ (p.fq.length < 256 → p.fqWait = [] →
        ∃ r, (u.part part).fq = p.fq ++ [r] ∧ r.cls = 2 ∧ r.code = 0xD ∧ r.flags = 4 ∧ r.addr = va)) ∧
      (b.length = n → locatePart s part .write va = .ok l → s.memOk = true → ∃ u, exec (.apertureAccess part off len (.write b)) s = .next u ∧
        StoredAt s u l n (leNat b)) ∧
      (n = 4 ∨ n = 8 → off % n = 0 → (fails .amo → refused (.fetchAdd val) ∧ refused (.swap val) ∧ refused (.cas val new)) ∧
        (locatePart s part .amo va = .ok l → (readLoc s l n).2 = false → s.memOk = true →
          atomic (.fetchAdd val) ((old + val.toNat) % 256 ^ n) ∧ atomic (.swap val) (val.toNat % 256 ^ n) ∧
          atomic (.cas val new) (if old = val.toNat % 256 ^ n then new.toNat % 256 ^ n else old)))) ∧
    -- a function without a partition, and one that is not enabled
    (s.fnOn part = true → mapGet s.parts part = none → inPage → n ≤ 4096 → refused .read) ∧ (∀ op, s.fnOn part = false → exec (host op) s = .next s)

/-- R208, R224, R238, R325, R384: an access of a thread to the host window issues and waits; its completion, or the timeout, answers
it; a load then writes the data, or takes the host-access fault; a posted store is performed, or fails with a host-store record. A link
that fails takes with it every route that has no link left; a mask written anew makes a route usable again. `l` lies in the host
window. The model's own readings in it: log 3 (DESIGN CHOICE), log 45 (DEDUCED), log 48 (DEDUCED). -/
def Obligations.LinksAndHostWindow : Prop :=
  ∀ (s : State) (x : Ctx) (core thr link chip id part ident : Nat) (links : BitVec 18) (q : Completion) (acc : HostAcc) (e : Pend) (b : List Byte)
    (c : Ctl) (d a : Reg) (k : Size) (sx : Bool) (off : BitVec 48) (pa : Nat),
    let t := s.thread core thr
    let h := s.helper core (thr - 4)
    let up (s : State) (m : BitVec 18) : Prop := ∃ j, j < 18 ∧ m.getLsbD j = true ∧ s.links.getD j .down = .up
    let set (v : LinkState) : State := { s with links := s.links.setIfInBounds link v }
    let answered (u : State) (q : Completion) : Prop := (thr < 4 → u.thread core thr = { t with hostAcc := some { acc with answer := some q } }) ∧
      (4 ≤ thr → u.helper core (thr - 4) = { h with hostAcc := some { acc with answer := some q } })
    let ea : W64 := s.scalar x a + off.signExtend 64
    let n := sizeBytes k
    let ld : Instr := .ld c d a k sx off
    let reaches : Prop := ea.toNat % n = 0 ∧ ∃ leaf, locate s x.core .read ea = .ok (.host pa, leaf) ∧ heldBack s x.core (.host pa) n false = false
    let own := s.thread x.core x.ctx
    (thr < 6 → (if thr < 4 then t.hostAcc else h.hostAcc) = some acc → acc.answer = none →
      (b.length = acc.len → s.memOk = true → ∃ u, exec (.memoryAccessPerformed core thr (.completion (.data b))) s = .next u ∧ answered u (.data b) ∧
        (∀ j, j < acc.len → byteAt u (.host (acc.addr + j)) = b.getD j 0) ∧ ∀ m, (∀ j, j < acc.len → m ≠ .host (acc.addr + j)) → byteAt u m = byteAt s m) ∧
      ((∀ b, q ≠ .data b) → ∃ u, exec (.memoryAccessPerformed core thr (.completion q)) s = .next u ∧ answered u q ∧ SameMemory s u) ∧
      (∃ u st, exec (.pcieCompletionTimeout core thr) s = .next u ∧ answered u (.error st) ∧ SameMemory s u)) ∧
    (findPend s core id = some e → e.phase = .host none → (∃ u, exec (.memoryAccessPerformed core (6 + id) (.completion q)) s = .next u ∧
        findPend u core id = some { e with phase := .host (some q) }) ∧
      ∃ u st, exec (.pcieCompletionTimeout core (6 + id)) s = .next u ∧ findPend u core id = some { e with phase := .host (some (.error st)) }) ∧
    (Runs s x ld → present s x a → reaches → x.ctx < 4 →
      (own.hostAcc = none → ∃ u, exec ld s = .next u ∧ SameMemory s u ∧
        ∃ xl, u.thread x.core x.ctx = { own with
          hostAcc := some ⟨pa, n, xl, none, []⟩, st := .waiting .hostAccess, since := some (own.since.getD (s.reftAt x.core)) }) ∧
      (∀ y, own.hostAcc = some y → y.answer = some (.data b) → b.length = n → ∃ u, exec ld s = .next (closed u s x ld) ∧ SameMemory s u ∧
        u.scalar x d = (if sx then (BitVec.ofNat (8 * n) (leNat b)).signExtend 64 else BitVec.ofNat 64 (leNat b)) ∧ present u x d) ∧
      (∀ y st, own.hostAcc = some y → y.answer = some (.error st) → ∃ u, SameMemory s u ∧
        exec ld s = .next (takeFault u x .precise { cls := 2, code := 7, aux := st, addr := ea }))) ∧
    -- a store to the host window is posted; the oldest one of a context is performed, or fails and enters a host-store record (R341)
    (∀ w rest, (s.core core).posted = w :: rest → w.thr = thr → (let done : State := s.setCore core { s.core core with posted := rest }
      exec (.memoryAccessPerformed core thr .stored) s = .next done ∧ ∀ p, s.partOf core = some p → ∃ u, exec (.memoryAccessPerformed core thr .storeFailed) s = .next u ∧
        u.cores = done.cores ∧ ((s.part p).fq.length < 256 → (s.part p).fqWait = [] → ∃ r, (u.part p).fq = (s.part p).fq ++ [r] ∧ r.cls = 2 ∧ r.code = 0xD ∧
          r.flags = 4 ∧ r.pc = w.pc ∧ r.seq = w.seq ∧ r.addr = w.ea))) ∧
    (link < 18 → s.lodge.min = false → 5 ≤ s.lodge.stage → exec (.linkUp link) s = .next (set .up)) ∧
    (link < 18 → s.links.getD link .down = .up →
      ((∀ e ∈ s.routes, up (set .failed) e.2 ∨ e.1 ∈ s.deadRoutes ∨ e.1 = s.chip.toNat) → exec (.linkFailureDeclared link) s = .next (set .failed)) ∧
      (∀ m, s.routes = [(chip, m)] → ¬ up (set .failed) m → chip ∉ s.deadRoutes → chip ≠ s.chip.toNat →
        exec (.linkFailureDeclared link) s = .next (routeFailed (set .failed) chip) ∧ chip ∈ (routeFailed (set .failed) chip).deadRoutes)) ∧
    (chip < 1024 → (∀ e ∈ mapSet s.routes chip links, up s e.2 ∨ (e.1 ∈ s.deadRoutes ∧ e.1 ≠ chip) ∨ e.1 = s.chip.toNat) →
      exec (.fabricSettingsWrite (.route chip links)) s = .next { s with
        routes := mapSet s.routes chip links, deadRoutes := s.deadRoutes.filter fun c => c != chip }) ∧
    (chip < 1024 → fabricBusy s = false → chip ≠ s.chip.toNat → exec (.fabricSettingsWrite (.chip chip)) s = .next { s with chip := BitVec.ofNat 10 chip }) ∧
    exec (.fabricSettingsWrite (.partId part ident)) s = .next (s.modFn part fun f => { f with fabric := ident })

/-! ## Decoding, and the machine as a whole -/

/-- R24 to R33, R47: the bytes of a well-formed instruction decode to it, whatever follows, with every operand at every value that its
encoding admits; so no bit of an encoding is dropped. -/
def Obligations.RoundTrip : Prop :=
  ∀ (i : Instr) (rest : List Byte), i.op.isSome = true → i.wf = true → decode (encodeBytes i ++ rest) = .ok (i, rest)

/-- R24, R26, R27, R30 to R33, R47, R48: words put together from the layouts of R24 and R26, the opcodes of R47 and the SUB values of
each chapter's tables decode to the instructions that stand beside them, one or two of each family; an unassigned opcode, a reserved
bit and a misplaced prefix are refused. -/
def Obligations.DecodeWords : Prop :=
  decodeWords 0x001040A0 0 0 0 = .ok (.add {} 16 16 10) ∧
  decodeWords 0x008D3400 0x80000000 0x80 0 = .ok (.addi { yld := true } 13 13 128) ∧
  decodeWords 0x08011C60 0 2 0 = .ok (.cmp {} 1 7 6 .lt) ∧
  decodeWords 0x1A000009 0 0x30 0 = .ok (.br { g := 4, gn := true } 48) ∧
  decodeWords 0x1B041400 0 0x61 0 = .ok (.lnest {} 4 5 0x61) ∧
  decodeWords 0x20091000 0x00060000 0x40 0 = .ok (.ld {} 9 4 .w true 0x40) ∧
  decodeWords 0x20471400 0x0003FFFF 0xFFFFFFF8 0 = .ok (.st {} 7 5 .d 0xFFFFFFFFFFF8) ∧
  decodeWords 0x20832840 0x001B0000 0 0 = .ok (.amo {} 3 10 4 .add true 11 0) ∧
  decodeWords 0x21000000 0 9 0 = .ok (.fence {} .pav .acq) ∧
  decodeWords 0x30040000 0 0x101 0 = .ok (.csrr {} 4 0x101) ∧
  decodeWords 0x31001050 0 1 0 = .ok (.tlbinv {} 4 5 .range) ∧
  decodeWords 0x40410000 0 0x2800 0 = .ok (.setvli {} 1 0x2800) ∧
  decodeWords 0x40C81000 0x00020000 0x100 0 = .ok (.vspill {} 8 4 .w 0x100) ∧
  decodeWords 0x48831060 0x00240000 2 0 = .ok (.vcmp {} none 3 4 6 9 .lt) ∧
  decodeWords 0xFFC20000 0x60C84180 0x000A0000 0 = .ok (.vfma {} (some { rm := .rtz, msk := 0, zp := false, e := 0, ev := false }) 8 16 24 32 2) ∧
  decodeWords 0x80902050 0x00080000 0 0 = .ok (.vreshape {} none 16 8 5 2) ∧
  decodeWords 0x88022030 0x00040000 0x12 0 = .ok (.vrmaxw {} none 2 8 3 1 .split 2) ∧
  decodeWords 0xFFD00200 0x90081000 0x00020000 0x200 = .ok (.vld {} (some { rm := .dyn, msk := 2, zp := true, e := 0, ev := false }) 8 4 .w 0x200) ∧
  decodeWords 0x94081050 0x0008C000 1 0 = .ok (.vldmx {} none 8 4 5 12 2 true) ∧
  decodeWords 0xA0422000 0 6 0 = .ok (.vpres {} 2 8 .w .pend) ∧
  decodeWords 0xA2801050 0 0 0 = .ok (.hfill {} 4 5) ∧
  decodeWords 0xFFC13100 0xA8442000 0x00080000 1 = .ok (.mmul {} (some { rm := .rne, msk := 0, zp := false, e := 12, ev := true }) 4 8 2 true) ∧
  decodeWords 0xB0002000 0x00005000 0 0 = .ok (.cpy {} 8 5) ∧
  decodeWords 0xB2800000 0x00000C8E 0x00060000 0 = .ok (.lzres {} { die := 1, pav := 2, row := 4, col := 7 } 3) ∧
  decodeWords 0xC0031000 0 1 0 = .ok (.tbset {} 3 4 true) ∧
  decodeWords 0xC4401870 0x00200000 0 0 = .ok (.tgset {} 6 7 8) ∧
  decodeWords 0xFFC00000 0x20091000 0 0 = .error .prefixPlacement ∧
  decodeWords 0xFF800000 0 0 0 = .error .unassigned ∧
  decodeWords 0x001040A0 1 0 0 = .error .reservedBits

/-- R54, R65, R75, R201, R210, R376: right after reset nothing is enabled, stored or running; every context reads as R54 gives it, with
p0 = 1, FCTL at its reset value and SRSTATE at that of R75, and every memory is in its canonical form. Where the manual gives no reset
value, the value is that of log entries 1 to 3, DESIGN CHOICE. The model's own readings in it: log 1 (DESIGN CHOICE), log 2 (DESIGN
CHOICE), log 3 (DESIGN CHOICE). -/
def Obligations.ResetState : Prop :=
  State.reset.memOk = true ∧ State.reset.reft = 0 ∧ State.reset.lodge.ready = false ∧ State.reset.parts = [] ∧
  (∀ l, byteAt State.reset l = 0) ∧ (∀ k, State.reset.partOf k = none ∧ State.reset.enabled k = false) ∧
  ∀ k t, (State.reset.thread k t).st = .free ∧ (State.reset.thread k t).p = 1 ∧ (State.reset.thread k t).fctl = 1 ∧
    (State.reset.thread k t).vl = 0 ∧ (State.reset.thread k t).istat = 0 ∧ (State.reset.thread k t).hwm = 0 ∧
    (State.reset.thread k t).srstate = 0x5DEECE66D1CE4E5B ∧
    ∀ r h, (State.reset.thread k t).halfPres r h = .pres ∧ ((State.reset.thread k t).word r h).bits = 0

/-- Every step has a next state: a fault is a record of R341 with what R343 says of the context, and nothing stops the machine. The
model's own readings in it: log 6 (DESIGN CHOICE). -/
def Obligations.StepAnswers : Prop := ∀ s : State, ∃ u, step s = .next u

/-- R21, R25, R33, R48, R50, R208, R270, R271, R361, R362: a step runs the decoded instruction. When a core's issue cycle lets a
context issue, and the 16 bytes at its PC in the scratchpad decode to an instruction of a feature the core has, the step is `exec` of
that instruction, after the fetch has filled the instruction cache. A fetch that fails, an opcode that is unassigned or of a feature
that the core lacks, and reserved fields enter their records and have no other effect, and the cycle counts as one without an issue. A
lane step is `exec` of the entry's instruction, and any other step is its own `exec`; a step that is due at this tick comes first, then
the oldest input, then a possible step, the most passed over when it has been so often enough. The model's own readings in it: log 6
(DESIGN CHOICE), log 8 (DEDUCED), log 18 (DEDUCED), log 42 (DESIGN CHOICE). -/
def Obligations.StepRuns : Prop :=
  (∀ (s v : State) (core off : Nat) (x : Ctx) (i : Instr) (o : Op) (r : List Byte),
    let w := coreCycle v core
    let pc : PC := 0xFF000000000000 + BitVec.ofNat 56 off
    let word (j : Nat) : BitVec 32 := BitVec.ofNat 32 (bytesAt w (.sp core (off + 4 * j)) 4)
    let chosen : Prop := pick (tick s) = some (.issueCycle core, v) ∧ clocked v core = true ∧ w.cur = some x ∧
      (x.isHelper = true → (w.helper core (x.ctx - 4)).idle = false) ∧ w.pcAt x = pc
    -- what the fetch changes: the instruction cache, and the energy of the accesses (R362)
    let fetched (w w' : State) : Prop := { w' with cores := w.cores, parts := w.parts } = w ∧ (∀ k, k ≠ core → w'.core k = w.core k) ∧
      { w'.core core with icache := (w.core core).icache } = w.core core ∧ ∀ p, let a := w.part p; let b := w'.part p
        { b with energy := a.energy, windowEnergy := a.windowEnergy, queues := a.queues } = a ∧
        ∀ q, { b.queues.getD q {} with energy := (a.queues.getD q {}).energy } = a.queues.getD q {}
    -- an instruction that cannot be fetched or decoded enters its record and has no other effect (R33); the cycle has no issue
    let refuses (code : Nat) : Prop := ∃ w', fetched w w' ∧
      step s = settleOut (.next (noIssue x (takeFault w' x .precise { cls := 1, code := code, aux := faultOpc (word 0) (word 1) })))
    (chosen → ∀ e, (e = .address ∧ ∃ k, window w core (pc.setWidth 64) = .ts k) ∨
        ((∀ k, window w core (pc.setWidth 64) ≠ .ts k) ∧ locate w core .fetch (pc.setWidth 64) = .error e) →
      step s = settleOut (.next (noIssue x (accessFault w x e .fetch (pc.setWidth 64) 0xFFFF)))) ∧
    (chosen → off + 16 ≤ 0x80000 → off / 8 ∈ (w.core core).pois ∨ (off + 3) / 8 ∈ (w.core core).pois →
      step s = settleOut (.next (noIssue x (takeFault w x .fatal { cls := 5, code := 1, addr := pc.setWidth 64 })))) ∧
    (chosen → off + 16 ≤ 0x80000 →
    (∀ j, j < 16 → (off + j) / 8 ∉ (w.core core).pois) →
    (∀ j, j < 4 → mapGet (w.core core).icache (pc.toNat + 4 * j) = none ∨ mapGet (w.core core).icache (pc.toNat + 4 * j) = some (word j)) →
    (∀ e, decodeOp (word 0) (word 1) (word 2) (word 3) = .error e → refuses 1) ∧
    (∀ d, decodeOp (word 0) (word 1) (word 2) (word 3) = .ok d →
      ((w.featmask core).getLsbD d.op.feature = false → refuses 2) ∧ ∀ e, (w.featmask core).getLsbD d.op.feature = true → d.finish = .error e → refuses 1)) ∧
    (chosen → off + 16 ≤ 0x80000 →
    decode ((List.range 16).map fun j => byteAt w (.sp core (off + j))) = .ok (i, r) → i.op = some o → (w.featmask core).getLsbD o.feature = true →
    (∀ j, j < 16 → (off + j) / 8 ∉ (w.core core).pois) →
    (∀ j, j < 4 → mapGet (w.core core).icache (pc.toNat + 4 * j) = none ∨ mapGet (w.core core).icache (pc.toNat + 4 * j) = some (word j)) →
    ∃ w', fetched w w' ∧ step s = settleOut (issueOut w' x i (exec i w')))) ∧
  (∀ (s v w : State) (i : Instr), pick (tick s) = some (i, v) → i.op = none → exec i v = .next w →
    (w.lane = none → w.cur = none → step s = .next w) ∧
    ∀ e x, w.lane = some e → w.cur = some x → step s = settleOut (exec e.instr w)) ∧
  ∀ (s : State) (i : Instr) (r : List Instr),
    (dueSteps s = i :: r → pick s = some (i, s)) ∧
    (dueSteps s = [] → s.agenda = i :: r → held s i = false → pick s = some (i, { s with agenda := r })) ∧
    (dueSteps s = [] → (∀ k ∈ s.agenda, held s k = true) → possible s ≠ [] → ∃ j ∈ possible s, pick s = some (j, taken s (possible s) j) ∧
      ((∃ k ∈ possible s, Config.patience ≤ ageOf s k) → ∀ k ∈ possible s, ageOf s k ≤ ageOf s j))

/-- R201, R206, R210: what the memories hold is plain data in one canonical form, an unlisted byte reading 0; every step keeps every
memory in that form. The model's own readings in it: log 2 (DESIGN CHOICE), log 3 (DESIGN CHOICE). -/
def Obligations.MemoryStep : Prop := ∀ s u : State, s.memOk = true → step s = .next u → u.memOk = true
end

