-- ==== Sys2Proof/Laws/Memory.lean ====
section
/-! SUPPORT. Laws of the tables, sets and memories of Machine/Base.lean: read after write, and that every operation keeps
the canonical form. -/

namespace Sys2Proof.Laws
open Sys2Proof Sys2Proof.Machine

/-! ## Tables by number -/

@[simp] theorem mapGet_nil {α : Type} (n : Nat) : mapGet ([] : NMap α) n = none := rfl

theorem mapGet_cons {α : Type} (k n : Nat) (v : α) (m : NMap α) :
    mapGet ((k, v) :: m) n = if k = n then some v else mapGet m n := rfl

@[simp] theorem mapGet_mapSet_same {α : Type} (m : NMap α) (n : Nat) (v : α) : mapGet (mapSet m n v) n = some v := by
  induction m with
  | nil => simp [mapSet, mapGet]
  | cons e r ih =>
    obtain ⟨k, w⟩ := e
    by_cases h1 : n < k
    · simp [mapSet, mapGet, h1]
    · by_cases h2 : k = n
      · simp [mapSet, mapGet, h2]
      · simp [mapSet, mapGet, h1, h2, ih]

@[simp] theorem mapGet_mapSet_other {α : Type} (m : NMap α) (n k : Nat) (v : α) (h : n ≠ k) :
    mapGet (mapSet m n v) k = mapGet m k := by
  induction m with
  | nil => simp [mapSet, mapGet, h]
  | cons e r ih =>
    obtain ⟨j, w⟩ := e
    by_cases h1 : n < j
    · simp [mapSet, mapGet, h1, h]
    · by_cases h2 : j = n
      · subst h2
        simp [mapSet, mapGet, h]
      · simp only [mapSet, if_neg h1, if_neg h2, mapGet_cons, ih]

@[simp] theorem mapSet_mapSet {α : Type} (m : NMap α) (n : Nat) (v w : α) : mapSet (mapSet m n v) n w = mapSet m n w := by
  induction m with
  | nil => simp [mapSet]
  | cons e r ih =>
    obtain ⟨j, u⟩ := e
    by_cases h1 : n < j
    · simp [mapSet, h1]
    · by_cases h2 : j = n
      · subst h2
        simp [mapSet]
      · simp [mapSet, h1, h2, ih]

/-! ## Memories -/

@[simp] theorem Memory.get_nil (a : Nat) : Memory.get [] a = Memory.unlisted := rfl

theorem Memory.get_cons (k a : Nat) (v : Byte) (m : List Host.Cell) :
    Memory.get ((k, v) :: m) a = if k = a then v else Memory.get m a := rfl

/-- Below every listed address a memory reads as unlisted. -/
theorem Memory.get_below (m : List Host.Cell) (lo a : Nat) (h : Memory.wfFrom (some lo) m = true) (ha : a ≤ lo) :
    Memory.get m a = Memory.unlisted := by
  induction m generalizing lo with
  | nil => rfl
  | cons e r ih =>
    obtain ⟨k, v⟩ := e
    simp only [Memory.wfFrom, Memory.above, Bool.and_eq_true, decide_eq_true_eq] at h
    rw [Memory.get_cons, if_neg (by omega)]
    exact ih k h.2 (by omega)

theorem Memory.wfFrom_weaken (m : List Host.Cell) (lo hi : Nat) (h : Memory.wfFrom (some hi) m = true) (hl : lo ≤ hi) :
    Memory.wfFrom (some lo) m = true := by
  cases m with
  | nil => rfl
  | cons e r =>
    obtain ⟨k, v⟩ := e
    simp only [Memory.wfFrom, Memory.above, Bool.and_eq_true, decide_eq_true_eq] at h ⊢
    exact ⟨⟨by omega, h.1.2⟩, h.2⟩

theorem Memory.wfFrom_none (m : List Host.Cell) (lo : Nat) (h : Memory.wfFrom (some lo) m = true) :
    Memory.wfFrom none m = true := by
  cases m with
  | nil => rfl
  | cons e r =>
    obtain ⟨k, v⟩ := e
    simp only [Memory.wfFrom, Memory.above, Bool.and_eq_true, Bool.true_and] at h ⊢
    exact ⟨h.1.2, h.2⟩

/-- A write above a bound keeps the form above that bound. -/
theorem Memory.wfFrom_set (m : List Host.Cell) (lo : Option Nat) (a : Nat) (b : Byte) (h : Memory.wfFrom lo m = true)
    (ha : ∀ l, lo = some l → l < a) : Memory.wfFrom lo (Memory.set m a b) = true := by
  have bound : ∀ (lo : Option Nat) (k : Nat), (∀ l, lo = some l → l < k) → Memory.above lo k = true := by
    intro lo k hk
    cases lo with
    | none => rfl
    | some l => simpa [Memory.above] using hk l rfl
  induction m generalizing lo with
  | nil =>
    by_cases hb : b = Memory.unlisted
    · simp [Memory.set, hb, Memory.wfFrom]
    · simp [Memory.set, hb, Memory.wfFrom, bound lo a ha]
  | cons e r ih =>
    obtain ⟨k, v⟩ := e
    have hv : v ≠ Memory.unlisted := by
      simp only [Memory.wfFrom, Bool.and_eq_true, bne_iff_ne] at h
      exact h.1.2
    have hr : Memory.wfFrom (some k) r = true := by
      simp only [Memory.wfFrom, Bool.and_eq_true] at h
      exact h.2
    have hk : Memory.above lo k = true := by
      simp only [Memory.wfFrom, Bool.and_eq_true] at h
      exact h.1.1
    by_cases h1 : a < k
    · by_cases hb : b = Memory.unlisted
      · simpa [Memory.set, h1, hb] using h
      · simp [Memory.set, h1, hb, Memory.wfFrom, bound lo a ha, hv, hr]
        simpa [Memory.above] using h1
    · by_cases h2 : k = a
      · by_cases hb : b = Memory.unlisted
        · cases lo with
          | none => simpa [Memory.set, h2, hb] using Memory.wfFrom_none r k hr
          | some l => simpa [Memory.set, h2, hb] using Memory.wfFrom_weaken r l k hr (by simp only [Memory.above, decide_eq_true_eq] at hk; omega)
        · subst h2
          simp [Memory.set, hb, Memory.wfFrom, hk, hr]
      · have := ih (some k) hr (fun l hl => by cases hl; omega)
        simp [Memory.set, h1, h2, Memory.wfFrom, hk, hv, this]

/-- Writing a byte keeps the canonical form. -/
theorem Memory.wf_set (m : List Host.Cell) (a : Nat) (b : Byte) (h : Memory.wf m = true) : Memory.wf (Memory.set m a b) = true :=
  Memory.wfFrom_set m none a b h (by simp)

/-- Writing bytes keeps the canonical form. -/
theorem Memory.wf_write (m : List Host.Cell) (a : Nat) (bs : List Byte) (h : Memory.wf m = true) :
    Memory.wf (Memory.write m a bs) = true := by
  induction bs generalizing m a with
  | nil => exact h
  | cons b r ih => exact ih _ _ (Memory.wf_set m a b h)

/-- Leaving out listed addresses keeps the canonical form. -/
theorem Memory.wfFrom_filter (p : Host.Cell → Bool) (m : List Host.Cell) (lo : Option Nat) (h : Memory.wfFrom lo m = true) :
    Memory.wfFrom lo (m.filter p) = true := by
  induction m generalizing lo with
  | nil => rfl
  | cons e r ih =>
    obtain ⟨k, v⟩ := e
    simp only [Memory.wfFrom, Bool.and_eq_true] at h
    by_cases hp : p (k, v) = true
    · simp [hp, Memory.wfFrom, h.1.1, ih (some k) h.2]
      simpa using h.1.2
    · simp only [List.filter_cons, hp]
      cases lo with
      | none => exact Memory.wfFrom_none _ k (ih (some k) h.2)
      | some l => exact Memory.wfFrom_weaken _ l k (ih (some k) h.2) (by have := h.1.1; simp only [Memory.above, decide_eq_true_eq] at this; omega)

theorem Memory.wf_filter (p : Host.Cell → Bool) (m : List Host.Cell) (h : Memory.wf m = true) : Memory.wf (m.filter p) = true :=
  Memory.wfFrom_filter p m none h

theorem Memory.wf_nil : Memory.wf [] = true := rfl

/-- Read after write: the same byte. -/
theorem Memory.get_set_same (m : List Host.Cell) (a : Nat) (b : Byte) (h : Memory.wf m = true) : Memory.get (Memory.set m a b) a = b := by
  have go : ∀ (lo : Option Nat) (m : List Host.Cell), Memory.wfFrom lo m = true → Memory.get (Memory.set m a b) a = b := by
    intro lo m
    induction m generalizing lo with
    | nil =>
      intro _
      by_cases hb : b = Memory.unlisted <;> simp [Memory.set, hb, Memory.get]
    | cons e r ih =>
      obtain ⟨k, v⟩ := e
      intro h
      simp only [Memory.wfFrom, Bool.and_eq_true] at h
      by_cases h1 : a < k
      · by_cases hb : b = Memory.unlisted
        · simp only [Memory.set, h1, hb, if_true]
          rw [Memory.get_cons, if_neg (by omega), Memory.get_below r k a h.2 (by omega)]
        · simp [Memory.set, h1, hb, Memory.get]
      · by_cases h2 : k = a
        · by_cases hb : b = Memory.unlisted
          · subst h2
            simp only [Memory.set, hb, if_true, if_neg (Nat.lt_irrefl k)]
            rw [Memory.get_below r k k h.2 (Nat.le_refl k)]
          · simp [Memory.set, h2, hb, Memory.get]
        · simp only [Memory.set, if_neg h1, if_neg h2, Memory.get]
          exact ih (some k) h.2
  exact go none m h

/-- A write leaves every other byte alone. -/
theorem Memory.get_set_other (m : List Host.Cell) (a c : Nat) (b : Byte) (h : Memory.wf m = true) (hc : c ≠ a) :
    Memory.get (Memory.set m a b) c = Memory.get m c := by
  have go : ∀ (lo : Option Nat) (m : List Host.Cell), Memory.wfFrom lo m = true →
      Memory.get (Memory.set m a b) c = Memory.get m c := by
    intro lo m
    induction m generalizing lo with
    | nil =>
      intro _
      by_cases hb : b = Memory.unlisted <;> simp [Memory.set, hb, Memory.get, Ne.symm hc]
    | cons e r ih =>
      obtain ⟨k, v⟩ := e
      intro h
      simp only [Memory.wfFrom, Bool.and_eq_true] at h
      by_cases h1 : a < k
      · by_cases hb : b = Memory.unlisted <;> simp [Memory.set, h1, hb, Memory.get, Ne.symm hc]
      · by_cases h2 : k = a
        · by_cases hb : b = Memory.unlisted
          · subst h2
            simp [Memory.set, hb, Memory.get, Ne.symm hc]
          · simp [Memory.set, h2, hb, Memory.get, Ne.symm hc]
        · simp only [Memory.set, if_neg h1, if_neg h2, Memory.get]
          rw [ih (some k) h.2]
  exact go none m h

/-- A write of bytes leaves every byte outside them alone. -/
theorem Memory.get_write_outside (m : List Host.Cell) (a c : Nat) (bs : List Byte) (h : Memory.wf m = true)
    (hc : c < a ∨ a + bs.length ≤ c) : Memory.get (Memory.write m a bs) c = Memory.get m c := by
  induction bs generalizing m a with
  | nil => rfl
  | cons b r ih =>
    simp only [List.length_cons] at hc
    simp only [Memory.write]
    rw [ih _ _ (Memory.wf_set m a b h) (by omega), Memory.get_set_other m a c b h (by omega)]

/-- A written byte reads back. -/
theorem Memory.get_write_inside (m : List Host.Cell) (a i : Nat) (bs : List Byte) (h : Memory.wf m = true) (hi : i < bs.length) :
    Memory.get (Memory.write m a bs) (a + i) = bs[i] := by
  induction bs generalizing m a i with
  | nil => simp at hi
  | cons b r ih =>
    simp only [Memory.write]
    cases i with
    | zero =>
      rw [Memory.get_write_outside _ _ _ _ (Memory.wf_set m a b h) (by omega)]
      simpa using Memory.get_set_same m a b h
    | succ i =>
      have := ih (Memory.set m a b) (a + 1) i (Memory.wf_set m a b h) (by simpa using hi)
      simpa [Nat.add_assoc, Nat.add_comm 1 i] using this

/-- A memory is determined by its bytes: two canonical memories with equal bytes are equal data. -/
theorem Memory.ext_of_get (m n : List Host.Cell) (hm : Memory.wf m = true) (hn : Memory.wf n = true)
    (h : ∀ a, Memory.get m a = Memory.get n a) : m = n := by
  have go : ∀ (lo : Option Nat) (m n : List Host.Cell), Memory.wfFrom lo m = true → Memory.wfFrom lo n = true →
      (∀ a, Memory.get m a = Memory.get n a) → m = n := by
    intro lo m
    induction m generalizing lo with
    | nil =>
      intro n _ hn h
      cases n with
      | nil => rfl
      | cons e r =>
        obtain ⟨k, v⟩ := e
        simp only [Memory.wfFrom, Bool.and_eq_true, bne_iff_ne] at hn
        have := h k
        simp [Memory.get] at this
        exact absurd this.symm hn.1.2
    | cons e r ih =>
      obtain ⟨k, v⟩ := e
      intro n hm hn h
      cases n with
      | nil =>
        simp only [Memory.wfFrom, Bool.and_eq_true, bne_iff_ne] at hm
        have := h k
        simp [Memory.get] at this
        exact absurd this hm.1.2
      | cons e' r' =>
        obtain ⟨k', v'⟩ := e'
        simp only [Memory.wfFrom, Bool.and_eq_true, bne_iff_ne] at hm hn
        have hk : k = k' := by
          rcases Nat.lt_trichotomy k k' with h1 | h1 | h1
          · have := h k
            rw [Memory.get_cons, Memory.get_cons, if_pos rfl, if_neg (by omega), Memory.get_below r' k' k hn.2 (by omega)] at this
            exact absurd this hm.1.2
          · exact h1
          · have := h k'
            rw [Memory.get_cons, Memory.get_cons, if_neg (by omega), if_pos rfl, Memory.get_below r k k' hm.2 (by omega)] at this
            exact absurd this.symm hn.1.2
        subst hk
        have hv : v = v' := by simpa [Memory.get] using h k
        subst hv
        have : r = r' := by
          refine ih (some k) r' hm.2 hn.2 (fun a => ?_)
          by_cases ha : a ≤ k
          · rw [Memory.get_below r k a hm.2 ha, Memory.get_below r' k a hn.2 ha]
          · have := h a
            rwa [Memory.get_cons, Memory.get_cons, if_neg (by omega), if_neg (by omega)] at this
        rw [this]
  exact go none m n hm hn h

end Sys2Proof.Laws
end

