-- ==== Sys2Proof/Laws/State.lean ====
section
/-! SUPPORT. One law per field of the state per update, and what the accessors of cores, threads, helpers, partitions, pavilions
and islands read after an update. -/

namespace Sys2Proof.Laws
open Sys2Proof Sys2Proof.Machine

/-! ## `State.setCore` -/

@[simp] theorem setCore_agenda (s : State) (k : Nat) (v : Core) : (s.setCore k v).agenda = s.agenda := rfl
@[simp] theorem setCore_net (s : State) (k : Nat) (v : Core) : (s.setCore k v).net = s.net := rfl
@[simp] theorem setCore_cur (s : State) (k : Nat) (v : Core) : (s.setCore k v).cur = s.cur := rfl
@[simp] theorem setCore_lane (s : State) (k : Nat) (v : Core) : (s.setCore k v).lane = s.lane := rfl
@[simp] theorem setCore_clock (s : State) (k : Nat) (v : Core) : (s.setCore k v).clock = s.clock := rfl
@[simp] theorem setCore_passedOver (s : State) (k : Nat) (v : Core) : (s.setCore k v).passedOver = s.passedOver := rfl
@[simp] theorem setCore_free (s : State) (k : Nat) (v : Core) : (s.setCore k v).free = s.free := rfl
@[simp] theorem setCore_reft (s : State) (k : Nat) (v : Core) : (s.setCore k v).reft = s.reft := rfl
@[simp] theorem setCore_skew (s : State) (k : Nat) (v : Core) : (s.setCore k v).skew = s.skew := rfl
@[simp] theorem setCore_skewTo (s : State) (k : Nat) (v : Core) : (s.setCore k v).skewTo = s.skewTo := rfl
@[simp] theorem setCore_refOn (s : State) (k : Nat) (v : Core) : (s.setCore k v).refOn = s.refOn := rfl
@[simp] theorem setCore_lodge (s : State) (k : Nat) (v : Core) : (s.setCore k v).lodge = s.lodge := rfl
@[simp] theorem setCore_chip (s : State) (k : Nat) (v : Core) : (s.setCore k v).chip = s.chip := rfl
@[simp] theorem setCore_vfs (s : State) (k : Nat) (v : Core) : (s.setCore k v).vfs = s.vfs := rfl
@[simp] theorem setCore_fns (s : State) (k : Nat) (v : Core) : (s.setCore k v).fns = s.fns := rfl
@[simp] theorem setCore_linkIde (s : State) (k : Nat) (v : Core) : (s.setCore k v).linkIde = s.linkIde := rfl
@[simp] theorem setCore_links (s : State) (k : Nat) (v : Core) : (s.setCore k v).links = s.links := rfl
@[simp] theorem setCore_routes (s : State) (k : Nat) (v : Core) : (s.setCore k v).routes = s.routes := rfl
@[simp] theorem setCore_deadRoutes (s : State) (k : Nat) (v : Core) : (s.setCore k v).deadRoutes = s.deadRoutes := rfl
@[simp] theorem setCore_hbm (s : State) (k : Nat) (v : Core) : (s.setCore k v).hbm = s.hbm := rfl
@[simp] theorem setCore_hbmPois (s : State) (k : Nat) (v : Core) : (s.setCore k v).hbmPois = s.hbmPois := rfl
@[simp] theorem setCore_host (s : State) (k : Nat) (v : Core) : (s.setCore k v).host = s.host := rfl
@[simp] theorem setCore_hostTx (s : State) (k : Nat) (v : Core) : (s.setCore k v).hostTx = s.hostTx := rfl
@[simp] theorem setCore_peerTx (s : State) (k : Nat) (v : Core) : (s.setCore k v).peerTx = s.peerTx := rfl
@[simp] theorem setCore_pavs (s : State) (k : Nat) (v : Core) : (s.setCore k v).pavs = s.pavs := rfl
@[simp] theorem setCore_isles (s : State) (k : Nat) (v : Core) : (s.setCore k v).isles = s.isles := rfl
@[simp] theorem setCore_parts (s : State) (k : Nat) (v : Core) : (s.setCore k v).parts = s.parts := rfl
@[simp] theorem setCore_patrolD (s : State) (k : Nat) (v : Core) : (s.setCore k v).patrolD = s.patrolD := rfl
@[simp] theorem setCore_patrolNext (s : State) (k : Nat) (v : Core) : (s.setCore k v).patrolNext = s.patrolNext := rfl
@[simp] theorem setCore_patrolPos (s : State) (k : Nat) (v : Core) : (s.setCore k v).patrolPos = s.patrolPos := rfl
@[simp] theorem setCore_patrolStart (s : State) (k : Nat) (v : Core) : (s.setCore k v).patrolStart = s.patrolStart := rfl
@[simp] theorem setCore_errlog (s : State) (k : Nat) (v : Core) : (s.setCore k v).errlog = s.errlog := rfl
@[simp] theorem setCore_corrected (s : State) (k : Nat) (v : Core) : (s.setCore k v).corrected = s.corrected := rfl

/-! ## `State.setPart` -/

@[simp] theorem setPart_agenda (s : State) (k : Nat) (v : Part) : (s.setPart k v).agenda = s.agenda := rfl
@[simp] theorem setPart_net (s : State) (k : Nat) (v : Part) : (s.setPart k v).net = s.net := rfl
@[simp] theorem setPart_cur (s : State) (k : Nat) (v : Part) : (s.setPart k v).cur = s.cur := rfl
@[simp] theorem setPart_lane (s : State) (k : Nat) (v : Part) : (s.setPart k v).lane = s.lane := rfl
@[simp] theorem setPart_clock (s : State) (k : Nat) (v : Part) : (s.setPart k v).clock = s.clock := rfl
@[simp] theorem setPart_passedOver (s : State) (k : Nat) (v : Part) : (s.setPart k v).passedOver = s.passedOver := rfl
@[simp] theorem setPart_free (s : State) (k : Nat) (v : Part) : (s.setPart k v).free = s.free := rfl
@[simp] theorem setPart_reft (s : State) (k : Nat) (v : Part) : (s.setPart k v).reft = s.reft := rfl
@[simp] theorem setPart_skew (s : State) (k : Nat) (v : Part) : (s.setPart k v).skew = s.skew := rfl
@[simp] theorem setPart_skewTo (s : State) (k : Nat) (v : Part) : (s.setPart k v).skewTo = s.skewTo := rfl
@[simp] theorem setPart_refOn (s : State) (k : Nat) (v : Part) : (s.setPart k v).refOn = s.refOn := rfl
@[simp] theorem setPart_lodge (s : State) (k : Nat) (v : Part) : (s.setPart k v).lodge = s.lodge := rfl
@[simp] theorem setPart_chip (s : State) (k : Nat) (v : Part) : (s.setPart k v).chip = s.chip := rfl
@[simp] theorem setPart_vfs (s : State) (k : Nat) (v : Part) : (s.setPart k v).vfs = s.vfs := rfl
@[simp] theorem setPart_fns (s : State) (k : Nat) (v : Part) : (s.setPart k v).fns = s.fns := rfl
@[simp] theorem setPart_linkIde (s : State) (k : Nat) (v : Part) : (s.setPart k v).linkIde = s.linkIde := rfl
@[simp] theorem setPart_links (s : State) (k : Nat) (v : Part) : (s.setPart k v).links = s.links := rfl
@[simp] theorem setPart_routes (s : State) (k : Nat) (v : Part) : (s.setPart k v).routes = s.routes := rfl
@[simp] theorem setPart_deadRoutes (s : State) (k : Nat) (v : Part) : (s.setPart k v).deadRoutes = s.deadRoutes := rfl
@[simp] theorem setPart_hbm (s : State) (k : Nat) (v : Part) : (s.setPart k v).hbm = s.hbm := rfl
@[simp] theorem setPart_hbmPois (s : State) (k : Nat) (v : Part) : (s.setPart k v).hbmPois = s.hbmPois := rfl
@[simp] theorem setPart_host (s : State) (k : Nat) (v : Part) : (s.setPart k v).host = s.host := rfl
@[simp] theorem setPart_hostTx (s : State) (k : Nat) (v : Part) : (s.setPart k v).hostTx = s.hostTx := rfl
@[simp] theorem setPart_peerTx (s : State) (k : Nat) (v : Part) : (s.setPart k v).peerTx = s.peerTx := rfl
@[simp] theorem setPart_cores (s : State) (k : Nat) (v : Part) : (s.setPart k v).cores = s.cores := rfl
@[simp] theorem setPart_pavs (s : State) (k : Nat) (v : Part) : (s.setPart k v).pavs = s.pavs := rfl
@[simp] theorem setPart_isles (s : State) (k : Nat) (v : Part) : (s.setPart k v).isles = s.isles := rfl
@[simp] theorem setPart_patrolD (s : State) (k : Nat) (v : Part) : (s.setPart k v).patrolD = s.patrolD := rfl
@[simp] theorem setPart_patrolNext (s : State) (k : Nat) (v : Part) : (s.setPart k v).patrolNext = s.patrolNext := rfl
@[simp] theorem setPart_patrolPos (s : State) (k : Nat) (v : Part) : (s.setPart k v).patrolPos = s.patrolPos := rfl
@[simp] theorem setPart_patrolStart (s : State) (k : Nat) (v : Part) : (s.setPart k v).patrolStart = s.patrolStart := rfl
@[simp] theorem setPart_errlog (s : State) (k : Nat) (v : Part) : (s.setPart k v).errlog = s.errlog := rfl
@[simp] theorem setPart_corrected (s : State) (k : Nat) (v : Part) : (s.setPart k v).corrected = s.corrected := rfl

/-! ## `State.setPav` -/

@[simp] theorem setPav_agenda (s : State) (k : Nat) (v : Pav) : (s.setPav k v).agenda = s.agenda := rfl
@[simp] theorem setPav_net (s : State) (k : Nat) (v : Pav) : (s.setPav k v).net = s.net := rfl
@[simp] theorem setPav_cur (s : State) (k : Nat) (v : Pav) : (s.setPav k v).cur = s.cur := rfl
@[simp] theorem setPav_lane (s : State) (k : Nat) (v : Pav) : (s.setPav k v).lane = s.lane := rfl
@[simp] theorem setPav_clock (s : State) (k : Nat) (v : Pav) : (s.setPav k v).clock = s.clock := rfl
@[simp] theorem setPav_passedOver (s : State) (k : Nat) (v : Pav) : (s.setPav k v).passedOver = s.passedOver := rfl
@[simp] theorem setPav_free (s : State) (k : Nat) (v : Pav) : (s.setPav k v).free = s.free := rfl
@[simp] theorem setPav_reft (s : State) (k : Nat) (v : Pav) : (s.setPav k v).reft = s.reft := rfl
@[simp] theorem setPav_skew (s : State) (k : Nat) (v : Pav) : (s.setPav k v).skew = s.skew := rfl
@[simp] theorem setPav_skewTo (s : State) (k : Nat) (v : Pav) : (s.setPav k v).skewTo = s.skewTo := rfl
@[simp] theorem setPav_refOn (s : State) (k : Nat) (v : Pav) : (s.setPav k v).refOn = s.refOn := rfl
@[simp] theorem setPav_lodge (s : State) (k : Nat) (v : Pav) : (s.setPav k v).lodge = s.lodge := rfl
@[simp] theorem setPav_chip (s : State) (k : Nat) (v : Pav) : (s.setPav k v).chip = s.chip := rfl
@[simp] theorem setPav_vfs (s : State) (k : Nat) (v : Pav) : (s.setPav k v).vfs = s.vfs := rfl
@[simp] theorem setPav_fns (s : State) (k : Nat) (v : Pav) : (s.setPav k v).fns = s.fns := rfl
@[simp] theorem setPav_linkIde (s : State) (k : Nat) (v : Pav) : (s.setPav k v).linkIde = s.linkIde := rfl
@[simp] theorem setPav_links (s : State) (k : Nat) (v : Pav) : (s.setPav k v).links = s.links := rfl
@[simp] theorem setPav_routes (s : State) (k : Nat) (v : Pav) : (s.setPav k v).routes = s.routes := rfl
@[simp] theorem setPav_deadRoutes (s : State) (k : Nat) (v : Pav) : (s.setPav k v).deadRoutes = s.deadRoutes := rfl
@[simp] theorem setPav_hbm (s : State) (k : Nat) (v : Pav) : (s.setPav k v).hbm = s.hbm := rfl
@[simp] theorem setPav_hbmPois (s : State) (k : Nat) (v : Pav) : (s.setPav k v).hbmPois = s.hbmPois := rfl
@[simp] theorem setPav_host (s : State) (k : Nat) (v : Pav) : (s.setPav k v).host = s.host := rfl
@[simp] theorem setPav_hostTx (s : State) (k : Nat) (v : Pav) : (s.setPav k v).hostTx = s.hostTx := rfl
@[simp] theorem setPav_peerTx (s : State) (k : Nat) (v : Pav) : (s.setPav k v).peerTx = s.peerTx := rfl
@[simp] theorem setPav_cores (s : State) (k : Nat) (v : Pav) : (s.setPav k v).cores = s.cores := rfl
@[simp] theorem setPav_isles (s : State) (k : Nat) (v : Pav) : (s.setPav k v).isles = s.isles := rfl
@[simp] theorem setPav_parts (s : State) (k : Nat) (v : Pav) : (s.setPav k v).parts = s.parts := rfl
@[simp] theorem setPav_patrolD (s : State) (k : Nat) (v : Pav) : (s.setPav k v).patrolD = s.patrolD := rfl
@[simp] theorem setPav_patrolNext (s : State) (k : Nat) (v : Pav) : (s.setPav k v).patrolNext = s.patrolNext := rfl
@[simp] theorem setPav_patrolPos (s : State) (k : Nat) (v : Pav) : (s.setPav k v).patrolPos = s.patrolPos := rfl
@[simp] theorem setPav_patrolStart (s : State) (k : Nat) (v : Pav) : (s.setPav k v).patrolStart = s.patrolStart := rfl
@[simp] theorem setPav_errlog (s : State) (k : Nat) (v : Pav) : (s.setPav k v).errlog = s.errlog := rfl
@[simp] theorem setPav_corrected (s : State) (k : Nat) (v : Pav) : (s.setPav k v).corrected = s.corrected := rfl

/-! ## `State.setIsle` -/

@[simp] theorem setIsle_agenda (s : State) (k : Nat) (v : Isle) : (s.setIsle k v).agenda = s.agenda := rfl
@[simp] theorem setIsle_net (s : State) (k : Nat) (v : Isle) : (s.setIsle k v).net = s.net := rfl
@[simp] theorem setIsle_cur (s : State) (k : Nat) (v : Isle) : (s.setIsle k v).cur = s.cur := rfl
@[simp] theorem setIsle_lane (s : State) (k : Nat) (v : Isle) : (s.setIsle k v).lane = s.lane := rfl
@[simp] theorem setIsle_clock (s : State) (k : Nat) (v : Isle) : (s.setIsle k v).clock = s.clock := rfl
@[simp] theorem setIsle_passedOver (s : State) (k : Nat) (v : Isle) : (s.setIsle k v).passedOver = s.passedOver := rfl
@[simp] theorem setIsle_free (s : State) (k : Nat) (v : Isle) : (s.setIsle k v).free = s.free := rfl
@[simp] theorem setIsle_reft (s : State) (k : Nat) (v : Isle) : (s.setIsle k v).reft = s.reft := rfl
@[simp] theorem setIsle_skew (s : State) (k : Nat) (v : Isle) : (s.setIsle k v).skew = s.skew := rfl
@[simp] theorem setIsle_skewTo (s : State) (k : Nat) (v : Isle) : (s.setIsle k v).skewTo = s.skewTo := rfl
@[simp] theorem setIsle_refOn (s : State) (k : Nat) (v : Isle) : (s.setIsle k v).refOn = s.refOn := rfl
@[simp] theorem setIsle_lodge (s : State) (k : Nat) (v : Isle) : (s.setIsle k v).lodge = s.lodge := rfl
@[simp] theorem setIsle_chip (s : State) (k : Nat) (v : Isle) : (s.setIsle k v).chip = s.chip := rfl
@[simp] theorem setIsle_vfs (s : State) (k : Nat) (v : Isle) : (s.setIsle k v).vfs = s.vfs := rfl
@[simp] theorem setIsle_fns (s : State) (k : Nat) (v : Isle) : (s.setIsle k v).fns = s.fns := rfl
@[simp] theorem setIsle_linkIde (s : State) (k : Nat) (v : Isle) : (s.setIsle k v).linkIde = s.linkIde := rfl
@[simp] theorem setIsle_links (s : State) (k : Nat) (v : Isle) : (s.setIsle k v).links = s.links := rfl
@[simp] theorem setIsle_routes (s : State) (k : Nat) (v : Isle) : (s.setIsle k v).routes = s.routes := rfl
@[simp] theorem setIsle_deadRoutes (s : State) (k : Nat) (v : Isle) : (s.setIsle k v).deadRoutes = s.deadRoutes := rfl
@[simp] theorem setIsle_hbm (s : State) (k : Nat) (v : Isle) : (s.setIsle k v).hbm = s.hbm := rfl
@[simp] theorem setIsle_hbmPois (s : State) (k : Nat) (v : Isle) : (s.setIsle k v).hbmPois = s.hbmPois := rfl
@[simp] theorem setIsle_host (s : State) (k : Nat) (v : Isle) : (s.setIsle k v).host = s.host := rfl
@[simp] theorem setIsle_hostTx (s : State) (k : Nat) (v : Isle) : (s.setIsle k v).hostTx = s.hostTx := rfl
@[simp] theorem setIsle_peerTx (s : State) (k : Nat) (v : Isle) : (s.setIsle k v).peerTx = s.peerTx := rfl
@[simp] theorem setIsle_cores (s : State) (k : Nat) (v : Isle) : (s.setIsle k v).cores = s.cores := rfl
@[simp] theorem setIsle_pavs (s : State) (k : Nat) (v : Isle) : (s.setIsle k v).pavs = s.pavs := rfl
@[simp] theorem setIsle_parts (s : State) (k : Nat) (v : Isle) : (s.setIsle k v).parts = s.parts := rfl
@[simp] theorem setIsle_patrolD (s : State) (k : Nat) (v : Isle) : (s.setIsle k v).patrolD = s.patrolD := rfl
@[simp] theorem setIsle_patrolNext (s : State) (k : Nat) (v : Isle) : (s.setIsle k v).patrolNext = s.patrolNext := rfl
@[simp] theorem setIsle_patrolPos (s : State) (k : Nat) (v : Isle) : (s.setIsle k v).patrolPos = s.patrolPos := rfl
@[simp] theorem setIsle_patrolStart (s : State) (k : Nat) (v : Isle) : (s.setIsle k v).patrolStart = s.patrolStart := rfl
@[simp] theorem setIsle_errlog (s : State) (k : Nat) (v : Isle) : (s.setIsle k v).errlog = s.errlog := rfl
@[simp] theorem setIsle_corrected (s : State) (k : Nat) (v : Isle) : (s.setIsle k v).corrected = s.corrected := rfl

/-! ## `State.setThread` -/

@[simp] theorem setThread_agenda (s : State) (k t : Nat) (v : Thread) : (s.setThread k t v).agenda = s.agenda := rfl
@[simp] theorem setThread_net (s : State) (k t : Nat) (v : Thread) : (s.setThread k t v).net = s.net := rfl
@[simp] theorem setThread_cur (s : State) (k t : Nat) (v : Thread) : (s.setThread k t v).cur = s.cur := rfl
@[simp] theorem setThread_lane (s : State) (k t : Nat) (v : Thread) : (s.setThread k t v).lane = s.lane := rfl
@[simp] theorem setThread_clock (s : State) (k t : Nat) (v : Thread) : (s.setThread k t v).clock = s.clock := rfl
@[simp] theorem setThread_passedOver (s : State) (k t : Nat) (v : Thread) : (s.setThread k t v).passedOver = s.passedOver := rfl
@[simp] theorem setThread_free (s : State) (k t : Nat) (v : Thread) : (s.setThread k t v).free = s.free := rfl
@[simp] theorem setThread_reft (s : State) (k t : Nat) (v : Thread) : (s.setThread k t v).reft = s.reft := rfl
@[simp] theorem setThread_skew (s : State) (k t : Nat) (v : Thread) : (s.setThread k t v).skew = s.skew := rfl
@[simp] theorem setThread_skewTo (s : State) (k t : Nat) (v : Thread) : (s.setThread k t v).skewTo = s.skewTo := rfl
@[simp] theorem setThread_refOn (s : State) (k t : Nat) (v : Thread) : (s.setThread k t v).refOn = s.refOn := rfl
@[simp] theorem setThread_lodge (s : State) (k t : Nat) (v : Thread) : (s.setThread k t v).lodge = s.lodge := rfl
@[simp] theorem setThread_chip (s : State) (k t : Nat) (v : Thread) : (s.setThread k t v).chip = s.chip := rfl
@[simp] theorem setThread_vfs (s : State) (k t : Nat) (v : Thread) : (s.setThread k t v).vfs = s.vfs := rfl
@[simp] theorem setThread_fns (s : State) (k t : Nat) (v : Thread) : (s.setThread k t v).fns = s.fns := rfl
@[simp] theorem setThread_linkIde (s : State) (k t : Nat) (v : Thread) : (s.setThread k t v).linkIde = s.linkIde := rfl
@[simp] theorem setThread_links (s : State) (k t : Nat) (v : Thread) : (s.setThread k t v).links = s.links := rfl
@[simp] theorem setThread_routes (s : State) (k t : Nat) (v : Thread) : (s.setThread k t v).routes = s.routes := rfl
@[simp] theorem setThread_deadRoutes (s : State) (k t : Nat) (v : Thread) : (s.setThread k t v).deadRoutes = s.deadRoutes := rfl
@[simp] theorem setThread_hbm (s : State) (k t : Nat) (v : Thread) : (s.setThread k t v).hbm = s.hbm := rfl
@[simp] theorem setThread_hbmPois (s : State) (k t : Nat) (v : Thread) : (s.setThread k t v).hbmPois = s.hbmPois := rfl
@[simp] theorem setThread_host (s : State) (k t : Nat) (v : Thread) : (s.setThread k t v).host = s.host := rfl
@[simp] theorem setThread_hostTx (s : State) (k t : Nat) (v : Thread) : (s.setThread k t v).hostTx = s.hostTx := rfl
@[simp] theorem setThread_peerTx (s : State) (k t : Nat) (v : Thread) : (s.setThread k t v).peerTx = s.peerTx := rfl
@[simp] theorem setThread_pavs (s : State) (k t : Nat) (v : Thread) : (s.setThread k t v).pavs = s.pavs := rfl
@[simp] theorem setThread_isles (s : State) (k t : Nat) (v : Thread) : (s.setThread k t v).isles = s.isles := rfl
@[simp] theorem setThread_parts (s : State) (k t : Nat) (v : Thread) : (s.setThread k t v).parts = s.parts := rfl
@[simp] theorem setThread_patrolD (s : State) (k t : Nat) (v : Thread) : (s.setThread k t v).patrolD = s.patrolD := rfl
@[simp] theorem setThread_patrolNext (s : State) (k t : Nat) (v : Thread) : (s.setThread k t v).patrolNext = s.patrolNext := rfl
@[simp] theorem setThread_patrolPos (s : State) (k t : Nat) (v : Thread) : (s.setThread k t v).patrolPos = s.patrolPos := rfl
@[simp] theorem setThread_patrolStart (s : State) (k t : Nat) (v : Thread) : (s.setThread k t v).patrolStart = s.patrolStart := rfl
@[simp] theorem setThread_errlog (s : State) (k t : Nat) (v : Thread) : (s.setThread k t v).errlog = s.errlog := rfl
@[simp] theorem setThread_corrected (s : State) (k t : Nat) (v : Thread) : (s.setThread k t v).corrected = s.corrected := rfl

/-! ## `State.setHelper` -/

@[simp] theorem setHelper_agenda (s : State) (k h : Nat) (v : Helper) : (s.setHelper k h v).agenda = s.agenda := rfl
@[simp] theorem setHelper_net (s : State) (k h : Nat) (v : Helper) : (s.setHelper k h v).net = s.net := rfl
@[simp] theorem setHelper_cur (s : State) (k h : Nat) (v : Helper) : (s.setHelper k h v).cur = s.cur := rfl
@[simp] theorem setHelper_lane (s : State) (k h : Nat) (v : Helper) : (s.setHelper k h v).lane = s.lane := rfl
@[simp] theorem setHelper_clock (s : State) (k h : Nat) (v : Helper) : (s.setHelper k h v).clock = s.clock := rfl
@[simp] theorem setHelper_passedOver (s : State) (k h : Nat) (v : Helper) : (s.setHelper k h v).passedOver = s.passedOver := rfl
@[simp] theorem setHelper_free (s : State) (k h : Nat) (v : Helper) : (s.setHelper k h v).free = s.free := rfl
@[simp] theorem setHelper_reft (s : State) (k h : Nat) (v : Helper) : (s.setHelper k h v).reft = s.reft := rfl
@[simp] theorem setHelper_skew (s : State) (k h : Nat) (v : Helper) : (s.setHelper k h v).skew = s.skew := rfl
@[simp] theorem setHelper_skewTo (s : State) (k h : Nat) (v : Helper) : (s.setHelper k h v).skewTo = s.skewTo := rfl
@[simp] theorem setHelper_refOn (s : State) (k h : Nat) (v : Helper) : (s.setHelper k h v).refOn = s.refOn := rfl
@[simp] theorem setHelper_lodge (s : State) (k h : Nat) (v : Helper) : (s.setHelper k h v).lodge = s.lodge := rfl
@[simp] theorem setHelper_chip (s : State) (k h : Nat) (v : Helper) : (s.setHelper k h v).chip = s.chip := rfl
@[simp] theorem setHelper_vfs (s : State) (k h : Nat) (v : Helper) : (s.setHelper k h v).vfs = s.vfs := rfl
@[simp] theorem setHelper_fns (s : State) (k h : Nat) (v : Helper) : (s.setHelper k h v).fns = s.fns := rfl
@[simp] theorem setHelper_linkIde (s : State) (k h : Nat) (v : Helper) : (s.setHelper k h v).linkIde = s.linkIde := rfl
@[simp] theorem setHelper_links (s : State) (k h : Nat) (v : Helper) : (s.setHelper k h v).links = s.links := rfl
@[simp] theorem setHelper_routes (s : State) (k h : Nat) (v : Helper) : (s.setHelper k h v).routes = s.routes := rfl
@[simp] theorem setHelper_deadRoutes (s : State) (k h : Nat) (v : Helper) : (s.setHelper k h v).deadRoutes = s.deadRoutes := rfl
@[simp] theorem setHelper_hbm (s : State) (k h : Nat) (v : Helper) : (s.setHelper k h v).hbm = s.hbm := rfl
@[simp] theorem setHelper_hbmPois (s : State) (k h : Nat) (v : Helper) : (s.setHelper k h v).hbmPois = s.hbmPois := rfl
@[simp] theorem setHelper_host (s : State) (k h : Nat) (v : Helper) : (s.setHelper k h v).host = s.host := rfl
@[simp] theorem setHelper_hostTx (s : State) (k h : Nat) (v : Helper) : (s.setHelper k h v).hostTx = s.hostTx := rfl
@[simp] theorem setHelper_peerTx (s : State) (k h : Nat) (v : Helper) : (s.setHelper k h v).peerTx = s.peerTx := rfl
@[simp] theorem setHelper_pavs (s : State) (k h : Nat) (v : Helper) : (s.setHelper k h v).pavs = s.pavs := rfl
@[simp] theorem setHelper_isles (s : State) (k h : Nat) (v : Helper) : (s.setHelper k h v).isles = s.isles := rfl
@[simp] theorem setHelper_parts (s : State) (k h : Nat) (v : Helper) : (s.setHelper k h v).parts = s.parts := rfl
@[simp] theorem setHelper_patrolD (s : State) (k h : Nat) (v : Helper) : (s.setHelper k h v).patrolD = s.patrolD := rfl
@[simp] theorem setHelper_patrolNext (s : State) (k h : Nat) (v : Helper) : (s.setHelper k h v).patrolNext = s.patrolNext := rfl
@[simp] theorem setHelper_patrolPos (s : State) (k h : Nat) (v : Helper) : (s.setHelper k h v).patrolPos = s.patrolPos := rfl
@[simp] theorem setHelper_patrolStart (s : State) (k h : Nat) (v : Helper) : (s.setHelper k h v).patrolStart = s.patrolStart := rfl
@[simp] theorem setHelper_errlog (s : State) (k h : Nat) (v : Helper) : (s.setHelper k h v).errlog = s.errlog := rfl
@[simp] theorem setHelper_corrected (s : State) (k h : Nat) (v : Helper) : (s.setHelper k h v).corrected = s.corrected := rfl

/-! ## `State.modCore` -/

@[simp] theorem modCore_agenda (s : State) (k : Nat) (f : Core → Core) : (s.modCore k f).agenda = s.agenda := rfl
@[simp] theorem modCore_net (s : State) (k : Nat) (f : Core → Core) : (s.modCore k f).net = s.net := rfl
@[simp] theorem modCore_cur (s : State) (k : Nat) (f : Core → Core) : (s.modCore k f).cur = s.cur := rfl
@[simp] theorem modCore_lane (s : State) (k : Nat) (f : Core → Core) : (s.modCore k f).lane = s.lane := rfl
@[simp] theorem modCore_clock (s : State) (k : Nat) (f : Core → Core) : (s.modCore k f).clock = s.clock := rfl
@[simp] theorem modCore_passedOver (s : State) (k : Nat) (f : Core → Core) : (s.modCore k f).passedOver = s.passedOver := rfl
@[simp] theorem modCore_free (s : State) (k : Nat) (f : Core → Core) : (s.modCore k f).free = s.free := rfl
@[simp] theorem modCore_reft (s : State) (k : Nat) (f : Core → Core) : (s.modCore k f).reft = s.reft := rfl
@[simp] theorem modCore_skew (s : State) (k : Nat) (f : Core → Core) : (s.modCore k f).skew = s.skew := rfl
@[simp] theorem modCore_skewTo (s : State) (k : Nat) (f : Core → Core) : (s.modCore k f).skewTo = s.skewTo := rfl
@[simp] theorem modCore_refOn (s : State) (k : Nat) (f : Core → Core) : (s.modCore k f).refOn = s.refOn := rfl
@[simp] theorem modCore_lodge (s : State) (k : Nat) (f : Core → Core) : (s.modCore k f).lodge = s.lodge := rfl
@[simp] theorem modCore_chip (s : State) (k : Nat) (f : Core → Core) : (s.modCore k f).chip = s.chip := rfl
@[simp] theorem modCore_vfs (s : State) (k : Nat) (f : Core → Core) : (s.modCore k f).vfs = s.vfs := rfl
@[simp] theorem modCore_fns (s : State) (k : Nat) (f : Core → Core) : (s.modCore k f).fns = s.fns := rfl
@[simp] theorem modCore_linkIde (s : State) (k : Nat) (f : Core → Core) : (s.modCore k f).linkIde = s.linkIde := rfl
@[simp] theorem modCore_links (s : State) (k : Nat) (f : Core → Core) : (s.modCore k f).links = s.links := rfl
@[simp] theorem modCore_routes (s : State) (k : Nat) (f : Core → Core) : (s.modCore k f).routes = s.routes := rfl
@[simp] theorem modCore_deadRoutes (s : State) (k : Nat) (f : Core → Core) : (s.modCore k f).deadRoutes = s.deadRoutes := rfl
@[simp] theorem modCore_hbm (s : State) (k : Nat) (f : Core → Core) : (s.modCore k f).hbm = s.hbm := rfl
@[simp] theorem modCore_hbmPois (s : State) (k : Nat) (f : Core → Core) : (s.modCore k f).hbmPois = s.hbmPois := rfl
@[simp] theorem modCore_host (s : State) (k : Nat) (f : Core → Core) : (s.modCore k f).host = s.host := rfl
@[simp] theorem modCore_hostTx (s : State) (k : Nat) (f : Core → Core) : (s.modCore k f).hostTx = s.hostTx := rfl
@[simp] theorem modCore_peerTx (s : State) (k : Nat) (f : Core → Core) : (s.modCore k f).peerTx = s.peerTx := rfl
@[simp] theorem modCore_pavs (s : State) (k : Nat) (f : Core → Core) : (s.modCore k f).pavs = s.pavs := rfl
@[simp] theorem modCore_isles (s : State) (k : Nat) (f : Core → Core) : (s.modCore k f).isles = s.isles := rfl
@[simp] theorem modCore_parts (s : State) (k : Nat) (f : Core → Core) : (s.modCore k f).parts = s.parts := rfl
@[simp] theorem modCore_patrolD (s : State) (k : Nat) (f : Core → Core) : (s.modCore k f).patrolD = s.patrolD := rfl
@[simp] theorem modCore_patrolNext (s : State) (k : Nat) (f : Core → Core) : (s.modCore k f).patrolNext = s.patrolNext := rfl
@[simp] theorem modCore_patrolPos (s : State) (k : Nat) (f : Core → Core) : (s.modCore k f).patrolPos = s.patrolPos := rfl
@[simp] theorem modCore_patrolStart (s : State) (k : Nat) (f : Core → Core) : (s.modCore k f).patrolStart = s.patrolStart := rfl
@[simp] theorem modCore_errlog (s : State) (k : Nat) (f : Core → Core) : (s.modCore k f).errlog = s.errlog := rfl
@[simp] theorem modCore_corrected (s : State) (k : Nat) (f : Core → Core) : (s.modCore k f).corrected = s.corrected := rfl

/-! ## `State.modPart` -/

@[simp] theorem modPart_agenda (s : State) (k : Nat) (f : Part → Part) : (s.modPart k f).agenda = s.agenda := rfl
@[simp] theorem modPart_net (s : State) (k : Nat) (f : Part → Part) : (s.modPart k f).net = s.net := rfl
@[simp] theorem modPart_cur (s : State) (k : Nat) (f : Part → Part) : (s.modPart k f).cur = s.cur := rfl
@[simp] theorem modPart_lane (s : State) (k : Nat) (f : Part → Part) : (s.modPart k f).lane = s.lane := rfl
@[simp] theorem modPart_clock (s : State) (k : Nat) (f : Part → Part) : (s.modPart k f).clock = s.clock := rfl
@[simp] theorem modPart_passedOver (s : State) (k : Nat) (f : Part → Part) : (s.modPart k f).passedOver = s.passedOver := rfl
@[simp] theorem modPart_free (s : State) (k : Nat) (f : Part → Part) : (s.modPart k f).free = s.free := rfl
@[simp] theorem modPart_reft (s : State) (k : Nat) (f : Part → Part) : (s.modPart k f).reft = s.reft := rfl
@[simp] theorem modPart_skew (s : State) (k : Nat) (f : Part → Part) : (s.modPart k f).skew = s.skew := rfl
@[simp] theorem modPart_skewTo (s : State) (k : Nat) (f : Part → Part) : (s.modPart k f).skewTo = s.skewTo := rfl
@[simp] theorem modPart_refOn (s : State) (k : Nat) (f : Part → Part) : (s.modPart k f).refOn = s.refOn := rfl
@[simp] theorem modPart_lodge (s : State) (k : Nat) (f : Part → Part) : (s.modPart k f).lodge = s.lodge := rfl
@[simp] theorem modPart_chip (s : State) (k : Nat) (f : Part → Part) : (s.modPart k f).chip = s.chip := rfl
@[simp] theorem modPart_vfs (s : State) (k : Nat) (f : Part → Part) : (s.modPart k f).vfs = s.vfs := rfl
@[simp] theorem modPart_fns (s : State) (k : Nat) (f : Part → Part) : (s.modPart k f).fns = s.fns := rfl
@[simp] theorem modPart_linkIde (s : State) (k : Nat) (f : Part → Part) : (s.modPart k f).linkIde = s.linkIde := rfl
@[simp] theorem modPart_links (s : State) (k : Nat) (f : Part → Part) : (s.modPart k f).links = s.links := rfl
@[simp] theorem modPart_routes (s : State) (k : Nat) (f : Part → Part) : (s.modPart k f).routes = s.routes := rfl
@[simp] theorem modPart_deadRoutes (s : State) (k : Nat) (f : Part → Part) : (s.modPart k f).deadRoutes = s.deadRoutes := rfl
@[simp] theorem modPart_hbm (s : State) (k : Nat) (f : Part → Part) : (s.modPart k f).hbm = s.hbm := rfl
@[simp] theorem modPart_hbmPois (s : State) (k : Nat) (f : Part → Part) : (s.modPart k f).hbmPois = s.hbmPois := rfl
@[simp] theorem modPart_host (s : State) (k : Nat) (f : Part → Part) : (s.modPart k f).host = s.host := rfl
@[simp] theorem modPart_hostTx (s : State) (k : Nat) (f : Part → Part) : (s.modPart k f).hostTx = s.hostTx := rfl
@[simp] theorem modPart_peerTx (s : State) (k : Nat) (f : Part → Part) : (s.modPart k f).peerTx = s.peerTx := rfl
@[simp] theorem modPart_cores (s : State) (k : Nat) (f : Part → Part) : (s.modPart k f).cores = s.cores := rfl
@[simp] theorem modPart_pavs (s : State) (k : Nat) (f : Part → Part) : (s.modPart k f).pavs = s.pavs := rfl
@[simp] theorem modPart_isles (s : State) (k : Nat) (f : Part → Part) : (s.modPart k f).isles = s.isles := rfl
@[simp] theorem modPart_patrolD (s : State) (k : Nat) (f : Part → Part) : (s.modPart k f).patrolD = s.patrolD := rfl
@[simp] theorem modPart_patrolNext (s : State) (k : Nat) (f : Part → Part) : (s.modPart k f).patrolNext = s.patrolNext := rfl
@[simp] theorem modPart_patrolPos (s : State) (k : Nat) (f : Part → Part) : (s.modPart k f).patrolPos = s.patrolPos := rfl
@[simp] theorem modPart_patrolStart (s : State) (k : Nat) (f : Part → Part) : (s.modPart k f).patrolStart = s.patrolStart := rfl
@[simp] theorem modPart_errlog (s : State) (k : Nat) (f : Part → Part) : (s.modPart k f).errlog = s.errlog := rfl
@[simp] theorem modPart_corrected (s : State) (k : Nat) (f : Part → Part) : (s.modPart k f).corrected = s.corrected := rfl

/-! ## `State.modPav` -/

@[simp] theorem modPav_agenda (s : State) (k : Nat) (f : Pav → Pav) : (s.modPav k f).agenda = s.agenda := rfl
@[simp] theorem modPav_net (s : State) (k : Nat) (f : Pav → Pav) : (s.modPav k f).net = s.net := rfl
@[simp] theorem modPav_cur (s : State) (k : Nat) (f : Pav → Pav) : (s.modPav k f).cur = s.cur := rfl
@[simp] theorem modPav_lane (s : State) (k : Nat) (f : Pav → Pav) : (s.modPav k f).lane = s.lane := rfl
@[simp] theorem modPav_clock (s : State) (k : Nat) (f : Pav → Pav) : (s.modPav k f).clock = s.clock := rfl
@[simp] theorem modPav_passedOver (s : State) (k : Nat) (f : Pav → Pav) : (s.modPav k f).passedOver = s.passedOver := rfl
@[simp] theorem modPav_free (s : State) (k : Nat) (f : Pav → Pav) : (s.modPav k f).free = s.free := rfl
@[simp] theorem modPav_reft (s : State) (k : Nat) (f : Pav → Pav) : (s.modPav k f).reft = s.reft := rfl
@[simp] theorem modPav_skew (s : State) (k : Nat) (f : Pav → Pav) : (s.modPav k f).skew = s.skew := rfl
@[simp] theorem modPav_skewTo (s : State) (k : Nat) (f : Pav → Pav) : (s.modPav k f).skewTo = s.skewTo := rfl
@[simp] theorem modPav_refOn (s : State) (k : Nat) (f : Pav → Pav) : (s.modPav k f).refOn = s.refOn := rfl
@[simp] theorem modPav_lodge (s : State) (k : Nat) (f : Pav → Pav) : (s.modPav k f).lodge = s.lodge := rfl
@[simp] theorem modPav_chip (s : State) (k : Nat) (f : Pav → Pav) : (s.modPav k f).chip = s.chip := rfl
@[simp] theorem modPav_vfs (s : State) (k : Nat) (f : Pav → Pav) : (s.modPav k f).vfs = s.vfs := rfl
@[simp] theorem modPav_fns (s : State) (k : Nat) (f : Pav → Pav) : (s.modPav k f).fns = s.fns := rfl
@[simp] theorem modPav_linkIde (s : State) (k : Nat) (f : Pav → Pav) : (s.modPav k f).linkIde = s.linkIde := rfl
@[simp] theorem modPav_links (s : State) (k : Nat) (f : Pav → Pav) : (s.modPav k f).links = s.links := rfl
@[simp] theorem modPav_routes (s : State) (k : Nat) (f : Pav → Pav) : (s.modPav k f).routes = s.routes := rfl
@[simp] theorem modPav_deadRoutes (s : State) (k : Nat) (f : Pav → Pav) : (s.modPav k f).deadRoutes = s.deadRoutes := rfl
@[simp] theorem modPav_hbm (s : State) (k : Nat) (f : Pav → Pav) : (s.modPav k f).hbm = s.hbm := rfl
@[simp] theorem modPav_hbmPois (s : State) (k : Nat) (f : Pav → Pav) : (s.modPav k f).hbmPois = s.hbmPois := rfl
@[simp] theorem modPav_host (s : State) (k : Nat) (f : Pav → Pav) : (s.modPav k f).host = s.host := rfl
@[simp] theorem modPav_hostTx (s : State) (k : Nat) (f : Pav → Pav) : (s.modPav k f).hostTx = s.hostTx := rfl
@[simp] theorem modPav_peerTx (s : State) (k : Nat) (f : Pav → Pav) : (s.modPav k f).peerTx = s.peerTx := rfl
@[simp] theorem modPav_cores (s : State) (k : Nat) (f : Pav → Pav) : (s.modPav k f).cores = s.cores := rfl
@[simp] theorem modPav_isles (s : State) (k : Nat) (f : Pav → Pav) : (s.modPav k f).isles = s.isles := rfl
@[simp] theorem modPav_parts (s : State) (k : Nat) (f : Pav → Pav) : (s.modPav k f).parts = s.parts := rfl
@[simp] theorem modPav_patrolD (s : State) (k : Nat) (f : Pav → Pav) : (s.modPav k f).patrolD = s.patrolD := rfl
@[simp] theorem modPav_patrolNext (s : State) (k : Nat) (f : Pav → Pav) : (s.modPav k f).patrolNext = s.patrolNext := rfl
@[simp] theorem modPav_patrolPos (s : State) (k : Nat) (f : Pav → Pav) : (s.modPav k f).patrolPos = s.patrolPos := rfl
@[simp] theorem modPav_patrolStart (s : State) (k : Nat) (f : Pav → Pav) : (s.modPav k f).patrolStart = s.patrolStart := rfl
@[simp] theorem modPav_errlog (s : State) (k : Nat) (f : Pav → Pav) : (s.modPav k f).errlog = s.errlog := rfl
@[simp] theorem modPav_corrected (s : State) (k : Nat) (f : Pav → Pav) : (s.modPav k f).corrected = s.corrected := rfl

/-! ## `State.modThread` -/

@[simp] theorem modThread_agenda (s : State) (k t : Nat) (f : Thread → Thread) : (s.modThread k t f).agenda = s.agenda := rfl
@[simp] theorem modThread_net (s : State) (k t : Nat) (f : Thread → Thread) : (s.modThread k t f).net = s.net := rfl
@[simp] theorem modThread_cur (s : State) (k t : Nat) (f : Thread → Thread) : (s.modThread k t f).cur = s.cur := rfl
@[simp] theorem modThread_lane (s : State) (k t : Nat) (f : Thread → Thread) : (s.modThread k t f).lane = s.lane := rfl
@[simp] theorem modThread_clock (s : State) (k t : Nat) (f : Thread → Thread) : (s.modThread k t f).clock = s.clock := rfl
@[simp] theorem modThread_passedOver (s : State) (k t : Nat) (f : Thread → Thread) : (s.modThread k t f).passedOver = s.passedOver := rfl
@[simp] theorem modThread_free (s : State) (k t : Nat) (f : Thread → Thread) : (s.modThread k t f).free = s.free := rfl
@[simp] theorem modThread_reft (s : State) (k t : Nat) (f : Thread → Thread) : (s.modThread k t f).reft = s.reft := rfl
@[simp] theorem modThread_skew (s : State) (k t : Nat) (f : Thread → Thread) : (s.modThread k t f).skew = s.skew := rfl
@[simp] theorem modThread_skewTo (s : State) (k t : Nat) (f : Thread → Thread) : (s.modThread k t f).skewTo = s.skewTo := rfl
@[simp] theorem modThread_refOn (s : State) (k t : Nat) (f : Thread → Thread) : (s.modThread k t f).refOn = s.refOn := rfl
@[simp] theorem modThread_lodge (s : State) (k t : Nat) (f : Thread → Thread) : (s.modThread k t f).lodge = s.lodge := rfl
@[simp] theorem modThread_chip (s : State) (k t : Nat) (f : Thread → Thread) : (s.modThread k t f).chip = s.chip := rfl
@[simp] theorem modThread_vfs (s : State) (k t : Nat) (f : Thread → Thread) : (s.modThread k t f).vfs = s.vfs := rfl
@[simp] theorem modThread_fns (s : State) (k t : Nat) (f : Thread → Thread) : (s.modThread k t f).fns = s.fns := rfl
@[simp] theorem modThread_linkIde (s : State) (k t : Nat) (f : Thread → Thread) : (s.modThread k t f).linkIde = s.linkIde := rfl
@[simp] theorem modThread_links (s : State) (k t : Nat) (f : Thread → Thread) : (s.modThread k t f).links = s.links := rfl
@[simp] theorem modThread_routes (s : State) (k t : Nat) (f : Thread → Thread) : (s.modThread k t f).routes = s.routes := rfl
@[simp] theorem modThread_deadRoutes (s : State) (k t : Nat) (f : Thread → Thread) : (s.modThread k t f).deadRoutes = s.deadRoutes := rfl
@[simp] theorem modThread_hbm (s : State) (k t : Nat) (f : Thread → Thread) : (s.modThread k t f).hbm = s.hbm := rfl
@[simp] theorem modThread_hbmPois (s : State) (k t : Nat) (f : Thread → Thread) : (s.modThread k t f).hbmPois = s.hbmPois := rfl
@[simp] theorem modThread_host (s : State) (k t : Nat) (f : Thread → Thread) : (s.modThread k t f).host = s.host := rfl
@[simp] theorem modThread_hostTx (s : State) (k t : Nat) (f : Thread → Thread) : (s.modThread k t f).hostTx = s.hostTx := rfl
@[simp] theorem modThread_peerTx (s : State) (k t : Nat) (f : Thread → Thread) : (s.modThread k t f).peerTx = s.peerTx := rfl
@[simp] theorem modThread_pavs (s : State) (k t : Nat) (f : Thread → Thread) : (s.modThread k t f).pavs = s.pavs := rfl
@[simp] theorem modThread_isles (s : State) (k t : Nat) (f : Thread → Thread) : (s.modThread k t f).isles = s.isles := rfl
@[simp] theorem modThread_parts (s : State) (k t : Nat) (f : Thread → Thread) : (s.modThread k t f).parts = s.parts := rfl
@[simp] theorem modThread_patrolD (s : State) (k t : Nat) (f : Thread → Thread) : (s.modThread k t f).patrolD = s.patrolD := rfl
@[simp] theorem modThread_patrolNext (s : State) (k t : Nat) (f : Thread → Thread) : (s.modThread k t f).patrolNext = s.patrolNext := rfl
@[simp] theorem modThread_patrolPos (s : State) (k t : Nat) (f : Thread → Thread) : (s.modThread k t f).patrolPos = s.patrolPos := rfl
@[simp] theorem modThread_patrolStart (s : State) (k t : Nat) (f : Thread → Thread) : (s.modThread k t f).patrolStart = s.patrolStart := rfl
@[simp] theorem modThread_errlog (s : State) (k t : Nat) (f : Thread → Thread) : (s.modThread k t f).errlog = s.errlog := rfl
@[simp] theorem modThread_corrected (s : State) (k t : Nat) (f : Thread → Thread) : (s.modThread k t f).corrected = s.corrected := rfl

/-! ## `State.modHelper` -/

@[simp] theorem modHelper_agenda (s : State) (k h : Nat) (f : Helper → Helper) : (s.modHelper k h f).agenda = s.agenda := rfl
@[simp] theorem modHelper_net (s : State) (k h : Nat) (f : Helper → Helper) : (s.modHelper k h f).net = s.net := rfl
@[simp] theorem modHelper_cur (s : State) (k h : Nat) (f : Helper → Helper) : (s.modHelper k h f).cur = s.cur := rfl
@[simp] theorem modHelper_lane (s : State) (k h : Nat) (f : Helper → Helper) : (s.modHelper k h f).lane = s.lane := rfl
@[simp] theorem modHelper_clock (s : State) (k h : Nat) (f : Helper → Helper) : (s.modHelper k h f).clock = s.clock := rfl
@[simp] theorem modHelper_passedOver (s : State) (k h : Nat) (f : Helper → Helper) : (s.modHelper k h f).passedOver = s.passedOver := rfl
@[simp] theorem modHelper_free (s : State) (k h : Nat) (f : Helper → Helper) : (s.modHelper k h f).free = s.free := rfl
@[simp] theorem modHelper_reft (s : State) (k h : Nat) (f : Helper → Helper) : (s.modHelper k h f).reft = s.reft := rfl
@[simp] theorem modHelper_skew (s : State) (k h : Nat) (f : Helper → Helper) : (s.modHelper k h f).skew = s.skew := rfl
@[simp] theorem modHelper_skewTo (s : State) (k h : Nat) (f : Helper → Helper) : (s.modHelper k h f).skewTo = s.skewTo := rfl
@[simp] theorem modHelper_refOn (s : State) (k h : Nat) (f : Helper → Helper) : (s.modHelper k h f).refOn = s.refOn := rfl
@[simp] theorem modHelper_lodge (s : State) (k h : Nat) (f : Helper → Helper) : (s.modHelper k h f).lodge = s.lodge := rfl
@[simp] theorem modHelper_chip (s : State) (k h : Nat) (f : Helper → Helper) : (s.modHelper k h f).chip = s.chip := rfl
@[simp] theorem modHelper_vfs (s : State) (k h : Nat) (f : Helper → Helper) : (s.modHelper k h f).vfs = s.vfs := rfl
@[simp] theorem modHelper_fns (s : State) (k h : Nat) (f : Helper → Helper) : (s.modHelper k h f).fns = s.fns := rfl
@[simp] theorem modHelper_linkIde (s : State) (k h : Nat) (f : Helper → Helper) : (s.modHelper k h f).linkIde = s.linkIde := rfl
@[simp] theorem modHelper_links (s : State) (k h : Nat) (f : Helper → Helper) : (s.modHelper k h f).links = s.links := rfl
@[simp] theorem modHelper_routes (s : State) (k h : Nat) (f : Helper → Helper) : (s.modHelper k h f).routes = s.routes := rfl
@[simp] theorem modHelper_deadRoutes (s : State) (k h : Nat) (f : Helper → Helper) : (s.modHelper k h f).deadRoutes = s.deadRoutes := rfl
@[simp] theorem modHelper_hbm (s : State) (k h : Nat) (f : Helper → Helper) : (s.modHelper k h f).hbm = s.hbm := rfl
@[simp] theorem modHelper_hbmPois (s : State) (k h : Nat) (f : Helper → Helper) : (s.modHelper k h f).hbmPois = s.hbmPois := rfl
@[simp] theorem modHelper_host (s : State) (k h : Nat) (f : Helper → Helper) : (s.modHelper k h f).host = s.host := rfl
@[simp] theorem modHelper_hostTx (s : State) (k h : Nat) (f : Helper → Helper) : (s.modHelper k h f).hostTx = s.hostTx := rfl
@[simp] theorem modHelper_peerTx (s : State) (k h : Nat) (f : Helper → Helper) : (s.modHelper k h f).peerTx = s.peerTx := rfl
@[simp] theorem modHelper_pavs (s : State) (k h : Nat) (f : Helper → Helper) : (s.modHelper k h f).pavs = s.pavs := rfl
@[simp] theorem modHelper_isles (s : State) (k h : Nat) (f : Helper → Helper) : (s.modHelper k h f).isles = s.isles := rfl
@[simp] theorem modHelper_parts (s : State) (k h : Nat) (f : Helper → Helper) : (s.modHelper k h f).parts = s.parts := rfl
@[simp] theorem modHelper_patrolD (s : State) (k h : Nat) (f : Helper → Helper) : (s.modHelper k h f).patrolD = s.patrolD := rfl
@[simp] theorem modHelper_patrolNext (s : State) (k h : Nat) (f : Helper → Helper) : (s.modHelper k h f).patrolNext = s.patrolNext := rfl
@[simp] theorem modHelper_patrolPos (s : State) (k h : Nat) (f : Helper → Helper) : (s.modHelper k h f).patrolPos = s.patrolPos := rfl
@[simp] theorem modHelper_patrolStart (s : State) (k h : Nat) (f : Helper → Helper) : (s.modHelper k h f).patrolStart = s.patrolStart := rfl
@[simp] theorem modHelper_errlog (s : State) (k h : Nat) (f : Helper → Helper) : (s.modHelper k h f).errlog = s.errlog := rfl
@[simp] theorem modHelper_corrected (s : State) (k h : Nat) (f : Helper → Helper) : (s.modHelper k h f).corrected = s.corrected := rfl

/-! ## Accessors after an update -/


@[simp] theorem core_setCore_same (s : State) (k : Nat) (v : Core) : (s.setCore k v).core k = v := by
  simp [State.core, State.setCore]
@[simp] theorem core_setCore_other (s : State) (j k : Nat) (v : Core) (h : k ≠ j) : (s.setCore k v).core j = s.core j := by
  simp [State.core, State.setCore, h]

@[simp] theorem part_setPart_same (s : State) (k : Nat) (v : Part) : (s.setPart k v).part k = v := by
  simp [State.part, State.setPart]
@[simp] theorem part_setPart_other (s : State) (j k : Nat) (v : Part) (h : k ≠ j) : (s.setPart k v).part j = s.part j := by
  simp [State.part, State.setPart, h]

@[simp] theorem pav_setPav_same (s : State) (k : Nat) (v : Pav) : (s.setPav k v).pav k = v := by
  simp [State.pav, State.setPav]
@[simp] theorem pav_setPav_other (s : State) (j k : Nat) (v : Pav) (h : k ≠ j) : (s.setPav k v).pav j = s.pav j := by
  simp [State.pav, State.setPav, h]

@[simp] theorem isle_setIsle_same (s : State) (k : Nat) (v : Isle) : (s.setIsle k v).isle k = v := by
  simp [State.isle, State.setIsle]
@[simp] theorem isle_setIsle_other (s : State) (j k : Nat) (v : Isle) (h : k ≠ j) : (s.setIsle k v).isle j = s.isle j := by
  simp [State.isle, State.setIsle, h]

@[simp] theorem core_setPart (s : State) (k : Nat) (v : Part) (j : Nat) : (s.setPart k v).core j = s.core j := rfl
@[simp] theorem core_setPav (s : State) (k : Nat) (v : Pav) (j : Nat) : (s.setPav k v).core j = s.core j := rfl
@[simp] theorem core_setIsle (s : State) (k : Nat) (v : Isle) (j : Nat) : (s.setIsle k v).core j = s.core j := rfl
@[simp] theorem core_modPart (s : State) (k : Nat) (f : Part → Part) (j : Nat) : (s.modPart k f).core j = s.core j := rfl
@[simp] theorem core_modPav (s : State) (k : Nat) (f : Pav → Pav) (j : Nat) : (s.modPav k f).core j = s.core j := rfl

@[simp] theorem part_setCore (s : State) (k : Nat) (v : Core) (j : Nat) : (s.setCore k v).part j = s.part j := rfl
@[simp] theorem part_setPav (s : State) (k : Nat) (v : Pav) (j : Nat) : (s.setPav k v).part j = s.part j := rfl
@[simp] theorem part_setIsle (s : State) (k : Nat) (v : Isle) (j : Nat) : (s.setIsle k v).part j = s.part j := rfl
@[simp] theorem part_setThread (s : State) (k t : Nat) (v : Thread) (j : Nat) : (s.setThread k t v).part j = s.part j := rfl
@[simp] theorem part_setHelper (s : State) (k h : Nat) (v : Helper) (j : Nat) : (s.setHelper k h v).part j = s.part j := rfl
@[simp] theorem part_modCore (s : State) (k : Nat) (f : Core → Core) (j : Nat) : (s.modCore k f).part j = s.part j := rfl
@[simp] theorem part_modPav (s : State) (k : Nat) (f : Pav → Pav) (j : Nat) : (s.modPav k f).part j = s.part j := rfl
@[simp] theorem part_modThread (s : State) (k t : Nat) (f : Thread → Thread) (j : Nat) : (s.modThread k t f).part j = s.part j := rfl
@[simp] theorem part_modHelper (s : State) (k h : Nat) (f : Helper → Helper) (j : Nat) : (s.modHelper k h f).part j = s.part j := rfl

@[simp] theorem pav_setCore (s : State) (k : Nat) (v : Core) (j : Nat) : (s.setCore k v).pav j = s.pav j := rfl
@[simp] theorem pav_setPart (s : State) (k : Nat) (v : Part) (j : Nat) : (s.setPart k v).pav j = s.pav j := rfl
@[simp] theorem pav_setIsle (s : State) (k : Nat) (v : Isle) (j : Nat) : (s.setIsle k v).pav j = s.pav j := rfl
@[simp] theorem pav_setThread (s : State) (k t : Nat) (v : Thread) (j : Nat) : (s.setThread k t v).pav j = s.pav j := rfl
@[simp] theorem pav_setHelper (s : State) (k h : Nat) (v : Helper) (j : Nat) : (s.setHelper k h v).pav j = s.pav j := rfl
@[simp] theorem pav_modCore (s : State) (k : Nat) (f : Core → Core) (j : Nat) : (s.modCore k f).pav j = s.pav j := rfl
@[simp] theorem pav_modPart (s : State) (k : Nat) (f : Part → Part) (j : Nat) : (s.modPart k f).pav j = s.pav j := rfl
@[simp] theorem pav_modThread (s : State) (k t : Nat) (f : Thread → Thread) (j : Nat) : (s.modThread k t f).pav j = s.pav j := rfl
@[simp] theorem pav_modHelper (s : State) (k h : Nat) (f : Helper → Helper) (j : Nat) : (s.modHelper k h f).pav j = s.pav j := rfl

@[simp] theorem isle_setCore (s : State) (k : Nat) (v : Core) (j : Nat) : (s.setCore k v).isle j = s.isle j := rfl
@[simp] theorem isle_setPart (s : State) (k : Nat) (v : Part) (j : Nat) : (s.setPart k v).isle j = s.isle j := rfl
@[simp] theorem isle_setPav (s : State) (k : Nat) (v : Pav) (j : Nat) : (s.setPav k v).isle j = s.isle j := rfl
@[simp] theorem isle_setThread (s : State) (k t : Nat) (v : Thread) (j : Nat) : (s.setThread k t v).isle j = s.isle j := rfl
@[simp] theorem isle_setHelper (s : State) (k h : Nat) (v : Helper) (j : Nat) : (s.setHelper k h v).isle j = s.isle j := rfl
@[simp] theorem isle_modCore (s : State) (k : Nat) (f : Core → Core) (j : Nat) : (s.modCore k f).isle j = s.isle j := rfl
@[simp] theorem isle_modPart (s : State) (k : Nat) (f : Part → Part) (j : Nat) : (s.modPart k f).isle j = s.isle j := rfl
@[simp] theorem isle_modPav (s : State) (k : Nat) (f : Pav → Pav) (j : Nat) : (s.modPav k f).isle j = s.isle j := rfl
@[simp] theorem isle_modThread (s : State) (k t : Nat) (f : Thread → Thread) (j : Nat) : (s.modThread k t f).isle j = s.isle j := rfl
@[simp] theorem isle_modHelper (s : State) (k h : Nat) (f : Helper → Helper) (j : Nat) : (s.modHelper k h f).isle j = s.isle j := rfl

@[simp] theorem thread_setPart (s : State) (k : Nat) (v : Part) (j i : Nat) : (s.setPart k v).thread j i = s.thread j i := rfl
@[simp] theorem thread_setPav (s : State) (k : Nat) (v : Pav) (j i : Nat) : (s.setPav k v).thread j i = s.thread j i := rfl
@[simp] theorem thread_setIsle (s : State) (k : Nat) (v : Isle) (j i : Nat) : (s.setIsle k v).thread j i = s.thread j i := rfl
@[simp] theorem thread_modPart (s : State) (k : Nat) (f : Part → Part) (j i : Nat) : (s.modPart k f).thread j i = s.thread j i := rfl
@[simp] theorem thread_modPav (s : State) (k : Nat) (f : Pav → Pav) (j i : Nat) : (s.modPav k f).thread j i = s.thread j i := rfl
@[simp] theorem helper_setPart (s : State) (k : Nat) (v : Part) (j i : Nat) : (s.setPart k v).helper j i = s.helper j i := rfl
@[simp] theorem helper_setPav (s : State) (k : Nat) (v : Pav) (j i : Nat) : (s.setPav k v).helper j i = s.helper j i := rfl
@[simp] theorem helper_setIsle (s : State) (k : Nat) (v : Isle) (j i : Nat) : (s.setIsle k v).helper j i = s.helper j i := rfl
@[simp] theorem helper_modPart (s : State) (k : Nat) (f : Part → Part) (j i : Nat) : (s.modPart k f).helper j i = s.helper j i := rfl
@[simp] theorem helper_modPav (s : State) (k : Nat) (f : Pav → Pav) (j i : Nat) : (s.modPav k f).helper j i = s.helper j i := rfl

@[simp] theorem thread_setThread_same (s : State) (k t : Nat) (v : Thread) (h : t < 4) : (s.setThread k t v).thread k t = v := by
  simp [State.thread, State.setThread, Vector.getD, h]
@[simp] theorem thread_setThread_other (s : State) (k t j i : Nat) (v : Thread) (h : k ≠ j ∨ t ≠ i) :
    (s.setThread k t v).thread j i = s.thread j i := by
  by_cases hk : k = j
  · subst hk
    have ht : t ≠ i := by simpa using h
    by_cases hi : i < 4
    · simp [State.thread, State.setThread, Vector.getD, hi, ht]
    · simp [State.thread, State.setThread, Vector.getD, hi]
  · simp [State.thread, State.setThread, hk]
@[simp] theorem helper_setThread (s : State) (k t : Nat) (v : Thread) (j i : Nat) : (s.setThread k t v).helper j i = s.helper j i := by
  by_cases hk : k = j
  · subst hk; simp [State.helper, State.setThread]
  · simp [State.helper, State.setThread, hk]
@[simp] theorem helper_setHelper_same (s : State) (k t : Nat) (v : Helper) (h : t < 2) : (s.setHelper k t v).helper k t = v := by
  simp [State.helper, State.setHelper, Vector.getD, h]
@[simp] theorem helper_setHelper_other (s : State) (k t j i : Nat) (v : Helper) (h : k ≠ j ∨ t ≠ i) :
    (s.setHelper k t v).helper j i = s.helper j i := by
  by_cases hk : k = j
  · subst hk
    have ht : t ≠ i := by simpa using h
    by_cases hi : i < 2
    · simp [State.helper, State.setHelper, Vector.getD, hi, ht]
    · simp [State.helper, State.setHelper, Vector.getD, hi]
  · simp [State.helper, State.setHelper, hk]
@[simp] theorem thread_setHelper (s : State) (k t : Nat) (v : Helper) (j i : Nat) : (s.setHelper k t v).thread j i = s.thread j i := by
  by_cases hk : k = j
  · subst hk; simp [State.thread, State.setHelper]
  · simp [State.thread, State.setHelper, hk]

/-! ## What `State.setThread` leaves of a core -/

@[simp] theorem setThread_core_helpers (s : State) (k t : Nat) (v : Thread) (j : Nat) : ((s.setThread k t v).core j).helpers = (s.core j).helpers := by
  by_cases hk : k = j
  · subst hk; simp [State.setThread]
  · simp [State.setThread, hk]
@[simp] theorem setThread_core_corecfg (s : State) (k t : Nat) (v : Thread) (j : Nat) : ((s.setThread k t v).core j).corecfg = (s.core j).corecfg := by
  by_cases hk : k = j
  · subst hk; simp [State.setThread]
  · simp [State.setThread, hk]
@[simp] theorem setThread_core_mire (s : State) (k t : Nat) (v : Thread) (j : Nat) : ((s.setThread k t v).core j).mire = (s.core j).mire := by
  by_cases hk : k = j
  · subst hk; simp [State.setThread]
  · simp [State.setThread, hk]
@[simp] theorem setThread_core_nextRec (s : State) (k t : Nat) (v : Thread) (j : Nat) : ((s.setThread k t v).core j).nextRec = (s.core j).nextRec := by
  by_cases hk : k = j
  · subst hk; simp [State.setThread]
  · simp [State.setThread, hk]
@[simp] theorem setThread_core_sp (s : State) (k t : Nat) (v : Thread) (j : Nat) : ((s.setThread k t v).core j).sp = (s.core j).sp := by
  by_cases hk : k = j
  · subst hk; simp [State.setThread]
  · simp [State.setThread, hk]
@[simp] theorem setThread_core_live (s : State) (k t : Nat) (v : Thread) (j : Nat) : ((s.setThread k t v).core j).live = (s.core j).live := by
  by_cases hk : k = j
  · subst hk; simp [State.setThread]
  · simp [State.setThread, hk]
@[simp] theorem setThread_core_pois (s : State) (k t : Nat) (v : Thread) (j : Nat) : ((s.setThread k t v).core j).pois = (s.core j).pois := by
  by_cases hk : k = j
  · subst hk; simp [State.setThread]
  · simp [State.setThread, hk]
@[simp] theorem setThread_core_ts (s : State) (k t : Nat) (v : Thread) (j : Nat) : ((s.setThread k t v).core j).ts = (s.core j).ts := by
  by_cases hk : k = j
  · subst hk; simp [State.setThread]
  · simp [State.setThread, hk]
@[simp] theorem setThread_core_tsBad (s : State) (k t : Nat) (v : Thread) (j : Nat) : ((s.setThread k t v).core j).tsBad = (s.core j).tsBad := by
  by_cases hk : k = j
  · subst hk; simp [State.setThread]
  · simp [State.setThread, hk]
@[simp] theorem setThread_core_latched (s : State) (k t : Nat) (v : Thread) (j : Nat) : ((s.setThread k t v).core j).latched = (s.core j).latched := by
  by_cases hk : k = j
  · subst hk; simp [State.setThread]
  · simp [State.setThread, hk]
@[simp] theorem setThread_core_pipeA (s : State) (k t : Nat) (v : Thread) (j : Nat) : ((s.setThread k t v).core j).pipeA = (s.core j).pipeA := by
  by_cases hk : k = j
  · subst hk; simp [State.setThread]
  · simp [State.setThread, hk]
@[simp] theorem setThread_core_pipeM (s : State) (k t : Nat) (v : Thread) (j : Nat) : ((s.setThread k t v).core j).pipeM = (s.core j).pipeM := by
  by_cases hk : k = j
  · subst hk; simp [State.setThread]
  · simp [State.setThread, hk]
@[simp] theorem setThread_core_pipeX (s : State) (k t : Nat) (v : Thread) (j : Nat) : ((s.setThread k t v).core j).pipeX = (s.core j).pipeX := by
  by_cases hk : k = j
  · subst hk; simp [State.setThread]
  · simp [State.setThread, hk]
@[simp] theorem setThread_core_copyQ (s : State) (k t : Nat) (v : Thread) (j : Nat) : ((s.setThread k t v).core j).copyQ = (s.core j).copyQ := by
  by_cases hk : k = j
  · subst hk; simp [State.setThread]
  · simp [State.setThread, hk]
@[simp] theorem setThread_core_units (s : State) (k t : Nat) (v : Thread) (j : Nat) : ((s.setThread k t v).core j).units = (s.core j).units := by
  by_cases hk : k = j
  · subst hk; simp [State.setThread]
  · simp [State.setThread, hk]
@[simp] theorem setThread_core_nextCmd (s : State) (k t : Nat) (v : Thread) (j : Nat) : ((s.setThread k t v).core j).nextCmd = (s.core j).nextCmd := by
  by_cases hk : k = j
  · subst hk; simp [State.setThread]
  · simp [State.setThread, hk]
@[simp] theorem setThread_core_zones (s : State) (k t : Nat) (v : Thread) (j : Nat) : ((s.setThread k t v).core j).zones = (s.core j).zones := by
  by_cases hk : k = j
  · subst hk; simp [State.setThread]
  · simp [State.setThread, hk]
@[simp] theorem setThread_core_tagTab (s : State) (k t : Nat) (v : Thread) (j : Nat) : ((s.setThread k t v).core j).tagTab = (s.core j).tagTab := by
  by_cases hk : k = j
  · subst hk; simp [State.setThread]
  · simp [State.setThread, hk]
@[simp] theorem setThread_core_tlb (s : State) (k t : Nat) (v : Thread) (j : Nat) : ((s.setThread k t v).core j).tlb = (s.core j).tlb := by
  by_cases hk : k = j
  · subst hk; simp [State.setThread]
  · simp [State.setThread, hk]
@[simp] theorem setThread_core_icache (s : State) (k t : Nat) (v : Thread) (j : Nat) : ((s.setThread k t v).core j).icache = (s.core j).icache := by
  by_cases hk : k = j
  · subst hk; simp [State.setThread]
  · simp [State.setThread, hk]
@[simp] theorem setThread_core_gcur (s : State) (k t : Nat) (v : Thread) (j : Nat) : ((s.setThread k t v).core j).gcur = (s.core j).gcur := by
  by_cases hk : k = j
  · subst hk; simp [State.setThread]
  · simp [State.setThread, hk]
@[simp] theorem setThread_core_grun (s : State) (k t : Nat) (v : Thread) (j : Nat) : ((s.setThread k t v).core j).grun = (s.core j).grun := by
  by_cases hk : k = j
  · subst hk; simp [State.setThread]
  · simp [State.setThread, hk]
@[simp] theorem setThread_core_glast (s : State) (k t : Nat) (v : Thread) (j : Nat) : ((s.setThread k t v).core j).glast = (s.core j).glast := by
  by_cases hk : k = j
  · subst hk; simp [State.setThread]
  · simp [State.setThread, hk]
@[simp] theorem setThread_core_wait (s : State) (k t : Nat) (v : Thread) (j : Nat) : ((s.setThread k t v).core j).wait = (s.core j).wait := by
  by_cases hk : k = j
  · subst hk; simp [State.setThread]
  · simp [State.setThread, hk]
@[simp] theorem setThread_core_sinceHelper (s : State) (k t : Nat) (v : Thread) (j : Nat) : ((s.setThread k t v).core j).sinceHelper = (s.core j).sinceHelper := by
  by_cases hk : k = j
  · subst hk; simp [State.setThread]
  · simp [State.setThread, hk]
@[simp] theorem setThread_core_frame (s : State) (k t : Nat) (v : Thread) (j : Nat) : ((s.setThread k t v).core j).frame = (s.core j).frame := by
  by_cases hk : k = j
  · subst hk; simp [State.setThread]
  · simp [State.setThread, hk]
@[simp] theorem setThread_core_frameDuty (s : State) (k t : Nat) (v : Thread) (j : Nat) : ((s.setThread k t v).core j).frameDuty = (s.core j).frameDuty := by
  by_cases hk : k = j
  · subst hk; simp [State.setThread]
  · simp [State.setThread, hk]
@[simp] theorem setThread_core_cyc (s : State) (k t : Nat) (v : Thread) (j : Nat) : ((s.setThread k t v).core j).cyc = (s.core j).cyc := by
  by_cases hk : k = j
  · subst hk; simp [State.setThread]
  · simp [State.setThread, hk]
@[simp] theorem setThread_core_cycn (s : State) (k t : Nat) (v : Thread) (j : Nat) : ((s.setThread k t v).core j).cycn = (s.core j).cycn := by
  by_cases hk : k = j
  · subst hk; simp [State.setThread]
  · simp [State.setThread, hk]
@[simp] theorem setThread_core_cycnFrac (s : State) (k t : Nat) (v : Thread) (j : Nat) : ((s.setThread k t v).core j).cycnFrac = (s.core j).cycnFrac := by
  by_cases hk : k = j
  · subst hk; simp [State.setThread]
  · simp [State.setThread, hk]
@[simp] theorem setThread_core_evt (s : State) (k t : Nat) (v : Thread) (j : Nat) : ((s.setThread k t v).core j).evt = (s.core j).evt := by
  by_cases hk : k = j
  · subst hk; simp [State.setThread]
  · simp [State.setThread, hk]
@[simp] theorem setThread_core_suspect (s : State) (k t : Nat) (v : Thread) (j : Nat) : ((s.setThread k t v).core j).suspect = (s.core j).suspect := by
  by_cases hk : k = j
  · subst hk; simp [State.setThread]
  · simp [State.setThread, hk]
@[simp] theorem setThread_core_flaws (s : State) (k t : Nat) (v : Thread) (j : Nat) : ((s.setThread k t v).core j).flaws = (s.core j).flaws := by
  by_cases hk : k = j
  · subst hk; simp [State.setThread]
  · simp [State.setThread, hk]
@[simp] theorem setThread_core_verify (s : State) (k t : Nat) (v : Thread) (j : Nat) : ((s.setThread k t v).core j).verify = (s.core j).verify := by
  by_cases hk : k = j
  · subst hk; simp [State.setThread]
  · simp [State.setThread, hk]
@[simp] theorem setThread_core_posted (s : State) (k t : Nat) (v : Thread) (j : Nat) : ((s.setThread k t v).core j).posted = (s.core j).posted := by
  by_cases hk : k = j
  · subst hk; simp [State.setThread]
  · simp [State.setThread, hk]
@[simp] theorem setThread_core_staging (s : State) (k t : Nat) (v : Thread) (j : Nat) : ((s.setThread k t v).core j).staging = (s.core j).staging := by
  by_cases hk : k = j
  · subst hk; simp [State.setThread]
  · simp [State.setThread, hk]

/-! ## What `State.setHelper` leaves of a core -/

@[simp] theorem setHelper_core_threads (s : State) (k h : Nat) (v : Helper) (j : Nat) : ((s.setHelper k h v).core j).threads = (s.core j).threads := by
  by_cases hk : k = j
  · subst hk; simp [State.setHelper]
  · simp [State.setHelper, hk]
@[simp] theorem setHelper_core_corecfg (s : State) (k h : Nat) (v : Helper) (j : Nat) : ((s.setHelper k h v).core j).corecfg = (s.core j).corecfg := by
  by_cases hk : k = j
  · subst hk; simp [State.setHelper]
  · simp [State.setHelper, hk]
@[simp] theorem setHelper_core_mire (s : State) (k h : Nat) (v : Helper) (j : Nat) : ((s.setHelper k h v).core j).mire = (s.core j).mire := by
  by_cases hk : k = j
  · subst hk; simp [State.setHelper]
  · simp [State.setHelper, hk]
@[simp] theorem setHelper_core_nextRec (s : State) (k h : Nat) (v : Helper) (j : Nat) : ((s.setHelper k h v).core j).nextRec = (s.core j).nextRec := by
  by_cases hk : k = j
  · subst hk; simp [State.setHelper]
  · simp [State.setHelper, hk]
@[simp] theorem setHelper_core_sp (s : State) (k h : Nat) (v : Helper) (j : Nat) : ((s.setHelper k h v).core j).sp = (s.core j).sp := by
  by_cases hk : k = j
  · subst hk; simp [State.setHelper]
  · simp [State.setHelper, hk]
@[simp] theorem setHelper_core_live (s : State) (k h : Nat) (v : Helper) (j : Nat) : ((s.setHelper k h v).core j).live = (s.core j).live := by
  by_cases hk : k = j
  · subst hk; simp [State.setHelper]
  · simp [State.setHelper, hk]
@[simp] theorem setHelper_core_pois (s : State) (k h : Nat) (v : Helper) (j : Nat) : ((s.setHelper k h v).core j).pois = (s.core j).pois := by
  by_cases hk : k = j
  · subst hk; simp [State.setHelper]
  · simp [State.setHelper, hk]
@[simp] theorem setHelper_core_ts (s : State) (k h : Nat) (v : Helper) (j : Nat) : ((s.setHelper k h v).core j).ts = (s.core j).ts := by
  by_cases hk : k = j
  · subst hk; simp [State.setHelper]
  · simp [State.setHelper, hk]
@[simp] theorem setHelper_core_tsBad (s : State) (k h : Nat) (v : Helper) (j : Nat) : ((s.setHelper k h v).core j).tsBad = (s.core j).tsBad := by
  by_cases hk : k = j
  · subst hk; simp [State.setHelper]
  · simp [State.setHelper, hk]
@[simp] theorem setHelper_core_latched (s : State) (k h : Nat) (v : Helper) (j : Nat) : ((s.setHelper k h v).core j).latched = (s.core j).latched := by
  by_cases hk : k = j
  · subst hk; simp [State.setHelper]
  · simp [State.setHelper, hk]
@[simp] theorem setHelper_core_pipeA (s : State) (k h : Nat) (v : Helper) (j : Nat) : ((s.setHelper k h v).core j).pipeA = (s.core j).pipeA := by
  by_cases hk : k = j
  · subst hk; simp [State.setHelper]
  · simp [State.setHelper, hk]
@[simp] theorem setHelper_core_pipeM (s : State) (k h : Nat) (v : Helper) (j : Nat) : ((s.setHelper k h v).core j).pipeM = (s.core j).pipeM := by
  by_cases hk : k = j
  · subst hk; simp [State.setHelper]
  · simp [State.setHelper, hk]
@[simp] theorem setHelper_core_pipeX (s : State) (k h : Nat) (v : Helper) (j : Nat) : ((s.setHelper k h v).core j).pipeX = (s.core j).pipeX := by
  by_cases hk : k = j
  · subst hk; simp [State.setHelper]
  · simp [State.setHelper, hk]
@[simp] theorem setHelper_core_copyQ (s : State) (k h : Nat) (v : Helper) (j : Nat) : ((s.setHelper k h v).core j).copyQ = (s.core j).copyQ := by
  by_cases hk : k = j
  · subst hk; simp [State.setHelper]
  · simp [State.setHelper, hk]
@[simp] theorem setHelper_core_units (s : State) (k h : Nat) (v : Helper) (j : Nat) : ((s.setHelper k h v).core j).units = (s.core j).units := by
  by_cases hk : k = j
  · subst hk; simp [State.setHelper]
  · simp [State.setHelper, hk]
@[simp] theorem setHelper_core_nextCmd (s : State) (k h : Nat) (v : Helper) (j : Nat) : ((s.setHelper k h v).core j).nextCmd = (s.core j).nextCmd := by
  by_cases hk : k = j
  · subst hk; simp [State.setHelper]
  · simp [State.setHelper, hk]
@[simp] theorem setHelper_core_zones (s : State) (k h : Nat) (v : Helper) (j : Nat) : ((s.setHelper k h v).core j).zones = (s.core j).zones := by
  by_cases hk : k = j
  · subst hk; simp [State.setHelper]
  · simp [State.setHelper, hk]
@[simp] theorem setHelper_core_tagTab (s : State) (k h : Nat) (v : Helper) (j : Nat) : ((s.setHelper k h v).core j).tagTab = (s.core j).tagTab := by
  by_cases hk : k = j
  · subst hk; simp [State.setHelper]
  · simp [State.setHelper, hk]
@[simp] theorem setHelper_core_tlb (s : State) (k h : Nat) (v : Helper) (j : Nat) : ((s.setHelper k h v).core j).tlb = (s.core j).tlb := by
  by_cases hk : k = j
  · subst hk; simp [State.setHelper]
  · simp [State.setHelper, hk]
@[simp] theorem setHelper_core_icache (s : State) (k h : Nat) (v : Helper) (j : Nat) : ((s.setHelper k h v).core j).icache = (s.core j).icache := by
  by_cases hk : k = j
  · subst hk; simp [State.setHelper]
  · simp [State.setHelper, hk]
@[simp] theorem setHelper_core_gcur (s : State) (k h : Nat) (v : Helper) (j : Nat) : ((s.setHelper k h v).core j).gcur = (s.core j).gcur := by
  by_cases hk : k = j
  · subst hk; simp [State.setHelper]
  · simp [State.setHelper, hk]
@[simp] theorem setHelper_core_grun (s : State) (k h : Nat) (v : Helper) (j : Nat) : ((s.setHelper k h v).core j).grun = (s.core j).grun := by
  by_cases hk : k = j
  · subst hk; simp [State.setHelper]
  · simp [State.setHelper, hk]
@[simp] theorem setHelper_core_glast (s : State) (k h : Nat) (v : Helper) (j : Nat) : ((s.setHelper k h v).core j).glast = (s.core j).glast := by
  by_cases hk : k = j
  · subst hk; simp [State.setHelper]
  · simp [State.setHelper, hk]
@[simp] theorem setHelper_core_wait (s : State) (k h : Nat) (v : Helper) (j : Nat) : ((s.setHelper k h v).core j).wait = (s.core j).wait := by
  by_cases hk : k = j
  · subst hk; simp [State.setHelper]
  · simp [State.setHelper, hk]
@[simp] theorem setHelper_core_sinceHelper (s : State) (k h : Nat) (v : Helper) (j : Nat) : ((s.setHelper k h v).core j).sinceHelper = (s.core j).sinceHelper := by
  by_cases hk : k = j
  · subst hk; simp [State.setHelper]
  · simp [State.setHelper, hk]
@[simp] theorem setHelper_core_frame (s : State) (k h : Nat) (v : Helper) (j : Nat) : ((s.setHelper k h v).core j).frame = (s.core j).frame := by
  by_cases hk : k = j
  · subst hk; simp [State.setHelper]
  · simp [State.setHelper, hk]
@[simp] theorem setHelper_core_frameDuty (s : State) (k h : Nat) (v : Helper) (j : Nat) : ((s.setHelper k h v).core j).frameDuty = (s.core j).frameDuty := by
  by_cases hk : k = j
  · subst hk; simp [State.setHelper]
  · simp [State.setHelper, hk]
@[simp] theorem setHelper_core_cyc (s : State) (k h : Nat) (v : Helper) (j : Nat) : ((s.setHelper k h v).core j).cyc = (s.core j).cyc := by
  by_cases hk : k = j
  · subst hk; simp [State.setHelper]
  · simp [State.setHelper, hk]
@[simp] theorem setHelper_core_cycn (s : State) (k h : Nat) (v : Helper) (j : Nat) : ((s.setHelper k h v).core j).cycn = (s.core j).cycn := by
  by_cases hk : k = j
  · subst hk; simp [State.setHelper]
  · simp [State.setHelper, hk]
@[simp] theorem setHelper_core_cycnFrac (s : State) (k h : Nat) (v : Helper) (j : Nat) : ((s.setHelper k h v).core j).cycnFrac = (s.core j).cycnFrac := by
  by_cases hk : k = j
  · subst hk; simp [State.setHelper]
  · simp [State.setHelper, hk]
@[simp] theorem setHelper_core_evt (s : State) (k h : Nat) (v : Helper) (j : Nat) : ((s.setHelper k h v).core j).evt = (s.core j).evt := by
  by_cases hk : k = j
  · subst hk; simp [State.setHelper]
  · simp [State.setHelper, hk]
@[simp] theorem setHelper_core_suspect (s : State) (k h : Nat) (v : Helper) (j : Nat) : ((s.setHelper k h v).core j).suspect = (s.core j).suspect := by
  by_cases hk : k = j
  · subst hk; simp [State.setHelper]
  · simp [State.setHelper, hk]
@[simp] theorem setHelper_core_flaws (s : State) (k h : Nat) (v : Helper) (j : Nat) : ((s.setHelper k h v).core j).flaws = (s.core j).flaws := by
  by_cases hk : k = j
  · subst hk; simp [State.setHelper]
  · simp [State.setHelper, hk]
@[simp] theorem setHelper_core_verify (s : State) (k h : Nat) (v : Helper) (j : Nat) : ((s.setHelper k h v).core j).verify = (s.core j).verify := by
  by_cases hk : k = j
  · subst hk; simp [State.setHelper]
  · simp [State.setHelper, hk]
@[simp] theorem setHelper_core_posted (s : State) (k h : Nat) (v : Helper) (j : Nat) : ((s.setHelper k h v).core j).posted = (s.core j).posted := by
  by_cases hk : k = j
  · subst hk; simp [State.setHelper]
  · simp [State.setHelper, hk]
@[simp] theorem setHelper_core_staging (s : State) (k h : Nat) (v : Helper) (j : Nat) : ((s.setHelper k h v).core j).staging = (s.core j).staging := by
  by_cases hk : k = j
  · subst hk; simp [State.setHelper]
  · simp [State.setHelper, hk]

@[simp] theorem modThread_eq (s : State) (k t : Nat) (f : Thread → Thread) : s.modThread k t f = s.setThread k t (f (s.thread k t)) := rfl
@[simp] theorem modHelper_eq (s : State) (k t : Nat) (f : Helper → Helper) : s.modHelper k t f = s.setHelper k t (f (s.helper k t)) := rfl
@[simp] theorem modCore_eq (s : State) (k : Nat) (f : Core → Core) : s.modCore k f = s.setCore k (f (s.core k)) := rfl
@[simp] theorem modPart_eq (s : State) (k : Nat) (f : Part → Part) : s.modPart k f = s.setPart k (f (s.part k)) := rfl
@[simp] theorem modPav_eq (s : State) (k : Nat) (f : Pav → Pav) : s.modPav k f = s.setPav k (f (s.pav k)) := rfl

/-! ## Words of a thread -/

@[simp] theorem setWord_m (t : Thread) (r k : Nat) (w : VWord) : (t.setWord r k w).m = t.m := rfl
@[simp] theorem setWord_p (t : Thread) (r k : Nat) (w : VWord) : (t.setWord r k w).p = t.p := rfl
@[simp] theorem setWord_pc (t : Thread) (r k : Nat) (w : VWord) : (t.setWord r k w).pc = t.pc := rfl
@[simp] theorem setWord_vl (t : Thread) (r k : Nat) (w : VWord) : (t.setWord r k w).vl = t.vl := rfl
@[simp] theorem setWord_vtype (t : Thread) (r k : Nat) (w : VWord) : (t.setWord r k w).vtype = t.vtype := rfl
@[simp] theorem setWord_fctl (t : Thread) (r k : Nat) (w : VWord) : (t.setWord r k w).fctl = t.fctl := rfl
@[simp] theorem setWord_istat (t : Thread) (r k : Nat) (w : VWord) : (t.setWord r k w).istat = t.istat := rfl
@[simp] theorem setWord_vstart (t : Thread) (r k : Nat) (w : VWord) : (t.setWord r k w).vstart = t.vstart := rfl
@[simp] theorem setWord_hwm (t : Thread) (r k : Nat) (w : VWord) : (t.setWord r k w).hwm = t.hwm := rfl
@[simp] theorem setWord_mprog (t : Thread) (r k : Nat) (w : VWord) : (t.setWord r k w).mprog = t.mprog := rfl
@[simp] theorem setWord_tags (t : Thread) (r k : Nat) (w : VWord) : (t.setWord r k w).tags = t.tags := rfl
@[simp] theorem setWord_cerr (t : Thread) (r k : Nat) (w : VWord) : (t.setWord r k w).cerr = t.cerr := rfl
@[simp] theorem setWord_pmk (t : Thread) (r k : Nat) (w : VWord) : (t.setWord r k w).pmk = t.pmk := rfl
@[simp] theorem setWord_srstate (t : Thread) (r k : Nat) (w : VWord) : (t.setWord r k w).srstate = t.srstate := rfl
@[simp] theorem setWord_hentry (t : Thread) (r k : Nat) (w : VWord) : (t.setWord r k w).hentry = t.hentry := rfl
@[simp] theorem setWord_sel (t : Thread) (r k : Nat) (w : VWord) : (t.setWord r k w).sel = t.sel := rfl
@[simp] theorem setWord_selNum (t : Thread) (r k : Nat) (w : VWord) : (t.setWord r k w).selNum = t.selNum := rfl
@[simp] theorem setWord_rowStops (t : Thread) (r k : Nat) (w : VWord) : (t.setWord r k w).rowStops = t.rowStops := rfl
@[simp] theorem setWord_slots (t : Thread) (r k : Nat) (w : VWord) : (t.setWord r k w).slots = t.slots := rfl
@[simp] theorem setWord_binds (t : Thread) (r k : Nat) (w : VWord) : (t.setWord r k w).binds = t.binds := rfl
@[simp] theorem setWord_nest (t : Thread) (r k : Nat) (w : VWord) : (t.setWord r k w).nest = t.nest := rfl
@[simp] theorem setWord_fifo (t : Thread) (r k : Nat) (w : VWord) : (t.setWord r k w).fifo = t.fifo := rfl
@[simp] theorem setWord_outs (t : Thread) (r k : Nat) (w : VWord) : (t.setWord r k w).outs = t.outs := rfl
@[simp] theorem setWord_outRes (t : Thread) (r k : Nat) (w : VWord) : (t.setWord r k w).outRes = t.outRes := rfl
@[simp] theorem setWord_seq (t : Thread) (r k : Nat) (w : VWord) : (t.setWord r k w).seq = t.seq := rfl
@[simp] theorem setWord_instret (t : Thread) (r k : Nat) (w : VWord) : (t.setWord r k w).instret = t.instret := rfl
@[simp] theorem setWord_cycnf (t : Thread) (r k : Nat) (w : VWord) : (t.setWord r k w).cycnf = t.cycnf := rfl
@[simp] theorem setWord_st (t : Thread) (r k : Nat) (w : VWord) : (t.setWord r k w).st = t.st := rfl
@[simp] theorem setWord_stop (t : Thread) (r k : Nat) (w : VWord) : (t.setWord r k w).stop = t.stop := rfl
@[simp] theorem setWord_drained (t : Thread) (r k : Nat) (w : VWord) : (t.setWord r k w).drained = t.drained := rfl
@[simp] theorem setWord_stall (t : Thread) (r k : Nat) (w : VWord) : (t.setWord r k w).stall = t.stall := rfl
@[simp] theorem setWord_yld (t : Thread) (r k : Nat) (w : VWord) : (t.setWord r k w).yld = t.yld := rfl
@[simp] theorem setWord_busyS (t : Thread) (r k : Nat) (w : VWord) : (t.setWord r k w).busyS = t.busyS := rfl
@[simp] theorem setWord_busyP (t : Thread) (r k : Nat) (w : VWord) : (t.setWord r k w).busyP = t.busyP := rfl
@[simp] theorem setWord_busyFor (t : Thread) (r k : Nat) (w : VWord) : (t.setWord r k w).busyFor = t.busyFor := rfl
@[simp] theorem setWord_strip (t : Thread) (r k : Nat) (w : VWord) : (t.setWord r k w).strip = t.strip := rfl
@[simp] theorem setWord_asked (t : Thread) (r k : Nat) (w : VWord) : (t.setWord r k w).asked = t.asked := rfl
@[simp] theorem setWord_vnum (t : Thread) (r k : Nat) (w : VWord) : (t.setWord r k w).vnum = t.vnum := rfl
@[simp] theorem setWord_undos (t : Thread) (r k : Nat) (w : VWord) : (t.setWord r k w).undos = t.undos := rfl
@[simp] theorem setWord_owed (t : Thread) (r k : Nat) (w : VWord) : (t.setWord r k w).owed = t.owed := rfl
@[simp] theorem setWord_task (t : Thread) (r k : Nat) (w : VWord) : (t.setWord r k w).task = t.task := rfl
@[simp] theorem setWord_hostAcc (t : Thread) (r k : Nat) (w : VWord) : (t.setWord r k w).hostAcc = t.hostAcc := rfl
@[simp] theorem setWord_brkSkip (t : Thread) (r k : Nat) (w : VWord) : (t.setWord r k w).brkSkip = t.brkSkip := rfl
@[simp] theorem setWord_since (t : Thread) (r k : Nat) (w : VWord) : (t.setWord r k w).since = t.since := rfl
@[simp] theorem setWord_errs (t : Thread) (r k : Nat) (w : VWord) : (t.setWord r k w).errs = t.errs := rfl
@[simp] theorem setWord_barEnd (t : Thread) (r k : Nat) (w : VWord) : (t.setWord r k w).barEnd = t.barEnd := rfl
@[simp] theorem setHalf_m (t : Thread) (r h : Nat) (p : Presence) : (t.setHalf r h p).m = t.m := rfl
@[simp] theorem setHalf_p (t : Thread) (r h : Nat) (p : Presence) : (t.setHalf r h p).p = t.p := rfl
@[simp] theorem setHalf_pc (t : Thread) (r h : Nat) (p : Presence) : (t.setHalf r h p).pc = t.pc := rfl
@[simp] theorem setHalf_vl (t : Thread) (r h : Nat) (p : Presence) : (t.setHalf r h p).vl = t.vl := rfl
@[simp] theorem setHalf_vtype (t : Thread) (r h : Nat) (p : Presence) : (t.setHalf r h p).vtype = t.vtype := rfl
@[simp] theorem setHalf_fctl (t : Thread) (r h : Nat) (p : Presence) : (t.setHalf r h p).fctl = t.fctl := rfl
@[simp] theorem setHalf_istat (t : Thread) (r h : Nat) (p : Presence) : (t.setHalf r h p).istat = t.istat := rfl
@[simp] theorem setHalf_vstart (t : Thread) (r h : Nat) (p : Presence) : (t.setHalf r h p).vstart = t.vstart := rfl
@[simp] theorem setHalf_hwm (t : Thread) (r h : Nat) (p : Presence) : (t.setHalf r h p).hwm = t.hwm := rfl
@[simp] theorem setHalf_mprog (t : Thread) (r h : Nat) (p : Presence) : (t.setHalf r h p).mprog = t.mprog := rfl
@[simp] theorem setHalf_tags (t : Thread) (r h : Nat) (p : Presence) : (t.setHalf r h p).tags = t.tags := rfl
@[simp] theorem setHalf_cerr (t : Thread) (r h : Nat) (p : Presence) : (t.setHalf r h p).cerr = t.cerr := rfl
@[simp] theorem setHalf_pmk (t : Thread) (r h : Nat) (p : Presence) : (t.setHalf r h p).pmk = t.pmk := rfl
@[simp] theorem setHalf_srstate (t : Thread) (r h : Nat) (p : Presence) : (t.setHalf r h p).srstate = t.srstate := rfl
@[simp] theorem setHalf_hentry (t : Thread) (r h : Nat) (p : Presence) : (t.setHalf r h p).hentry = t.hentry := rfl
@[simp] theorem setHalf_sel (t : Thread) (r h : Nat) (p : Presence) : (t.setHalf r h p).sel = t.sel := rfl
@[simp] theorem setHalf_selNum (t : Thread) (r h : Nat) (p : Presence) : (t.setHalf r h p).selNum = t.selNum := rfl
@[simp] theorem setHalf_rowStops (t : Thread) (r h : Nat) (p : Presence) : (t.setHalf r h p).rowStops = t.rowStops := rfl
@[simp] theorem setHalf_slots (t : Thread) (r h : Nat) (p : Presence) : (t.setHalf r h p).slots = t.slots := rfl
@[simp] theorem setHalf_binds (t : Thread) (r h : Nat) (p : Presence) : (t.setHalf r h p).binds = t.binds := rfl
@[simp] theorem setHalf_nest (t : Thread) (r h : Nat) (p : Presence) : (t.setHalf r h p).nest = t.nest := rfl
@[simp] theorem setHalf_fifo (t : Thread) (r h : Nat) (p : Presence) : (t.setHalf r h p).fifo = t.fifo := rfl
@[simp] theorem setHalf_outs (t : Thread) (r h : Nat) (p : Presence) : (t.setHalf r h p).outs = t.outs := rfl
@[simp] theorem setHalf_outRes (t : Thread) (r h : Nat) (p : Presence) : (t.setHalf r h p).outRes = t.outRes := rfl
@[simp] theorem setHalf_seq (t : Thread) (r h : Nat) (p : Presence) : (t.setHalf r h p).seq = t.seq := rfl
@[simp] theorem setHalf_instret (t : Thread) (r h : Nat) (p : Presence) : (t.setHalf r h p).instret = t.instret := rfl
@[simp] theorem setHalf_cycnf (t : Thread) (r h : Nat) (p : Presence) : (t.setHalf r h p).cycnf = t.cycnf := rfl
@[simp] theorem setHalf_st (t : Thread) (r h : Nat) (p : Presence) : (t.setHalf r h p).st = t.st := rfl
@[simp] theorem setHalf_stop (t : Thread) (r h : Nat) (p : Presence) : (t.setHalf r h p).stop = t.stop := rfl
@[simp] theorem setHalf_drained (t : Thread) (r h : Nat) (p : Presence) : (t.setHalf r h p).drained = t.drained := rfl
@[simp] theorem setHalf_stall (t : Thread) (r h : Nat) (p : Presence) : (t.setHalf r h p).stall = t.stall := rfl
@[simp] theorem setHalf_yld (t : Thread) (r h : Nat) (p : Presence) : (t.setHalf r h p).yld = t.yld := rfl
@[simp] theorem setHalf_busyS (t : Thread) (r h : Nat) (p : Presence) : (t.setHalf r h p).busyS = t.busyS := rfl
@[simp] theorem setHalf_busyP (t : Thread) (r h : Nat) (p : Presence) : (t.setHalf r h p).busyP = t.busyP := rfl
@[simp] theorem setHalf_busyFor (t : Thread) (r h : Nat) (p : Presence) : (t.setHalf r h p).busyFor = t.busyFor := rfl
@[simp] theorem setHalf_strip (t : Thread) (r h : Nat) (p : Presence) : (t.setHalf r h p).strip = t.strip := rfl
@[simp] theorem setHalf_asked (t : Thread) (r h : Nat) (p : Presence) : (t.setHalf r h p).asked = t.asked := rfl
@[simp] theorem setHalf_vnum (t : Thread) (r h : Nat) (p : Presence) : (t.setHalf r h p).vnum = t.vnum := rfl
@[simp] theorem setHalf_undos (t : Thread) (r h : Nat) (p : Presence) : (t.setHalf r h p).undos = t.undos := rfl
@[simp] theorem setHalf_owed (t : Thread) (r h : Nat) (p : Presence) : (t.setHalf r h p).owed = t.owed := rfl
@[simp] theorem setHalf_task (t : Thread) (r h : Nat) (p : Presence) : (t.setHalf r h p).task = t.task := rfl
@[simp] theorem setHalf_hostAcc (t : Thread) (r h : Nat) (p : Presence) : (t.setHalf r h p).hostAcc = t.hostAcc := rfl
@[simp] theorem setHalf_brkSkip (t : Thread) (r h : Nat) (p : Presence) : (t.setHalf r h p).brkSkip = t.brkSkip := rfl
@[simp] theorem setHalf_since (t : Thread) (r h : Nat) (p : Presence) : (t.setHalf r h p).since = t.since := rfl
@[simp] theorem setHalf_errs (t : Thread) (r h : Nat) (p : Presence) : (t.setHalf r h p).errs = t.errs := rfl
@[simp] theorem setHalf_barEnd (t : Thread) (r h : Nat) (p : Presence) : (t.setHalf r h p).barEnd = t.barEnd := rfl
@[simp] theorem setBits_m (t : Thread) (r lo w v : Nat) : (t.setBits r lo w v).m = t.m := rfl
@[simp] theorem setBits_p (t : Thread) (r lo w v : Nat) : (t.setBits r lo w v).p = t.p := rfl
@[simp] theorem setBits_pc (t : Thread) (r lo w v : Nat) : (t.setBits r lo w v).pc = t.pc := rfl
@[simp] theorem setBits_vl (t : Thread) (r lo w v : Nat) : (t.setBits r lo w v).vl = t.vl := rfl
@[simp] theorem setBits_vtype (t : Thread) (r lo w v : Nat) : (t.setBits r lo w v).vtype = t.vtype := rfl
@[simp] theorem setBits_fctl (t : Thread) (r lo w v : Nat) : (t.setBits r lo w v).fctl = t.fctl := rfl
@[simp] theorem setBits_istat (t : Thread) (r lo w v : Nat) : (t.setBits r lo w v).istat = t.istat := rfl
@[simp] theorem setBits_vstart (t : Thread) (r lo w v : Nat) : (t.setBits r lo w v).vstart = t.vstart := rfl
@[simp] theorem setBits_hwm (t : Thread) (r lo w v : Nat) : (t.setBits r lo w v).hwm = t.hwm := rfl
@[simp] theorem setBits_mprog (t : Thread) (r lo w v : Nat) : (t.setBits r lo w v).mprog = t.mprog := rfl
@[simp] theorem setBits_tags (t : Thread) (r lo w v : Nat) : (t.setBits r lo w v).tags = t.tags := rfl
@[simp] theorem setBits_cerr (t : Thread) (r lo w v : Nat) : (t.setBits r lo w v).cerr = t.cerr := rfl
@[simp] theorem setBits_pmk (t : Thread) (r lo w v : Nat) : (t.setBits r lo w v).pmk = t.pmk := rfl
@[simp] theorem setBits_srstate (t : Thread) (r lo w v : Nat) : (t.setBits r lo w v).srstate = t.srstate := rfl
@[simp] theorem setBits_hentry (t : Thread) (r lo w v : Nat) : (t.setBits r lo w v).hentry = t.hentry := rfl
@[simp] theorem setBits_sel (t : Thread) (r lo w v : Nat) : (t.setBits r lo w v).sel = t.sel := rfl
@[simp] theorem setBits_selNum (t : Thread) (r lo w v : Nat) : (t.setBits r lo w v).selNum = t.selNum := rfl
@[simp] theorem setBits_rowStops (t : Thread) (r lo w v : Nat) : (t.setBits r lo w v).rowStops = t.rowStops := rfl
@[simp] theorem setBits_slots (t : Thread) (r lo w v : Nat) : (t.setBits r lo w v).slots = t.slots := rfl
@[simp] theorem setBits_binds (t : Thread) (r lo w v : Nat) : (t.setBits r lo w v).binds = t.binds := rfl
@[simp] theorem setBits_nest (t : Thread) (r lo w v : Nat) : (t.setBits r lo w v).nest = t.nest := rfl
@[simp] theorem setBits_fifo (t : Thread) (r lo w v : Nat) : (t.setBits r lo w v).fifo = t.fifo := rfl
@[simp] theorem setBits_outs (t : Thread) (r lo w v : Nat) : (t.setBits r lo w v).outs = t.outs := rfl
@[simp] theorem setBits_outRes (t : Thread) (r lo w v : Nat) : (t.setBits r lo w v).outRes = t.outRes := rfl
@[simp] theorem setBits_seq (t : Thread) (r lo w v : Nat) : (t.setBits r lo w v).seq = t.seq := rfl
@[simp] theorem setBits_instret (t : Thread) (r lo w v : Nat) : (t.setBits r lo w v).instret = t.instret := rfl
@[simp] theorem setBits_cycnf (t : Thread) (r lo w v : Nat) : (t.setBits r lo w v).cycnf = t.cycnf := rfl
@[simp] theorem setBits_st (t : Thread) (r lo w v : Nat) : (t.setBits r lo w v).st = t.st := rfl
@[simp] theorem setBits_stop (t : Thread) (r lo w v : Nat) : (t.setBits r lo w v).stop = t.stop := rfl
@[simp] theorem setBits_drained (t : Thread) (r lo w v : Nat) : (t.setBits r lo w v).drained = t.drained := rfl
@[simp] theorem setBits_stall (t : Thread) (r lo w v : Nat) : (t.setBits r lo w v).stall = t.stall := rfl
@[simp] theorem setBits_yld (t : Thread) (r lo w v : Nat) : (t.setBits r lo w v).yld = t.yld := rfl
@[simp] theorem setBits_busyS (t : Thread) (r lo w v : Nat) : (t.setBits r lo w v).busyS = t.busyS := rfl
@[simp] theorem setBits_busyP (t : Thread) (r lo w v : Nat) : (t.setBits r lo w v).busyP = t.busyP := rfl
@[simp] theorem setBits_busyFor (t : Thread) (r lo w v : Nat) : (t.setBits r lo w v).busyFor = t.busyFor := rfl
@[simp] theorem setBits_strip (t : Thread) (r lo w v : Nat) : (t.setBits r lo w v).strip = t.strip := rfl
@[simp] theorem setBits_asked (t : Thread) (r lo w v : Nat) : (t.setBits r lo w v).asked = t.asked := rfl
@[simp] theorem setBits_vnum (t : Thread) (r lo w v : Nat) : (t.setBits r lo w v).vnum = t.vnum := rfl
@[simp] theorem setBits_undos (t : Thread) (r lo w v : Nat) : (t.setBits r lo w v).undos = t.undos := rfl
@[simp] theorem setBits_owed (t : Thread) (r lo w v : Nat) : (t.setBits r lo w v).owed = t.owed := rfl
@[simp] theorem setBits_task (t : Thread) (r lo w v : Nat) : (t.setBits r lo w v).task = t.task := rfl
@[simp] theorem setBits_hostAcc (t : Thread) (r lo w v : Nat) : (t.setBits r lo w v).hostAcc = t.hostAcc := rfl
@[simp] theorem setBits_brkSkip (t : Thread) (r lo w v : Nat) : (t.setBits r lo w v).brkSkip = t.brkSkip := rfl
@[simp] theorem setBits_since (t : Thread) (r lo w v : Nat) : (t.setBits r lo w v).since = t.since := rfl
@[simp] theorem setBits_errs (t : Thread) (r lo w v : Nat) : (t.setBits r lo w v).errs = t.errs := rfl
@[simp] theorem setBits_barEnd (t : Thread) (r lo w v : Nat) : (t.setBits r lo w v).barEnd = t.barEnd := rfl

/-- Setting presence codes changes only the vector registers. -/
theorem setHalves_only_v (t : Thread) (r h n : Nat) (p : Presence) : ∃ v, t.setHalves r h n p = { t with v := v } := by
  have go : ∀ (l : List Nat) (t : Thread), ∃ v, l.foldl (fun t k => t.setHalf r (h + k) p) t = { t with v := v } := by
    intro l
    induction l with
    | nil => intro t; exact ⟨t.v, rfl⟩
    | cons a b ih => intro t; exact ih (t.setHalf r (h + a) p)
  exact go _ t

@[simp] theorem setHalves_m (t : Thread) (r h n : Nat) (p : Presence) : (t.setHalves r h n p).m = t.m := by
  obtain ⟨v, e⟩ := setHalves_only_v t r h n p
  rw [e]
@[simp] theorem setHalves_p (t : Thread) (r h n : Nat) (p : Presence) : (t.setHalves r h n p).p = t.p := by
  obtain ⟨v, e⟩ := setHalves_only_v t r h n p
  rw [e]
@[simp] theorem setHalves_pc (t : Thread) (r h n : Nat) (p : Presence) : (t.setHalves r h n p).pc = t.pc := by
  obtain ⟨v, e⟩ := setHalves_only_v t r h n p
  rw [e]
@[simp] theorem setHalves_vl (t : Thread) (r h n : Nat) (p : Presence) : (t.setHalves r h n p).vl = t.vl := by
  obtain ⟨v, e⟩ := setHalves_only_v t r h n p
  rw [e]
@[simp] theorem setHalves_vtype (t : Thread) (r h n : Nat) (p : Presence) : (t.setHalves r h n p).vtype = t.vtype := by
  obtain ⟨v, e⟩ := setHalves_only_v t r h n p
  rw [e]
@[simp] theorem setHalves_fctl (t : Thread) (r h n : Nat) (p : Presence) : (t.setHalves r h n p).fctl = t.fctl := by
  obtain ⟨v, e⟩ := setHalves_only_v t r h n p
  rw [e]
@[simp] theorem setHalves_istat (t : Thread) (r h n : Nat) (p : Presence) : (t.setHalves r h n p).istat = t.istat := by
  obtain ⟨v, e⟩ := setHalves_only_v t r h n p
  rw [e]
@[simp] theorem setHalves_vstart (t : Thread) (r h n : Nat) (p : Presence) : (t.setHalves r h n p).vstart = t.vstart := by
  obtain ⟨v, e⟩ := setHalves_only_v t r h n p
  rw [e]
@[simp] theorem setHalves_hwm (t : Thread) (r h n : Nat) (p : Presence) : (t.setHalves r h n p).hwm = t.hwm := by
  obtain ⟨v, e⟩ := setHalves_only_v t r h n p
  rw [e]
@[simp] theorem setHalves_mprog (t : Thread) (r h n : Nat) (p : Presence) : (t.setHalves r h n p).mprog = t.mprog := by
  obtain ⟨v, e⟩ := setHalves_only_v t r h n p
  rw [e]
@[simp] theorem setHalves_tags (t : Thread) (r h n : Nat) (p : Presence) : (t.setHalves r h n p).tags = t.tags := by
  obtain ⟨v, e⟩ := setHalves_only_v t r h n p
  rw [e]
@[simp] theorem setHalves_cerr (t : Thread) (r h n : Nat) (p : Presence) : (t.setHalves r h n p).cerr = t.cerr := by
  obtain ⟨v, e⟩ := setHalves_only_v t r h n p
  rw [e]
@[simp] theorem setHalves_pmk (t : Thread) (r h n : Nat) (p : Presence) : (t.setHalves r h n p).pmk = t.pmk := by
  obtain ⟨v, e⟩ := setHalves_only_v t r h n p
  rw [e]
@[simp] theorem setHalves_srstate (t : Thread) (r h n : Nat) (p : Presence) : (t.setHalves r h n p).srstate = t.srstate := by
  obtain ⟨v, e⟩ := setHalves_only_v t r h n p
  rw [e]
@[simp] theorem setHalves_hentry (t : Thread) (r h n : Nat) (p : Presence) : (t.setHalves r h n p).hentry = t.hentry := by
  obtain ⟨v, e⟩ := setHalves_only_v t r h n p
  rw [e]
@[simp] theorem setHalves_sel (t : Thread) (r h n : Nat) (p : Presence) : (t.setHalves r h n p).sel = t.sel := by
  obtain ⟨v, e⟩ := setHalves_only_v t r h n p
  rw [e]
@[simp] theorem setHalves_selNum (t : Thread) (r h n : Nat) (p : Presence) : (t.setHalves r h n p).selNum = t.selNum := by
  obtain ⟨v, e⟩ := setHalves_only_v t r h n p
  rw [e]
@[simp] theorem setHalves_rowStops (t : Thread) (r h n : Nat) (p : Presence) : (t.setHalves r h n p).rowStops = t.rowStops := by
  obtain ⟨v, e⟩ := setHalves_only_v t r h n p
  rw [e]
@[simp] theorem setHalves_slots (t : Thread) (r h n : Nat) (p : Presence) : (t.setHalves r h n p).slots = t.slots := by
  obtain ⟨v, e⟩ := setHalves_only_v t r h n p
  rw [e]
@[simp] theorem setHalves_binds (t : Thread) (r h n : Nat) (p : Presence) : (t.setHalves r h n p).binds = t.binds := by
  obtain ⟨v, e⟩ := setHalves_only_v t r h n p
  rw [e]
@[simp] theorem setHalves_nest (t : Thread) (r h n : Nat) (p : Presence) : (t.setHalves r h n p).nest = t.nest := by
  obtain ⟨v, e⟩ := setHalves_only_v t r h n p
  rw [e]
@[simp] theorem setHalves_fifo (t : Thread) (r h n : Nat) (p : Presence) : (t.setHalves r h n p).fifo = t.fifo := by
  obtain ⟨v, e⟩ := setHalves_only_v t r h n p
  rw [e]
@[simp] theorem setHalves_outs (t : Thread) (r h n : Nat) (p : Presence) : (t.setHalves r h n p).outs = t.outs := by
  obtain ⟨v, e⟩ := setHalves_only_v t r h n p
  rw [e]
@[simp] theorem setHalves_outRes (t : Thread) (r h n : Nat) (p : Presence) : (t.setHalves r h n p).outRes = t.outRes := by
  obtain ⟨v, e⟩ := setHalves_only_v t r h n p
  rw [e]
@[simp] theorem setHalves_seq (t : Thread) (r h n : Nat) (p : Presence) : (t.setHalves r h n p).seq = t.seq := by
  obtain ⟨v, e⟩ := setHalves_only_v t r h n p
  rw [e]
@[simp] theorem setHalves_instret (t : Thread) (r h n : Nat) (p : Presence) : (t.setHalves r h n p).instret = t.instret := by
  obtain ⟨v, e⟩ := setHalves_only_v t r h n p
  rw [e]
@[simp] theorem setHalves_cycnf (t : Thread) (r h n : Nat) (p : Presence) : (t.setHalves r h n p).cycnf = t.cycnf := by
  obtain ⟨v, e⟩ := setHalves_only_v t r h n p
  rw [e]
@[simp] theorem setHalves_st (t : Thread) (r h n : Nat) (p : Presence) : (t.setHalves r h n p).st = t.st := by
  obtain ⟨v, e⟩ := setHalves_only_v t r h n p
  rw [e]
@[simp] theorem setHalves_stop (t : Thread) (r h n : Nat) (p : Presence) : (t.setHalves r h n p).stop = t.stop := by
  obtain ⟨v, e⟩ := setHalves_only_v t r h n p
  rw [e]
@[simp] theorem setHalves_drained (t : Thread) (r h n : Nat) (p : Presence) : (t.setHalves r h n p).drained = t.drained := by
  obtain ⟨v, e⟩ := setHalves_only_v t r h n p
  rw [e]
@[simp] theorem setHalves_stall (t : Thread) (r h n : Nat) (p : Presence) : (t.setHalves r h n p).stall = t.stall := by
  obtain ⟨v, e⟩ := setHalves_only_v t r h n p
  rw [e]
@[simp] theorem setHalves_yld (t : Thread) (r h n : Nat) (p : Presence) : (t.setHalves r h n p).yld = t.yld := by
  obtain ⟨v, e⟩ := setHalves_only_v t r h n p
  rw [e]
@[simp] theorem setHalves_busyS (t : Thread) (r h n : Nat) (p : Presence) : (t.setHalves r h n p).busyS = t.busyS := by
  obtain ⟨v, e⟩ := setHalves_only_v t r h n p
  rw [e]
@[simp] theorem setHalves_busyP (t : Thread) (r h n : Nat) (p : Presence) : (t.setHalves r h n p).busyP = t.busyP := by
  obtain ⟨v, e⟩ := setHalves_only_v t r h n p
  rw [e]
@[simp] theorem setHalves_busyFor (t : Thread) (r h n : Nat) (p : Presence) : (t.setHalves r h n p).busyFor = t.busyFor := by
  obtain ⟨v, e⟩ := setHalves_only_v t r h n p
  rw [e]
@[simp] theorem setHalves_strip (t : Thread) (r h n : Nat) (p : Presence) : (t.setHalves r h n p).strip = t.strip := by
  obtain ⟨v, e⟩ := setHalves_only_v t r h n p
  rw [e]
@[simp] theorem setHalves_asked (t : Thread) (r h n : Nat) (p : Presence) : (t.setHalves r h n p).asked = t.asked := by
  obtain ⟨v, e⟩ := setHalves_only_v t r h n p
  rw [e]
@[simp] theorem setHalves_vnum (t : Thread) (r h n : Nat) (p : Presence) : (t.setHalves r h n p).vnum = t.vnum := by
  obtain ⟨v, e⟩ := setHalves_only_v t r h n p
  rw [e]
@[simp] theorem setHalves_undos (t : Thread) (r h n : Nat) (p : Presence) : (t.setHalves r h n p).undos = t.undos := by
  obtain ⟨v, e⟩ := setHalves_only_v t r h n p
  rw [e]
@[simp] theorem setHalves_owed (t : Thread) (r h n : Nat) (p : Presence) : (t.setHalves r h n p).owed = t.owed := by
  obtain ⟨v, e⟩ := setHalves_only_v t r h n p
  rw [e]
@[simp] theorem setHalves_task (t : Thread) (r h n : Nat) (p : Presence) : (t.setHalves r h n p).task = t.task := by
  obtain ⟨v, e⟩ := setHalves_only_v t r h n p
  rw [e]
@[simp] theorem setHalves_hostAcc (t : Thread) (r h n : Nat) (p : Presence) : (t.setHalves r h n p).hostAcc = t.hostAcc := by
  obtain ⟨v, e⟩ := setHalves_only_v t r h n p
  rw [e]
@[simp] theorem setHalves_brkSkip (t : Thread) (r h n : Nat) (p : Presence) : (t.setHalves r h n p).brkSkip = t.brkSkip := by
  obtain ⟨v, e⟩ := setHalves_only_v t r h n p
  rw [e]
@[simp] theorem setHalves_since (t : Thread) (r h n : Nat) (p : Presence) : (t.setHalves r h n p).since = t.since := by
  obtain ⟨v, e⟩ := setHalves_only_v t r h n p
  rw [e]
@[simp] theorem setHalves_errs (t : Thread) (r h n : Nat) (p : Presence) : (t.setHalves r h n p).errs = t.errs := by
  obtain ⟨v, e⟩ := setHalves_only_v t r h n p
  rw [e]
@[simp] theorem setHalves_barEnd (t : Thread) (r h n : Nat) (p : Presence) : (t.setHalves r h n p).barEnd = t.barEnd := by
  obtain ⟨v, e⟩ := setHalves_only_v t r h n p
  rw [e]
@[simp] theorem raiseHwm_v (t : Thread) (r ext : Nat) : (t.raiseHwm r ext).v = t.v := rfl
@[simp] theorem raiseHwm_m (t : Thread) (r ext : Nat) : (t.raiseHwm r ext).m = t.m := rfl
@[simp] theorem raiseHwm_p (t : Thread) (r ext : Nat) : (t.raiseHwm r ext).p = t.p := rfl
@[simp] theorem raiseHwm_pc (t : Thread) (r ext : Nat) : (t.raiseHwm r ext).pc = t.pc := rfl
@[simp] theorem raiseHwm_vl (t : Thread) (r ext : Nat) : (t.raiseHwm r ext).vl = t.vl := rfl
@[simp] theorem raiseHwm_vtype (t : Thread) (r ext : Nat) : (t.raiseHwm r ext).vtype = t.vtype := rfl
@[simp] theorem raiseHwm_fctl (t : Thread) (r ext : Nat) : (t.raiseHwm r ext).fctl = t.fctl := rfl
@[simp] theorem raiseHwm_istat (t : Thread) (r ext : Nat) : (t.raiseHwm r ext).istat = t.istat := rfl
@[simp] theorem raiseHwm_vstart (t : Thread) (r ext : Nat) : (t.raiseHwm r ext).vstart = t.vstart := rfl
@[simp] theorem raiseHwm_mprog (t : Thread) (r ext : Nat) : (t.raiseHwm r ext).mprog = t.mprog := rfl
@[simp] theorem raiseHwm_tags (t : Thread) (r ext : Nat) : (t.raiseHwm r ext).tags = t.tags := rfl
@[simp] theorem raiseHwm_cerr (t : Thread) (r ext : Nat) : (t.raiseHwm r ext).cerr = t.cerr := rfl
@[simp] theorem raiseHwm_pmk (t : Thread) (r ext : Nat) : (t.raiseHwm r ext).pmk = t.pmk := rfl
@[simp] theorem raiseHwm_srstate (t : Thread) (r ext : Nat) : (t.raiseHwm r ext).srstate = t.srstate := rfl
@[simp] theorem raiseHwm_hentry (t : Thread) (r ext : Nat) : (t.raiseHwm r ext).hentry = t.hentry := rfl
@[simp] theorem raiseHwm_sel (t : Thread) (r ext : Nat) : (t.raiseHwm r ext).sel = t.sel := rfl
@[simp] theorem raiseHwm_selNum (t : Thread) (r ext : Nat) : (t.raiseHwm r ext).selNum = t.selNum := rfl
@[simp] theorem raiseHwm_rowStops (t : Thread) (r ext : Nat) : (t.raiseHwm r ext).rowStops = t.rowStops := rfl
@[simp] theorem raiseHwm_slots (t : Thread) (r ext : Nat) : (t.raiseHwm r ext).slots = t.slots := rfl
@[simp] theorem raiseHwm_binds (t : Thread) (r ext : Nat) : (t.raiseHwm r ext).binds = t.binds := rfl
@[simp] theorem raiseHwm_nest (t : Thread) (r ext : Nat) : (t.raiseHwm r ext).nest = t.nest := rfl
@[simp] theorem raiseHwm_fifo (t : Thread) (r ext : Nat) : (t.raiseHwm r ext).fifo = t.fifo := rfl
@[simp] theorem raiseHwm_outs (t : Thread) (r ext : Nat) : (t.raiseHwm r ext).outs = t.outs := rfl
@[simp] theorem raiseHwm_outRes (t : Thread) (r ext : Nat) : (t.raiseHwm r ext).outRes = t.outRes := rfl
@[simp] theorem raiseHwm_seq (t : Thread) (r ext : Nat) : (t.raiseHwm r ext).seq = t.seq := rfl
@[simp] theorem raiseHwm_instret (t : Thread) (r ext : Nat) : (t.raiseHwm r ext).instret = t.instret := rfl
@[simp] theorem raiseHwm_cycnf (t : Thread) (r ext : Nat) : (t.raiseHwm r ext).cycnf = t.cycnf := rfl
@[simp] theorem raiseHwm_st (t : Thread) (r ext : Nat) : (t.raiseHwm r ext).st = t.st := rfl
@[simp] theorem raiseHwm_stop (t : Thread) (r ext : Nat) : (t.raiseHwm r ext).stop = t.stop := rfl
@[simp] theorem raiseHwm_drained (t : Thread) (r ext : Nat) : (t.raiseHwm r ext).drained = t.drained := rfl
@[simp] theorem raiseHwm_stall (t : Thread) (r ext : Nat) : (t.raiseHwm r ext).stall = t.stall := rfl
@[simp] theorem raiseHwm_yld (t : Thread) (r ext : Nat) : (t.raiseHwm r ext).yld = t.yld := rfl
@[simp] theorem raiseHwm_busyS (t : Thread) (r ext : Nat) : (t.raiseHwm r ext).busyS = t.busyS := rfl
@[simp] theorem raiseHwm_busyP (t : Thread) (r ext : Nat) : (t.raiseHwm r ext).busyP = t.busyP := rfl
@[simp] theorem raiseHwm_busyFor (t : Thread) (r ext : Nat) : (t.raiseHwm r ext).busyFor = t.busyFor := rfl
@[simp] theorem raiseHwm_strip (t : Thread) (r ext : Nat) : (t.raiseHwm r ext).strip = t.strip := rfl
@[simp] theorem raiseHwm_asked (t : Thread) (r ext : Nat) : (t.raiseHwm r ext).asked = t.asked := rfl
@[simp] theorem raiseHwm_vnum (t : Thread) (r ext : Nat) : (t.raiseHwm r ext).vnum = t.vnum := rfl
@[simp] theorem raiseHwm_undos (t : Thread) (r ext : Nat) : (t.raiseHwm r ext).undos = t.undos := rfl
@[simp] theorem raiseHwm_owed (t : Thread) (r ext : Nat) : (t.raiseHwm r ext).owed = t.owed := rfl
@[simp] theorem raiseHwm_task (t : Thread) (r ext : Nat) : (t.raiseHwm r ext).task = t.task := rfl
@[simp] theorem raiseHwm_hostAcc (t : Thread) (r ext : Nat) : (t.raiseHwm r ext).hostAcc = t.hostAcc := rfl
@[simp] theorem raiseHwm_brkSkip (t : Thread) (r ext : Nat) : (t.raiseHwm r ext).brkSkip = t.brkSkip := rfl
@[simp] theorem raiseHwm_since (t : Thread) (r ext : Nat) : (t.raiseHwm r ext).since = t.since := rfl
@[simp] theorem raiseHwm_errs (t : Thread) (r ext : Nat) : (t.raiseHwm r ext).errs = t.errs := rfl
@[simp] theorem raiseHwm_barEnd (t : Thread) (r ext : Nat) : (t.raiseHwm r ext).barEnd = t.barEnd := rfl
@[simp] theorem markPmk_v (t : Thread) (i : Nat) : (t.markPmk i).v = t.v := rfl
@[simp] theorem markPmk_m (t : Thread) (i : Nat) : (t.markPmk i).m = t.m := rfl
@[simp] theorem markPmk_p (t : Thread) (i : Nat) : (t.markPmk i).p = t.p := rfl
@[simp] theorem markPmk_pc (t : Thread) (i : Nat) : (t.markPmk i).pc = t.pc := rfl
@[simp] theorem markPmk_vl (t : Thread) (i : Nat) : (t.markPmk i).vl = t.vl := rfl
@[simp] theorem markPmk_vtype (t : Thread) (i : Nat) : (t.markPmk i).vtype = t.vtype := rfl
@[simp] theorem markPmk_fctl (t : Thread) (i : Nat) : (t.markPmk i).fctl = t.fctl := rfl
@[simp] theorem markPmk_istat (t : Thread) (i : Nat) : (t.markPmk i).istat = t.istat := rfl
@[simp] theorem markPmk_vstart (t : Thread) (i : Nat) : (t.markPmk i).vstart = t.vstart := rfl
@[simp] theorem markPmk_hwm (t : Thread) (i : Nat) : (t.markPmk i).hwm = t.hwm := rfl
@[simp] theorem markPmk_mprog (t : Thread) (i : Nat) : (t.markPmk i).mprog = t.mprog := rfl
@[simp] theorem markPmk_tags (t : Thread) (i : Nat) : (t.markPmk i).tags = t.tags := rfl
@[simp] theorem markPmk_cerr (t : Thread) (i : Nat) : (t.markPmk i).cerr = t.cerr := rfl
@[simp] theorem markPmk_srstate (t : Thread) (i : Nat) : (t.markPmk i).srstate = t.srstate := rfl
@[simp] theorem markPmk_hentry (t : Thread) (i : Nat) : (t.markPmk i).hentry = t.hentry := rfl
@[simp] theorem markPmk_sel (t : Thread) (i : Nat) : (t.markPmk i).sel = t.sel := rfl
@[simp] theorem markPmk_selNum (t : Thread) (i : Nat) : (t.markPmk i).selNum = t.selNum := rfl
@[simp] theorem markPmk_rowStops (t : Thread) (i : Nat) : (t.markPmk i).rowStops = t.rowStops := rfl
@[simp] theorem markPmk_slots (t : Thread) (i : Nat) : (t.markPmk i).slots = t.slots := rfl
@[simp] theorem markPmk_binds (t : Thread) (i : Nat) : (t.markPmk i).binds = t.binds := rfl
@[simp] theorem markPmk_nest (t : Thread) (i : Nat) : (t.markPmk i).nest = t.nest := rfl
@[simp] theorem markPmk_fifo (t : Thread) (i : Nat) : (t.markPmk i).fifo = t.fifo := rfl
@[simp] theorem markPmk_outs (t : Thread) (i : Nat) : (t.markPmk i).outs = t.outs := rfl
@[simp] theorem markPmk_outRes (t : Thread) (i : Nat) : (t.markPmk i).outRes = t.outRes := rfl
@[simp] theorem markPmk_seq (t : Thread) (i : Nat) : (t.markPmk i).seq = t.seq := rfl
@[simp] theorem markPmk_instret (t : Thread) (i : Nat) : (t.markPmk i).instret = t.instret := rfl
@[simp] theorem markPmk_cycnf (t : Thread) (i : Nat) : (t.markPmk i).cycnf = t.cycnf := rfl
@[simp] theorem markPmk_st (t : Thread) (i : Nat) : (t.markPmk i).st = t.st := rfl
@[simp] theorem markPmk_stop (t : Thread) (i : Nat) : (t.markPmk i).stop = t.stop := rfl
@[simp] theorem markPmk_drained (t : Thread) (i : Nat) : (t.markPmk i).drained = t.drained := rfl
@[simp] theorem markPmk_stall (t : Thread) (i : Nat) : (t.markPmk i).stall = t.stall := rfl
@[simp] theorem markPmk_yld (t : Thread) (i : Nat) : (t.markPmk i).yld = t.yld := rfl
@[simp] theorem markPmk_busyS (t : Thread) (i : Nat) : (t.markPmk i).busyS = t.busyS := rfl
@[simp] theorem markPmk_busyP (t : Thread) (i : Nat) : (t.markPmk i).busyP = t.busyP := rfl
@[simp] theorem markPmk_busyFor (t : Thread) (i : Nat) : (t.markPmk i).busyFor = t.busyFor := rfl
@[simp] theorem markPmk_strip (t : Thread) (i : Nat) : (t.markPmk i).strip = t.strip := rfl
@[simp] theorem markPmk_asked (t : Thread) (i : Nat) : (t.markPmk i).asked = t.asked := rfl
@[simp] theorem markPmk_vnum (t : Thread) (i : Nat) : (t.markPmk i).vnum = t.vnum := rfl
@[simp] theorem markPmk_owed (t : Thread) (i : Nat) : (t.markPmk i).owed = t.owed := rfl
@[simp] theorem markPmk_task (t : Thread) (i : Nat) : (t.markPmk i).task = t.task := rfl
@[simp] theorem markPmk_hostAcc (t : Thread) (i : Nat) : (t.markPmk i).hostAcc = t.hostAcc := rfl
@[simp] theorem markPmk_brkSkip (t : Thread) (i : Nat) : (t.markPmk i).brkSkip = t.brkSkip := rfl
@[simp] theorem markPmk_since (t : Thread) (i : Nat) : (t.markPmk i).since = t.since := rfl
@[simp] theorem markPmk_errs (t : Thread) (i : Nat) : (t.markPmk i).errs = t.errs := rfl
@[simp] theorem markPmk_barEnd (t : Thread) (i : Nat) : (t.markPmk i).barEnd = t.barEnd := rfl
@[simp] theorem clearErrs_v (t : Thread) (f : Nat → Nat → Bool) : (t.clearErrs f).v = t.v := rfl
@[simp] theorem clearErrs_m (t : Thread) (f : Nat → Nat → Bool) : (t.clearErrs f).m = t.m := rfl
@[simp] theorem clearErrs_p (t : Thread) (f : Nat → Nat → Bool) : (t.clearErrs f).p = t.p := rfl
@[simp] theorem clearErrs_pc (t : Thread) (f : Nat → Nat → Bool) : (t.clearErrs f).pc = t.pc := rfl
@[simp] theorem clearErrs_vl (t : Thread) (f : Nat → Nat → Bool) : (t.clearErrs f).vl = t.vl := rfl
@[simp] theorem clearErrs_vtype (t : Thread) (f : Nat → Nat → Bool) : (t.clearErrs f).vtype = t.vtype := rfl
@[simp] theorem clearErrs_fctl (t : Thread) (f : Nat → Nat → Bool) : (t.clearErrs f).fctl = t.fctl := rfl
@[simp] theorem clearErrs_istat (t : Thread) (f : Nat → Nat → Bool) : (t.clearErrs f).istat = t.istat := rfl
@[simp] theorem clearErrs_vstart (t : Thread) (f : Nat → Nat → Bool) : (t.clearErrs f).vstart = t.vstart := rfl
@[simp] theorem clearErrs_hwm (t : Thread) (f : Nat → Nat → Bool) : (t.clearErrs f).hwm = t.hwm := rfl
@[simp] theorem clearErrs_mprog (t : Thread) (f : Nat → Nat → Bool) : (t.clearErrs f).mprog = t.mprog := rfl
@[simp] theorem clearErrs_tags (t : Thread) (f : Nat → Nat → Bool) : (t.clearErrs f).tags = t.tags := rfl
@[simp] theorem clearErrs_cerr (t : Thread) (f : Nat → Nat → Bool) : (t.clearErrs f).cerr = t.cerr := rfl
@[simp] theorem clearErrs_pmk (t : Thread) (f : Nat → Nat → Bool) : (t.clearErrs f).pmk = t.pmk := rfl
@[simp] theorem clearErrs_srstate (t : Thread) (f : Nat → Nat → Bool) : (t.clearErrs f).srstate = t.srstate := rfl
@[simp] theorem clearErrs_hentry (t : Thread) (f : Nat → Nat → Bool) : (t.clearErrs f).hentry = t.hentry := rfl
@[simp] theorem clearErrs_sel (t : Thread) (f : Nat → Nat → Bool) : (t.clearErrs f).sel = t.sel := rfl
@[simp] theorem clearErrs_selNum (t : Thread) (f : Nat → Nat → Bool) : (t.clearErrs f).selNum = t.selNum := rfl
@[simp] theorem clearErrs_rowStops (t : Thread) (f : Nat → Nat → Bool) : (t.clearErrs f).rowStops = t.rowStops := rfl
@[simp] theorem clearErrs_slots (t : Thread) (f : Nat → Nat → Bool) : (t.clearErrs f).slots = t.slots := rfl
@[simp] theorem clearErrs_binds (t : Thread) (f : Nat → Nat → Bool) : (t.clearErrs f).binds = t.binds := rfl
@[simp] theorem clearErrs_nest (t : Thread) (f : Nat → Nat → Bool) : (t.clearErrs f).nest = t.nest := rfl
@[simp] theorem clearErrs_fifo (t : Thread) (f : Nat → Nat → Bool) : (t.clearErrs f).fifo = t.fifo := rfl
@[simp] theorem clearErrs_outs (t : Thread) (f : Nat → Nat → Bool) : (t.clearErrs f).outs = t.outs := rfl
@[simp] theorem clearErrs_outRes (t : Thread) (f : Nat → Nat → Bool) : (t.clearErrs f).outRes = t.outRes := rfl
@[simp] theorem clearErrs_seq (t : Thread) (f : Nat → Nat → Bool) : (t.clearErrs f).seq = t.seq := rfl
@[simp] theorem clearErrs_instret (t : Thread) (f : Nat → Nat → Bool) : (t.clearErrs f).instret = t.instret := rfl
@[simp] theorem clearErrs_cycnf (t : Thread) (f : Nat → Nat → Bool) : (t.clearErrs f).cycnf = t.cycnf := rfl
@[simp] theorem clearErrs_st (t : Thread) (f : Nat → Nat → Bool) : (t.clearErrs f).st = t.st := rfl
@[simp] theorem clearErrs_stop (t : Thread) (f : Nat → Nat → Bool) : (t.clearErrs f).stop = t.stop := rfl
@[simp] theorem clearErrs_drained (t : Thread) (f : Nat → Nat → Bool) : (t.clearErrs f).drained = t.drained := rfl
@[simp] theorem clearErrs_stall (t : Thread) (f : Nat → Nat → Bool) : (t.clearErrs f).stall = t.stall := rfl
@[simp] theorem clearErrs_yld (t : Thread) (f : Nat → Nat → Bool) : (t.clearErrs f).yld = t.yld := rfl
@[simp] theorem clearErrs_busyS (t : Thread) (f : Nat → Nat → Bool) : (t.clearErrs f).busyS = t.busyS := rfl
@[simp] theorem clearErrs_busyP (t : Thread) (f : Nat → Nat → Bool) : (t.clearErrs f).busyP = t.busyP := rfl
@[simp] theorem clearErrs_busyFor (t : Thread) (f : Nat → Nat → Bool) : (t.clearErrs f).busyFor = t.busyFor := rfl
@[simp] theorem clearErrs_strip (t : Thread) (f : Nat → Nat → Bool) : (t.clearErrs f).strip = t.strip := rfl
@[simp] theorem clearErrs_asked (t : Thread) (f : Nat → Nat → Bool) : (t.clearErrs f).asked = t.asked := rfl
@[simp] theorem clearErrs_vnum (t : Thread) (f : Nat → Nat → Bool) : (t.clearErrs f).vnum = t.vnum := rfl
@[simp] theorem clearErrs_undos (t : Thread) (f : Nat → Nat → Bool) : (t.clearErrs f).undos = t.undos := rfl
@[simp] theorem clearErrs_owed (t : Thread) (f : Nat → Nat → Bool) : (t.clearErrs f).owed = t.owed := rfl
@[simp] theorem clearErrs_task (t : Thread) (f : Nat → Nat → Bool) : (t.clearErrs f).task = t.task := rfl
@[simp] theorem clearErrs_hostAcc (t : Thread) (f : Nat → Nat → Bool) : (t.clearErrs f).hostAcc = t.hostAcc := rfl
@[simp] theorem clearErrs_brkSkip (t : Thread) (f : Nat → Nat → Bool) : (t.clearErrs f).brkSkip = t.brkSkip := rfl
@[simp] theorem clearErrs_since (t : Thread) (f : Nat → Nat → Bool) : (t.clearErrs f).since = t.since := rfl
@[simp] theorem clearErrs_barEnd (t : Thread) (f : Nat → Nat → Bool) : (t.clearErrs f).barEnd = t.barEnd := rfl

@[simp] theorem word_setWord_same (t : Thread) (r k : Nat) (w : VWord) (hr : r < 64) (hk : k < 128) : (t.setWord r k w).word r k = w := by
  simp [Thread.word, Thread.setWord, Vector.getD, hr, hk]
@[simp] theorem word_setWord_other (t : Thread) (r k j i : Nat) (w : VWord) (h : r ≠ j ∨ k ≠ i) :
    (t.setWord r k w).word j i = t.word j i := by
  by_cases hr : r = j
  · subst hr
    have hk : k ≠ i := by simpa using h
    by_cases h1 : r < 64
    · by_cases h2 : i < 128
      · simp [Thread.word, Thread.setWord, Vector.getD, h1, h2, hk]
      · simp [Thread.word, Vector.getD, h2]
    · simp [Thread.word, Thread.setWord, Vector.getD, h1]
  · by_cases h1 : j < 64
    · simp [Thread.word, Thread.setWord, Vector.getD, h1, hr]
    · simp [Thread.word, Thread.setWord, Vector.getD, h1]

end Sys2Proof.Laws
end

