-- ==== Sys2Proof/Laws/Registers.lean ====
section
/-! SUPPORT. What writing a scalar register or a predicate does, once for all (R57, R65, R162). -/

namespace Sys2Proof.Laws
open Sys2Proof Sys2Proof.Machine

/-! ## States that differ in one thread -/

/-- `u` is `s` with another thread in context `t` of core `k`, perhaps with hole records that lost their destination. -/
structure ThreadStep (s u : State) (k t : Nat) (p : Thread → Thread → Prop) : Prop where
  package : SamePackage s u
  cores : ∀ j, j ≠ k → u.core j = s.core j
  core : SameCore (s.core k) (u.core k)
  threads : ∀ i, i ≠ t → u.thread k i = s.thread k i
  helpers : ∀ h, u.helper k h = s.helper k h
  rel : p (s.thread k t) (u.thread k t)

theorem sameCore_refl (c : Core) : SameCore c c := ⟨rfl, rfl⟩

theorem sameCore_trans {a b c : Core} (h : SameCore a b) (g : SameCore b c) : SameCore a c := by
  obtain ⟨h1, h2⟩ := h
  obtain ⟨g1, g2⟩ := g
  refine ⟨?_, g2.trans h2⟩
  rw [← h1]
  rw [← g1]

theorem samePackage_refl (s : State) : SamePackage s s := rfl

theorem samePackage_trans {a b c : State} (h : SamePackage a b) (g : SamePackage b c) : SamePackage a c := by
  unfold SamePackage at *
  rw [← h]
  rw [← g]

theorem ThreadStep.refl {s : State} {k t : Nat} {p : Thread → Thread → Prop} (h : p (s.thread k t) (s.thread k t)) :
    ThreadStep s s k t p :=
  ⟨rfl, fun _ _ => rfl, sameCore_refl _, fun _ _ => rfl, fun _ => rfl, h⟩

theorem ThreadStep.trans {a b c : State} {k t : Nat} {p q r : Thread → Thread → Prop} (h : ThreadStep a b k t p)
    (g : ThreadStep b c k t q) (hr : p (a.thread k t) (b.thread k t) → q (b.thread k t) (c.thread k t) → r (a.thread k t) (c.thread k t)) :
    ThreadStep a c k t r :=
  ⟨samePackage_trans h.package g.package, fun j hj => (g.cores j hj).trans (h.cores j hj), sameCore_trans h.core g.core,
    fun i hi => (g.threads i hi).trans (h.threads i hi), fun i => (g.helpers i).trans (h.helpers i), hr h.rel g.rel⟩

/-- Replacing a thread. -/
theorem ThreadStep.set (s : State) (k t : Nat) (v : Thread) (p : Thread → Thread → Prop) (h : p (s.thread k t) v) (ht : t < 4) :
    ThreadStep s (s.setThread k t v) k t p where
  package := rfl
  cores j hj := by simp [State.setThread, Ne.symm hj]
  core := by simp [SameCore, State.setThread]
  threads i hi := by simp [Ne.symm hi]
  helpers h := by simp
  rel := by simpa [ht] using h

/-- A thread whose vector registers other than `r` are the same, and whose other fields are the same but for `slots`. -/
def InReg (r : Nat) (a b : Thread) : Prop :=
  (∀ j k, j ≠ r → b.word j k = a.word j k) ∧ { b with v := a.v, slots := a.slots } = a

theorem InReg.refl (r : Nat) (a : Thread) : InReg r a a := ⟨fun _ _ _ => rfl, rfl⟩

theorem InReg.trans {r : Nat} {a b c : Thread} (h : InReg r a b) (g : InReg r b c) : InReg r a c := by
  refine ⟨fun j k hj => (g.1 j k hj).trans (h.1 j k hj), ?_⟩
  have h2 := h.2
  have g2 := g.2
  rw [← h2]
  rw [← g2]

theorem InReg.setWord (t : Thread) (r k : Nat) (w : VWord) : InReg r t (t.setWord r k w) :=
  ⟨fun j i hj => word_setWord_other t r k j i w (Or.inl (Ne.symm hj)), rfl⟩

theorem InReg.setHalf (t : Thread) (r h : Nat) (p : Presence) : InReg r t (t.setHalf r h p) := InReg.setWord t r _ _

theorem InReg.setBits (t : Thread) (r lo w v : Nat) : InReg r t (t.setBits r lo w v) := InReg.setWord t r _ _

theorem InReg.setHalves (t : Thread) (r h n : Nat) (p : Presence) : InReg r t (t.setHalves r h n p) := by
  have go : ∀ (l : List Nat) (t : Thread), InReg r t (l.foldl (fun t k => t.setHalf r (h + k) p) t) := by
    intro l
    induction l with
    | nil => intro t; exact InReg.refl r t
    | cons a b ih => intro t; exact (InReg.setHalf t r (h + a) p).trans (ih _)
  exact go _ t

theorem InReg.slots {r : Nat} {a b : Thread} (h : InReg r a b) (sl : Vector (Option Machine.Slot) 8) : InReg r a { b with slots := sl } :=
  ⟨fun j k hj => h.1 j k hj, by have := h.2; rw [← this]⟩

/-- Replacing a core's threads and marking records. -/
theorem ThreadStep.ofCore (s : State) (k t n : Nat) (v : Thread) (m : List MireRec) (p : Thread → Thread → Prop)
    (h : p (s.thread k t) v) (ht : t < 4)
    (hm : m.map (fun r => { r with superseded := true }) = (s.core k).mire.map (fun r => { r with superseded := true })) :
    ThreadStep s { s.setCore k { s.core k with threads := (s.core k).threads.setIfInBounds t v, mire := m } with free := n } k t p where
  package := rfl
  cores j hj := by
    show (s.setCore k _).core j = _
    simp [Ne.symm hj]
  core := by
    show SameCore _ ((s.setCore k _).core k)
    simp [SameCore, hm]
  threads i hi := by
    show (s.setCore k _).thread k i = _
    simp only [State.thread, core_setCore_same]
    by_cases h4 : i < 4
    · simp [Vector.getD, h4, Ne.symm hi]
    · simp [Vector.getD, h4]
  helpers i := by
    show (s.setCore k _).helper k i = _
    simp [State.helper]
  rel := by
    have : State.thread { s.setCore k { s.core k with threads := (s.core k).threads.setIfInBounds t v, mire := m } with free := n } k t = v := by
      show (s.setCore k _).thread k t = _
      simp [State.thread, Vector.getD, ht]
    rw [this]
    exact h

theorem supersede_map (m : List MireRec) (id : Nat) :
    (m.map fun x => if x.id = id then { x with superseded := true } else x).map (fun r => { r with superseded := true })
      = m.map (fun r => { r with superseded := true }) := by
  rw [List.map_map]
  apply List.map_congr_left
  intro a _
  by_cases h : a.id = id <;> simp [h]

/-- Taking an element out of PENDING or FAULTED touches nothing but its register. -/
theorem release_step (s : State) (k t r h : Nat) (ht : t < 4) :
    ThreadStep s { s.setCore k ((s.core k).release t r h s.free).1 with free := ((s.core k).release t r h s.free).2 } k t (InReg r) := by
  have same : ThreadStep s { s.setCore k (s.core k) with free := s.free } k t (InReg r) := by
    have := ThreadStep.ofCore s k t s.free (s.thread k t) (s.core k).mire (InReg r) (InReg.refl _ _) ht rfl
    have e : (s.core k).threads.setIfInBounds t (s.thread k t) = (s.core k).threads := by
      simp only [State.thread]
      ext i hi
      by_cases h1 : t = i
      · subst h1; simp [Vector.getD, ht]
      · simp [h1]
    rw [e] at this
    exact this
  unfold Core.release
  simp only
  split
  · split
    · exact same
    · exact ThreadStep.ofCore s k t _ _ _ _ ((InReg.setHalves _ _ _ _ _).trans (InReg.setBits _ _ _ _ _)) ht (supersede_map _ _)
  · split
    · exact same
    · split
      · exact same
      · split
        · exact same
        · exact ThreadStep.ofCore s k t _ _ _ _ ((InReg.setHalves _ _ _ _ _).slots _) ht rfl
  · exact same

/-- Releasing the elements of a run of half-slots touches nothing but their register. -/
theorem releaseHalves_step (s : State) (k t r h n : Nat) (ht : t < 4) :
    ThreadStep s (s.releaseHalves k t r h n) k t (InReg r) := by
  have go : ∀ (l : List Nat) (s : State), ThreadStep s (l.foldl (fun s i =>
      match (s.thread k t).halfPres r (h + i) with
      | .pres | .pois => s
      | _ =>
        let p := (s.core k).release t r (h + i) s.free
        { s.setCore k p.1 with free := p.2 }) s) k t (InReg r) := by
    intro l
    induction l with
    | nil => intro s; exact ThreadStep.refl (InReg.refl _ _)
    | cons a b ih =>
      intro s
      have h1 : ThreadStep s (match (s.thread k t).halfPres r (h + a) with
          | .pres | .pois => s
          | _ =>
            let p := (s.core k).release t r (h + a) s.free
            { s.setCore k p.1 with free := p.2 }) k t (InReg r) := by
        split
        · exact ThreadStep.refl (InReg.refl _ _)
        · exact ThreadStep.refl (InReg.refl _ _)
        · exact release_step s k t r (h + a) ht
      exact h1.trans (ih _) InReg.trans
  exact go _ s

/-! ## Scalar registers (R57) -/

theorem word_low (s : State) (k t : Nat) (r : Reg) : s.low k t r = ((s.thread k t).word r.toNat 0).bits := rfl

theorem isHelper_iff (x : Ctx) : x.isHelper = true ↔ 4 ≤ x.ctx := by simp [Ctx.isHelper]

theorem isHelper_false_iff (x : Ctx) : x.isHelper = false ↔ x.ctx < 4 := by simp [Ctx.isHelper]

/-- A word that a scalar read takes is in error (R63). -/
def lowBad (t : Thread) (r : Nat) : Bool := t.errs.any fun e => e.1 == r && decide (e.2.1 < 2)

/-- The presence that a scalar read of a task thread sees, from its word and from whether that is in error. -/
def wordPres (p : BitVec 8) (bad : Bool) : Presence :=
  if p = 0 then if bad then .pois else .pres
  else
    let l := (List.range 4).map fun i => Presence.ofCode (p.extractLsb' (2 * i) 2)
    if l.contains .pend then .pend else if l.contains .flt then .flt else .pois

theorem scalarPres_task (s : State) (x : Ctx) (r : Reg) (h : x.isHelper = false) :
    s.scalarPres x r = wordPres ((s.thread x.core x.ctx).word r.toNat 0).pres (lowBad (s.thread x.core x.ctx) r.toNat) := by
  simp only [State.scalarPres, h, Bool.false_eq_true, if_false]
  rfl

theorem scalar_task (s : State) (x : Ctx) (r : Reg) (h : x.isHelper = false) :
    s.scalar x r = ((s.thread x.core x.ctx).word r.toNat 0).bits := by
  simp [State.scalar, h, State.low]

/-- The words of a thread depend on its vector registers alone. -/
theorem word_of_v {a b : Thread} (h : a.v = b.v) (j k : Nat) : a.word j k = b.word j k := by
  simp only [Thread.word, h]

/-- A thread whose registers other than `r` are the same, with the errors in them, and whose other fields are the same but for
`hwm`, `undos`, `slots`. -/
structure OneReg (r : Nat) (a b : Thread) : Prop where
  words : ∀ j k, j ≠ r → b.word j k = a.word j k
  bad : ∀ j, j ≠ r → lowBad b j = lowBad a j
  rest : { b with v := a.v, hwm := a.hwm, undos := a.undos, slots := a.slots, errs := a.errs } = a

theorem OneReg.refl (r : Nat) (a : Thread) : OneReg r a a := ⟨fun _ _ _ => rfl, fun _ _ => rfl, rfl⟩

theorem OneReg.trans {r : Nat} {a b c : Thread} (h : OneReg r a b) (g : OneReg r b c) : OneReg r a c :=
  ⟨fun j k hj => (g.words j k hj).trans (h.words j k hj), fun j hj => (g.bad j hj).trans (h.bad j hj), by rw [← h.rest, ← g.rest]⟩

theorem InReg.one {r : Nat} {a b : Thread} (h : InReg r a b) : OneReg r a b where
  words := h.1
  bad _ _ := by
    have e : b.errs = a.errs := by have := congrArg Thread.errs h.2; exact this
    simp [lowBad, e]
  rest := by rw [← h.2]

/-- Errors of other registers stay when those of one register clear. -/
theorem lowBad_clear (t : Thread) (r j : Nat) (h : j ≠ r) :
    lowBad (t.clearErrs fun q w => q == r && decide (w < 2)) j = lowBad t j := by
  have key : ∀ e : Nat × Nat × Bool, ((!(e.1 == r && decide (e.2.1 < 2))) && (e.1 == j && decide (e.2.1 < 2))) = (e.1 == j && decide (e.2.1 < 2)) := by
    intro e
    by_cases hj : e.1 = j
    · have hr : e.1 ≠ r := fun g => h (hj.symm.trans g)
      simp [hr]
    · simp [hj]
  simp only [lowBad, Thread.clearErrs, List.any_filter, key]

theorem lowBad_cleared (t : Thread) (r : Nat) : lowBad (t.clearErrs fun q w => q == r && decide (w < 2)) r = false := by
  rw [lowBad, List.any_eq_false]
  intro e he
  simpa [Decidable.imp_iff_not_or] using (List.mem_filter.1 he).2

/-- A thread whose register `r` was written as a scalar. -/
theorem OneReg.word (a : Thread) (r : Nat) (v : W64) :
    OneReg r a (((a.setWord r 0 ⟨v, 0⟩).raiseHwm r 8).clearErrs fun q w => q == r && decide (w < 2)) where
  words j k hj := (word_of_v (a := a.setWord r 0 ⟨v, 0⟩) rfl j k).trans (word_setWord_other _ _ _ _ _ _ (Or.inl (Ne.symm hj)))
  bad j hj := by rw [lowBad_clear _ _ _ hj]; rfl
  rest := rfl

/-- The state in which a scalar write finds its register: the run-ahead has noted it, and its elements are released. -/
def writeReady (s : State) (x : Ctx) (d : Reg) : State := (s.noteLow x.core x.ctx d).releaseHalves x.core x.ctx d.toNat 0 4

theorem writeScalar_task (s : State) (x : Ctx) (d : Reg) (v : W64) (hx : x.isHelper = false) :
    s.writeScalar x d v false = (writeReady s x d).modThread x.core x.ctx fun t =>
      ((t.setWord d.toNat 0 ⟨v, 0⟩).raiseHwm d.toNat 8).clearErrs fun q w => q == d.toNat && decide (w < 2) := by
  simp [State.writeScalar, hx, writeReady]

/-- Writing a scalar register of a task thread, step by step. -/
theorem writeScalar_step (s : State) (x : Ctx) (d : Reg) (v : W64) (hx : x.isHelper = false) :
    ThreadStep s (s.writeScalar x d v false) x.core x.ctx (OneReg d.toNat) := by
  have ht : x.ctx < 4 := (isHelper_false_iff x).1 hx
  have h0 : ThreadStep s (s.noteLow x.core x.ctx d) x.core x.ctx (OneReg d.toNat) := by
    unfold State.noteLow
    split
    · exact ThreadStep.refl (OneReg.refl _ _)
    · exact ThreadStep.set s _ _ _ _ ⟨fun _ _ _ => rfl, fun _ _ => rfl, rfl⟩ ht
  have h1 : ThreadStep s (writeReady s x d) x.core x.ctx (OneReg d.toNat) :=
    h0.trans (releaseHalves_step (s.noteLow x.core x.ctx d) x.core x.ctx d.toNat 0 4 ht) (r := OneReg d.toNat) (fun a b => a.trans b.one)
  rw [writeScalar_task _ _ _ _ hx]
  exact h1.trans (ThreadStep.set (writeReady s x d) _ _ _ (OneReg d.toNat) (OneReg.word _ _ _) ht) OneReg.trans

/-- The word that a scalar write leaves in a task thread, which is in no error. -/
theorem writeScalar_word (s : State) (x : Ctx) (d : Reg) (v : W64) (hx : x.isHelper = false) :
    ((s.writeScalar x d v false).thread x.core x.ctx).word d.toNat 0 = ⟨v, 0⟩ ∧
      lowBad ((s.writeScalar x d v false).thread x.core x.ctx) d.toNat = false := by
  have ht : x.ctx < 4 := (isHelper_false_iff x).1 hx
  have hd : d.toNat < 64 := d.isLt
  rw [writeScalar_task _ _ _ _ hx, modThread_eq, thread_setThread_same _ _ _ _ ht]
  generalize (writeReady s x d).thread x.core x.ctx = a
  exact ⟨(word_of_v (a := a.setWord d.toNat 0 ⟨v, 0⟩) rfl _ _).trans (word_setWord_same a _ _ _ hd (by omega)), lowBad_cleared _ _⟩

/-- WRITING A SCALAR REGISTER: what the operation does, whole. -/
theorem writeScalar_wrote (s : State) (x : Ctx) (d : Reg) (v : W64) (hx : x.ctx < 6) :
    WroteScalar s (s.writeScalar x d v false) x d v := by
  by_cases hh : x.isHelper = true
  · have h4 : 4 ≤ x.ctx := (isHelper_iff x).1 hh
    have hlt : x.ctx - 4 < 2 := by omega
    have e : s.writeScalar x d v false = s.setHelper x.core (x.ctx - 4)
        { s.helper x.core (x.ctx - 4) with s := (s.helper x.core (x.ctx - 4)).s.setIfInBounds d.toNat v } := by
      simp [State.writeScalar, hh]
    have hd : d.toNat < 64 := d.isLt
    rw [e]
    refine ⟨⟨rfl, ?_, ?_, ?_, ?_⟩, ?_, ?_, ?_, ?_, ?_, ?_⟩
    · intro k hk; simp [State.setHelper, Ne.symm hk]
    · simp [SameCore, State.setHelper]
    · intro t _; simp
    · intro h hne
      rw [helper_setHelper_other _ _ _ _ _ _ (Or.inr (by omega))]
    · simp [State.scalar, hh, helper_setHelper_same _ _ _ _ hlt, Vector.getD, hd]
    · simp [present, State.scalarPres, hh]
    · intro r hr
      have hr' : d.toNat ≠ r.toNat := fun h => hr (BitVec.eq_of_toNat_eq h).symm
      have hlt2 : r.toNat < 64 := r.isLt
      simp [State.scalar, State.scalarPres, hh, helper_setHelper_same _ _ _ _ hlt, Vector.getD, hr']
    · intro r k _; simp
    · simp
    · simp [helper_setHelper_same _ _ _ _ hlt]
  · have hh : x.isHelper = false := by simpa using hh
    have st := writeScalar_step s x d v hh
    obtain ⟨w, g⟩ := writeScalar_word s x d v hh
    refine ⟨⟨st.package, st.cores, st.core, st.threads, fun h _ => st.helpers h⟩, ?_, ?_, ?_, ?_, ?_, ?_⟩
    · rw [scalar_task _ _ _ hh, w]
    · rw [present, scalarPres_task _ _ _ hh, w, g]; rfl
    · intro r hr
      have hr' : r.toNat ≠ d.toNat := fun h => hr (BitVec.eq_of_toNat_eq h)
      rw [scalar_task _ _ _ hh, scalar_task _ _ _ hh, scalarPres_task _ _ _ hh, scalarPres_task _ _ _ hh, st.rel.words _ _ hr', st.rel.bad _ hr']
      exact ⟨rfl, rfl⟩
    · intro r k hr; exact st.rel.words _ _ hr
    · have := st.rel.rest
      rw [← this]
    · rw [st.helpers]

end Sys2Proof.Laws
end

