-- ==== Sys2Proof/Laws/Frame.lean ====
section
/-! SUPPORT. The frame of an instruction (R28, R29, R33), run once for all: what `instr`, `instrTo` answer when nothing keeps the
instruction from executing, and the small laws of the meanings' monad. -/

namespace Sys2Proof.Laws
open Sys2Proof Sys2Proof.Machine

/-! ## The monad -/

@[simp] theorem M_pure {α : Type} (a : α) (s : State) : (pure a : M α) s = .ok (a, s) := rfl
@[simp] theorem M_get (s : State) : (get : M State) s = .ok (s, s) := rfl
@[simp] theorem M_set (t s : State) : (set t : M PUnit) s = .ok (PUnit.unit, t) := rfl
@[simp] theorem M_modify (f : State → State) (s : State) : (modify f : M PUnit) s = .ok (PUnit.unit, f s) := rfl
theorem M_bind {α β : Type} (m : M α) (k : α → M β) (s : State) :
    (m >>= k) s = match m s with | .ok (a, t) => k a t | .error e => .error e := by
  simp only [bind, StateT.bind, Except.bind]
  cases m s <;> rfl
theorem M_bind_ok {α β : Type} {m : M α} {k : α → M β} {s t : State} {a : α} (h : m s = .ok (a, t)) : (m >>= k) s = k a t := by
  rw [M_bind, h]
theorem M_bind_error {α β : Type} {m : M α} {k : α → M β} {s : State} {e : Stop} (h : m s = .error e) : (m >>= k) s = .error e := by
  rw [M_bind, h]

/-! ## Operands -/

theorem at'_of_cur {s : State} {x : Ctx} (h : s.cur = some x) : s.at' = x := by simp [State.at', h]

/-- Ready sources: a read neither waits nor delivers a fault. -/
theorem ready_ok {rs : List Reg} {s : State} (h : ∀ r ∈ rs, s.scalarPres s.at' r = .pres) : ready rs s = .ok ((), s) := by
  have h1 : (rs.any fun r => s.scalarPres s.at' r == .pend) = false := by
    simp only [List.any_eq_false]
    intro r hr
    simp [h r hr]
  have h2 : (rs.find? fun r => s.scalarPres s.at' r == .flt) = none := by
    simp only [List.find?_eq_none]
    intro r hr
    simp [h r hr]
  unfold Machine.ready
  simp [h1, h2]

theorem anyPoison_ok {rs : List Reg} {s : State} (h : ∀ r ∈ rs, s.scalarPres s.at' r = .pres) : anyPoison rs s = .ok (false, s) := by
  have h1 : (rs.any fun r => s.scalarPres s.at' r == .pois) = false := by
    simp only [List.any_eq_false]
    intro r hr
    simp [h r hr]
  simp [Machine.anyPoison, M_bind, h1]

theorem control_ok {rs : List Reg} {s : State} (h : ∀ r ∈ rs, s.scalarPres s.at' r = .pres) : control rs s = .ok ((), s) := by
  simp [Machine.control, M_bind, ready_ok h, anyPoison_ok h]

@[simp] theorem sval_ok (r : Reg) (s : State) : sval r s = .ok (s.scalar s.at' r, s) := by simp [sval, M_bind]

@[simp] theorem wrS_ok (r : Reg) (v : W64) (s : State) : wrS r v s = .ok ((), s.writeScalar s.at' r v false) := rfl

@[simp] theorem wrP_ok (k : PReg) (b : Bool) (s : State) : wrP k b s = .ok ((), s.setPredsAt s.at' (setPred (s.predsAt s.at') k b)) := rfl

@[simp] theorem flags_ok (f : W64) (s : State) : flags f s = .ok ((), s.raiseFlags s.at' f) := rfl

/-! ## The frame -/

/-- An instruction whose effect completes. -/
theorem instrTo_runs {i : Instr} {o : Op} {s : State} {x : Ctx} {u : State} {dest : Option PC} {body : M (Option PC)} (h : Runs s x i)
    (ho : i.op = some o) (hb : body s = .ok (dest, u)) :
    instrTo i o body s = .next (match dest with | none => closed u s x i | some pc => jumped u x i pc) := by
  obtain ⟨hcur, hlane, hreal, ⟨o', ho', hmay⟩, hhold, hquiet, _, hguard⟩ := h
  rw [ho] at ho'
  cases ho'
  have hq : (!x.isHelper && s.inPipe x.core x.ctx) = false := by
    rcases hquiet with h | h <;> simp [h]
  have hh : (i.ctl.hold && !holdOk s x) = false := by
    rcases hhold with h | h <;> simp [h]
  unfold instrTo
  simp only [hcur, hmay, hh, hq, hguard, Bool.not_true, Bool.false_eq_true, if_false, Bool.false_and]
  simp only [finish, M_bind, hb]
  cases dest <;> rfl

theorem instr_runs {i : Instr} {o : Op} {s : State} {x : Ctx} {u : State} {body : M Unit} (h : Runs s x i)
    (ho : i.op = some o) (hb : body s = .ok ((), u)) : instr i o body s = .next (closed u s x i) := by
  unfold instr
  exact instrTo_runs h ho (dest := none) (by simp [M_bind, hb])

/-- An instruction whose effect ends early: a fault taken, or nothing issued. -/
theorem instrTo_ends {i : Instr} {o : Op} {s : State} {x : Ctx} {u : State} {body : M (Option PC)} (h : Runs s x i)
    (ho : i.op = some o) (hb : body s = .error (.ends u)) : instrTo i o body s = .next u := by
  obtain ⟨hcur, hlane, hreal, ⟨o', ho', hmay⟩, hhold, hquiet, _, hguard⟩ := h
  rw [ho] at ho'
  cases ho'
  have hq : (!x.isHelper && s.inPipe x.core x.ctx) = false := by
    rcases hquiet with h | h <;> simp [h]
  have hh : (i.ctl.hold && !holdOk s x) = false := by
    rcases hhold with h | h <;> simp [h]
  unfold instrTo
  simp only [hcur, hmay, hh, hq, hguard, Bool.not_true, Bool.false_eq_true, if_false, Bool.false_and]
  simp only [finish, M_bind, hb]

theorem instr_ends {i : Instr} {o : Op} {s : State} {x : Ctx} {u : State} {body : M Unit} (h : Runs s x i)
    (ho : i.op = some o) (hb : body s = .error (.ends u)) : instr i o body s = .next u := by
  unfold instr
  exact instrTo_ends h ho (by simp [M_bind, hb])

end Sys2Proof.Laws
end

