-- ==== Sys2Proof/Tests/Slice0.lean ====
section
/-! SUPPORT. Tests: words of the encodings, ill-formed terms, one witness for the hypotheses of each statement, and single steps on
small states. Expected results are worked out by hand from the rules named. -/

namespace Sys2Proof.Tests
open Sys2Proof Sys2Proof.Machine

/-! ## Words of the encoding tables (R24, R26, R30, R47)

A word is put together here from the fields of R24 and the forms of R26 alone, the opcodes are those of R47, and the values of SUB
those of each instruction's own rule. -/

/-- Form R: C, SUB. -/
def fR (c sub : Nat) : Nat := c * 2 ^ 50 + sub
/-- Form M: SUB, OFF. -/
def fM (sub off : Nat) : Nat := sub * 2 ^ 48 + off
/-- Form V: F, C, SUB. -/
def fV (f c sub : Nat) : Nat := f * 2 ^ 50 + c * 2 ^ 44 + sub
/-- Form E: C, TAG, ZONE, SUB. -/
def fE (c tag zone sub : Nat) : Nat := c * 2 ^ 50 + tag * 2 ^ 44 + zone * 2 ^ 40 + sub
/-- Form S: CHIP, DIE, PAV, ROW, COL, TAG, ZONE. -/
def fS (chip die pav row col tag zone : Nat) : Nat :=
  chip * 2 ^ 46 + die * 2 ^ 43 + pav * 2 ^ 41 + row * 2 ^ 37 + col * 2 ^ 33 + tag * 2 ^ 21 + zone * 2 ^ 17

/-- What the decoder reads from OPC, D, A, B and the extension X, with the guard and the hints 0. -/
def rd (opc d a b x : Nat) : Option Instr :=
  decodeTableWord 96 (opc * 2 ^ 22 + d * 2 ^ 16 + a * 2 ^ 10 + b * 2 ^ 4 + x / 2 ^ 32 * 2 ^ 32 + x % 2 ^ 32 * 2 ^ 64)

/-- The same behind a prefix with MSK, RM, E, ZP, EV (R30). -/
def rdP (msk rm e zp ev opc d a b x : Nat) : Option Instr :=
  decodeTableWord 128 (0x3FF * 2 ^ 22 + msk * 2 ^ 19 + rm * 2 ^ 16 + e * 2 ^ 10 + zp * 2 ^ 9 + ev * 2 ^ 8
    + (opc * 2 ^ 22 + d * 2 ^ 16 + a * 2 ^ 10 + b * 2 ^ 4) * 2 ^ 32 + x / 2 ^ 32 * 2 ^ 64 + x % 2 ^ 32 * 2 ^ 96)

theorem test_decode_scalarInt :
    [rd 0x000 16 16 10 0, rd 0x001 1 2 3 0, rd 0x002 13 13 0 128, rd 0x003 63 1 2 0, rd 0x004 1 2 3 0, rd 0x005 1 2 3 0, rd 0x006 1 2 3 0,
      rd 0x007 1 2 3 0, rd 0x008 1 2 3 0, rd 0x009 1 2 3 0, rd 0x00A 1 2 3 0, rd 0x00B 1 2 3 0, rd 0x00C 1 2 3 0]
    = [some (.add {} 16 16 10), some (.sub {} 1 2 3), some (.addi {} 13 13 128), some (.mul {} 63 1 2), some (.mulh {} 1 2 3),
      some (.mulhu {} 1 2 3), some (.div {} 1 2 3), some (.divu {} 1 2 3), some (.rem {} 1 2 3), some (.remu {} 1 2 3),
      some (.and {} 1 2 3), some (.or {} 1 2 3), some (.xor {} 1 2 3)] := by decide +kernel

theorem test_decode_scalarImm :
    [rd 0x00D 1 2 0 (2 ^ 56 - 1), rd 0x00E 1 2 0 7, rd 0x00F 1 2 0 7, rd 0x010 1 2 3 0, rd 0x011 1 2 3 0, rd 0x012 1 2 3 0, rd 0x013 1 2 0 63,
      rd 0x014 1 2 0 5, rd 0x015 1 2 0 5, rd 0x016 1 2 3 0, rd 0x017 1 2 3 0, rd 0x018 1 2 3 0, rd 0x019 1 2 3 0, rd 0x01A 1 2 3 0,
      rd 0x01B 1 2 0 0, rd 0x01C 1 2 0 0, rd 0x01D 1 2 0 0, rd 0x01E 1 0 0 9, rd 0x01F 1 2 3 (fR 7 0), rd 0x020 2 5 6 (fR 0 2)]
    = [some (.andi {} 1 2 (BitVec.allOnes 56)), some (.ori {} 1 2 7), some (.xori {} 1 2 7), some (.shl {} 1 2 3), some (.shr {} 1 2 3),
      some (.sra {} 1 2 3), some (.shli {} 1 2 63), some (.shri {} 1 2 5), some (.srai {} 1 2 5), some (.rot {} 1 2 3), some (.min {} 1 2 3),
      some (.max {} 1 2 3), some (.minu {} 1 2 3), some (.maxu {} 1 2 3), some (.clz {} 1 2), some (.ctz {} 1 2), some (.popc {} 1 2),
      some (.movi {} 1 9), some (.sel {} 1 2 3 7), some (.cmp {} 2 5 6 .lt)] := by decide +kernel

theorem test_decode_scalarFp :
    [rd 0x040 1 2 3 0, rd 0x041 4 5 6 (fR 0 4), rd 0x042 1 2 3 (fR 0 6), rd 0x043 1 2 3 0, rd 0x044 1 2 3 0, rd 0x045 1 2 3 0,
      rd 0x046 1 2 3 (fR 4 1), rd 0x047 1 2 3 (fR 4 5), rd 0x048 1 2 3 (fR 0 2), rd 0x049 1 2 3 (fR 0 3), rd 0x04A 1 2 0 0, rd 0x04B 1 2 0 0,
      rd 0x04C 1 2 3 0, rd 0x04D 1 2 3 0, rd 0x04E 1 2 3 0, rd 0x04F 1 2 3 0, rd 0x050 3 1 2 (fR 0 0x20), rd 0x051 3 1 2 (fR 0 0x10),
      rd 0x052 3 4 0 (fR 0 0x82), rd 0x053 3 4 0 (fR 0 0x60), rd 0x054 1 2 0 0, rd 0x055 1 2 0 0, rd 0x056 1 2 3 (fR 0 0x10),
      rd 0x057 1 2 3 (fR 0 0x08)]
    = [some (.faddS {} 1 2 3 .dyn), some (.faddD {} 4 5 6 .rup), some (.fsubS {} 1 2 3 .sr), some (.fsubD {} 1 2 3 .dyn),
      some (.fmulS {} 1 2 3 .dyn), some (.fmulD {} 1 2 3 .dyn), some (.ffmaS {} 1 2 3 4 .rne), some (.ffmaD {} 1 2 3 4 .rmm),
      some (.fdivS {} 1 2 3 .rtz), some (.fdivD {} 1 2 3 .rdn), some (.fsqrtS {} 1 2 .dyn), some (.fsqrtD {} 1 2 .dyn), some (.fminS {} 1 2 3),
      some (.fminD {} 1 2 3), some (.fmaxS {} 1 2 3), some (.fmaxD {} 1 2 3), some (.fcmpS {} 3 1 2 .ne), some (.fcmpD {} 3 1 2 .le),
      some (.fcvtS {} 3 4 .tbf .rtz), some (.fcvtD {} 3 4 .fo .dyn), some (.fclassS {} 1 2), some (.fclassD {} 1 2), some (.fsgnS {} 1 2 3 .xor),
      some (.fsgnD {} 1 2 3 .neg)] := by decide +kernel

theorem test_decode_control :
    [rd 0x060 1 2 3 0, rd 0x061 1 2 3 0, rd 0x062 1 2 3 0, rd 0x063 1 2 0 0, rd 0x064 1 2 0 0, rd 0x068 0 0 0 48, rd 0x069 0 3 0 4,
      rd 0x06A 3 0 0 (2 ^ 56 - 4), rd 0x06B 0 3 0 0, rd 0x06C 4 5 0 0x61, rd 0x06D 1 2 0 (fR 0 3), rd 0x06E 0 0 0 0, rd 0x06F 0 0 0 0,
      rd 0x070 0 0 0 0xFFFF, rd 0x071 0 0 0 5, rd 0x072 0 0 0 0, rd 0x0C0 4 0 0 0x101, rd 0x0C1 0 4 0 1, rd 0x0C2 0 4 0 2, rd 0x0C3 0 4 0 2,
      rd 0x0C4 0 4 5 (fR 0 1), rd 0x0C5 0 4 5 (fR 0 1)]
    = [some (.pand {} 1 2 3), some (.por {} 1 2 3), some (.pxor {} 1 2 3), some (.pnot {} 1 2), some (.pmov {} 1 2), some (.br {} 48),
      some (.jmp {} 3 4), some (.call {} 3 0xFFFFFFFFFFFFFC), some (.ret {} 3), some (.lnest {} 4 5 0x61), some (.lninc {} 1 2 3),
      some (.yield {}), some (.nop {}), some (.trap {} 0xFFFF), some (.svc {} 5), some (.eret {}), some (.csrr {} 4 0x101), some (.csrw {} 4 1),
      some (.csrs {} 4 2), some (.csrc {} 4 2), some (.tlbinv {} 4 5 .range), some (.icinv {} 4 5 true)] := by decide +kernel

theorem test_decode_scalarMem :
    [rd 0x080 9 4 0 (fM 6 0x40), rd 0x081 7 5 0 (fM 3 (2 ^ 48 - 8)), rd 0x082 3 10 4 (fM 0x1B 0), rd 0x083 3 10 4 (fM 0x10 8), rd 0x084 0 0 0 (fR 0 9),
      rd 0x085 1 2 0 (fM 0 8), rd 0x086 1 2 0 (fM 0 8), rd 0x087 1 2 0 (fM 0 8), rd 0x088 0 2 0 (fM 0 8), rd 0x089 9 14 0 (fM 3 8)]
    = [some (.ld {} 9 4 .w true 0x40), some (.st {} 7 5 .d 0xFFFFFFFFFFF8), some (.amo {} 3 10 4 .add true 11 0), some (.cas {} 3 10 4 true 0 8),
      some (.fence {} .pav .acq), some (.barinit {} 1 2 8), some (.bararr {} 1 2 8), some (.barwait {} 1 2 8), some (.barfree {} 2 8),
      some (.sigst {} 9 14 .pkg 8)] := by decide +kernel

theorem test_decode_vectorInt :
    [rd 0x100 1 2 3 0, rd 0x101 1 0 0 0x2800, rd 0x102 1 0 0 (fR 0 2), rd 0x103 8 4 0 (fM 2 0x100), rd 0x104 8 4 0 (fM 1 0x100), rd 0x110 1 2 3 (fV 9 0 0),
      rd 0x111 1 2 3 (fV 9 0 0), rd 0x112 1 2 3 (fV 9 0 0), rd 0x113 1 2 3 (fV 9 0 0), rd 0x114 1 2 3 (fV 9 0 0), rd 0x115 1 2 3 (fV 9 0 0),
      rd 0x116 1 2 3 (fV 9 0 0), rd 0x117 1 2 3 (fV 9 0 0), rd 0x118 1 2 3 (fV 9 0 0), rd 0x119 1 2 3 (fV 9 0 0), rd 0x11A 1 2 3 (fV 9 0 0),
      rd 0x11B 1 2 3 (fV 9 0 0), rd 0x11C 1 2 3 (fV 9 0 0), rd 0x11D 1 2 3 (fV 9 0 0), rd 0x11E 1 2 3 (fV 9 0 0), rd 0x11F 1 2 3 (fV 9 0 0),
      rd 0x120 1 2 3 (fV 9 0 0), rd 0x121 1 2 3 (fV 9 0 0), rd 0x122 3 4 6 (fV 9 0 2), rd 0x123 1 2 3 (fV 9 4 0), rd 0x124 1 2 0 (fV 9 0 0)]
    = [some (.setvl {} 1 2 3), some (.setvli {} 1 0x2800), some (.vlq {} 1 .w), some (.vspill {} 8 4 .w 0x100), some (.vfill {} 8 4 .h 0x100),
      some (.vadd {} none 1 2 3 9), some (.vsub {} none 1 2 3 9), some (.vmul {} none 1 2 3 9), some (.vmulh {} none 1 2 3 9),
      some (.vdiv {} none 1 2 3 9), some (.vrem {} none 1 2 3 9), some (.vmin {} none 1 2 3 9), some (.vmax {} none 1 2 3 9),
      some (.vand {} none 1 2 3 9), some (.vor {} none 1 2 3 9), some (.vxor {} none 1 2 3 9), some (.vshl {} none 1 2 3 9),
      some (.vshr {} none 1 2 3 9), some (.vsra {} none 1 2 3 9), some (.vsadd {} none 1 2 3 9), some (.vssub {} none 1 2 3 9),
      some (.vwmul {} none 1 2 3 9), some (.vwmacc {} none 1 2 3 9), some (.vcmp {} none 3 4 6 9 .lt), some (.vmerge {} none 1 2 3 4 9),
      some (.vcvt {} none 1 2 9)] := by decide +kernel

theorem test_decode_masks :
    [rd 0x140 1 2 3 0, rd 0x141 1 2 3 0, rd 0x142 1 2 3 0, rd 0x143 1 2 0 0, rd 0x144 9 2 0 0, rd 0x145 9 2 0 0, rd 0x146 1 9 0 0]
    = [some (.mand {} 1 2 3), some (.mor {} 1 2 3), some (.mxor {} 1 2 3), some (.mnot {} 1 2), some (.mpop {} 9 2), some (.mffs {} 9 2),
      some (.mset {} 1 9)] := by decide +kernel

theorem test_decode_vectorFp :
    [rd 0x180 1 2 3 (fV 9 0 0), rd 0x181 1 2 3 (fV 9 0 0), rd 0x182 1 2 3 (fV 9 0 0), rdP 0 2 0 0 0 0x183 8 16 24 (fV 2 32 0), rd 0x184 1 2 3 (fV 9 4 0),
      rd 0x185 1 2 3 (fV 9 0 0), rd 0x186 1 2 0 (fV 9 0 0), rd 0x187 1 2 0 (fV 9 0 0), rd 0x188 1 2 0 (fV 9 0 0), rd 0x189 1 2 0 (fV 9 0 0),
      rd 0x18A 1 2 0 (fV 9 0 0), rd 0x18B 1 2 0 (fV 9 0 0), rd 0x18C 1 2 0 (fV 9 0 0), rd 0x18D 1 2 0 (fV 9 0 0), rd 0x18E 1 2 3 (fV 9 0 0),
      rd 0x18F 1 2 3 (fV 9 0 0), rd 0x190 1 2 3 (fV 9 0 0x18), rdP 3 0 5 1 1 0x191 1 2 3 (fV 9 0 0), rd 0x192 1 2 3 (fV 9 4 0),
      rd 0x193 1 2 0 (fV 9 0 0), rd 0x194 1 2 3 (fV 9 0 0x08)]
    = [some (.vfadd {} none 1 2 3 9), some (.vfsub {} none 1 2 3 9), some (.vfmul {} none 1 2 3 9),
      some (.vfma {} (some { rm := .rtz, msk := 0, zp := false, e := 0, ev := false }) 8 16 24 32 2), some (.vfnma {} none 1 2 3 4 9),
      some (.vfdiv {} none 1 2 3 9), some (.vfrcp {} none 1 2 9), some (.vfsqrt {} none 1 2 9), some (.vfrsqrt {} none 1 2 9),
      some (.vfexp2 {} none 1 2 9), some (.vflog2 {} none 1 2 9), some (.vfsin {} none 1 2 9), some (.vfcos {} none 1 2 9),
      some (.vftanh {} none 1 2 9), some (.vfmin {} none 1 2 3 9), some (.vfmax {} none 1 2 3 9), some (.vfcmp {} none 1 2 3 9 .un),
      some (.vfcvt {} (some { rm := .dyn, msk := 3, zp := true, e := 5, ev := true }) 1 2 3 9), some (.vfwma {} none 1 2 3 4 9),
      some (.vfclass {} none 1 2 9), some (.vfsgn {} none 1 2 3 9 .neg)] := by decide +kernel

theorem test_decode_permutes :
    [rd 0x200 8 16 5 (fV 2 0 1), rd 0x201 8 16 24 (fV 2 0 0), rd 0x202 16 8 5 (fV 2 0 0), rd 0x203 8 16 7 (fV 2 0 0), rd 0x204 8 16 7 (fV 2 0 0),
      rd 0x205 8 5 0 (fV 2 0 0), rd 0x206 5 8 6 (fV 2 0 0), rd 0x207 8 5 6 (fV 2 0 0), rd 0x210 8 16 0 (fV 2 0 0), rd 0x211 8 16 0 (fV 2 0 0),
      rd 0x212 8 16 0 (fV 2 0 0), rd 0x213 8 16 0 (fV 2 0 0), rd 0x220 2 8 3 (fV 1 0 0x12), rd 0x221 2 8 3 (fV 1 0 0x0E), rd 0x222 2 8 3 (fV 1 4 0),
      rd 0x223 2 8 3 (fV 1 0 4), rd 0x224 2 8 3 (fV 1 0 6), rd 0x225 2 8 3 0, rdP 0 1 0 0 0 0x226 12 2 3 (fV 1 6 1)]
    = [some (.vslide {} none 8 16 5 2 true), some (.vperm {} none 8 16 24 2), some (.vreshape {} none 16 8 5 2), some (.vcompress {} none 8 16 7 2),
      some (.vexpand {} none 8 16 7 2), some (.vbcast {} none 8 5 2), some (.vext {} none 5 8 6 2), some (.vins {} none 8 5 6 2),
      some (.vrsum {} none 8 16 2), some (.vrmax {} none 8 16 2), some (.vrmin {} none 8 16 2), some (.vrssum {} none 8 16 2),
      some (.vrmaxw {} none 2 8 3 1 .split 2), some (.vrminw {} none 2 8 3 1 .last 6), some (.vclampw {} none 2 8 3 4 1),
      some (.vrmedw {} none 2 8 3 1 .first 4), some (.vrssumw {} none 2 8 3 1 .first 6), some (.vwhdr {} 2 8 3),
      some (.vadjb {} (some { rm := .rne, msk := 0, zp := false, e := 0, ev := false }) 12 2 3 6 1 true)] := by decide +kernel

theorem test_decode_vectorMem :
    [rdP 2 0 0 1 0 0x240 8 4 0 (fM 2 0x200), rd 0x241 8 4 5 (fM 3 0), rd 0x242 8 4 16 (fM 0x0A 0), rd 0x243 8 4 0 (fM 0x10 0), rd 0x248 8 4 0 (fM 5 3),
      rd 0x249 8 4 5 (fM 0 0), rd 0x24A 8 4 16 (fM 1 0), rd 0x24B 16 6 0 (fM 0x21 0), rd 0x250 8 4 5 (fV 2 12 1), rd 0x251 8 4 5 (fV 2 12 0)]
    = [some (.vld {} (some { rm := .dyn, msk := 2, zp := true, e := 0, ev := false }) 8 4 .w 0x200), some (.vlds {} none 8 4 5 .d 0),
      some (.vldx {} none 8 4 16 .w true 0), some (.vldseg {} none 8 4 .b 1 0), some (.vst {} none 8 4 .l6 3), some (.vsts {} none 8 4 5 .b 0),
      some (.vstx {} none 8 4 16 .h false 0), some (.vstseg {} none 16 6 .h 2 0), some (.vldmx {} none 8 4 5 12 2 true),
      some (.vstmx {} none 8 4 5 12 2 false)] := by decide +kernel

theorem test_decode_holesMatrix :
    [rd 0x280 0 8 0 (fR 0 2), rd 0x281 2 8 0 (fR 0 6), rd 0x282 8 3 0 (fR 0 2), rd 0x288 1 0 0 0, rd 0x289 4 0 0 (fR 0 5), rd 0x28A 0 4 5 0,
      rd 0x28B 0 4 5 0, rd 0x2A0 0 4 5 0, rdP 0 1 12 0 1 0x2A1 4 8 0 (fV 2 0 1), rd 0x2A2 4 0 0 0, rd 0x2A3 0 0 0 0]
    = [some (.vsettle {} 8 .g2), some (.vpres {} 2 8 .w .pend), some (.mpoison {} 8 3 .w), some (.hpop {} 1), some (.hopnd {} 4 .p),
      some (.hfill {} 4 5), some (.hflt {} 4 5), some (.msel {} 4 5),
      some (.mmul {} (some { rm := .rne, msk := 0, zp := false, e := 12, ev := true }) 4 8 2 true), some (.mstat {} 4), some (.mclr {})] := by
  decide +kernel

theorem test_decode_engines :
    [rd 0x2C0 0 8 0 (fE 0 5 0 0), rd 0x2C1 0 8 0 (fE 0 63 0 0), rd 0x2C2 0 8 4 (fE 0 5 0 0), rd 0x2C3 1 2 0 0, rd 0x2C4 1 2 0 0, rd 0x2C5 1 2 0 0,
      rd 0x2C6 0 2 0 0, rd 0x2C7 1 0 0 0, rd 0x2C8 0 1 2 (fE 0 0 15 0), rd 0x2C9 0 0 0 (fE 0 0 3 0), rd 0x2CA 0 0 0 (fS 0 1 2 4 7 0 3),
      rd 0x2CB 0 9 0 (fS 1023 7 3 11 11 63 15), rd 0x2CC 1 2 3 (fE 0 0 4 1), rd 0x2CD 0 1 0 (fE 0 0 4 0), rd 0x2CE 0 0 0 (fE 0 0 4 0),
      rd 0x2D0 0 9 0 (fS 1 0 0 0 0 2 3)]
    = [some (.cpy {} 8 5), some (.cpyt {} 8 63), some (.cfill {} 8 4 5), some (.cwany {} 1 2), some (.cwall {} 1 2), some (.cffr {} 1 2),
      some (.ctclr {} 2), some (.epop {} 1), some (.lzopen {} 1 2 15), some (.lzclose {} 3),
      some (.lzres {} { chip := 0, die := 1, pav := 2, row := 4, col := 7 } 3),
      some (.lzput {} 9 { chip := 1023, die := 7, pav := 3, row := 11, col := 11 } 15 63), some (.lzwait {} 1 2 3 true 4), some (.lzfree {} 1 4),
      some (.lzclean {} 4), some (.xred {} 9 { chip := 1, die := 0, pav := 0, row := 0, col := 0 } 3 2)] := by decide +kernel

theorem test_decode_tasks :
    [rd 0x300 3 4 0 (fR 0 1), rd 0x301 3 4 0 0, rd 0x302 0 3 4 0, rd 0x303 0 0 0 0, rd 0x304 0 0 0 0, rd 0x308 0 3 4 0, rd 0x309 1 3 4 0,
      rd 0x310 1 2 0 0, rd 0x311 0 6 7 (fR 8 0), rd 0x312 0 6 0 (fR 0 1)]
    = [some (.tbset {} 3 4 true), some (.tbtest {} 3 4), some (.glaunch {} 3 4), some (.texit {}), some (.tsusp {}), some (.tdclass {} 3 4),
      some (.tdoffer {} 1 3 4), some (.tglk {} 1 2), some (.tgset {} 6 7 8), some (.tginv {} 6 .key)] := by decide +kernel

/-- Guard and hints (R24, R28, R29): G 4 negated; YLD, HOLD, STALL 5. -/
theorem test_decode_ctl : decodeTableWord 96 (0x1A000009 + 0xE8000000 * 2 ^ 32 + 0x30 * 2 ^ 64)
    = some (.br { g := 4, gn := true, yld := true, hold := true, stall := 5 } 48) := by decide +kernel

/-- Refused (R27, R31, R32, R48): unassigned opcodes at the edges of their runs, unused and reserved fields, classes of registers, SUB. -/
theorem test_decode_refused :
    ([rd 0x021 0 0 0 0, rd 0x05F 0 0 0 0, rd 0x073 0 0 0 0, rd 0x08A 0 0 0 0, rd 0x2CF 0 0 0 0, rd 0x340 0 0 0 0, rd 0x3FE 0 0 0 0,
      rd 0x000 1 2 3 (2 ^ 56), rd 0x000 1 2 3 (fR 1 0), rd 0x000 1 2 3 (2 ^ 8), rd 0x06F 1 0 0 0, rd 0x06F 0 0 0 1, rd 0x060 8 1 1 0,
      rd 0x020 2 5 6 (fR 0 6), rd 0x013 1 2 0 64, rd 0x068 0 0 0 2, rd 0x080 9 4 0 (fM 7 0), rd 0x084 0 0 0 (fR 0 1), rd 0x0C4 0 4 5 (fR 0 0),
      rd 0x280 0 8 0 (fR 0 0), rd 0x220 2 8 3 (fV 1 0 7), rd 0x222 2 8 3 (fV 1 63 0), rd 0x070 0 0 0 0x10000, rdP 0 7 0 0 0 0x180 1 2 3 (fV 9 0 0),
      rdP 0 1 0 0 0 0x110 1 2 3 (fV 9 0 0), rdP 0 0 1 0 0 0x180 1 2 3 (fV 9 0 0), rdP 0 0 0 0 1 0x180 1 2 3 (fV 9 0 0),
      rdP 0 0 0 1 0 0x248 8 4 0 (fM 2 0), rdP 0 0 0 0 0 0x000 1 2 3 0, rdP 0 0 0 0 0 0x3FF 0 0 0 0]).all Option.isNone = true := by decide +kernel

/-! ## Terms that are no instruction -/

/-- One ill-formed term for each check of `Instr.wf`. -/
theorem test_wf_refuses :
    ([.br {} 2, .jmp {} 1 1, .call {} 1 3, .ld {} 1 2 .d true 0, .tlbinv {} 1 1 .page, .tlbinv {} 1 0 .all, .tlbinv {} 0 1 .all, .vsettle {} 1 .all,
      .tginv {} 1 .all, .vldseg {} none 1 2 .b 0 0, .vstseg {} none 1 2 .b 0 0, .vclampw {} none 1 2 3 63 4, .vrmaxw {} none 1 2 3 4 .first 0,
      .vrminw {} none 1 2 3 4 .first 7, .vrmedw {} none 1 2 3 4 .first 5, .vrmedw {} none 1 2 3 4 .last 1, .vrssumw {} none 1 2 3 4 .split 1,
      .vrssumw {} none 1 2 3 4 .first 0, .vadd {} (some { rm := .rne, msk := 0, zp := false, e := 0, ev := false }) 1 2 3 4,
      .vfadd {} (some { rm := .rne, msk := 0, zp := false, e := 1, ev := true }) 1 2 3 4,
      .vfadd {} (some { rm := .dyn, msk := 0, zp := false, e := 1, ev := false }) 1 2 3 4,
      .vst {} (some { rm := .dyn, msk := 0, zp := true, e := 0, ev := false }) 1 2 .b 0,
      .vins {} (some { rm := .dyn, msk := 1, zp := false, e := 0, ev := false }) 1 2 3 4] : List Instr).all (fun i => !i.wf) = true := by decide +kernel

theorem test_wf_accepts : ([.br {} 4, .ld {} 1 2 .w true 0, .vsettle {} 0 .all, .vrmedw {} none 1 2 3 4 .first 4,
    .vfcmp {} (some { rm := .dyn, msk := 7, zp := true, e := 0, ev := false }) 1 2 3 4 .un] : List Instr).all (fun i => i.wf) = true := by decide +kernel

/-! ## Small states, and checks of the terms of `Safety` -/

/-- Thread 0 of core 0 runs, on a chip with one core that is enabled, in partition 0 with pavilion 0. -/
def on : State :=
  { State.reset with
    cur := some ⟨0, 0⟩, refOn := true, vfs := 1, cores := [(0, {})], pavs := [(0, { part := some 0 })], parts := [(0, {})]
    lodge := { ready := true, stage := 7, record := some { enabled := [(0, BitVec.allOnes 144)], feat := [(0, 0xFFFF)] } } }

def x0 : Ctx := ⟨0, 0⟩
def x4 : Ctx := ⟨0, 4⟩

/-- Scalar registers of a thread. -/
def sets (l : List (Nat × Nat)) (t : Thread) : Thread := l.foldl (fun t e => t.setWord e.1 0 ⟨BitVec.ofNat 64 e.2, 0⟩) t

/-- Thread 0 of core 0 with scalar registers `l`, changed by `f`. -/
def th (l : List (Nat × Nat)) (f : Thread → Thread := id) (s : State := on) : State := s.modThread 0 0 fun t => f (sets l { t with st := .running })

/-- Helper 0 of core 0 runs, with scalar registers `l`, changed by `f`. -/
def hp (l : List (Nat × Nat)) (f : Helper → Helper := id) (s : State := on) : State :=
  { s.modHelper 0 0 fun h => f { h with idle := false, s := l.foldl (fun v e => v.setIfInBounds e.1 (BitVec.ofNat 64 e.2)) h.s } with cur := some x4 }

def runsB (s : State) (x : Ctx) (i : Instr) : Bool :=
  s.cur == some x && s.lane.isNone && decide (x.ctx < 6) && (match i.op with | some o => ctxOk x o | none => false) &&
    (!i.ctl.hold || holdOk s x) && (x.isHelper || !s.inPipe x.core x.ctx) && ((i.op.bind pipeOf).isNone || (s.thread x.core x.ctx).errs.isEmpty) && guardTrue s x i.ctl

theorem runs_of {s : State} {x : Ctx} {i : Instr} (h : runsB s x i = true) : Runs s x i := by
  simp only [runsB, Bool.and_eq_true, beq_iff_eq, Option.isNone_iff_eq_none, decide_eq_true_eq, Bool.or_eq_true, Bool.not_eq_true', List.isEmpty_iff] at h
  obtain ⟨⟨⟨⟨⟨⟨⟨h1, h2⟩, h3⟩, h4⟩, h5⟩, h6⟩, h8⟩, h7⟩ := h
  refine ⟨h1, h2, h3, ?_, h5, h6, h8, h7⟩
  split at h4
  · rename_i o ho; exact ⟨o, ho, h4⟩
  · exact absurd h4 (by simp)

theorem runs_all {s : State} {x : Ctx} {l : List Instr} (h : l.all (runsB s x) = true) : ∀ i ∈ l, Runs s x i := fun i hi =>
  runs_of (List.all_eq_true.mp h i hi)

/-- The registers are present and the instructions run. -/
structure Can (s : State) (x : Ctx) (rs : List Reg) (l : List Instr) : Prop where
  present : ∀ r ∈ rs, present s x r
  runs : ∀ i ∈ l, Runs s x i

def canB (s : State) (x : Ctx) (rs : List Reg) (l : List Instr) : Bool := rs.all (fun r => s.scalarPres x r == .pres) && l.all (runsB s x)

theorem can {s : State} {x : Ctx} {rs : List Reg} {l : List Instr} (h : canB s x rs l = true) : Can s x rs l := by
  rw [canB, Bool.and_eq_true] at h
  exact ⟨fun r hr => beq_iff_eq.mp (List.all_eq_true.mp h.1 r hr), runs_all h.2⟩

/-- `on` with page tables (R252): 1 GiB of virtual addresses from 0 leads to HBM from 0, and the next to the host window. -/
def paged : State :=
  { on with
    parts := [(0, { root := 0x1001 })]
    hbm := [(0x1000, 0x01), (0x1001, 0x20), (0x2000, 0x01), (0x2001, 0x30), (0x3000, 0x1F), (0x3008, 0x1F), (0x300E, 0x08)] }

/-- A node, a buffer, an instance with them, and its task in thread 0 of core 0. -/
def aNode : Node := { code := 0, feat := 0, tend := false, cls := 0, pin := {}, prio := 0, mov := false, seed := 0, hent := 0, ins := [], outs := [0], st := .placed }
def aBuf : Buf := { full := true, gen := 1, size := 4096, loc1 := true, addr := 0, site := {} }
def anInst : Inst := { id := 3, queue := 0, qprio := 0, home := 0, caddr := 0, cval := 0, nodes := [aNode], bufs := [aBuf] }
def aTask : Task := ⟨0, 3, 0, 0, 0, 0⟩
def tasked : State := { on with parts := [(0, { insts := [anInst], nextInst := 4 })] }

/-- The scratchpad of core 0 (R205), and the location of one of its addresses. -/
def spad : Nat := 0xFF000000000000
def inSp (a : W64) : Loc := .sp 0 (a.toNat - spad)

def reachesB (s : State) (x : Ctx) (kind : Access) (n : Nat) (store : Bool) (ea : W64) (l : Loc) : Bool :=
  ea.toNat % n == 0 && (match window s x.core ea with | .ts _ => false | _ => true) &&
    (match locate s x.core kind ea with | .ok (m, _) => m == l | _ => false) && (match l with | .host _ => false | _ => true) && !heldBack s x.core l n store

theorem reaches {s : State} {x : Ctx} {kind : Access} {n : Nat} {store : Bool} {ea : W64} {l : Loc} (h : reachesB s x kind n store ea l = true) :
    Reaches s x kind n store ea l := by
  simp only [reachesB, Bool.and_eq_true, beq_iff_eq, Bool.not_eq_true'] at h
  obtain ⟨⟨⟨⟨h1, h2⟩, h3⟩, h4⟩, h5⟩ := h
  constructor
  · exact h1
  · intro o ho; rw [ho] at h2; cases h2
  · split at h3
    · rename_i m leaf e; exact ⟨leaf, by rw [e, beq_iff_eq.mp h3]⟩
    · cases h3
  · intro p e; rw [e] at h4; cases h4
  · exact h5

/-- A format word (R67). -/
def fword (fa fb fd fc sati sca scb : Nat) : Nat := fa + fb * 2 ^ 6 + fd * 2 ^ 12 + fc * 2 ^ 18 + sati * 2 ^ 24 + sca * 2 ^ 25 + scb * 2 ^ 26

/-- Words 0, 1, ... of register `r`. -/
def vec (r : Nat) (l : List Nat) (t : Thread) : Thread :=
  ((List.range l.length).zip l).foldl (fun t e => t.setWord r e.1 ⟨BitVec.ofNat 64 e.2, 0⟩) t

/-- The groups, the format word in register `f`, and the elements that a vector instruction reads and writes are as they must be. -/
structure Vec (s : State) (x : Ctx) (f : Reg) (strict : Bool) (gd : Grp) (gs : List Grp) : Prop where
  present : present s x f
  word : (s.scalar x f).toNat < 2 ^ 27
  groups : GroupsOk strict gd gs
  settled : Settled (s.thread x.core x.ctx) gd
  known : ∀ i, i < (s.thread x.core x.ctx).vl.toNat → ∀ g ∈ gs, Known (s.thread x.core x.ctx) g i

/-- No half-slot of the thread is PENDING or FAULTED, word by word. -/
def calm (t : Thread) : Bool := t.v.toList.all fun r => r.toList.all fun w => (List.range 4).all fun k =>
  Presence.ofCode (w.pres.extractLsb' (2 * k) 2) == .pres || Presence.ofCode (w.pres.extractLsb' (2 * k) 2) == .pois

theorem calm_half {t : Thread} (h : calm t = true) (r k : Nat) : t.halfPres r k = .pres ∨ t.halfPres r k = .pois := by
  have ofWord (w : VWord) (hw : w = {} ∨ ∃ v ∈ t.v.toList, w ∈ v.toList) :
      Presence.ofCode (w.pres.extractLsb' (2 * (k % 4)) 2) = .pres ∨ Presence.ofCode (w.pres.extractLsb' (2 * (k % 4)) 2) = .pois := by
    rcases hw with rfl | ⟨v, hv, hw⟩
    · left
      have : k % 4 < 4 := Nat.mod_lt _ (by decide)
      generalize k % 4 = n at this
      revert n; decide
    · have := List.all_eq_true.mp (List.all_eq_true.mp (List.all_eq_true.mp h v hv) w hw) (k % 4) (List.mem_range.mpr (Nat.mod_lt _ (by decide)))
      simpa using this
  apply ofWord
  rw [Thread.word]
  by_cases hr : r < 64 <;> by_cases hk : k / 4 < 128 <;> simp [Vector.getD, hr, hk]
  exact .inr ⟨_, Vector.getElem_mem hr, Vector.getElem_mem hk⟩

theorem settled {t : Thread} (h : calm t = true) (g : Grp) : Settled t g := fun _ _ _ _ => calm_half h _ _

/-- The foremost of some presences is one of them, or PRESENT. -/
theorem foremost_mem (l : List Presence) : foremost l ∈ l ∨ foremost l = .pres := by
  unfold foremost
  split
  · exact .inl (List.contains_iff_mem.mp ‹_›)
  · split
    · exact .inl (List.contains_iff_mem.mp ‹_›)
    · split
      · exact .inl (List.contains_iff_mem.mp ‹_›)
      · exact .inr rfl

/-- The presence of an element is that of a half-slot of it, poison, or PRESENT. -/
theorem elPres_half (t : Thread) (g : Grp) (i : Nat) :
    (∃ k, k < g.halves ∧ elPres t g i = t.halfPres (g.reg i) (g.half i + k)) ∨ elPres t g i = .pois ∨ elPres t g i = .pres := by
  rcases foremost_mem ((List.range g.halves).map fun k => t.readPres (g.reg i) (g.half i + k)) with h | h
  · obtain ⟨k, hk, e⟩ := List.mem_map.mp h
    rw [← elPres, Thread.readPres] at e
    split at e
    · exact .inr (.inl e.symm)
    · exact .inl ⟨k, List.mem_range.mp hk, e.symm⟩
  · exact .inr (.inr h)

theorem known {t : Thread} (h : calm t = true) (g : Grp) (i : Nat) : Known t g i := by
  rcases elPres_half t g i with ⟨k, _, e⟩ | e | e
  · rw [Known, e]; exact calm_half h _ _
  · exact .inr e
  · exact .inl e

def groupsB (strict : Bool) (d : Grp) (l : List Grp) : Bool :=
  (d :: l).all (fun g => decide (g.base.toNat % g.size = 0) && decide (g.len * g.w ≤ 65536)) &&
    l.all fun g => !d.meets g || (!strict && g.base == d.base && g.size == d.size)

theorem groups {strict : Bool} {d : Grp} {l : List Grp} (h : groupsB strict d l = true) : GroupsOk strict d l := by
  rw [groupsB, Bool.and_eq_true] at h
  refine ⟨fun g hg => by simpa using List.all_eq_true.mp h.1 g hg, fun g hg hm => ?_⟩
  have := List.all_eq_true.mp h.2 g hg
  simp only [hm, Bool.not_true, Bool.false_or, Bool.and_eq_true, Bool.not_eq_true', beq_iff_eq] at this
  exact ⟨this.1.1, this.1.2, this.2⟩

theorem isVec {s : State} {x : Ctx} {f : Reg} {strict : Bool} {gd : Grp} {gs : List Grp}
    (h : (s.scalarPres x f == .pres && decide ((s.scalar x f).toNat < 2 ^ 27) && groupsB strict gd gs && calm (s.thread x.core x.ctx)) = true) :
    Vec s x f strict gd gs := by
  simp only [Bool.and_eq_true, beq_iff_eq, decide_eq_true_eq] at h
  obtain ⟨⟨⟨h1, h2⟩, h3⟩, h4⟩ := h
  exact ⟨h1, h2, groups h3, settled h4 gd, fun i _ g _ => known h4 g i⟩

/-! ## Single steps -/

/-- The state after one instruction. -/
def after (i : Instr) (s : State) : State := match exec i s with | .next t => t | _ => State.reset

/-- Register `d` of thread 0 after one scalar instruction on registers 1, 2 and 3. -/
def gets (i : Instr) (a b : Nat) (d : Reg) (s : State := on) : Nat := ((after i (th [(1, a), (2, b)] id s)).scalar x0 d).toNat

/-- R105: a sum and a difference that wrap, high halves of products, shifts by the low six bits of the count. -/
theorem test_scalarInt : gets (.add {} 3 1 2) (2 ^ 64 - 1) 2 3 = 1 ∧ gets (.sub {} 1 1 2) 3 5 1 = 2 ^ 64 - 2 ∧
    gets (.mulh {} 3 1 2) (2 ^ 64 - 1) 5 3 = 2 ^ 64 - 1 ∧ gets (.mulhu {} 3 1 2) (2 ^ 64 - 1) 5 3 = 4 ∧
    gets (.shl {} 3 1 2) 1 65 3 = 2 ∧ gets (.sra {} 3 1 2) (2 ^ 63) 63 3 = 2 ^ 64 - 1 ∧ gets (.shr {} 3 1 2) (2 ^ 63) 63 3 = 1 ∧
    gets (.min {} 3 1 2) (2 ^ 64 - 1) 1 3 = 2 ^ 64 - 1 ∧ gets (.minu {} 3 1 2) (2 ^ 64 - 1) 1 3 = 1 := by decide +kernel

/-- R106: a divisor of 0, the quotient that does not fit, signs of quotient and remainder. -/
theorem test_division : gets (.div {} 3 1 2) 7 0 3 = 2 ^ 64 - 1 ∧ gets (.rem {} 3 1 2) 7 0 3 = 7 ∧ gets (.div {} 3 1 2) (2 ^ 63) (2 ^ 64 - 1) 3 = 2 ^ 63 ∧
    gets (.rem {} 3 1 2) (2 ^ 63) (2 ^ 64 - 1) 3 = 0 ∧ gets (.div {} 3 1 2) (2 ^ 64 - 7) 2 3 = 2 ^ 64 - 3 ∧
    gets (.rem {} 3 1 2) (2 ^ 64 - 7) 2 3 = 2 ^ 64 - 1 := by decide +kernel

/-- R105: counts of zeros of 0, an immediate that is sign-extended. -/
theorem test_counts : gets (.clz {} 3 1) 0 0 3 = 64 ∧ gets (.ctz {} 3 1) 0 0 3 = 64 ∧ gets (.popc {} 3 1) (2 ^ 64 - 1) 0 3 = 64 ∧
    gets (.addi {} 3 1 0xFFFFFFFFFFFFFF) 5 0 3 = 4 := by decide +kernel

/-- R107: signed and unsigned order. -/
theorem test_compare : let p (k : Cmp) := (after (.cmp {} 1 1 2 k) (th [(1, 2 ^ 64 - 1), (2, 1)])).predsAt x0
    predBit (p .lt) 1 = true ∧ predBit (p .ltu) 1 = false ∧ predBit (p .geu) 1 = true := by decide +kernel

/-- R110, R112 on binary32: 1 + 2^-24 under the modes, and a quotient by 0. -/
theorem test_scalarFp : gets (.faddS {} 3 1 2 .rne) 0x3F800000 0x33800000 3 = 0x3F800000 ∧ gets (.faddS {} 3 1 2 .rup) 0x3F800000 0x33800000 3 = 0x3F800001 ∧
    gets (.fdivS {} 3 1 2 .rne) 0xBF800000 0 3 = 0xFF800000 ∧ gets (.fcvtS {} 3 1 .tw .rtz) 0xC0200000 0 3 = 2 ^ 64 - 2 := by decide +kernel

/-- R116: `call` saves the address that follows it. -/
theorem test_call : let t := after (.call {} 63 0x40) (th [] fun t => { t with pc := 0x1000 })
    (t.scalar x0 63, t.pcAt x0) = (0x100C, 0x1040) := by decide +kernel

/-- R218, R7: bytes in increasing significance, a sign extension, a negative offset. -/
theorem test_load : let s := on.modCore 0 fun c => { c with sp := [(8, 0x34), (9, 0x92)] }
    gets (.ld {} 3 1 .h true 0) (spad + 8) 0 3 s = 2 ^ 64 - 0x10000 + 0x9234 ∧ gets (.ld {} 3 1 .h false 0) (spad + 8) 0 3 s = 0x9234 ∧
    gets (.ld {} 3 1 .b false 0xFFFFFFFFFFFF) (spad + 10) 0 3 s = 0x92 := by decide +kernel

/-- R218: a store of two bytes, one of which is 0. -/
theorem test_store : ((after (.st {} 2 1 .h 4) (th [(1, spad), (2, 0x12003400)])).core 0).sp = [(5, 0x34)] := by decide +kernel

/-- R122: a system call puts a record into the queue of the partition and stops the thread; the saved PC is its own. -/
theorem test_svc : let t := after (.svc {} 0x1234) (th [] fun t => { t with pc := 0x1000 })
    ((t.part 0).fq.length, t.pcAt x0, (t.thread 0 0).st == .running) = (1, 0x1000, false) := by decide +kernel

/-! ## Witnesses: for each statement, states and operands that meet its hypotheses -/

/-- The last register, a guard, a source that is the destination; division by 0, of -2^63 by -1, and another; a helper. -/
theorem wit_ScalarInteger :
    (let s := th [(63, 7), (2, 9)]
     Can s x0 [63, 2] [.add {} 63 63 2, .sub {} 1 63 2, .mul {} 1 63 2, .mulh {} 1 63 2, .mulhu {} 1 63 2, .and {} 1 63 2,
      .or {} 1 63 2, .xor {} 1 63 2, .shl {} 1 63 2, .shr {} 1 63 2, .sra {} 1 63 2, .rot {} 1 63 2, .min {} 1 63 2, .max {} 1 63 2, .minu {} 1 63 2,
      .maxu {} 1 63 2, .addi {} 1 63 0x80000000000000, .andi {} 1 63 5, .ori {} 1 63 5, .xori {} 1 63 5, .shli {} 1 63 63, .shri {} 1 63 0, .srai {} 1 63 1,
      .movi {} 63 5, .clz {} 1 63, .ctz {} 1 63, .popc {} 1 63, .div {} 1 63 2, .rem {} 1 63 2, .divu {} 1 63 2, .remu {} 1 63 2,
      .add { g := 1, gn := true, hold := true } 1 63 2]) ∧
    (let s := th [(1, 5)]
     s.scalar x0 2 = 0 ∧ Can s x0 [1, 2] [.div {} 3 1 2, .divu {} 3 1 2, .rem {} 3 1 2, .remu {} 3 1 2]) ∧
    (let s := th [(1, 2 ^ 63), (2, 2 ^ 64 - 1)]
     (s.scalar x0 1).toInt = -(2 ^ 63) ∧ (s.scalar x0 2).toInt = -1 ∧ Can s x0 [1, 2] [.div {} 3 1 2, .rem {} 3 1 2]) ∧
    Can (hp [(1, 5)]) x4 [1] [.addi {} 63 1 1, .add {} 1 1 1, .movi {} 0 1] := by
  and_intros <;> first
    | decide +kernel
    | refine can ?_; decide +kernel

/-- Both values of the selecting predicate, each condition, each predicate instruction, p0 and p7. -/
theorem wit_SelectAndPredicates :
    (let s := th [(1, 7), (2, 9)] fun t => { t with p := 0x81 }
     predBit (s.predsAt x0) 7 = true ∧ Can s x0 [1] [.sel {} 3 1 63 7, .sel {} 3 1 2 0]) ∧
    (let s := th [(1, 7), (2, 9)]
     predBit (s.predsAt x0) 7 = false ∧ Can s x0 [2] [.sel {} 3 63 2 7]) ∧
    Can (th [(1, 7), (2, 9)]) x0 [1, 2] [.cmp {} 0 1 2 .eq, .cmp {} 7 1 2 .ne, .cmp {} 1 1 2 .lt, .cmp {} 1 1 2 .ge, .cmp {} 1 1 2 .ltu, .cmp {} 1 1 2 .geu,
      .pand {} 7 0 7, .por {} 0 1 2, .pxor {} 1 1 1, .pnot {} 0 0, .pmov {} 7 7] ∧
    Can (hp [(1, 7)]) x4 [1] [.cmp {} 7 1 1 .eq, .pnot {} 7 7] := by
  and_intros <;> first
    | decide +kernel
    | refine can ?_; decide +kernel

/-- A word with all its half-slots in state `p`. -/
def wordIn (p : Presence) (v : Nat) : VWord := ⟨BitVec.ofNat 64 v, match p with | .pres => 0 | .pend => 0x55 | .pois => 0xFF | .flt => 0xAA⟩

def aSlot (reg : Reg) (half width : Nat) : Machine.Slot := ⟨5, 0x40, 1, 0, reg, half, width, 1, [(reg, half, width)]⟩

/-- Register 1 in state `p`, with its fault slot, in a task of the partition. -/
def sourced (p : Presence) : State :=
  th [] (fun t => { t.setWord 1 0 (wordIn p 8) with task := some aTask, vl := 4, slots := t.slots.setIfInBounds 7 (some (aSlot 1 0 4)) }) tasked

/-- A PENDING, a FAULTED and a POISONED source; a FAULTED source B behind a PRESENT and behind a POISONED source A. Register 1 in each state as each
source of the scalar forms, and as the format word, the address and the other scalar operands of the vector forms. -/
theorem wit_ScalarPresence :
    (∀ p ∈ ([.pend, .flt, .pois] : List Presence), let s := sourced p
      s.scalarPres x0 1 = p ∧ s.scalarPres x0 2 = .pres ∧ (p = .flt → (s.thread 0 0).slotAt 1 (faultedHalf s x0 1) = some 7) ∧
      ([.addi {} 5 1 1, .clz {} 5 1, .fsqrtS {} 5 1 .dyn, .fcvtD {} 5 1 .fo .rne, .fclassS {} 5 1, .faddS {} 5 2 1 .sr, .fminD {} 5 1 2, .fsgnS {} 5 2 1 .neg,
        .ffmaS {} 5 2 2 1 .rtz, .ffmaD {} 5 1 2 2 .dyn, .sel {} 5 1 2 0, .sel {} 5 2 1 7, .cmp {} 1 2 1 .ltu, .fcmpD {} 1 1 2 .un, .setvl {} 5 2 1,
        .tlbinv {} 2 1 .range, .tlbinv {} 1 0 .page, .icinv {} 1 2 true, .jmp {} 1 4, .ret {} 1, .csrw {} 1 0, .csrs {} 1 0xA, .csrc {} 1 9, .csrw {} 1 0x20,
        .csrc {} 1 0x3F, .ld {} 5 1 .d true 0, .st {} 1 2 .b 0, .st {} 2 1 .b 0, .sigst {} 1 1 .sys 0, .amo {} 5 2 1 .max true 0 0, .amo {} 5 1 2 .add false 0 0,
        .cas {} 1 2 2 true 0 0, .cas {} 2 2 1 true 0 0, .barinit {} 1 2 0, .bararr {} 5 1 0, .barwait {} 1 2 0, .barfree {} 1 0] : List Instr).all (runsB s x0) = true ∧
      predBit (s.predsAt x0) 0 = true ∧ predBit (s.predsAt x0) 7 = false) ∧
    (∀ p ∈ ([.pend, .flt, .pois] : List Presence), let s := sourced p
      let t := s.thread 0 0
      ([.vadd {} none 8 16 24 1, .vfma {} none 8 16 24 32 1, .vfcmp {} none 1 16 24 1 .un, .vrsum {} none 8 16 1, .vrmaxw {} none 8 16 24 1 .first 1,
        .vadjb {} none 8 16 24 32 1 true, .vperm {} none 8 16 24 1, .mmul {} none 8 16 1 true, .vclampw {} none 8 16 24 62 1, .vslide {} none 8 16 1 2 true,
        .vreshape {} none 8 16 2 1, .vbcast {} none 8 1 2, .vext {} none 8 16 1 2, .vins {} none 8 1 2 1, .vwhdr {} 8 1 2, .mset {} 1 1, .msel {} 1 2,
        .vld {} none 8 1 .w 0, .vst {} none 8 1 .l6 0, .vlds {} none 8 1 2 .d 0, .vsts {} none 8 2 1 .h 0, .vspill {} 8 1 .w 0, .vfill {} 8 1 .b 0] : List Instr).all
          (runsB s x0) = true ∧ t.vstart = 0 ∧ (∀ q ∈ ([.a, .x, .m] : List Pipe), s.pipe 0 q = []) ∧
      (∀ n ∈ [6, 8, 16, 32, 64], let g : Grp := ⟨8, n, 4⟩; 8 % g.size = 0 ∧ g.tooLong = false) ∧ s.partOf 0 = some 0 ∧ (s.part 0).fq.length < 256 ∧ (s.part 0).fqWait = [] ∧
      t.undos = [] ∧ t.task = some aTask ∧ aTask.part = 0 ∧ t.st = .running ∧ (s.part 0).dump.armed = false ∧ hasFrozen s 0 aTask.inst = false ∧
      inDump s 0 (.live 0 0) = false ∧ (t.slots.getD 7 none).isSome = true) ∧
    (let s := th [(2, 9)] fun t => (t.setWord 1 0 (wordIn .pend 0)).setWord 3 0 (wordIn .pois 8)
     Can s x0 [2] [.add {} 5 1 2, .maxu {} 5 3 2, .div {} 5 3 3] ∧ s.scalarPres x0 1 = .pend ∧ s.scalarPres x0 3 = .pois) ∧
    (let s := th [] fun t => { t.setWord 63 0 (wordIn .flt 8) with slots := t.slots.setIfInBounds 7 (some (aSlot 63 0 4)) }
     Can s x0 [] [.sub {} 5 63 2, .sub {} 5 63 63] ∧ s.scalarPres x0 63 = .flt ∧ s.scalarPres x0 2 ≠ .pend ∧
      (s.thread 0 0).slotAt 63 (faultedHalf s x0 63) = some 7) ∧
    (let s := th [] fun t => { (t.setWord 63 0 (wordIn .flt 8)).setWord 3 0 (wordIn .pois 8) with slots := t.slots.setIfInBounds 7 (some (aSlot 63 0 4)) }
     Can s x0 [2] [.and {} 5 2 63, .xor {} 5 3 63] ∧ s.scalarPres x0 3 = .pois ∧ s.scalarPres x0 63 = .flt ∧
      (s.thread 0 0).slotAt 63 (faultedHalf s x0 63) = some 7) := by
  and_intros <;> first
    | decide +kernel
    | refine can ?_; decide +kernel

/-- Targets that are and are not multiples of 4; the sum wraps. -/
theorem wit_Branches :
    (let s := th [(1, 0xFF000000000004), (2, 2)]
     Can s x0 [1, 2] [.br {} 0x80000000000000, .call {} 63 0xFFFFFFFFFFFFFC, .jmp {} 1 4, .jmp {} 2 0, .ret {} 1, .ret {} 2] ∧
      ((s.scalar x0 1 + 4).setWidth 56).toNat % 4 = 0 ∧ (s.scalar x0 2).toNat % 4 ≠ 0) ∧
    Can (hp [(1, 4)]) x4 [1] [.br {} 4, .call {} 1 4, .jmp {} 1 0, .ret {} 1] := by
  and_intros <;> first
    | decide +kernel
    | refine can ?_; decide +kernel

theorem wit_NopAndBinding :
    Can (th []) x0 [] [.nop {}, .fence {} .pav .acq, .fence {} .core .full, .yield {}, .lninc {} 63 0 3, .lninc {} 0 63 0] ∧
    (let s := th []
     let c : Ctl := { g := 7 }
     guardTrue s x0 c = false ∧ s.cur = some x0 ∧ s.lane = none ∧ s.inPipe 0 0 = false ∧
      ∀ i ∈ ([.add c 1 2 3, .br c 4, .st c 1 2 .d 8, .svc c 9, .texit c, .vadd c none 1 2 3 4, .vld c none 1 2 .d 8, .mmul c none 4 8 2 true, .cpy c 8 5] :
        List Instr), i.op.any (ctxOk x0) = true ∧ i.op ≠ some .yield ∧ i.ctl = c) := by
  and_intros <;> first
    | decide +kernel
    | refine can ?_; decide +kernel

/-- `nop`s from offset 12 of the scratchpad on. -/
def nops (n : Nat) (s : State) : State :=
  s.modCore 0 fun c => { c with sp := Memory.write c.sp 12 ((List.range n).flatMap fun _ => encodeBytes (.nop {})) }

theorem ok_of {ε α : Type} {e : Except ε (α × State)} {a : α} (h : (match e with | .ok (b, _) => some b | _ => none) = some a) :
    ∃ v, e = .ok (a, v) := by
  split at h
  · rename_i b v; exact ⟨v, by rw [Option.some.inj h]⟩
  · cases h

/-- A vector instruction that waits in a pipe, not dispatched. -/
def queued (i : Instr) (num : Nat := 0) : PipeEntry := { thr := 0, pc := 0, instr := i, start := 0, num := num }

/-- One level of one instruction with a binding; six levels of sixteen with a count of 0 that the clearing made; the last and an earlier
index of a level; a step that a queued instruction holds up, since it still reads a bound register. -/
theorem wit_LoopNests :
    (let s := nops 1 (th [(8, 3), (9, 16)] fun t => { t with pc := BitVec.ofNat 56 spad, binds := t.binds.setIfInBounds 3 (some ⟨5, 9⟩) })
     Can s x0 [8, 9, 5] [.lnest {} 4 8 9] ∧ s.nestAt x0 = none ∧ s.bindsAt x0 = #v[none, none, none, some ⟨5, 9⟩] ∧ ([4, 5] : List Reg).Nodup ∧
      ∃ v, bodyScan x0 1 (s.pcAt x0 + 12) false s = .ok ((s.pcAt x0 + 24, false), v)) ∧
    (let s := nops 16 (th [(58, 3)] fun t => { t with pc := BitVec.ofNat 56 spad })
     Can s x0 [58, 59, 60, 61, 62, 63] [.lnest {} 58 58 134] ∧ s.nestAt x0 = none ∧ (regRun 58 6).Nodup ∧
      ∃ v, bodyScan x0 16 (s.pcAt x0 + 12) false s = .ok ((s.pcAt x0 + 12 + 192, false), v)) ∧
    (let n : Nest := ⟨2, 1, 4, 12, 24, [3, 2], [2, 0], [⟨0, 6, 8, 100, [1, 10]⟩]⟩
     let m : Nest := { n with idx := [2, 1] }
     (th [] fun t => { t with nest := some n }).nestAt x0 = some n ∧ (th [] fun t => { t with nest := some m }).nestAt x0 = some m ∧
      n.idx.getD 0 0 = n.cnt.getD 0 0 - 1 ∧ n.idx.getD 1 0 ≠ n.cnt.getD 1 0 - 1 ∧ (∀ l, l < 2 → m.idx.getD l 0 = m.cnt.getD l 0 - 1) ∧
      (regRun 4 2 ++ [6]).Nodup ∧ (th [] fun t => { t with nest := some n }).inPipe 0 0 = false ∧ ((th []).thread 0 0).undos = [] ∧
      advanceWaits ((th [] fun t => { t with nest := some n }).modCore 0 fun c => { c with pipeM := [queued (.vld {} none 8 6 .d 0)] }) x0 n = true) := by
  and_intros <;> first
    | decide +kernel
    | refine can ?_; decide +kernel
    | refine ok_of ?_; decide +kernel

/-- The fault queue has one place left; instructions of the other kind of context; a task whose thread takes a fatal fault. -/
theorem wit_PreciseStops :
    let s := th [] id { on with parts := [(0, { fq := List.replicate 255 {} })] }
    Can s x0 [] [.trap {} 0xFFFF, .svc {} 0] ∧ s.partOf 0 = some 0 ∧ (s.part 0).fq.length < 256 ∧ (s.part 0).fqWait = [] ∧ s.lane = none ∧
    (ctxOk x0 .hpop = false ∧ ctxOk x0 .hfill = false ∧ s.cur = some x0 ∧ s.inPipe 0 0 = false) ∧
    (let h := hp []
     ctxOk x4 .vfadd = false ∧ ctxOk x4 .texit = false ∧ h.cur = some x4 ∧ h.lane = none ∧ h.inPipe 0 4 = false) ∧
    (let u := sourced .pres
     (u.thread 0 0).task = some aTask ∧ (u.thread 0 0).st = .running ∧ u.lane = none ∧ u.partOf 0 = some 0 ∧ (u.part 0).dump.armed = false ∧
       hasFrozen u 0 aTask.inst = false ∧ inDump u 0 (.live 0 0) = false ∧ (u.part 0).fq.length < 256 ∧ (u.part 0).fqWait = []) := by
  and_intros <;> first
    | decide +kernel
    | refine can ?_; decide +kernel

/-- `paged` with three more GiB: one may only be fetched from, one has a malformed leaf, one has none. -/
def walled : State := { paged with hbm := paged.hbm ++ [(0x3010, 0x13), (0x3018, 0x0B)] }

/-- An address for each way an access of 8 bytes reaches no location: misaligned; in the tile store; in no window; through a malformed
leaf; without the permission; without a leaf. -/
theorem wit_Refused :
    (∀ a ∈ [0x10001, spad + 2 ^ 41, 2 ^ 63, 0xC0000000, 0x80000000, 0x100000000], let s := th [(1, a), (2, 5)] id walled
      s.memOk = true ∧ canB s x0 [1, 2] [.ld {} 3 1 .d true 0, .st {} 2 1 .d 0, .sigst {} 2 1 .sys 0, .amo {} 3 1 2 .add true 0 0, .cas {} 2 1 2 true 0 0] = true) ∧
    (let w (a : Nat) : Window := window walled 0 (BitVec.ofNat 64 a)
     0x10001 % 8 ≠ 0 ∧ (w (spad + 2 ^ 41) = .ts 0 ∧ w (2 ^ 63) = .none) ∧ w 0xC0000000 = .global 0xC0000000 ∧ w 0x80000000 = .global 0x80000000 ∧
      w 0x100000000 = .global 0x100000000) ∧ walled.partOf 0 = some 0 ∧ leafFor walled 0 0 0xC0000000 = .bad 2 ∧ leafFor walled 0 0 0x100000000 = .missing ∧
    (match leafFor walled 0 0 0x80000000 with | .leaf e => ([.read, .write, .amo] : List Access).all fun k => !e.allows k | _ => false) = true := by
  and_intros <;> decide +kernel

/-- HBM through the tables; the scratchpad's last bytes, unsigned and signed, and a helper's; poisoned words. -/
theorem wit_Load :
    (let s := th [(1, 0x10000)] id paged
     Can s x0 [1] [.ld {} 2 1 .d false 0] ∧ Reaches s x0 .read 8 false 0x10000 (.hbm 0x10000) ∧ (readLoc s (.hbm 0x10000) 8).2 = false) ∧
    (let s := th [(1, spad + 0x80000)]
     Can s x0 [1] [.ld {} 63 1 .b true 0xFFFFFFFFFFFF] ∧ Reaches s x0 .read 1 false (s.scalar x0 1 + (0xFFFFFFFFFFFF : BitVec 48).signExtend 64) (.sp 0 0x7FFFF) ∧
      (readLoc s (.sp 0 0x7FFFF) 1).2 = false) ∧
    (let s := hp [(1, spad)]
     Can s x4 [1] [.ld {} 1 1 .w true 4] ∧ Reaches s x4 .read 4 false (s.scalar x4 1 + 4) (.sp 0 4) ∧ (readLoc s (.sp 0 4) 4).2 = false) ∧
    (let s := th [(1, spad)] id (on.modCore 0 fun c => { c with pois := [1] })
     Can s x0 [1] [.ld {} 1 1 .w true 12] ∧ Reaches s x0 .read 4 false (s.scalar x0 1 + 12) (.sp 0 12) ∧ (readLoc s (.sp 0 12) 4).2 = true) ∧
    (let s := hp [(1, spad)] id (on.modCore 0 fun c => { c with pois := [1] })
     Can s x4 [1] [.ld {} 1 1 .w true 12] ∧ Reaches s x4 .read 4 false (s.scalar x4 1 + 12) (.sp 0 12) ∧ (readLoc s (.sp 0 12) 4).2 = true) := by
  and_intros <;> first
    | decide +kernel
    | refine can ?_; decide +kernel
    | refine reaches ?_; decide +kernel

/-- HBM, the scratchpad, and a live barrier word. -/
theorem wit_Store :
    (let s := th [(1, 0x10000), (2, 5)] id paged
     Can s x0 [1, 2] [.st {} 2 1 .d 0, .sigst {} 2 1 .sys 0] ∧ s.memOk = true ∧ Reaches s x0 .write 8 true 0x10000 (.hbm 0x10000) ∧
      touchesLive s (.hbm 0x10000) 8 = false) ∧
    (let s := th [(1, spad), (2, 5)] id (on.modCore 0 fun c => { c with live := [1] })
     Can s x0 [1, 2] [.st {} 2 1 .b 7, .st {} 2 1 .b 8, .sigst {} 2 1 .core 8] ∧ s.memOk = true ∧
      Reaches s x0 .write 1 true (s.scalar x0 1 + 7) (.sp 0 7) ∧ touchesLive s (.sp 0 7) 1 = false ∧
      Reaches s x0 .write 1 true (s.scalar x0 1 + 8) (.sp 0 8) ∧ touchesLive s (.sp 0 8) 1 = true ∧ Reaches s x0 .write 8 true (s.scalar x0 1 + 8) (.sp 0 8) ∧
      touchesLive s (.sp 0 8) 8 = true) := by
  and_intros <;> first
    | decide +kernel
    | refine can ?_; decide +kernel
    | refine reaches ?_; decide +kernel

/-- 4 and 8 bytes, in HBM and in the scratchpad; an expected value that is there and one that is not; a live word, a poisoned one, in a thread and in
a helper, and a POISONED operand. -/
theorem wit_Atomics :
    (let l : List Instr := [.amo {} 3 1 2 .add true 0 8, .cas {} 5 1 2 true 0 8, .cas {} 6 1 2 true 0 8]
     let c (f : Core → Core) : State := on.modCore 0 fun c => f { c with sp := [(8, 7)] }
     let p (f : Core → Core) : State := th [(1, spad), (5, 7)] (fun t => t.setWord 2 0 (wordIn .pois 5)) (c f)
     (∀ f ∈ ([fun c => { c with live := [1] }, fun c => { c with pois := [1] }, id] : List (Core → Core)), let s := p f
       s.memOk = true ∧ canB s x0 [1, 5, 6] l = true ∧ s.scalarPres x0 2 = .pois ∧ reachesB s x0 .amo 8 true (s.scalar x0 1 + 8) (.sp 0 8) = true) ∧
     touchesLive (p fun c => { c with live := [1] }) (.sp 0 8) 8 = true ∧ (readLoc (p fun c => { c with pois := [1] }) (.sp 0 8) 8).2 = true ∧
     touchesLive (p id) (.sp 0 8) 8 = false ∧ (readLoc (p id) (.sp 0 8) 8).2 = false ∧ bytesAt (p id) (.sp 0 8) 8 = ((p id).scalar x0 5).toNat ∧
     bytesAt (p id) (.sp 0 8) 8 ≠ ((p id).scalar x0 6).toNat ∧
     (let s := hp [(1, spad), (5, 7)] id (c fun c => { c with pois := [1] })
      s.memOk = true ∧ Can s x4 [1, 2, 5, 6] l ∧ Reaches s x4 .amo 8 true (s.scalar x4 1 + 8) (.sp 0 8) ∧ touchesLive s (.sp 0 8) 8 = false ∧ (readLoc s (.sp 0 8) 8).2 = true)) ∧
    let s := th [(1, spad), (2, 5)] id paged
    Can s x0 [1, 2, 3] [.amo {} 3 1 2 .maxu true 0 0x10000, .amo {} 1 1 1 .add false 11 8, .cas {} 2 1 2 false 0 8, .cas {} 3 1 2 true 0 8] ∧ s.memOk = true ∧
      Reaches s x0 .amo 4 true (s.scalar x0 1 + 8) (.sp 0 8) ∧ Reaches s x0 .amo 8 true (s.scalar x0 1 + 8) (.sp 0 8) ∧
      (readLoc s (.sp 0 8) 8).2 = false ∧ touchesLive s (.sp 0 8) 8 = false ∧ bytesAt s (.sp 0 8) 4 ≠ (s.scalar x0 2).toNat ∧
      bytesAt s (.sp 0 8) 8 = (s.scalar x0 3).toNat ∧ Reaches s x0 .amo 8 true (s.scalar x0 3 + 0x10000) (.hbm 0x10000) := by
  and_intros <;> first
    | decide +kernel
    | refine can ?_; decide +kernel
    | refine reaches ?_; decide +kernel

/-- A word with phase 0, one arrival and a target of 2, one with a target of 3, and a free word; targets of 1 and 65,535; a `barwait` for each phase,
and one whose wait has ended with the word live and not. -/
theorem wit_Barriers :
    let s := th [(1, spad), (2, 1), (3, 65535)] id (on.modCore 0 fun c => { c with sp := [(8, 2), (10, 1), (16, 3)], live := [1, 2] })
    Can s x0 [1, 2, 3, 4] [.barinit {} 2 1 0x7FFF8, .barinit {} 3 1 0, .bararr {} 5 1 8, .bararr {} 5 1 16, .barwait {} 2 1 8, .barwait {} 4 1 8, .barfree {} 1 8] ∧ s.memOk = true ∧
      Reaches s x0 .write 8 true (s.scalar x0 1 + 0x7FFF8) (.sp 0 0x7FFF8) ∧ Reaches s x0 .write 8 true (s.scalar x0 1 + 0) (.sp 0 0) ∧
      Reaches s x0 .amo 8 true (s.scalar x0 1 + 8) (.sp 0 8) ∧ Reaches s x0 .read 8 false (s.scalar x0 1 + 8) (.sp 0 8) ∧
      Reaches s x0 .write 8 true (s.scalar x0 1 + 8) (.sp 0 8) ∧ (readLoc s (.sp 0 8) 8).2 = false ∧ (s.core 0).live = [1, 2] ∧
      Reaches s x0 .amo 8 true (s.scalar x0 1 + 16) (.sp 0 16) ∧ (readLoc s (.sp 0 16) 8).2 = false ∧ bytesAt s (.sp 0 8) 8 = 0x10002 ∧ bytesAt s (.sp 0 16) 8 = 3 ∧
      (s.thread 0 0).barEnd = none ∧ (∀ b ∈ [true, false], let u := th [] (fun t => { t with barEnd := some b }) s
        (u.thread 0 0).barEnd = some b ∧ reachesB u x0 .read 8 false (u.scalar x0 1 + 8) (.sp 0 8) = true ∧ runsB u x0 (.barwait {} 2 1 8) = true) ∧
      bytesAt s (.sp 0 8) 8 / 2 ^ 32 = (s.scalar x0 4).toNat ∧ (∀ z ∈ (s.core 0).zones.toList, z.isOpen = false) := by
  and_intros <;> first
    | decide +kernel
    | refine can ?_; decide +kernel
    | refine reaches ?_; decide +kernel

/-- Each number that the statement names, in a task thread and in a helper, read and written. -/
theorem wit_ControlRegisters :
    let nums : List (BitVec 12) := (List.range 0x14 ++ [0x01F, 0x020, 0x03F, 0x040, 0x0FF] ++ (List.range 0x23).map (· + 0x100) ++
      [0x1FE, 0x1FF, 0x200, 0xFFF]).map (BitVec.ofNat 12)
    let all : List Instr := nums.flatMap fun n => [.csrr {} 63 n, .csrw {} 1 n, .csrs {} 1 n, .csrc {} 1 n]
    Can (th [(1, 2 ^ 64 - 1)] fun t => { t with task := some aTask }) x0 [1] all ∧ Can (th []) x0 [1] [.csrw {} 1 0x009, .csrw {} 1 0x000] ∧ Can (hp [(1, 5)]) x4 [1] all := by
  and_intros <;> refine can ?_ <;> decide +kernel

/-- One byte, and a run of addresses up to the last; an access that has used a leaf over the page, and has no answer yet. -/
theorem wit_Invalidations :
    let s := th [(1, 0x1000), (2, 1), (3, 2 ^ 64 - 1)]
    let l : List Instr := [.tlbinv {} 1 0 .page, .tlbinv {} 1 2 .range, .tlbinv {} 3 2 .range, .tlbinv {} 0 0 .all]
    let v := s.modThread 0 1 fun t => { t with hostAcc := some ⟨8, 8, some (1, ⟨2 ^ 51, true, true, false, 1⟩), none, []⟩ }
    Can s x0 [1, 2, 3] (l ++ [.icinv {} 1 2 false, .icinv {} 3 2 true]) ∧ s.partOf 0 = some 0 ∧ 0 < (s.scalar x0 2).toNat ∧
      (s.scalar x0 1).toNat + 1 ≤ 2 ^ 64 ∧ (s.scalar x0 3).toNat + 1 ≤ 2 ^ 64 ∧ usesPages s 0 [(0, 2 ^ 52)] = false ∧
      Can v x0 [1, 2] l ∧ usesPages v 0 [(1, 1)] = true ∧ usesPages v 0 [(0, 2 ^ 52)] = true := by
  and_intros <;> first
    | decide +kernel
    | refine can ?_; decide +kernel

/-- BLK 2 and 3, requests of 2,048 and above. -/
theorem wit_VectorLength :
    let s := th [(1, 2049), (2, 2), (3, 3)]
    Can s x0 [1, 2, 3] [.setvl {} 63 1 2, .setvl {} 4 1 3, .setvli {} 5 0x2FFF, .setvli {} 5 0x3000, .vlq {} 4 .d] ∧
      (s.scalar x0 2).toNat < 3 ∧ 3 ≤ (s.scalar x0 3).toNat ∧ (0x2FFF : BitVec 56).toNat < 3 * 2 ^ 12 ∧ 3 * 2 ^ 12 ≤ (0x3000 : BitVec 56).toNat := by
  and_intros <;> first
    | decide +kernel
    | refine can ?_; decide +kernel

/-- Magnitude `x` lies between the codes `c` and `c + 1` of a format, or from the second on (R82). -/
def lies (f : FFmt) (x : Mag) (c : Nat) (past : Bool) : Bool :=
  let low : Int := min x.e (1 - (f.bias : Int) - f.fbits)
  let scaled (m : Nat) (e : Int) : Nat := m * 2 ^ (e - low).toNat
  let mag (k : Nat) : Nat := match f.decode k with
    | .fin _ m e => scaled m e
    | _ => 0
  let next := if c < f.maxCode then mag (c + 1) else 2 * mag c - mag (c - 1)
  decide (0 < x.m) && decide (c ≤ f.maxCode) && (!x.sticky || decide (2 ^ (f.fbits + 18) ≤ x.m)) && decide (mag c ≤ scaled x.m x.e) &&
    (decide (next ≤ scaled x.m x.e) == past)

/-- Each instruction in a task thread and in a helper; a division that raises DZ, with its trap enabled and not (R114); mode SR. Magnitudes to round: an
exact one, one that is only just above a code, ties among the subnormal codes, below the least normal and above the largest code, one beyond it, and
ones of the formats without infinity or of three significant bits and less. -/
theorem wit_ScalarFp :
    (∀ e ∈ ([(fp32, ⟨1, 0, false⟩, 0x3F800000, false), (fp32, ⟨2 ^ 41, -41, true⟩, 0x3F800000, false), (fp32, ⟨3, -150, false⟩, 1, false),
        (fp32, ⟨2 ^ 24 - 1, -150, false⟩, 2 ^ 23 - 1, false), (fp32, ⟨2 ^ 25 - 1, 103, false⟩, 0x7F7FFFFF, false), (fp32, ⟨1, 128, false⟩, 0x7F7FFFFF, true),
        (fp64, ⟨3, -1075, false⟩, 1, false), (bf16, ⟨257, 0, false⟩, 0x4380, false), (fp16, ⟨65520, 0, false⟩, 0x7BFF, false), (e4m3, ⟨449, 0, false⟩, 0x7E, false),
        (e5m2, ⟨9, 0, false⟩, 0x48, false), (e2m1, ⟨5, 0, false⟩, 6, false), (e2m1, ⟨8, 0, false⟩, 7, true)] : List (FFmt × Mag × Nat × Bool)),
      lies e.1 e.2.1 e.2.2.1 e.2.2.2 = true) ∧
    (let f (t : Thread) : Thread := { t with fctl := 0x1F1 }
     let s := th [(1, 0x3F800000), (3, 0x3FF0000000000000)] f
     Can s x0 [1, 2, 3] [.faddS {} 4 1 2 .sr, .fsubS {} 4 1 2 .rne, .fmulS {} 4 1 2 .rtz, .fdivS {} 4 1 2 .dyn, .ffmaS {} 1 1 1 2 .rup, .fsqrtS {} 4 1 .rdn,
        .fminS {} 4 1 2, .fmaxS {} 4 1 2, .faddD {} 4 3 2 .sr, .fsubD {} 4 3 2 .rne, .fmulD {} 4 3 2 .rtz, .fdivD {} 4 3 2 .dyn, .ffmaD {} 3 3 3 2 .rup,
        .fsqrtD {} 4 3 .rdn, .fminD {} 4 3 2, .fmaxD {} 4 3 2] ∧
      (trapEnables (s.fctlAt x0)).setWidth 64 &&& (fp32.div ⟨.rne, 0⟩ (fp32.decode 0x3F800000) (fp32.decode 0)).flags ≠ 0 ∧
      (trapEnables (s.fctlAt x0)).setWidth 64 &&& (fp32.add ⟨.rne, 0⟩ (fp32.decode 0x3F800000) (fp32.decode 0)).flags = 0) ∧
    Can (hp [(1, 0x3F800000)]) x4 [1] [.faddS {} 4 1 1 .sr, .fdivD {} 4 1 2 .dyn] := by
  and_intros <;> first
    | decide +kernel
    | refine can ?_; decide +kernel

/-- A quiet and a signalling NaN, with the NV trap enabled and not. -/
theorem wit_ScalarFpOther :
    (let s := th [(1, 0x7FC00000), (2, 0x7FA00000)]
     Can s x0 [1, 2] ([.fcmpS {} 1 1 2 .un, .fcmpD {} 7 1 2 .eq, .fclassS {} 3 1, .fclassD {} 3 1, .fsgnS {} 3 1 2 .cp, .fsgnD {} 3 1 2 .xor,
        .fcmpS {} 1 1 2 .lt, .fcmpS {} 1 1 2 .le, .fcmpS {} 1 1 2 .ne, .fsgnS {} 3 1 2 .neg] ++
      ([.fl, .flu, .tl, .tlu, .tw, .twu, .fo, .fbf, .tbf, .fh, .th] : List CvtS).map (fun k => .fcvtS {} 3 1 k .dyn) ++
      ([.fl, .flu, .tl, .tlu, .tw, .twu, .fo] : List CvtD).map fun k => .fcvtD {} 3 1 k .rne) ∧
      (fp32.decode 0x7FA00000).isSig = true ∧ trapEnables (s.fctlAt x0) = 0) ∧
    (let s := th [(1, 0x7FC00000), (2, 0x7FA00000)] fun t => { t with fctl := 0x11 }
     Can s x0 [1, 2] [.fcmpS {} 1 1 2 .lt] ∧ flagNV &&& (trapEnables (s.fctlAt x0)).setWidth 64 ≠ 0) := by
  and_intros <;> first
    | decide +kernel
    | refine can ?_; decide +kernel

/-- INT32 with a division by 0, one of -2^31 by -1, and a POISONED element; UINT64 under a mask with ZP in two registers, the destination a source. -/
theorem wit_VectorInteger :
    (let s := th [(2, fword 0x14 0x14 0x14 0 1 0 0)] fun t =>
       vec 8 [0x8000000000000005, 0x7FFFFFFF] ({ vec 12 [0xFFFFFFFF00000000, 3] t with vl := 4 }.setHalves 8 6 2 .pois)
     Vec s x0 2 false ⟨4, 32, 4⟩ [⟨8, 32, 4⟩, ⟨12, 32, 4⟩] ∧ s.pipe 0 .a = [] ∧
      Can s x0 [2] [.vadd {} none 4 8 12 2, .vsub {} none 4 8 12 2, .vmul {} none 4 8 12 2, .vsadd {} none 4 8 12 2, .vssub {} none 4 8 12 2,
        .vmulh {} none 4 8 12 2, .vdiv {} none 4 8 12 2, .vrem {} none 4 8 12 2, .vmin {} none 4 8 12 2, .vmax {} none 4 8 12 2, .vand {} none 4 8 12 2,
        .vor {} none 4 8 12 2, .vxor {} none 4 8 12 2, .vshl {} none 4 8 12 2, .vshr {} none 4 8 12 2, .vsra {} none 4 8 12 2]) ∧
    (let s := th [(2, fword 0x17 0x17 0x17 0 0 0 0)] fun t => { t with vl := 129, vstart := 1, m := t.m.setIfInBounds 7 (Vector.replicate 32 5) }
     Vec s x0 2 false ⟨62, 64, 129⟩ [⟨62, 64, 129⟩, ⟨60, 64, 129⟩] ∧ s.pipe 0 .a = [] ∧ isI 0x17 = true ∧
      Can s x0 [2] [.vadd {} (some { msk := 7, zp := true }) 62 62 60 2, .vdiv {} (some { msk := 7 }) 62 62 60 2]) ∧
    (let s (again : Bool) := th [(2, fword 0x14 0x14 0x14 0 0 0 0)] (fun t => { t with vl := 4 }) (on.modCore 0 fun c => { c with verify := true, flaws := [⟨3, again⟩] })
     (Vec (s true) x0 2 false ⟨4, 32, 4⟩ [⟨8, 32, 4⟩, ⟨12, 32, 4⟩] ∧ Can (s true) x0 [2] [.vadd {} none 4 8 12 2] ∧ ((s true).pipe 0 .a = [] ∧ ((s true).core 0).verify = true ∧
        ((s true).core 0).flaws = [⟨3, true⟩])) ∧
      Vec (s false) x0 2 false ⟨4, 32, 4⟩ [⟨8, 32, 4⟩, ⟨12, 32, 4⟩] ∧ Can (s false) x0 [2] [.vsub {} none 4 8 12 2] ∧ (s false).pipe 0 .a = [] ∧ ((s false).core 0).flaws = [⟨3, false⟩]) := by
  and_intros <;> first
    | decide +kernel
    | refine can ?_; decide +kernel
    | refine isVec ?_; decide +kernel

/-- INT8 by UINT8; INT4 to UINT64 in its own register; LNS6 by a mask. -/
theorem wit_VectorConvert :
    (let s := th [(2, fword 0x10 0x11 0x12 0x12 1 0 0)] fun t => { t with vl := 9 }
     Vec s x0 2 true ⟨4, 16, 9⟩ [⟨8, 8, 9⟩, ⟨12, 8, 9⟩] ∧ (∀ i, i < 9 → elPres (s.thread 0 0) ⟨4, 16, 9⟩ i = .pres) ∧ s.pipe 0 .a = [] ∧
      wideCode 0x10 0x11 = 0x12 ∧ codeWidth 0x10 = codeWidth 0x11 ∧ Can s x0 [2] [.vwmul {} none 4 8 12 2, .vwmacc {} none 4 8 12 2]) ∧
    (let s := th [(2, fword 0x18 0 0x17 0 1 0 0)] fun t => { t with vl := 9 }
     Vec s x0 2 (decide (4 < 64)) ⟨4, 64, 9⟩ [⟨8, 4, 9⟩] ∧ s.pipe 0 .a = [] ∧ isI4 0x18 = true ∧ isI4 0x17 = true ∧
      Can s x0 [2] [.vcvt {} none 4 8 2]) ∧
    (let s := th [(2, fword 6 6 6 0 0 0 0)] fun t => { t with vl := 9, m := t.m.setIfInBounds 1 (Vector.replicate 32 5) }
     Vec s x0 2 false ⟨4, 8, 9⟩ [⟨8, 8, 9⟩, ⟨4, 8, 9⟩] ∧ s.pipe 0 .a = [] ∧ isX 6 = true ∧ Can s x0 [2] [.vmerge {} (some { msk := 1, zp := true }) 4 8 4 1 2]) := by
  and_intros <;> first
    | decide +kernel
    | refine can ?_; decide +kernel
    | refine isVec ?_; decide +kernel

/-- Integers; numbers whose flags trap nothing; a signalling NaN with the NV trap enabled; masks with a first bit at VL - 1, and with none. -/
theorem wit_ComparesAndMasks :
    (let s := th [(2, fword 0x13 0x13 0 0 0 0 0)] fun t => { t with vl := 3 }
     Vec s x0 2 true ⟨0, 16, 0⟩ [⟨8, 16, 3⟩, ⟨12, 16, 3⟩] ∧ s.pipe 0 .a = [] ∧
      Can s x0 [2] [.vcmp {} none 1 8 12 2 .ge, .vcmp {} (some { msk := 1, zp := true }) 0 8 12 2 .eq]) ∧
    (let s := th [(2, fword 0 0 0 0 0 0 0)] fun t => vec 8 [0x7F8000017FC00000] { t with vl := 2 }
     Vec s x0 2 true ⟨0, 32, 0⟩ [⟨8, 32, 2⟩, ⟨12, 32, 2⟩] ∧ s.pipe 0 .a = [] ∧ trapEnables (s.fctlAt x0) = 0 ∧
      Can s x0 [2] [.vfcmp {} none 1 8 12 2 .lt]) ∧
    (let s := th [(2, fword 0 0 0 0 0 0 0)] fun t => vec 8 [0x7F8000017FC00000] { t with vl := 2, fctl := 0x11 }
     Vec s x0 2 true ⟨0, 32, 0⟩ [⟨8, 32, 2⟩, ⟨12, 32, 2⟩] ∧ s.pipe 0 .a = [] ∧ (s.thread 0 0).undos = [] ∧
      (fcmpHolds .eq (fp32.decode (elBits (s.thread 0 0) ⟨8, 32, 2⟩ 1)) (fp32.decode 0)).2 &&& (trapEnables (s.fctlAt x0)).setWidth 64 ≠ 0 ∧
      Can s x0 [2] [.vfcmp {} none 1 8 12 2 .eq]) ∧
    (let s := th [(1, 2048)] fun t => { t with vl := 3, m := t.m.setIfInBounds 7 (Vector.replicate 32 4) }
     s.pipe 0 .a = [] ∧ (s.thread 0 0).vstart = 0 ∧ maskBit (maskReg (s.thread 0 0) 7) 2 = true ∧
      (∀ j, j < 2 → maskBit (maskReg (s.thread 0 0) 7) j = false) ∧ (∀ j, j < 3 → maskBit (maskReg (s.thread 0 0) 6) j = false) ∧
      Can s x0 [1] [.mand {} 0 7 1, .mor {} 1 7 1, .mxor {} 7 7 7, .mnot {} 1 7, .mset {} 1 1, .mpop {} 63 7, .mffs {} 5 7, .mffs {} 5 6]) := by
  and_intros <;> first
    | decide +kernel
    | refine can ?_; decide +kernel
    | refine isVec ?_; decide +kernel

/-- 1, 2 and 1 in binary32 are easy for every instruction (R142), under mode SR and another, and no trap is enabled. -/
theorem wit_VectorFloat :
    let s := th [(2, fword 0 0 0 0 0 0 0)] fun t =>
      vec 8 [0x3F8000003F800000] (vec 12 [0x4000000040000000] (vec 16 [0x3F8000003F800000] { t with vl := 2, fctl := 6 }))
    Vec s x0 2 false ⟨4, 32, 2⟩ [⟨8, 32, 2⟩, ⟨12, 32, 2⟩, ⟨16, 32, 2⟩] ∧ s.pipe 0 .a = [] ∧ trapEnables (s.fctlAt x0) = 0 ∧ vecMode (s.thread 0 0) {} = .sr ∧
      (∀ j, j < 2 → (elBits (s.thread 0 0) ⟨8, 32, 2⟩ j, elBits (s.thread 0 0) ⟨12, 32, 2⟩ j, elBits (s.thread 0 0) ⟨16, 32, 2⟩ j)
        = (0x3F800000, 0x40000000, 0x3F800000)) ∧ ([0x3F800000, 0x40000000].any fp32.subnormal) = false ∧
      (∀ m ∈ ([.sr, .rne, .rdn] : List RMode), (∀ o ∈ ([.vfadd, .vfsub, .vfmul, .vfdiv] : List Op), opHard o 0 fp32 m [0x3F800000, 0x40000000] = false) ∧
        (∀ o ∈ ([.vfma, .vfnma] : List Op), opHard o 0 fp32 m [0x3F800000, 0x40000000, 0x3F800000] = false) ∧
        ∀ o ∈ ([.vfrcp, .vfsqrt, .vfrsqrt, .vfexp2, .vflog2, .vfsin, .vfcos, .vftanh] : List Op), opHard o 0 fp32 m [0x3F800000] = false) ∧
      Can s x0 [2] [.vfadd {} none 4 8 12 2, .vfsub {} none 4 8 12 2, .vfmul {} none 4 8 12 2, .vfdiv {} none 4 8 12 2, .vfma {} none 4 8 12 16 2,
        .vfnma {} none 4 8 12 16 2, .vfrcp {} none 4 8 2, .vfsqrt {} none 4 8 2, .vfrsqrt {} none 4 8 2, .vfexp2 {} none 4 8 2, .vflog2 {} none 4 8 2,
        .vfsin {} none 4 8 2, .vfcos {} none 4 8 2, .vftanh {} none 4 8 2, .vfmin {} none 4 8 12 2, .vfmax {} none 4 8 12 2, .vfsgn {} none 4 8 12 2 .xor] := by
  and_intros <;> first
    | decide +kernel
    | refine can ?_; decide +kernel
    | refine isVec ?_; decide +kernel

/-- An element's value that is neither subnormal at its source nor below the least normal number at its destination (R142). -/
def easy (fa fd : BitVec 6) (v : Nat) (y : FVal) : Bool :=
  !(isF fd && (srcSubnormal fa v || (match y with | .fin _ m e => ((ffmtOf fd).getD fp32).below m e | _ => false)))

/-- BF16 from binary32; block scales out of A, into B, and both. -/
theorem wit_BlockScaledConversion :
    (let s := th [(2, fword 0 0 1 0 0 0 0)] fun t => vec 8 [0x3F80000000000000] { t with vl := 2 }
     Vec s x0 2 (decide (32 < 16)) ⟨4, 16, 2⟩ [⟨8, 32, 2⟩] ∧ s.pipe 0 .a = [] ∧ cvtPair 0 1 = true ∧ trapEnables (s.fctlAt x0) = 0 ∧
      (∀ j, j < 2 → easy 0 1 (elBits (s.thread 0 0) ⟨8, 32, 2⟩ j) (valueOf 0 (elBits (s.thread 0 0) ⟨8, 32, 2⟩ j)) = true) ∧
      Can s x0 [2] [.vfcvt {} none 4 8 0 2]) ∧
    (let s := th [(2, fword 0 0 3 0 0 0 1)] fun t => vec 8 [0x3F8000003F800000] { t with vl := 2, vtype := 1 }
     Vec s x0 2 (decide (32 < 8)) ⟨4, 8, 2⟩ [⟨8, 32, 2⟩] ∧ Vec s x0 2 false (scaleGrp (s.thread 0 0) 5) [⟨8, 32, 2⟩] ∧ s.pipe 0 .a = [] ∧
      cvtPair 0 3 = true ∧ blockScalable 3 = true ∧ blk (s.thread 0 0) ≠ 0 ∧ trapEnables (s.fctlAt x0) = 0 ∧ isF 3 = false ∧
      Can s x0 [2] [.vfcvt {} none 4 8 5 2]) ∧
    (let s := th [(2, fword 6 0 0 0 0 1 0)] fun t => vec 8 [0x1212] (vec 20 [127] { t with vl := 2, vtype := 1 })
     Vec s x0 2 (decide (8 < 32)) ⟨4, 32, 2⟩ [⟨8, 8, 2⟩, scaleGrp (s.thread 0 0) 20] ∧ s.pipe 0 .a = [] ∧ cvtPair 6 0 = true ∧
      blockScalable 6 = true ∧ blk (s.thread 0 0) ≠ 0 ∧ trapEnables (s.fctlAt x0) = 0 ∧ easy 6 0 0x12 (scaled (valueOf 6 0x12) 127) = true ∧
      (∀ j, j < 2 → elBits (s.thread 0 0) ⟨8, 8, 2⟩ j = 0x12) ∧ elBits (s.thread 0 0) (scaleGrp (s.thread 0 0) 20) 0 = 127 ∧
      Can s x0 [2] [.vfcvt {} (some { e := 20, ev := true }) 4 8 0 2]) ∧
    (let s := th [(2, fword 3 0 4 0 0 1 1)] fun t => vec 8 [0x3838] (vec 20 [127] { t with vl := 2, vtype := 2 })
     Vec s x0 2 (decide (8 < 8)) ⟨4, 8, 2⟩ [⟨8, 8, 2⟩, scaleGrp (s.thread 0 0) 20] ∧
      Vec s x0 2 false (scaleGrp (s.thread 0 0) 5) [⟨8, 8, 2⟩, scaleGrp (s.thread 0 0) 20] ∧ s.pipe 0 .a = [] ∧ isF 4 = false ∧
      cvtPair 3 4 = true ∧ blockScalable 3 = true ∧ blockScalable 4 = true ∧ blk (s.thread 0 0) ≠ 0 ∧ trapEnables (s.fctlAt x0) = 0 ∧
      Can s x0 [2] [.vfcvt {} (some { e := 20, ev := true }) 4 8 5 2]) := by
  and_intros <;> first
    | decide +kernel
    | refine can ?_; decide +kernel
    | refine isVec ?_; decide +kernel

/-- E4M3 by E4M3 with both scales, BF16 by BF16 without; the classes of FP16 elements. -/
theorem wit_WideningMultiplyAdd :
    (let s := th [(2, fword 3 3 0 0 0 1 1)] fun t =>
       vec 4 [0x3F8000003F800000] (vec 8 [0x3838] (vec 12 [0x3838] (vec 20 [127] (vec 21 [127] { t with vl := 2, vtype := 1 }))))
     Vec s x0 2 true ⟨4, 32, 2⟩ [⟨8, 8, 2⟩, ⟨12, 8, 2⟩, scaleGrp (s.thread 0 0) 20, scaleGrp (s.thread 0 0) 21] ∧ s.pipe 0 .a = [] ∧ isN 3 = true ∧
      blockScalable 3 = true ∧ blk (s.thread 0 0) ≠ 0 ∧ trapEnables (s.fctlAt x0) = 0 ∧
      (∀ j, j < 2 → (elBits (s.thread 0 0) ⟨8, 8, 2⟩ j, elBits (s.thread 0 0) ⟨12, 8, 2⟩ j, elBits (s.thread 0 0) ⟨4, 32, 2⟩ j) = (0x38, 0x38, 0x3F800000)) ∧
      elBits (s.thread 0 0) (scaleGrp (s.thread 0 0) 20) 0 = 127 ∧ elBits (s.thread 0 0) (scaleGrp (s.thread 0 0) 21) 0 = 127 ∧
      fp32.subnormal 0x3F800000 = false ∧
      (match scaledProduct 3 3 0x38 0x38 127 127 with | some v => sumHard fp32 v (fp32.decode 0x3F800000) | none => false) = false ∧
      Can s x0 [2] [.vfwma {} (some { e := 20, ev := true }) 4 8 12 21 2]) ∧
    (let s := th [(2, fword 1 1 0 0 0 0 0)] fun t => vec 4 [0x3F8000003F800000] { t with vl := 2 }
     Vec s x0 2 true ⟨4, 32, 2⟩ [⟨8, 16, 2⟩, ⟨12, 16, 2⟩] ∧ s.pipe 0 .a = [] ∧ isN 1 = true ∧ trapEnables (s.fctlAt x0) = 0 ∧
      (match scaledProduct 1 1 0 0 127 127 with | some v => sumHard fp32 v (fp32.decode 0x3F800000) | none => false) = false ∧
      Can s x0 [2] [.vfwma {} none 4 8 12 0 2]) ∧
    (let s := th [(2, fword 2 0 0x15 0 0 0 0)] fun t => { t with vl := 3 }
     Vec s x0 2 (decide (16 < 32)) ⟨4, 32, 3⟩ [⟨8, 16, 3⟩] ∧ s.pipe 0 .a = [] ∧ isF 2 = true ∧ Can s x0 [2] [.vfclass {} none 4 8 2]) := by
  and_intros <;> first
    | decide +kernel
    | refine can ?_; decide +kernel
    | refine isVec ?_; decide +kernel

/-- A hole record of thread 0 for half-slots of a register. -/
def aRec (id : Nat) (reg : Reg) (half width : Nat) : MireRec :=
  { id := id, thr := 0, pc := 0x40, op := 0x180, sop := 0, fa := 0, fb := 0, fd := 0, rm := 1, rnd := 0, ten := 0, elem := 0, reg := reg, half := half
    width := width, a := .val 0x3F800000, b := .val 1, c := .none, sa := 0, sb := 0, sat := false, move := false, superseded := false, chained := false
    taken := false, dead := false }

theorem word_setWord_ne (t : Thread) (r k : Nat) (w : VWord) (r' k' : Nat) (h : r' ≠ r ∨ k' ≠ k) : (t.setWord r k w).word r' k' = t.word r' k' := by
  simp only [Thread.word, Thread.setWord, Vector.getD]
  by_cases e : r = r'
  · subst e
    by_cases hr : r < 64 <;> by_cases hk : k' < 128 <;> simp [hr, hk]
    rw [Array.getElem_setIfInBounds (by simpa using hk)]
    simp [show k ≠ k' by omega]
  · by_cases hr : r' < 64 <;> simp [hr, e]

theorem halfIn_flt {t : Thread} {g : Grp} {j : Nat} (h : elPres t g j = .flt) : t.halfPres (g.reg j) (halfIn t g j .flt) = .flt := by
  rcases elPres_half t g j with ⟨k, hk, e⟩ | e | e
  · rw [halfIn]
    cases hf : (List.range g.halves).find? fun k => t.halfPres (g.reg j) (g.half j + k) == .flt with
    | none => exact absurd (e.symm.trans h) (by simpa using List.find?_eq_none.mp hf k (List.mem_range.mpr hk))
    | some n => have := List.find?_some hf; rw [Option.getD_some, Nat.add_comm]; simpa using this
  · rw [h] at e; cases e
  · rw [h] at e; cases e

/-- What `HolesAndPresence` asks of a state, of the destination `gd` and the groups that are read, and of the instructions. -/
structure Holes (s : State) (strict : Bool) (gd : Grp) (gs : List Grp) (l : List Instr) : Prop where
  format : present s x0 2 ∧ (s.scalar x0 2).toNat < 2 ^ 27
  groups : GroupsOk strict gd gs
  wide : 16 ≤ gd.w
  room : (s.core 0).mire.length + gd.len ≤ 512
  ids : ∀ r ∈ (s.core 0).mire, r.id < (s.core 0).nextRec
  records : ∀ r ∈ (s.core 0).mire, ∀ j, j < gd.len → r.reg.toNat = gd.reg j → r.half < gd.half j + gd.halves → gd.half j < r.half + r.width →
    r.half = gd.half j ∧ r.width = gd.halves
  slots : ∀ k sl, (s.thread 0 0).slots.getD k none = some sl → ∀ e ∈ sl.refs, ∀ j, j < gd.len → e.1.toNat = gd.reg j → e.2.1 < gd.half j + gd.halves →
    gd.half j < e.2.1 + e.2.2 → e.2.1 = gd.half j ∧ e.2.2 = gd.halves ∧ (s.thread 0 0).halfPres e.1.toNat e.2.1 = .flt ∧
      ∀ m tl, (s.thread 0 0).slots.getD m none = some tl → ∀ g ∈ tl.refs, g.1.toNat = e.1.toNat → m = k
  faults : ∀ g ∈ gs, ∀ j, elPres (s.thread 0 0) g j = .flt → ∃ k, (s.thread 0 0).slotAt (g.reg j) (halfIn (s.thread 0 0) g j .flt) = some k
  runs : Can s x0 [] l ∧ s.pipe 0 .a = []

/-- Thread 0 with VL 4 and a format word; of A the elements are PRESENT, FAULTED with slot 0, POISONED, PENDING with record 7; the last of B is
subnormal; of D the first is PENDING with record 6 and the second FAULTED with slot 1. -/
def calmer (f : Nat) : Thread :=
  (sets [(2, f)] { ({} : Thread) with st := .running, vl := 4, vtype := 1, slots := ((Vector.replicate 8 none).set 0 (some (aSlot 8 2 2))).set 1 (some (aSlot 4 2 2)) }).setWord
    12 1 ⟨1, 0⟩
def holedT (f : Nat) : Thread := (((calmer f).setWord 4 0 ⟨0, 0xA5⟩).setWord 8 1 ⟨0, 0x5F⟩).setWord 8 0 ⟨0, 0xA0⟩
def holed (f : Nat) : State := on.modCore 0 fun c => { c with threads := c.threads.set 0 (holedT f), mire := [aRec 6 4 0 2, aRec 7 8 6 2], nextRec := 8 }

theorem slots_of {t : Thread} {P : Nat → Machine.Slot → Prop} (h : ∀ k, k < 8 → ∀ sl, sl ∈ t.slots.getD k none → P k sl) (k : Nat) (sl : Machine.Slot)
    (hk : t.slots.getD k none = some sl) : P k sl := by
  by_cases k8 : k < 8
  · exact h k k8 sl hk
  · simp [Vector.getD, k8] at hk

def holesB (s : State) (strict : Bool) (gd : Grp) (gs : List Grp) (l : List Instr) : Bool :=
  let t := s.thread 0 0
  let laps (r h w j : Nat) : Bool := r == gd.reg j && decide (h < gd.half j + gd.halves) && decide (gd.half j < h + w)
  s.scalarPres x0 2 == .pres && decide ((s.scalar x0 2).toNat < 2 ^ 27) && groupsB strict gd gs && decide (16 ≤ gd.w) &&
    decide ((s.core 0).mire.length + gd.len ≤ 512) && (s.core 0).mire.all (fun r => decide (r.id < (s.core 0).nextRec) &&
      (List.range gd.len).all fun j => !laps r.reg.toNat r.half r.width j || (r.half == gd.half j && r.width == gd.halves)) &&
    (List.range 8).all (fun k => (t.slots.getD k none).all fun sl => sl.refs.all fun e => (List.range gd.len).all fun j => !laps e.1.toNat e.2.1 e.2.2 j ||
      (e.2.1 == gd.half j && e.2.2 == gd.halves && t.halfPres e.1.toNat e.2.1 == .flt &&
        (List.range 8).all fun m => (t.slots.getD m none).all fun tl => tl.refs.all fun g => g.1.toNat != e.1.toNat || m == k)) &&
    l.all (runsB s x0) && (s.pipe 0 .a).isEmpty

/-- Every FAULTED half-slot of the thread has its slot. -/
theorem faulted_slot {f : Nat} (hc : calm (calmer f) = true) (h8 : ∀ h, h < 8 → (holedT f).halfPres 8 h = .flt → ((holedT f).slotAt 8 h).isSome = true)
    (h4 : ∀ h, h < 4 → (holedT f).halfPres 4 h = .flt → ((holedT f).slotAt 4 h).isSome = true) (r h : Nat) (hp : (holedT f).halfPres r h = .flt) :
    ∃ k, (holedT f).slotAt r h = some k := by
  by_cases c : (r = 8 ∧ h < 8) ∨ (r = 4 ∧ h < 4)
  · rcases c with ⟨rfl, hh⟩ | ⟨rfl, hh⟩
    · exact Option.isSome_iff_exists.mp (h8 h hh hp)
    · exact Option.isSome_iff_exists.mp (h4 h hh hp)
  · have e : (holedT f).word r (h / 4) = (calmer f).word r (h / 4) := by
      rw [holedT, word_setWord_ne _ _ _ _ _ _ (by omega), word_setWord_ne _ _ _ _ _ _ (by omega), word_setWord_ne _ _ _ _ _ _ (by omega)]
    have := calm_half hc r h
    rw [Thread.halfPres, ← e, ← Thread.halfPres, hp] at this
    rcases this with e | e <;> cases e

def faultsB (f : Nat) : Bool := calm (calmer f) && (List.range 8).all (fun h => (holedT f).halfPres 8 h != .flt || ((holedT f).slotAt 8 h).isSome) &&
  (List.range 4).all fun h => (holedT f).halfPres 4 h != .flt || ((holedT f).slotAt 4 h).isSome

theorem holes {f : Nat} {strict : Bool} {gd : Grp} {gs : List Grp} {l : List Instr} (h : (holesB (holed f) strict gd gs l && faultsB f) = true) :
    Holes (holed f) strict gd gs l := by
  have e : (holed f).thread 0 0 = holedT f := rfl
  simp only [holesB, faultsB, Bool.and_eq_true, beq_iff_eq, decide_eq_true_eq, List.all_eq_true, List.mem_range, Bool.or_eq_true, Bool.not_eq_true',
    Bool.and_eq_false_imp, List.isEmpty_iff, Option.all_eq_true, bne_iff_ne, e] at h
  obtain ⟨⟨⟨⟨⟨⟨⟨⟨⟨h1, h2⟩, h3⟩, h4⟩, h5⟩, h6⟩, h7⟩, h8⟩, h9⟩, ⟨hc, f8⟩, f4⟩ := h
  refine ⟨⟨h1, h2⟩, groups h3, h4, h5, fun r hr => (h6 r hr).1, ?_, ?_, ?_, ⟨⟨fun _ hr => absurd hr List.not_mem_nil, fun i hi => runs_of (h8 i hi)⟩, h9⟩⟩
  · intro r hr j hj e1 e2 e3
    rcases (h6 r hr).2 j hj with h | h
    · exact absurd e3 (by simpa using h ⟨e1, by simpa using e2⟩)
    · exact h
  · refine slots_of fun k hk sl hsl e' he j hj e1 e2 e3 => ?_
    rcases h7 k hk sl hsl e' he j hj with h | h
    · exact absurd e3 (by simpa using h ⟨e1, by simpa using e2⟩)
    · refine ⟨h.1.1.1, h.1.1.2, h.1.2, slots_of fun m hm tl htl g hg eg => ?_⟩
      rcases h.2 m hm tl htl g hg with h | h
      · exact absurd eg h
      · exact h
  · intro g _ j hj
    rw [e] at hj ⊢
    exact faulted_slot hc (fun h hh hp => (f8 h hh).resolve_left fun n => n hp) (fun h hh hp => (f4 h hh).resolve_left fun n => n hp) _ _ (halfIn_flt hj)

/-- Each family of `HolesAndPresence`, into a group that has a PENDING and a FAULTED element where its width allows it. -/
theorem wit_HolesAndPresence :
    (List.range 4).map (elPres (holedT 0) ⟨8, 32, 4⟩) = [.pres, .flt, .pois, .pend] ∧ (List.range 4).map (elPres (holedT 0) ⟨4, 32, 4⟩) = [.pend, .flt, .pres, .pres] ∧
    fp32.subnormal (elBits (holedT 0) ⟨12, 32, 4⟩ 2) = true ∧
    Holes (holed (fword 0x14 0x14 0x14 0 1 0 0)) false ⟨4, 32, 4⟩ [⟨8, 32, 4⟩, ⟨12, 32, 4⟩] [.vadd {} none 4 8 12 2, .vsub {} none 4 8 12 2,
      .vmul {} none 4 8 12 2, .vsadd {} none 4 8 12 2, .vssub {} none 4 8 12 2, .vmulh {} none 4 8 12 2, .vdiv {} none 4 8 12 2, .vrem {} none 4 8 12 2,
      .vmin {} none 4 8 12 2, .vmax {} none 4 8 12 2, .vand {} none 4 8 12 2, .vor {} none 4 8 12 2, .vxor {} none 4 8 12 2, .vshl {} none 4 8 12 2,
      .vshr {} none 4 8 12 2, .vsra {} none 4 8 12 2, .vmerge {} none 4 8 12 1 2] ∧
    Holes (holed (fword 0 0 0 0 0 0 0)) false ⟨4, 32, 4⟩ [⟨8, 32, 4⟩, ⟨12, 32, 4⟩, ⟨16, 32, 4⟩] [.vfadd {} none 4 8 12 2, .vfsub {} none 4 8 12 2,
      .vfmul {} none 4 8 12 2, .vfdiv {} none 4 8 12 2, .vfma {} none 4 8 12 16 2, .vfnma {} none 4 8 12 16 2, .vfrcp {} none 4 8 2, .vfsqrt {} none 4 8 2,
      .vfrsqrt {} none 4 8 2, .vfexp2 {} none 4 8 2, .vflog2 {} none 4 8 2, .vfsin {} none 4 8 2, .vfcos {} none 4 8 2, .vftanh {} none 4 8 2,
      .vfmin {} none 4 8 12 2, .vfmax {} none 4 8 12 2, .vfsgn {} none 4 8 12 2 .xor] ∧
    (isI32 0x12 = true ∧ wideCode 0x12 0x12 = 0x14 ∧ Holes (holed (fword 0x12 0x12 0x14 0x14 1 0 0)) true ⟨4, 32, 4⟩ [⟨8, 16, 4⟩, ⟨12, 16, 4⟩]
      [.vwmul {} none 4 8 12 2, .vwmacc {} none 4 8 12 2]) ∧
    (isI4 0x14 = true ∧ isI4 0x12 = true ∧ Holes (holed (fword 0x14 0 0x12 0 1 0 0)) false ⟨16, 16, 4⟩ [⟨8, 32, 4⟩] [.vcvt {} none 16 8 2]) ∧
    (isF 0 = true ∧ Holes (holed (fword 0 0 0x15 0 0 0 0)) false ⟨4, 32, 4⟩ [⟨8, 32, 4⟩] [.vfclass {} none 4 8 2]) ∧
    (cvtPair 0 1 = true ∧ isF 1 = true ∧ blockScalable 0 = false ∧ Holes (holed (fword 0 0 1 0 0 0 0)) false ⟨16, 16, 4⟩ [⟨8, 32, 4⟩] [.vfcvt {} none 16 8 0 2]) ∧
    (cvtPair 3 0 = true ∧ blockScalable 3 = true ∧ blk (holedT 0) ≠ 0 ∧ (∀ j, j < 4 → elPres (holedT 0) (scaleGrp (holedT 0) 20) (j / blockLen (holedT 0)) = .pres) ∧
      Holes (holed (fword 3 0 0 0 0 1 0)) true ⟨4, 32, 4⟩ [⟨12, 8, 4⟩, scaleGrp (holedT 0) 20] [.vfcvt {} (some { e := 20, ev := true }) 4 12 0 2]) ∧
    (isN 1 = true ∧ Holes (holed (fword 1 1 0 0 0 0 0)) true ⟨4, 32, 4⟩ [⟨8, 16, 4⟩, ⟨12, 16, 4⟩] [.vfwma {} none 4 8 12 0 2]) := by
  and_intros
  all_goals first
    | exact holes (by decide +kernel)
    | decide +kernel

/-- VSTART 0 and an empty pipe, with `Vec`. -/
def still (s : State) (q : Pipe) : Bool := (s.pipe 0 q).isEmpty && (s.thread 0 0).vstart == 0

/-- Moves by 1 and by VL - 1, indices below and beyond VL, a mask, and ZP; casts of a present and of a POISONED scalar; elements at VL - 1 and at
VL, one of them POISONED. -/
theorem wit_Permutes :
    (let s := th [(1, 2), (2, fword 0x14 0x15 0x14 0 0 0 0)] fun t => vec 12 [0x300000004, 0] { t with vl := 4, m := t.m.setIfInBounds 7 (Vector.replicate 32 5) }
     Vec s x0 2 true ⟨4, 32, 4⟩ [⟨8, 32, 4⟩] ∧ still s .x = true ∧ (s.scalar x0 1).toNat ≠ 0 ∧ (s.thread 0 0).vl.toNat % (s.scalar x0 1).toNat = 0 ∧ isX 0x14 = true ∧
      Can s x0 [1, 2] [.vslide {} none 4 8 1 2 false, .vslide {} (some { msk := 7, zp := true }) 4 8 1 2 true, .vreshape {} none 4 8 1 2,
        .vcompress {} none 4 8 7 2, .vexpand {} (some { zp := true }) 4 8 7 2]) ∧
    (let s := th [(1, 2), (2, fword 0x14 0x15 0x14 0 0 0 0)] fun t => vec 12 [0x300000004, 0] { t with vl := 4 }
     Vec s x0 2 true ⟨4, 32, 4⟩ [⟨8, 32, 4⟩, ⟨12, 32, 4⟩] ∧ still s .x = true ∧ Can s x0 [2] [.vperm {} none 4 8 12 2]) ∧
    (let s := th [(1, 3), (2, fword 0 0 6 0 0 0 0)] fun t => { t.setWord 3 0 (wordIn .pois 7) with vl := 4 }
     Vec s x0 2 true ⟨4, 8, 4⟩ [] ∧ still s .x = true ∧ isX 6 = true ∧ s.scalarPres x0 3 = .pois ∧ s.scalarPres x0 1 = .pres ∧
      Can s x0 [1, 2] [.vbcast {} none 4 1 2, .vbcast {} none 4 3 2, .vins {} none 4 1 1 2, .vins {} none 4 3 1 2]) ∧
    (let s := th [(1, 3), (3, 4), (2, fword 0x18 0 0 0 0 0 0)] fun t => { t.setWord 8 0 (wordIn .pois 7) with vl := 4 }
     Vec s x0 2 true ⟨4, 4, 0⟩ [⟨8, 4, 4⟩] ∧ still s .x = true ∧ isX 0x18 = true ∧ elPres (s.thread 0 0) ⟨8, 4, 4⟩ 3 = .pois ∧
      Can s x0 [1, 2, 3] [.vext {} none 63 8 1 2, .vext {} none 63 8 3 2]) := by
  and_intros <;> first
    | decide +kernel
    | refine can ?_; decide +kernel
    | refine isVec ?_; decide +kernel

/-- Binary32 under a mask; INT8 to INT32, with a POISONED element, and with no active one; one signalling NaN; VL 0. -/
theorem wit_Reductions :
    (let s := th [(2, fword 0 0 0 0 0 0 0)] fun t => vec 8 [0x3F80000040000000] { t with vl := 3, m := t.m.setIfInBounds 7 (Vector.replicate 32 5) }
     Vec s x0 2 false ⟨4, 32, 1⟩ [⟨8, 32, 3⟩] ∧ still s .a = true ∧ trapEnables (s.fctlAt x0) = 0 ∧ isF 0 = true ∧
      Can s x0 [2] [.vrsum {} none 4 8 2, .vrmax {} (some { msk := 7 }) 4 8 2, .vrmin {} none 4 8 2]) ∧
    (let s := th [(2, fword 0x10 0 0x14 0 1 0 0)] fun t => vec 8 [0x80FF7F] { t with vl := 3 }
     Vec s x0 2 false ⟨4, 32, 1⟩ [⟨8, 8, 3⟩] ∧ still s .a = true ∧ isI 0x10 = true ∧ isI 0x14 = true ∧ codeWidth 0x10 ≤ codeWidth 0x14 ∧
      (actives (s.thread 0 0) {}).any (fun j => elPres (s.thread 0 0) ⟨8, 8, 3⟩ j == .pois) = false ∧ actives (s.thread 0 0) { msk := 7 } = [] ∧
      (BitVec.ofNat 8 (elBits (s.thread 0 0) ⟨8, 8, 3⟩ 0)).toInt = 127 ∧ (BitVec.ofNat 8 (elBits (s.thread 0 0) ⟨8, 8, 3⟩ 2)).toInt = -128 ∧
      Can s x0 [2] [.vrsum {} none 4 8 2, .vrmax {} none 4 8 2, .vrmax {} (some { msk := 7 }) 4 8 2, .vrmin {} none 4 8 2, .vrssum {} none 4 8 2]) ∧
    (let s := th [(2, fword 0x10 0 0x14 0 1 0 0)] fun t => { t.setWord 8 0 (wordIn .pois 7) with vl := 3 }
     Vec s x0 2 false ⟨4, 32, 1⟩ [⟨8, 8, 3⟩] ∧ still s .a = true ∧ (actives (s.thread 0 0) {}).any (fun j => elPres (s.thread 0 0) ⟨8, 8, 3⟩ j == .pois) = true ∧
      Can s x0 [2] [.vrssum {} none 4 8 2]) ∧
    (let s := th [(2, fword 0 0 0 0 0 0 0)] fun t => vec 8 [0x7F800001] { t with vl := 1 }
     Vec s x0 2 false ⟨4, 32, 1⟩ [⟨8, 32, 1⟩] ∧ still s .a = true ∧ trapEnables (s.fctlAt x0) = 0 ∧
      (fp32.decode (elBits (s.thread 0 0) ⟨8, 32, 1⟩ 0)).isSig = true ∧ Can s x0 [2] [.vrsum {} none 4 8 2]) ∧
    (let s := th [(2, fword 0x10 0 0x10 0 0 0 0)]
     Vec s x0 2 false ⟨4, 8, 1⟩ [⟨8, 8, 0⟩] ∧ still s .a = true ∧ (s.thread 0 0).vl = 0 ∧ Can s x0 [2] [.vrsum {} none 4 8 2]) := by
  and_intros <;> first
    | decide +kernel
    | refine can ?_; decide +kernel
    | refine isVec ?_; decide +kernel

/-- Groups of 2 in binary32 with the bounds of a clamp (the next register is the last), and sums of groups of 64 from INT8 to INT16. -/
theorem wit_WitnessReductions :
    (let s := th [(2, fword 0 0 0 0 0 0 0), (62, 0x3F800000), (63, 0x40000000)] fun t => vec 8 [0x3F80000040000000] { t with vl := 2 }
     Vec s x0 2 false ⟨4, 32, 1⟩ [⟨8, 32, 2⟩] ∧ Vec s x0 2 true ⟨12, 16, 512⟩ [⟨8, 32, 2⟩] ∧ still s .a = true ∧ trapEnables (s.fctlAt x0) = 0 ∧
      (∀ j ∈ actives (s.thread 0 0) {}, elPres (s.thread 0 0) ⟨8, 32, 2⟩ j = .pres) ∧
      ([⟨4, 32, 1⟩, ⟨8, 32, 2⟩, ⟨12, 16, 1⟩] : List Grp).Pairwise (fun g h => g.meets h = false) ∧
      codeNan 0 0x3F800000 = false ∧ codeNan 0 0x40000000 = false ∧ ordCmp 0 0x3F800000 0x40000000 ≤ 0 ∧
      Can s x0 [2, 62, 63] [.vrmaxw {} none 4 8 12 2 .first 1, .vrmaxw {} none 4 8 12 2 .split 1, .vrminw {} none 4 8 12 2 .last 1, .vrmedw {} none 4 8 12 2 .first 1,
        .vclampw {} none 4 8 12 62 2]) ∧
    (let s := th [(2, fword 0x10 0 0x12 0 0 0 0)] fun t => { t with vl := 64 }
     Vec s x0 2 false ⟨4, 16, 1⟩ [⟨8, 8, 64⟩] ∧ Vec s x0 2 true ⟨12, 16, 512⟩ [⟨8, 8, 64⟩] ∧ still s .a = true ∧
      (∀ j ∈ actives (s.thread 0 0) {}, elPres (s.thread 0 0) ⟨8, 8, 64⟩ j = .pres) ∧ codeWidth 0x10 ≤ codeWidth 0x12 ∧
      Can s x0 [2] [.vrssumw {} none 4 8 12 2 .first 6]) := by
  and_intros <;> first
    | decide +kernel
    | refine can ?_; decide +kernel
    | refine isVec ?_; decide +kernel

/-- Two equal contributors of three, at 0 and at 63; INT8 sums into INT8. -/
theorem wit_WitnessEntries :
    let a (k : Nat) : Nat := if k = 5 then 1 else 100
    ([0, 5, 63] : List Nat) ≠ [] ∧ ([0, 5, 63] : List Nat).Pairwise (· < ·) ∧
      (∀ k ∈ ([0, 5, 63] : List Nat), k < 64 ∧ codeNan 0x10 (a k) = false ∧ a k < 2 ^ codeWidth 0x10) ∧ isI 0x10 = true ∧
      (extremeW true .split 0x10 [0, 5, 63] a).entry = 2 ^ 63 + 1 ∧ (extremeW true .last 0x10 [0, 5, 63] a).entry = 0x40 + 63 ∧
      (satSumW 0x10 0x10 [0, 5, 63] a).entry = 1 := by decide +kernel
theorem computed_lt {t : Thread} {p : Pfx} {i : Nat} (h : computed t p i = true) : i < t.vl.toNat := by
  simp only [computed, Bool.and_eq_true, decide_eq_true_eq] at h; exact h.1.2

/-- Nothing is cached for the page of an address. -/
def uncached (s : State) (core : Nat) (ea : W64) : Bool :=
  (tlbHits (s.core core).tlb (ea.toNat / 4096) ++ tlbHits (s.pav (pavOf core)).tlb (ea.toNat / 4096)).isEmpty

theorem fresh {s : State} {core : Nat} {ea : W64} (h : uncached s core ea = true) : Fresh s core ea := by
  intro p _ e he; rw [List.isEmpty_iff.mp h] at he; cases he

/-- A partition without tables translates nothing, whatever memory holds (R252). -/
theorem walkKept {s : State} {core : Nat} {ea : W64} {hot : Nat → Prop} (hp : s.partOf core = some 0) (hr : bit (s.part 0).root.toNat 0 = false) :
    WalkKept s core ea hot := by
  intro p m q h _ _
  rw [hp] at h; cases h
  have : ∀ u : State, u.parts = s.parts → walk u 0 ea.toNat = .bad 4 := by
    intro u hu
    have e : u.part 0 = s.part 0 := by simp only [State.part, hu]
    simp only [walk, e, hr, Bool.not_false, if_true]
  exact (this { s with hbm := m, hbmPois := q } rfl).trans (this s rfl).symm

def accOk (s : State) (x : Ctx) (store : Bool) (at' : W64 → Loc) (e : W64 × Nat) : Bool :=
  reachesB s x (if store then .write else .read) e.2 store e.1 (at' e.1) &&
    uncached s x.core e.1 && !(store && touchesLive s (at' e.1) e.2)

theorem allReach_of {s : State} {x : Ctx} {store : Bool} {at' : W64 → Loc} {acc : W64 × Nat → Prop} (l : List (W64 × Nat)) (hl : ∀ e, acc e → e ∈ l)
    (h : (l.all (accOk s x store at') && (!store || (s.partOf x.core == some 0 && !bit (s.part 0).root.toNat 0))) = true) : AllReach s x store acc at' := by
  rw [Bool.and_eq_true] at h
  intro e he
  have := List.all_eq_true.mp h.1 e (hl e he)
  simp only [accOk, Bool.and_eq_true, Bool.not_eq_true'] at this
  refine ⟨reaches this.1.1, fresh this.1.2, fun hs => ?_⟩
  subst hs
  have h2 := h.2
  simp only [Bool.not_true, Bool.false_or, Bool.and_eq_true, beq_iff_eq, Bool.not_eq_true'] at h2
  exact ⟨by simpa using this.2, walkKept h2.1 h2.2⟩

/-- The accesses of loads, and of stores. -/
theorem loadsReach {s : State} {x : Ctx} {at' : W64 → Loc} {q : Pfx} {n : Nat} {acc : Nat → Nat → List (W64 × Nat)}
    (h : (((List.range (s.thread x.core x.ctx).vl.toNat).flatMap fun j => (List.range n).flatMap fun f => acc f j).all (accOk s x false at')) = true) :
    AllReach s x false (fun e => ∃ f j, f < n ∧ computed (s.thread x.core x.ctx) q j = true ∧ e ∈ acc f j) at' := by
  refine allReach_of _ ?_ (by rw [h]; rfl)
  rintro e ⟨f, j, hf, hj, he⟩
  exact List.mem_flatMap.mpr ⟨j, List.mem_range.mpr (computed_lt hj), List.mem_flatMap.mpr ⟨f, List.mem_range.mpr hf, he⟩⟩

theorem storesReach {s : State} {x : Ctx} {at' : W64 → Loc} {q : Pfx} {n : Nat} {acc : Nat → Nat → W64 × Nat}
    (h : (((List.range (s.thread x.core x.ctx).vl.toNat).flatMap fun j => (List.range n).map fun f => acc f j).all (accOk s x true at') &&
      (s.partOf x.core == some 0 && !bit (s.part 0).root.toNat 0)) = true) :
    AllReach s x true (fun e => ∃ f j, f < n ∧ computed (s.thread x.core x.ctx) q j = true ∧ e = acc f j) at' := by
  refine allReach_of _ ?_ h
  rintro e ⟨f, j, hf, hj, rfl⟩
  exact List.mem_flatMap.mpr ⟨j, List.mem_range.mpr (computed_lt hj), List.mem_map.mpr ⟨f, List.mem_range.mpr hf, rfl⟩⟩

/-- What the loads and stores ask of their groups: aligned, not too long, settled, known. -/
structure Grps (s : State) (l : List Grp) : Prop where
  shape : ∀ g ∈ l, g.base.toNat % g.size = 0 ∧ g.len * g.w ≤ 65536
  settled : ∀ g, Settled (s.thread 0 0) g
  known : ∀ g i, Known (s.thread 0 0) g i

theorem grps {s : State} {l : List Grp} (h : (l.all (fun g => decide (g.base.toNat % g.size = 0) && decide (g.len * g.w ≤ 65536)) && calm (s.thread 0 0)) = true) :
    Grps s l := by
  rw [Bool.and_eq_true] at h
  exact ⟨fun g hg => by simpa using List.all_eq_true.mp h.1 g hg, fun g => settled h.2 g, fun g i => known h.2 g i⟩

/-- From HBM: words, LNS6 codes and nibbles of a run, a stride of -4, indices, and the last segment of fields that fits. -/
theorem wit_VectorLoads :
    let s := th [(1, 0x10000), (2, 2 ^ 64 - 4)] (fun t => vec 12 [0x800000004] { t with vl := 2 }) paged
    let t := s.thread 0 0
    let ea : W64 := 0x10000
    let at' (a : W64) : Loc := .hbm a.toNat
    Can s x0 [1, 2] [.vld {} none 4 1 .w 0, .vld {} none 4 1 .n 0, .vld {} none 4 1 .l6 0, .vlds {} none 4 1 2 .h 0, .vldx {} none 4 1 12 .w false 0,
        .vldseg {} (some { zp := true }) 62 1 .d 1 0] ∧ s.pipe 0 .m = [] ∧ t.hostAcc = none ∧ s.scalar x0 1 + (0 : BitVec 48).signExtend 64 = ea ∧
      Grps s [⟨4, 32, 2⟩, ⟨4, 4, 2⟩, ⟨4, 8, 2⟩, ⟨4, 16, 2⟩, ⟨62, 64, 2⟩, ⟨63, 64, 2⟩] ∧ GroupsOk true ⟨4, 32, 2⟩ [⟨12, 32, 2⟩] ∧
      (∀ j, j < 2 → elPres t ⟨12, 32, 2⟩ j = .pres) ∧ (62 : Reg).toNat + 2 * (⟨62, 64, 2⟩ : Grp).size ≤ 64 ∧
      AllReach s x0 false (fun e => ∃ f j, f < 1 ∧ computed t {} j = true ∧ e ∈ [(ea + BitVec.ofNat 64 (j * (32 / 8)), 32 / 8)]) at' ∧
      (∀ mw ∈ [4, 6], AllReach s x0 false (fun e => ∃ f j, f < 1 ∧ computed t {} j = true ∧
        e ∈ (List.range ((j * mw + mw - 1) / 8 - j * mw / 8 + 1)).map fun r => (ea + BitVec.ofNat 64 (j * mw / 8 + r), 1)) at') ∧
      AllReach s x0 false (fun e => ∃ f j, f < 1 ∧ computed t {} j = true ∧ e ∈ [(ea + BitVec.ofNat 64 j * s.scalar x0 2, 16 / 8)]) at' ∧
      AllReach s x0 false (fun e => ∃ f j, f < 1 ∧ computed t {} j = true ∧ e ∈ [(ea + BitVec.ofNat 64 (elBits t ⟨12, 32, 2⟩ j), 32 / 8)]) at' ∧
      AllReach s x0 false (fun e => ∃ f j, f < 2 ∧ computed t { zp := true } j = true ∧ e ∈ [(ea + BitVec.ofNat 64 ((j * 2 + f) * (64 / 8)), 64 / 8)]) at' := by
  and_intros
  all_goals try first
    | decide +kernel
    | (refine can ?_; decide +kernel)
    | (refine grps ?_; decide +kernel)
    | (refine loadsReach ?_; decide +kernel)
  intro mw h
  rcases List.mem_cons.mp h with rfl | h
  · exact loadsReach (by decide +kernel)
  · rw [List.mem_singleton] at h; subst h; exact loadsReach (by decide +kernel)

/-- To the scratchpad: a run, equal addresses, indices, fields, and a run of LNS6 codes and of nibbles. -/
theorem wit_VectorStores :
    let s := th [(1, spad + 64), (2, 0)] (fun t => vec 12 [0x800000004] { t with vl := 2 })
    let t := s.thread 0 0
    let ea : W64 := BitVec.ofNat 64 (spad + 64)
    let mine (mw j : Nat) : Prop := ∃ e r, computed t {} e = true ∧ r < mw ∧ (e * mw + r) / 8 = j
    Can s x0 [1, 2] [.vst {} none 4 1 .w 0, .vst {} none 4 1 .n 0, .vst {} none 4 1 .l6 0, .vsts {} none 4 1 2 .h 0, .vstx {} none 4 1 12 .w false 0,
        .vstseg {} (some { msk := 0 }) 62 1 .d 1 0] ∧ s.pipe 0 .m = [] ∧ t.hostAcc = none ∧ s.memOk = true ∧ s.scalar x0 1 + (0 : BitVec 48).signExtend 64 = ea ∧
      Grps s [⟨4, 32, 2⟩, ⟨4, 4, 2⟩, ⟨4, 8, 2⟩, ⟨4, 16, 2⟩, ⟨12, 32, 2⟩, ⟨62, 64, 2⟩, ⟨63, 64, 2⟩] ∧ (∀ j, j < 2 → elPres t ⟨12, 32, 2⟩ j = .pres) ∧
      AllReach s x0 true (fun e => ∃ f j, f < 1 ∧ computed t {} j = true ∧ e = (ea + BitVec.ofNat 64 (j * (32 / 8)), 32 / 8)) inSp ∧
      AllReach s x0 true (fun e => ∃ f j, f < 1 ∧ computed t {} j = true ∧ e = (ea + BitVec.ofNat 64 j * s.scalar x0 2, 16 / 8)) inSp ∧
      AllReach s x0 true (fun e => ∃ f j, f < 1 ∧ computed t {} j = true ∧ e = (ea + BitVec.ofNat 64 (elBits t ⟨12, 32, 2⟩ j), 32 / 8)) inSp ∧
      AllReach s x0 true (fun e => ∃ f j, f < 2 ∧ computed t {} j = true ∧ e = (ea + BitVec.ofNat 64 ((j * 2 + f) * (64 / 8)), 64 / 8)) inSp ∧
      ∀ mw ∈ [4, 6], AllReach s x0 true (fun e => ∃ j, mine mw j ∧ e = (ea + BitVec.ofNat 64 j, 1)) inSp ∧
        ∀ j l, mine mw j → mine mw l → inSp (ea + BitVec.ofNat 64 j) = inSp (ea + BitVec.ofNat 64 l) → j = l := by
  and_intros
  all_goals try first
    | decide +kernel
    | (refine can ?_; decide +kernel)
    | (refine grps ?_; decide +kernel)
    | (refine storesReach ?_; decide +kernel)
  intro mw hm
  have low : ∀ j, (∃ e r, computed ((th [(1, spad + 64), (2, 0)] (fun t => vec 12 [0x800000004] { t with vl := 2 })).thread 0 0) {} e = true ∧ r < mw ∧
      (e * mw + r) / 8 = j) → j < 2 := by
    rintro j ⟨e, r, he, hr, rfl⟩
    have : e < 2 := computed_lt he
    have : mw = 4 ∨ mw = 6 := by simpa using hm
    rcases this with rfl | rfl <;> omega
  refine ⟨allReach_of [(BitVec.ofNat 64 (spad + 64), 1), (BitVec.ofNat 64 (spad + 65), 1)] ?_ (by decide +kernel), ?_⟩
  · rintro e ⟨j, hj, rfl⟩
    have : j = 0 ∨ j = 1 := by have := low j hj; omega
    rcases this with rfl | rfl <;> decide
  · intro j l hj hl h
    have h1 : j = 0 ∨ j = 1 := by have := low j hj; omega
    have h2 : l = 0 ∨ l = 1 := by have := low l hl; omega
    rcases h1 with rfl | rfl <;> rcases h2 with rfl | rfl <;> first | rfl | exact absurd h (by decide)
theorem sp_toNat (n : Nat) (h : n < 0x80000) : (BitVec.ofNat 64 (spad + n)).toNat = spad + n := by
  simp only [spad, BitVec.toNat_ofNat]; omega

/-- Two words of a frame at offset 64 of the scratchpad, one of them POISONED. -/
theorem wit_SpillFrames :
    let s := th [(1, spad + 64)] fun t => { t.setWord 4 0 ⟨5, 0xF0⟩ with vl := 2 }
    let t := s.thread 0 0
    let ea : W64 := BitVec.ofNat 64 (spad + 64)
    let acc (e : W64 × Nat) : Prop := ∃ j, (startOf t ≤ j ∧ j < 2) ∧
      (e = (ea + BitVec.ofNat 64 (j * (32 / 8)), 32 / 8) ∨ e = (ea + BitVec.ofNat 64 ((2 * 32 / 8 + 63) / 64 * 64 + j * 32 / 64), 1))
    Can s x0 [1] [.vspill {} 4 1 .w 0, .vfill {} 4 1 .w 0] ∧ s.scalar x0 1 + (0 : BitVec 48).signExtend 64 = ea ∧ ea.toNat % 64 = 0 ∧ Grps s [⟨4, 32, 2⟩] ∧
      t.hostAcc = none ∧ s.pipe 0 .m = [] ∧ s.memOk = true ∧ elPres t ⟨4, 32, 2⟩ 0 = .pres ∧ elPres t ⟨4, 32, 2⟩ 1 = .pois ∧
      AllReach s x0 true acc inSp ∧ AllReach s x0 false acc inSp ∧
      ∀ e f i j, acc e → acc f → i < e.2 → j < f.2 → (inSp e.1).add i = (inSp f.1).add j → e.1 + BitVec.ofNat 64 i = f.1 + BitVec.ofNat 64 j := by
  let l : List (W64 × Nat) := [(BitVec.ofNat 64 (spad + 64), 4), (BitVec.ofNat 64 (spad + 68), 4), (BitVec.ofNat 64 (spad + 128), 1)]
  have all (st : Nat) : ∀ e : W64 × Nat, (∃ j, (st ≤ j ∧ j < 2) ∧ (e = (BitVec.ofNat 64 (spad + 64) + BitVec.ofNat 64 (j * (32 / 8)), 32 / 8) ∨
      e = (BitVec.ofNat 64 (spad + 64) + BitVec.ofNat 64 ((2 * 32 / 8 + 63) / 64 * 64 + j * 32 / 64), 1))) → e ∈ l := by
    rintro e ⟨j, ⟨_, hj⟩, h⟩
    have : j = 0 ∨ j = 1 := by omega
    rcases this with rfl | rfl <;> rcases h with rfl | rfl <;> decide
  and_intros
  all_goals try first
    | decide +kernel
    | (refine can ?_; decide +kernel)
    | (refine grps ?_; decide +kernel)
    | (refine allReach_of l (all _) ?_; decide +kernel)
  intro e f i j he hf
  have h : ∀ e ∈ l, ∀ f ∈ l, ∀ i, i < e.2 → ∀ j, j < f.2 → (inSp e.1).add i = (inSp f.1).add j → e.1 + BitVec.ofNat 64 i = f.1 + BitVec.ofNat 64 j := by
    decide +kernel
  exact fun hi hj => h e (all _ e he) f (all _ f hf) i hi j hj

/-- A transposed record of 8-bit elements at offset 64; two records of 4-bit elements with the least stride. -/
theorem wit_BlockRecords :
    let a : W64 := BitVec.ofNat 64 (spad + 64)
    (let s := th [(1, spad + 64), (3, 0), (2, fword 0 0 3 0 0 0 0)] fun t => { t with vl := 1024, vtype := 2 }
     Can s x0 [1, 2, 3] [.vldmx {} none 4 1 3 12 2 true] ∧ (s.thread 0 0).vstart = 0 ∧ Grps s [⟨4, 8, 1024⟩] ∧ s.pipe 0 .m = [] ∧
      (⟨4, 8, 1024⟩ : Grp).meets ⟨12, 8, 1⟩ = false ∧ s.scalar x0 1 = a ∧ a.toNat % 64 = 0 ∧ s.scalar x0 3 = 0 ∧
      AllReach s x0 false (fun e => ∃ r ∈ [0], ∃ j, j < 2 * 8 + 1 ∧ e = (a + BitVec.ofNat 64 r * 0 + BitVec.ofNat 64 (64 * j), 64)) inSp) ∧
    (let s := th [(1, spad + 64), (3, 576), (2, fword 5 0 0 0 0 0 0)] fun t => { t with vl := 2048, vtype := 2 }
     let adr (r : Nat) : W64 := a + BitVec.ofNat 64 r * 576
     let byte (r j : Nat) : Loc := (inSp (adr r + BitVec.ofNat 64 (64 * (j / 64)))).add (j % 64)
     Can s x0 [1, 2, 3] [.vstmx {} none 4 1 3 12 2 false] ∧ (s.thread 0 0).vstart = 0 ∧ Grps s [⟨4, 4, 2048⟩] ∧ s.pipe 0 .m = [] ∧ s.memOk = true ∧
      128 * 4 + 64 ≤ (s.scalar x0 3).toInt.natAbs ∧ (⟨4, 4, 2048⟩ : Grp).meets ⟨12, 8, 1⟩ = false ∧ s.scalar x0 1 = a ∧ s.scalar x0 3 = 576 ∧
      AllReach s x0 true (fun e => ∃ r ∈ [0, 1], ∃ j, j < 2 * 4 + 1 ∧ e = (adr r + BitVec.ofNat 64 (64 * j), 64)) inSp ∧
      (∀ r ∈ [0, 1], midRecord s ((List.range 9).map fun j => (inSp (adr r + BitVec.ofNat 64 (64 * j)), 64)) = false) ∧
      ∀ r ∈ [0, 1], ∀ r' ∈ [0, 1], ∀ j j', j < 128 * 4 + 64 → j' < 128 * 4 + 64 → byte r j = byte r' j' → r = r' ∧ j = j') := by
  constructor
  · and_intros
    all_goals try first
      | decide +kernel
      | (refine can ?_; decide +kernel)
      | (refine grps ?_; decide +kernel)
    refine allReach_of ((List.range 17).map fun j => (BitVec.ofNat 64 (spad + 64 + 64 * j), 64)) ?_ (by decide +kernel)
    rintro e ⟨r, hr, j, hj, rfl⟩
    rw [List.mem_singleton] at hr; subst hr
    have h : ∀ j, j < 17 → ((BitVec.ofNat 64 (spad + 64) + BitVec.ofNat 64 0 * 0 + BitVec.ofNat 64 (64 * j) : W64), 64)
      ∈ (List.range 17).map fun j => ((BitVec.ofNat 64 (spad + 64 + 64 * j) : W64), 64) := by decide +kernel
    exact h j hj
  · have at1 : ∀ r ∈ [0, 1], ∀ k, k < 9 → ((BitVec.ofNat 64 (spad + 64) + BitVec.ofNat 64 r * 576 + BitVec.ofNat 64 (64 * k) : W64)).toNat
        = spad + 64 + 576 * r + 64 * k := by decide +kernel
    and_intros
    all_goals try first
      | decide +kernel
      | (refine can ?_; decide +kernel)
      | (refine grps ?_; decide +kernel)
    · refine allReach_of ([0, 1].flatMap fun r => (List.range 9).map fun j => (BitVec.ofNat 64 (spad + 64 + 576 * r + 64 * j), 64)) ?_ (by decide +kernel)
      rintro e ⟨r, hr, j, hj, rfl⟩
      have h : ∀ r ∈ [0, 1], ∀ j, j < 9 → ((BitVec.ofNat 64 (spad + 64) + BitVec.ofNat 64 r * 576 + BitVec.ofNat 64 (64 * j) : W64), 64)
        ∈ [0, 1].flatMap fun r => (List.range 9).map fun j => ((BitVec.ofNat 64 (spad + 64 + 576 * r + 64 * j) : W64), 64) := by decide +kernel
      exact h r hr j hj
    · intro r hr r' hr' j j' hj hj' h
      have h1 := at1 r hr (j / 64) (by omega)
      have h2 := at1 r' hr' (j' / 64) (by omega)
      have h3 : (BitVec.ofNat 64 (spad + 64) + BitVec.ofNat 64 r * 576 + BitVec.ofNat 64 (64 * (j / 64)) : W64).toNat - spad + j % 64
          = (BitVec.ofNat 64 (spad + 64) + BitVec.ofNat 64 r' * 576 + BitVec.ofNat 64 (64 * (j' / 64)) : W64).toNat - spad + j' % 64 :=
        (Loc.sp.inj h).2
      rw [h1, h2] at h3
      have : r = 0 ∨ r = 1 := by simpa using hr
      have : r' = 0 ∨ r' = 1 := by simpa using hr'
      have : spad = 0xFF000000000000 := rfl
      omega

/-- Every half-slot is PRESENT, word by word. -/
def clear (t : Thread) : Bool := t.v.toList.all fun r => r.toList.all fun w => w.pres == 0

theorem clear_half {t : Thread} (h : clear t = true) (r k : Nat) : t.halfPres r k = .pres := by
  have zero (w : VWord) (hw : w.pres = 0) : Presence.ofCode (w.pres.extractLsb' (2 * (k % 4)) 2) = .pres := by
    rw [hw]
    have : k % 4 < 4 := Nat.mod_lt _ (by decide)
    generalize k % 4 = n at this
    revert n; decide
  apply zero
  rw [Thread.word]
  by_cases hr : r < 64 <;> by_cases hk : k / 4 < 128 <;> simp [Vector.getD, hr, hk]
  have := List.all_eq_true.mp (List.all_eq_true.mp h _ (Vector.mem_toList_iff.mpr (Vector.getElem_mem hr))) _ (Vector.mem_toList_iff.mpr (Vector.getElem_mem hk))
  simpa using this

theorem clear_el {t : Thread} (h : (clear t && t.errs.isEmpty) = true) (g : Grp) (i : Nat) : elPres t g i = .pres := by
  rw [Bool.and_eq_true, List.isEmpty_iff] at h
  rcases foremost_mem ((List.range g.halves).map fun k => t.readPres (g.reg i) (g.half i + k)) with e | e
  · obtain ⟨k, _, e'⟩ := List.mem_map.mp e
    rw [Thread.readPres, h.2] at e'
    exact e'.symm.trans (clear_half h.1 _ _)
  · exact e

/-- A descriptor of a maximum of two in binary32, and a header with the stamp of buffer 0, which is FULL; the witness names contributor 0. -/
theorem wit_HeadersAndAdjoint :
    let dw := 1 + 1 * 2 ^ 16 + 1 * 2 ^ 32
    let s := th [(2, fword 0 0 0 0 0 0 0), (1, dw), (3, 0)] (fun t => vec 20 [dw, 1] (vec 8 [0x3F800000] { t with vl := 2, task := some aTask })) tasked
    let t := s.thread 0 0
    let ds : Desc := ⟨1, 0, 1, 0, 1, 0⟩
    t.vstart = 0 ∧ t.task = some aTask ∧ instOf s x0 = some (aTask, anInst) ∧ anInst.bufs[0]? = some aBuf ∧ Desc.parse (s.scalar x0 1).toNat = some ds ∧
      s.scalar x0 3 = BitVec.ofNat 64 0 ∧ Vec s x0 2 false ⟨4, 32, 2⟩ [⟨8, 32, 1⟩] ∧ Settled t ⟨4, 64, 128⟩ ∧ s.pipe 0 .a = [] ∧
      (∀ h, h < 32 → t.halfPres 20 h = .pres) ∧ Desc.parse ((t.word 20 0).bits).toNat = some ds ∧ ((t.word 20 1).bits).toNat = 1 ∧
      (∀ k, k < 8 → 2 ≤ k → ((t.word 20 k).bits).toNat = 0) ∧ t.vl.toNat = ds.count * 2 ^ ds.logg ∧
      ([⟨4, 32, 2⟩, ⟨8, 32, 1⟩, ⟨12, 16, 1⟩, ⟨20, 16, 1⟩] : List Grp).Pairwise (fun h k => h.meets k = false) ∧ aBuf.full = true ∧ aBuf.gen.toNat = 1 ∧
      (∀ g i, elPres t g i = .pres) ∧ trapEnables (s.fctlAt x0) = 0 ∧
      Can s x0 [1, 2, 3] [.vwhdr {} 4 1 3, .vadjb {} none 4 8 12 20 2 false, .vadjb {} (some { zp := true }) 4 8 12 20 2 true] := by
  and_intros
  all_goals first
    | decide +kernel
    | (refine can ?_; decide +kernel)
    | (refine isVec ?_; decide +kernel)
    | (refine settled ?_ _; decide +kernel)
    | (refine clear_el ?_; decide +kernel)

/-- A hole in the last register and elsewhere; nothing; a held slot with the oldest of two ages; a mask up to VL - 1. -/
theorem wit_SettleAndPoison :
    (let s := th [] fun t => t.setWord 63 127 (wordIn .pend 0)
     (s.thread 0 0).halfPres 63 511 = .pend ∧ Can s x0 [] [.vsettle {} 0 .all, .vsettle {} 63 .g1, .vsettle {} 56 .g8]) ∧
    (let s := th []
     (∀ r h, (s.thread 0 0).halfPres r h = .pres) ∧ (∀ j, (s.thread 0 0).slots.getD j none = none) ∧ (s.core 0).mire = [] ∧
      Can s x0 [] [.vsettle {} 0 .all, .vsettle {} 60 .g4]) ∧
    (let a := aSlot 8 2 2
     let b : Machine.Slot := { a with age := 0 }
     let s := th [] fun t => { t with slots := (t.slots.set 0 (some a)).set 7 (some b) }
     (∀ r h, (s.thread 0 0).halfPres r h = .pres) ∧ (s.thread 0 0).slots.getD 7 none = some b ∧ (s.core 0).mire = [] ∧
      (∀ l sl', (s.thread 0 0).slots.getD l none = some sl' → b.age < sl'.age ∨ l = 7) ∧ Can s x0 [] [.vsettle {} 0 .all, .vsettle {} 8 .g1]) ∧
    (let s := th [] fun t => { t with vl := 3, m := t.m.setIfInBounds 1 (Vector.replicate 32 4) }
     still s .a = true ∧ Grps s [⟨8, 8, 3⟩] ∧ maskBit (maskReg (s.thread 0 0) 1) 2 = true ∧ Can s x0 [] [.vpres {} 1 8 .b .pois, .vpres {} 0 8 .b .pres, .mpoison {} 8 1 .b]) := by
  refine ⟨⟨by decide +kernel, can (by decide +kernel)⟩, ⟨fun _ _ => clear_half (by decide +kernel) _ _, ?_, by decide +kernel, can (by decide +kernel)⟩,
    ⟨fun _ _ => clear_half (by decide +kernel) _ _, by decide +kernel, by decide +kernel, ?_, can (by decide +kernel)⟩,
    by decide +kernel, grps (by decide +kernel), by decide +kernel, can (by decide +kernel)⟩
  · intro j
    show (Vector.replicate 8 (none : Option Machine.Slot)).getD j none = none
    by_cases h : j < 8 <;> simp [Vector.getD, h]
  · have all : ∀ l, l < 8 → l = 7 ∨ (((((Vector.replicate 8 (none : Option Machine.Slot)).set 0 (some (aSlot 8 2 2))).set 7
      (some { aSlot 8 2 2 with age := 0 })).getD l none).all fun sl => decide (0 < sl.age)) = true := by decide +kernel
    intro l sl' h
    have h' : (((Vector.replicate 8 (none : Option Machine.Slot)).set 0 (some (aSlot 8 2 2))).set 7 (some { aSlot 8 2 2 with age := 0 })).getD l none
      = some sl' := h
    by_cases hl : l < 8
    · rcases all l hl with e | e
      · exact .inr e
      · left; rw [h'] at e; simpa using e
    · simp [Vector.getD, hl] at h'

/-- A ready record and none; a helper that runs with none held, one that holds one, and one that is IDLE. -/
theorem wit_TakingRecords :
    let ready := on.modCore 0 fun c => { c with mire := [aRec 7 8 6 2], nextRec := 8 }
    (let s := hp [] id ready
     (s.helper 0 0).held = none ∧ oldestReady (s.core 0) = some (aRec 7 8 6 2) ∧ (∀ p, s.partOf 0 = some p → (s.part p).libEntry ≠ some 0) ∧
      Can s x4 [] [.hpop {} 63, .hopnd {} 1 .a] ∧ heldRec s x4 = none) ∧
    ((hp []).helper 0 0).held = none ∧ oldestReady ((hp []).core 0) = none ∧ Can (hp []) x4 [] [.hpop {} 0] ∧
    (let s := hp [] (fun h => { h with held := some 7 }) ready
     heldRec s x4 = some (aRec 7 8 6 2) ∧ holdsDead s x4 = false ∧ Can s x4 [] ([.a, .b, .c, .sa, .sb, .p, .pc].map (.hopnd {} 63) ++ [.hpop {} 1])) ∧
    (ready.helper 0 0).idle = true ∧ oldestReady (ready.core 0) = some (aRec 7 8 6 2) := by
  and_intros
  all_goals first
    | decide +kernel
    | (refine can ?_; decide +kernel)

/-- A record whose traps are all enabled, with a record linked to it, with a free slot and with none; a superseded one; one that a move waits for; the
four returns of `eret`. -/
theorem wit_HelperReturns :
    let e : MireRec := { aRec 7 8 6 2 with ten := 31, taken := true }
    let d : MireRec := { aRec 9 12 0 2 with a := .link 7 0 0 32 0 }
    let ready := on.modCore 0 fun c => { c with mire := [e, d], nextRec := 10 }
    let f (h : Helper) : Helper := { h with held := some 7 }
    (let s := hp [(1, 5), (2, 0x10)] f ready
     heldRec s x4 = some e ∧ holdsDead s x4 = false ∧ e.thr < 4 ∧ e.width ∈ [1, 2, 4] ∧ e.half % e.width = 0 ∧ e.half < 512 ∧ e.elem < 2048 ∧
      (∀ r ∈ (s.core 0).mire, r.move = false) ∧ ((s.core 0).mire.map (·.id)).Nodup ∧ descendants (s.core 0).mire 7 = [9] ∧
      (∀ r ∈ (s.core 0).mire, r.id ∈ descendants (s.core 0).mire 7 → r.thr = e.thr ∧ r.reg ≠ e.reg) ∧
      ((s.scalar x4 3).setWidth 5 : BitVec 5) &&& e.ten = 0 ∧ ((s.scalar x4 2).setWidth 5 : BitVec 5) &&& e.ten ≠ 0 ∧
      (s.thread 0 0).slots.getD 0 none = none ∧ Can s x4 [] [.hfill {} 1 3, .hfill {} 1 2, .hflt {} 1 2]) ∧
    (let s := hp [(1, 5), (2, 0x10)] f (ready.modThread 0 0 fun t => { t with slots := Vector.replicate 8 (some (aSlot 20 0 1)) })
     (∀ k, k < 8 → (s.thread 0 0).slots.getD k none ≠ none) ∧ s.partOf 0 = some 0 ∧ (s.part 0).fq.length < 256 ∧ (s.part 0).fqWait = [] ∧
      heldRec s x4 = some e ∧ Can s x4 [] [.hfill {} 1 2, .hflt {} 1 2]) ∧
    (let s := hp [(1, 5)] f (on.modCore 0 fun c => { c with mire := [{ e with superseded := true }] })
     heldRec s x4 = some { e with superseded := true } ∧ holdsDead s x4 = false ∧ Can s x4 [] [.hfill {} 1 2]) ∧
    (let m : MireRec := { aRec 9 12 0 2 with a := .link 7 0 0 32 0, move := true }
     let s := hp [(1, 5)] f (on.modCore 0 fun c => { c with mire := [e, m], nextRec := 10 })
     heldRec s x4 = some e ∧ holdsDead s x4 = false ∧ (s.scalar x4 2).setWidth 5 &&& e.ten = 0 ∧ ((s.core 0).mire.map (·.id)).Nodup ∧ m ∈ (s.core 0).mire ∧
      m.move = true ∧ m.thr = e.thr ∧ m.superseded = false ∧ m.a = .link e.id 0 0 (16 * e.width) 0 ∧ m.width = e.width ∧ m.half % m.width = 0 ∧ m.half < 512 ∧
      (∀ r ∈ (s.core 0).mire, r ≠ m → r.reg ≠ m.reg) ∧ Can s x4 [] [.hfill {} 1 2]) ∧
    Can (th []) x0 [] [.eret {}] ∧
    (let s := hp [] f ready
     (s.helper 0 0).held ≠ none ∧ holdsDead s x4 = false ∧ Can s x4 [] [.eret {}]) ∧ ((hp []).helper 0 0).ret = .none ∧ Can (hp []) x4 [] [.eret {}] ∧
    (let s := hp [] fun h => { h with ret := .addr 0x40 }
     (s.helper 0 0).held = none ∧ (s.helper 0 0).ret = .addr 0x40 ∧ Can s x4 [] [.eret {}]) ∧
    (let s := hp [] fun h => { h with ret := .idle }
     (s.helper 0 0).held = none ∧ (s.helper 0 0).ret = .idle ∧ Can s x4 [] [.eret {}]) := by
  and_intros <;> first
    | decide +kernel
    | refine can ?_; decide +kernel

/-- Tiles of 8 by 1 in binary32 and of 64 by 1 in INT8 and E4M3 at the tile store's start, the last offset that a tile of 64 bytes fits at. -/
def tile (k n fb sblk : Nat) : Nat := k + n * 2 ^ 11 + fb * 2 ^ 18 + sblk * 2 ^ 24
def chosen (off w : Nat) : W64 := BitVec.ofNat 64 (2 ^ 63 + off * 2 ^ 26 + w)

theorem wit_Selections :
    (let s := th [(1, 0x3FFFC0), (2, tile 8 1 0 0)]
     still s .x = true ∧ shapeFault (s.scalar x0 2).toNat = none ∧ (s.scalar x0 1).toNat % 64 = 0 ∧
      (s.scalar x0 1).toNat + (Shape.ofNat (s.scalar x0 2).toNat).bytes ≤ 0x400000 ∧ Can s x0 [1, 2] [.msel {} 1 2, .mstat {} 63, .mclr {}]) ∧
    (let s := th [] fun t => { t with sel := chosen 0 (tile 8 1 0 0) }
     still s .x = true ∧ canLatch s 0 0 = true) ∧
    (let e : PipeEntry := { queued (.mmul {} none 4 8 2 false) with why := .latch }
     let s := (th [] fun t => { t with sel := chosen 0 (tile 8 1 0 0) }).modCore 0 fun c => { c with pipeX := [e] }
     canLatch s 0 0 = true ∧ (s.pipe 0 .x).head? = some e ∧ e.why = .latch ∧ e.thr = 0) := by
  and_intros <;> first
    | decide +kernel
    | refine can ?_; decide +kernel

/-- An `mmul` in INT8 whose selection has 128 rows, two planes, and is latched; `run` is where its row stands in the lanes. -/
def rowed (run : Option RowRun) (stop : Option Nat := none) : State × PipeEntry :=
  let w := chosen 0 (tile 128 1 0x10 0)
  let f := fword 0x10 0x10 0x14 0x14 1 0 0
  let s := (th [(2, f)] fun t => { t with vl := 128, sel := w, stop := stop }).modCore 0 fun c => { c with latched := some ⟨0, w, 0, List.replicate 128 0, []⟩ }
  let e : PipeEntry := { queued (.mmul {} none 4 8 2 true) with
    why := .plane, row := run, scal := some ((Vector.replicate 64 0).set 2 (BitVec.ofNat 64 f)), ctl := (s.thread 0 0).ctl }
  (s, e)

/-- Binary32 that accumulates, with a trap due, with one plane of two, and not latched; INT8 that resumes; E4M3 with block scales on both sides; a row
in the lanes at its first and its last plane, with and without a stop. -/
theorem wit_MatrixMultiply :
    (let w := chosen 0 (tile 8 1 0 0)
     let s := (th [(2, fword 0 0 0 0 0 0 0)] fun t => { t with vl := 8, sel := w }).modCore 0 fun c => { c with latched := some ⟨0, w, 0, List.replicate 64 0, []⟩ }
     Vec s x0 2 false ⟨4, 32, 64⟩ [⟨8, 32, 8⟩] ∧ still s .x = true ∧ (⟨4, 32, 64⟩ : Grp).meets ⟨8, 32, 8⟩ = false ∧ mmulClass 0 = some 0 ∧
      selShape w = ⟨8, 1, 0, 0⟩ ∧ selValid w = true ∧ latchedFor s 0 0 = true ∧ (s.thread 0 0).stop = none ∧ trapEnables (s.fctlAt x0) = 0 ∧
      Can s x0 [2] [.mmul {} none 4 8 2 true, .mmul {} (some { zp := true }) 4 8 2 false]) ∧
    (let w := chosen 0 (tile 64 1 0x10 0)
     let s := (th [(2, fword 0x10 0x10 0x14 0x14 1 0 0)] fun t => { t with vl := 64, sel := w, mprog := 8, rowStops := [8] }).modCore 0 fun c =>
       { c with latched := some ⟨0, w, 0, List.replicate 64 0, []⟩ }
     Vec s x0 2 false ⟨4, 32, 64⟩ [⟨8, 8, 64⟩] ∧ still s .x = true ∧ mmulClass 0x10 = some 5 ∧ selShape w = ⟨64, 1, 0x10, 0⟩ ∧ latchedFor s 0 0 = true ∧
      min 4 ((0 / 4 + 1) * 4) = 4 ∧ (s.thread 0 0).mprog.getLsbD 3 = true ∧ (s.thread 0 0).mprog.toNat / 256 = (s.thread 0 0).pc.toNat ∧ (s.thread 0 0).mprog ∈ (s.thread 0 0).rowStops ∧
      (s.thread 0 0).stop = none ∧ Can s x0 [2] [.mmul {} none 4 8 2 true]) ∧
    (let w := chosen 0 (tile 64 1 3 1)
     let s := (th [(2, fword 3 3 0 0 0 1 1)] fun t => { t with vl := 64, vtype := 1, sel := w }).modCore 0 fun c =>
       { c with latched := some ⟨0, w, 0, List.replicate 192 0, []⟩ }
     Vec s x0 2 false ⟨4, 32, 64⟩ [⟨8, 8, 64⟩] ∧ Grps s [⟨20, 8, 2⟩] ∧ still s .x = true ∧ mmulClass 3 = some 2 ∧ selShape w = ⟨64, 1, 3, 1⟩ ∧
      latchedFor s 0 0 = true ∧ blk (s.thread 0 0) = 1 ∧ blockScalable 3 = true ∧ (⟨20, 8, 2⟩ : Grp).meets ⟨8, 8, 64⟩ = false ∧ (s.thread 0 0).stop = none ∧
      trapEnables (s.fctlAt x0) = 0 ∧ Can s x0 [2] [.mmul {} (some { e := 20, ev := true }) 4 8 2 false]) ∧
    (let w := chosen 0 (tile 8 1 0 0)
     let s := (th [(2, fword 0 0 0 0 0 0 0)] fun t => vec 8 [0x7F800000] { t with vl := 8, sel := w, fctl := 0x11 }).modCore 0 fun c =>
       { c with latched := some ⟨0, w, 0, List.replicate 64 0, []⟩ }
     Vec s x0 2 false ⟨4, 32, 64⟩ [⟨8, 32, 8⟩] ∧ still s .x = true ∧ latchedFor s 0 0 = true ∧ (s.thread 0 0).undos = [] ∧
      (groupSum 0 0 ⟨.rne, 0⟩ ((List.range 8).map fun j => (elBits (s.thread 0 0) ⟨8, 32, 8⟩ j, 0)) 127 127).flags &&&
        (trapEnables (s.fctlAt x0)).setWidth 64 ≠ 0 ∧ Can s x0 [2] [.mmul {} none 4 8 2 false]) ∧
    (let w := chosen 0 (tile 32 1 0 0)
     let s := th [(2, fword 0 0 0 0 0 0 0)] fun t => { t with vl := 32, sel := w }
     let v := s.modCore 0 fun c => { c with latched := some ⟨0, w, 0, List.replicate 128 0, []⟩ }
     (Vec s x0 2 false ⟨4, 32, 64⟩ [⟨8, 32, 32⟩] ∧ still s .x = true ∧ latchedFor s 0 0 = false ∧ Can s x0 [2] [.mmul {} none 4 8 2 false]) ∧
      Vec v x0 2 false ⟨4, 32, 64⟩ [⟨8, 32, 32⟩] ∧ still v .x = true ∧ latchedFor v 0 0 = true ∧ (v.thread 0 0).stop = none ∧ shapeFault (tile 32 1 0 0) = none ∧
      min 2 ((0 / max 1 (kblock 0 / 16) + 1) * max 1 (kblock 0 / 16)) < 2 ∧ Can v x0 [2] [.mmul {} none 4 8 2 false]) ∧
    (∀ r ∈ ([(0, none), (4, none), (0, some 1)] : List (Nat × Option Nat)),
      let e := (rowed (some ⟨r.1, [(0, 0)], 0, 1⟩) r.2).2
      let s := { (rowed none r.2).1.modCore 0 fun c => { c with pipeX := [e] } with lane := some e }
      s.cur = some x0 ∧ s.lane = some e ∧ s.pipe 0 .x = [e] ∧ e.thr = 0 ∧ e.ctl = (s.thread 0 0).ctl ∧ e.scal.map (fun v => v.getD 2 0) = some (s.scalar x0 2) ∧
        latchedFor s 0 0 = true ∧ s.hasElder 0 0 e.num = false ∧ (s.thread 0 0).owed = false ∧ (s.core 0).verify = false ∧ (s.thread 0 0).stop = r.2 ∧
        (s.thread 0 0).undos = [] ∧ selShape (s.thread 0 0).sel = ⟨128, 1, 0x10, 0⟩ ∧ shapeFault (tile 128 1 0x10 0) = none ∧ r.1 < 8 ∧
        (min 8 ((r.1 / (kblock 0x10 / 16) + 1) * (kblock 0x10 / 16)) < 8 ↔ r.1 = 0)) := by
  and_intros <;> first
    | decide +kernel
    | refine can ?_; decide +kernel
    | refine isVec ?_; decide +kernel
    | refine grps ?_; decide +kernel

/-! ## Witnesses: engines, zones, tasks -/

/-- Images (R317, R321, R326, R330): one dimension of `n` elements of 2^`esz` bytes; a tile of 8 by 1 in binary32; a put; a sum in binary32. -/
def cpyImg (fill : Bool) (src dst esz n : Nat) : List Byte :=
  natLe 7 src ++ natLe 1 (esz + 16) ++ natLe 8 dst ++ natLe 12 n ++ natLe 18 (if fill then 0 else 1) ++ natLe 18 1
def cpytImg (src dst : Nat) : List Byte := natLe 8 src ++ natLe 8 dst ++ natLe 8 (8 + 2 ^ 11) ++ natLe 8 4 ++ natLe 32 0
def putImg (src slot len : Nat) : List Byte := natLe 8 src ++ natLe 4 slot ++ natLe 4 len ++ natLe 48 0
def redImg (loc zin slot len sig gate sval : Nat) : List Byte :=
  natLe 7 loc ++ natLe 1 0x10 ++ natLe 1 zin ++ natLe 1 slot ++ natLe 1 1 ++ natLe 1 0 ++ natLe 4 len ++ natLe 7 sig ++ natLe 1 gate ++ natLe 8 sval ++ natLe 32 0
def wordsOf (b : List Byte) : List Nat := (List.range 8).map fun j => leNat ((b.drop (8 * j)).take 8)
def imgOf (t : Thread) (r : Nat) : List Byte := (List.range 8).flatMap fun j => natLe 8 (t.word r j).bits.toNat
def aCmd (op : Op) (img : List Byte) (num : Nat) : Cmd :=
  { op, img, num, tag := some 63, zone := 15, site := {}, fill := 0x0807060504030201, seq := 1, pc := 0 }

/-- Every form with 31 commands in the FIFO; images that break a limit, and one longer than the slots of its open zone; a site outside the grid; a full
FIFO. -/
theorem wit_EnginePushes :
    let f (t : Thread) : Thread := vec 8 (wordsOf (cpyImg false spad (spad + 64) 6 2)) (vec 12 (wordsOf (cpyImg true 0 spad 0 1)) (vec 16 (wordsOf (cpytImg spad 0xFF020000000000))
      (vec 20 (wordsOf (putImg spad 63 65536)) (vec 24 (wordsOf (redImg spad 15 63 64 (spad + 8) 1 2)) t))))
    let s := th [] fun t => f { t with fifo := List.replicate 31 (aCmd .lzres [] 0), outs := List.replicate 15 (0, 0) }
    let t := s.thread 0 0
    let far : Site := { chip := 1023, row := 11, col := 11 }
    (CopyImg.parse false (imgOf t 8) ≠ none ∧ CopyImg.parse true (imgOf t 12) ≠ none ∧ TileImg.parse (imgOf t 16) ≠ none ∧ PutImg.parse (imgOf t 20) ≠ none ∧
        (RedImg.parse (imgOf t 24)).map (fun g => (g.toRemote, g.toLocal)) = some (false, true)) ∧
      (∀ r ∈ [8, 12, 16, 20, 24, 40], ∀ h, h < 32 → t.readPres r h = .pres) ∧ t.fifo.length < 32 ∧ t.outs.length + t.outRes < 16 ∧ s.enabled ({} : Site).core = true ∧
      s.partOf ({} : Site).core = s.partOf 0 ∧ far.inGrid = true ∧ far.chip ≠ s.chip ∧ ((s.core 0).zones.getD 15 {}).isOpen = false ∧
      CopyImg.parse false (imgOf t 40) = none ∧ TileImg.parse (imgOf t 40) = none ∧ RedImg.parse (imgOf t 40) = none ∧
      CopyImg.parse true (imgOf t 40) = none ∧ PutImg.parse (imgOf t 40) = none ∧ ¬ ({ row := 12 } : Site).row.toNat < 12 ∧
      Can s x0 [1] [.cfill {} 40 1 0, .lzput {} 40 {} 0 0, .lzput {} 20 { row := 12 } 0 1, .lzres {} { row := 12 } 0, .cpy {} 8 63, .cpyt {} 16 0, .cfill {} 12 1 1, .lzput {} 20 {} 15 1, .lzput {} 20 far 0 1, .xred {} 24 far 15 1, .lzres {} {} 15, .lzres {} far 0,
        .lzclean {} 15, .cpy {} 40 0, .cpyt {} 40 0, .xred {} 40 {} 0 0] ∧
      (let s := th [] fun t => { t with fifo := List.replicate 32 (aCmd .lzres [] 0) }
       ¬ (s.thread 0 0).fifo.length < 32 ∧ Can s x0 [1] [.cpy {} 8 0, .cpyt {} 8 0, .cfill {} 8 1 0, .lzres {} {} 0, .lzput {} 8 {} 0 0, .lzclean {} 0, .xred {} 8 {} 0 0]) ∧
      (let z : Zone := { isOpen := true, cnt := 1, slots := [{}] }
       let s := th [] f (on.modCore 0 fun c => { c with zones := c.zones.set 15 z })
       (RedImg.parse (imgOf (vec 24 (wordsOf (redImg spad 15 0 128 0 0 0)) {}) 24)).map (fun g => (g.zin, g.len)) = some (15, 128) ∧
        (s.core 0).zones.getD 15 {} = z ∧ z.isOpen = true ∧ 2 ^ (z.lsz.toNat + 6) < 128 ∧ Can s x0 [] [.xred {} 24 {} 0 0]) := by
  and_intros
  all_goals first
    | decide +kernel
    | (refine can ?_; decide +kernel)

/-- Tag 63 of a mask of two, and no tag; an output and none; a key in entry 255, and one that is not there. -/
theorem wit_TagsAndOutputs :
    let s := th [(1, 0), (2, 2 ^ 63), (3, 2 ^ 63 + 1), (4, 1), (5, 77), (6, 255)] (fun t => { t with tags := 1#64 <<< 63, cerr := 1#64 <<< 63, outs := [(9, 1), (8, 2)] })
      (on.modCore 0 fun c => { c with tagTab := [(255, ⟨true, 77, 5⟩)] })
    let g (r : Reg) : W64 := (s.thread 0 0).tags &&& s.scalar x0 r
    Can s x0 [1, 2, 3, 4, 5, 6] [.cwany {} 7 1, .cwany {} 7 2, .cwany {} 7 4, .cwall {} 7 2, .cwall {} 7 3, .cffr {} 7 4, .cffr {} 7 3, .ctclr {} 3, .epop {} 63,
        .tglk {} 7 5, .tglk {} 7 4, .tgset {} 5 4 6, .tgset {} 4 5 6, .tginv {} 6 .entry, .tginv {} 5 .key, .tginv {} 0 .all] ∧
      s.scalar x0 1 = 0 ∧ g 2 ≠ 0 ∧ s.scalar x0 4 ≠ 0 ∧ g 4 = 0 ∧ g 2 = s.scalar x0 2 ∧ g 3 ≠ s.scalar x0 3 ∧ (g 3).getLsbD 63 = true ∧
      (∀ j, j < 63 → (g 3).getLsbD j = false) ∧ (s.thread 0 0).outs = [(9, 1), (8, 2)] ∧ (s.core 0).tagTab = [(255, ⟨true, 77, 5⟩)] ∧
      ((s.core 0).tagTab.map (·.1)).Nodup ∧ (s.scalar x0 6).toNat < 256 ∧ (s.scalar x0 4).toNat < 2 ^ 32 ∧
      (let s := th []; (s.thread 0 0).outs = [] ∧ Can s x0 [] [.epop {} 1]) := by
  and_intros <;> first
    | decide +kernel
    | refine can ?_; decide +kernel

/-- A zone of 64 slots of 64 bytes at the end of the receive region, of which slot 63 has arrived. -/
def aZone : Zone :=
  { isOpen := true, cnt := 64, base := 0x7F000, bar := 0x7EFF8, slots := (List.replicate 63 {}) ++ [⟨.arrived, {}⟩] }
def zoned : State := on.modCore 0 fun c => { c with zones := c.zones.set 15 aZone, live := [0x7EFF8 / 8], sp := [(0x7EFF8, 64)] }

/-- The largest and the smallest geometry; an open zone whose arrived slot is asked for, with and without the others; limits of 0 and past. -/
theorem wit_ZoneInstructions :
    (let ga := 64 * 2 ^ 24 + 0x7F000
     let s := th [(1, ga), (2, 0x7EFF8 + 2 ^ 41), (3, 2 ^ 24 + 10 * 2 ^ 20), (4, 0x10000)] id (on.modCore 0 fun c => { c with live := [0x7EFF8 / 8, 0x10000 / 8] })
     Can s x0 [1, 2, 3, 4] [.lzopen {} 1 2 15, .lzopen {} 3 4 0, .lzclose {} 0, .lzfree {} 1 0, .lzwait {} 5 1 2 true 0] ∧
      (∀ j, j < 16 → ((s.core 0).zones.getD j {}).isOpen = false) ∧ (s.core 0).live = [0x7EFF8 / 8, 0x10000 / 8] ∧
      (∀ e ∈ [((s.scalar x0 1).toNat, (s.scalar x0 2).toNat), ((s.scalar x0 3).toNat, (s.scalar x0 4).toNat)],
        let cnt := e.1 / 2 ^ 24
        let lsz := e.1 / 2 ^ 20 % 16
        let base := e.1 % 2 ^ 20
        let bar := e.2 % 2 ^ 20
        e.1 < 2 ^ 31 ∧ base < 2 ^ 19 ∧ e.2 < 2 ^ 42 ∧ e.2 / 2 ^ 30 % 4 = 0 ∧ bar < 2 ^ 19 ∧ 1 ≤ cnt ∧ cnt ≤ 64 ∧ lsz ≤ 10 ∧ base % 2 ^ (lsz + 6) = 0 ∧
          base + cnt * 2 ^ (lsz + 6) ≤ 0x80000 ∧ (base + cnt * 2 ^ (lsz + 6) ≤ bar ∨ bar + 8 ≤ base) ∧ bar % 8 = 0)) ∧
    (let s := th [(1, 2 ^ 63), (2, 5), (3, 2 ^ 63 + 1), (4, 0)] id zoned
     Can s x0 [1, 2, 3, 4] [.lzclose {} 15, .lzwait {} 5 1 2 false 15, .lzwait {} 5 3 2 true 15, .lzwait {} 5 3 4 false 15, .lzwait {} 5 3 2 false 15, .lzfree {} 3 15, .lzopen {} 1 2 15] ∧
      (s.core 0).zones.getD 15 {} = aZone ∧ aZone.isOpen = true ∧ aZone.slots.length = 64 ∧ (aZone.slots.getD 63 {}).st = .arrived ∧
      (aZone.slots.getD 0 {}).st ≠ .arrived ∧ (s.scalar x0 3).getLsbD 0 = true ∧ (s.thread 0 0).st = .running ∧ s.scalar x0 4 = 0 ∧ s.scalar x0 2 ≠ 0) ∧
    (let s := { th [] fun t => { t with st := .waiting (.lzwait 3 5 false true 1 15) } with reft := 8 }
     (s.thread 0 0).st = .waiting (.lzwait 3 5 false true 1 15) ∧ clocked s 0 = true ∧ (5 : W64) ≤ s.reftAt 0 - 3) := by
  and_intros <;> first
    | decide +kernel
    | refine can ?_; decide +kernel

/-- A command held by an engine of core 0 for thread 0. -/
def aPend (op : Op) (img : List Byte) (ph : Phase) : Pend :=
  { id := 4, cmd := aCmd op img 4, owner := .live 0 0, part := 0, inst := 3, queue := 0, done := 0, segs := 0, phase := ph }

/-- Requests to a site without a core, a closed zone, a zone of other chips, a full one, and one with a free slot; an answer; a put of a slot that
its sender holds, and one that it does not; an acknowledgement of either kind. -/
theorem wit_ZoneMessages :
    (let q : ResReq := ⟨{}, 0, 1, {}, 15⟩
     let s := zoned
     edgeHeld s {} = false ∧ q.src.chip = s.chip ∧ ({} : Site).inGrid = true ∧ s.enabled 0 = true ∧ s.partOf 0 = some 0 ∧ s.fabricOf 0 = 0 ∧
      ({ row := 12 } : Site).inGrid = false ∧ ((s.core 0).zones.getD 15 {}).isOpen = true ∧ ((s.core 0).zones.getD 14 {}).isOpen = false ∧
      q.src.chip &&& aZone.mask = aZone.accept &&& aZone.mask ∧ (aZone.slots.getD 0 {}).st = .free ∧
      (let z := { aZone with mask := 1, accept := 1 }; ¬ q.src.chip &&& z.mask = z.accept &&& z.mask) ∧
      (let z := { aZone with slots := List.replicate 64 ⟨.arrived, {}⟩ }; ∀ j, j < 64 → (z.slots.getD j {}).st ≠ .free)) ∧
    (let p := { aPend .lzres [] .sent with cmd := { aCmd .lzres [] 4 with tag := none } }
     let s := on.modCore 0 fun c => { c with units := [p] }
     findPend s 0 4 = some p ∧ p.phase = .sent ∧ p.owner = .live 0 0 ∧ p.cmd.tag = none ∧ ∀ b ∈ (s.part 0).brk.toList, b.kind ≠ .cmd) ∧
    (let z := { aZone with slots := aZone.slots.set 0 ⟨.reserved, {}⟩ }
     let s := on.modCore 0 fun c => { c with zones := c.zones.set 15 z, live := [0x7EFF8 / 8], sp := [(0x7EFF8, 64)] }
     let l : Land := ⟨{}, 0, 9, {}, 15, 0, List.replicate 64 7, []⟩
     edgeHeld s l.dst = false ∧ l.src.chip = s.chip ∧ (s.core 0).zones.getD 15 {} = z ∧ z.slots.getD 0 {} = ⟨.reserved, l.src⟩ ∧
      l.bytes.length ≤ 2 ^ (z.lsz.toNat + 6) ∧ touchesLive s (.sp 0 0x7F000) 64 = false ∧ (s.core 0).pois = [] ∧ l.pois = [] ∧ l.bytes.length % 64 = 0 ∧
      z.bar.toNat + 8 ≤ z.base.toNat ∧ s.memOk = true ∧ (z.slots.getD 1 {}).st ≠ .reserved ∧
      (let u := s.modCore 0 fun c => { c with live := [0x7F000 / 8] }
       edgeHeld u l.dst = false ∧ touchesLive u (.sp 0 0x7F000) 64 = true ∧ (u.core 0).zones.getD 15 {} = z)) ∧
    (let p := aPend .lzput [] .forwarded
     let s := on.modCore 0 fun c => { c with units := [p] }
     findPend s 0 4 = some p ∧ p.phase = .forwarded ∧ p.cmd.op = .lzput ∧ p.owner = .live 0 0 ∧ p.cmd.tag = some 63 ∧ (s.part 0).fq.length < 256 ∧
      (s.part 0).fqWait = [] ∧ ({ dst := {}, id := 4, cause := 9 } : Ack).cause ≠ 0 ∧ ({ dst := {}, id := 4, cause := 0 } : Ack).dst.chip = s.chip) := by
  decide +kernel

/-- An access of an engine reaches `at'`, as `EngineSteps` asks. -/
def goesB (s : State) (at' : W64 → Loc) (kind : Access) (ea : W64) (n : Nat) : Bool :=
  (match locate s 0 kind ea with | .ok (l, _) => l == at' ea | _ => false) && (match at' ea with | .host _ => false | _ => true) &&
    uncached s 0 ea && decide (ea.toNat % 4096 + n ≤ 4096) && !relockHeld s (at' ea)

def Goes (s : State) (at' : W64 → Loc) (kind : Access) (ea : W64) (n : Nat) : Prop :=
  (∃ leaf, locate s 0 kind ea = .ok (at' ea, leaf)) ∧ (∀ p, at' ea ≠ .host p) ∧ Fresh s 0 ea ∧ ea.toNat % 4096 + n ≤ 4096 ∧ relockHeld s (at' ea) = false

theorem goes {s : State} {at' : W64 → Loc} {kind : Access} {ea : W64} {n : Nat} (h : goesB s at' kind ea n = true) : Goes s at' kind ea n := by
  simp only [goesB, Bool.and_eq_true, decide_eq_true_eq, Bool.not_eq_true'] at h
  obtain ⟨⟨⟨⟨h1, h2⟩, h3⟩, h4⟩, h5⟩ := h
  refine ⟨?_, fun p e => by rw [e] at h2; exact absurd h2 (by simp), fresh h3, h4, h5⟩
  split at h1
  · rename_i l leaf e; exact ⟨leaf, by rw [e, beq_iff_eq.mp h1]⟩
  · exact absurd h1 (by simp)

theorem add_inj {a b : W64} {i j : Nat} (h : (inSp a).add i = (inSp b).add j) : a.toNat - spad + i = b.toNat - spad + j := (Loc.sp.inj h).2

/-- The tile store of core 0 (R205), and the location of an address in it or in the scratchpad. -/
def tsBase : Nat := 0xFF020000000000
def inCore (a : W64) : Loc := if tsBase ≤ a.toNat then .ts 0 (a.toNat - tsBase) else inSp a

/-- The command may read `n` bytes at `ea`, of blocks that it does not hold yet, as `EngineSteps` asks. -/
def Takes (s : State) (p : Pend) (ea : W64) (n : Nat) : Prop := Goes s inCore .read ea n ∧ ownSource s 0 p.cmd ea n = false ∧
  ∀ j, j < n → (p.blocks.find? fun b => b.1 == (ea.toNat + j) / 64) = none →
    ∀ q ∈ p.cmd.covers p.done ((ea.toNat + j) / 64), cmdBlocked s 0 p.cmd p.owner [⟨false, ((inCore ea).add j).block.add q.1, q.2⟩] = false

def takesB (s : State) (p : Pend) (ea : W64) (n : Nat) : Bool := goesB s inCore .read ea n && !ownSource s 0 p.cmd ea n &&
  (List.range n).all fun j => (p.blocks.find? fun b => b.1 == (ea.toNat + j) / 64).isSome ||
    (p.cmd.covers p.done ((ea.toNat + j) / 64)).all fun q => !cmdBlocked s 0 p.cmd p.owner [⟨false, ((inCore ea).add j).block.add q.1, q.2⟩]

theorem takes {s : State} {p : Pend} {ea : W64} {n : Nat} (h : takesB s p ea n = true) : Takes s p ea n := by
  simp only [takesB, Bool.and_eq_true, Bool.not_eq_true', List.all_eq_true, List.mem_range, Bool.or_eq_true] at h
  refine ⟨goes h.1.1, h.1.2, fun j hj hn q hq => ?_⟩
  rcases h.2 j hj with h | h
  · rw [hn] at h; cases h
  · exact h q hq

/-- The heads of six FIFOs, and one whose thread has an older vector load in its pipe; a copy of two 64-byte elements, of which one is left over, with its source block read and not, and a fill whose last segment
it is; the only block of a tile; the first of two segments of a put, and the last; an `xred` whose gate is met, and one whose input has arrived. -/
theorem wit_EngineSteps :
    (let m := { aCmd .lzres [] 4 with past := 1 }
     let s := th [] (fun t => { t with task := some aTask, fifo := [m] }) (on.modCore 0 fun c => { c with pipeM := [queued (.vld {} none 8 4 .w 0)] })
     (s.thread 0 0).fifo = [m] ∧ released s 0 0 m = false) ∧
    (∀ op ∈ ([.lzput, .cpy, .cpyt, .cfill, .lzres, .lzclean] : List Op),
      let img := match op with | .cpyt => cpytImg spad tsBase | .cfill => cpyImg true 0 spad 0 1 | _ => cpyImg false spad (spad + 64) 6 2
      let m : Cmd := { aCmd op img 4 with tag := if op = .lzclean ∨ op = .lzres then none else some 63 }
      let s := th [] fun t => { t with task := some aTask, fifo := [m] }
      (s.thread 0 0).fifo = [m] ∧ (s.thread 0 0).task = some aTask ∧ clocked s 0 = true ∧ (s.thread 0 0).st ≠ .frozen ∧ copyQueued (s.core 0) = [] ∧
        intoLive s 0 m = false ∧ m.own = false ∧ released s 0 0 m = true ∧ (op = .cpy ∨ op = .cpyt ∨ op = .cfill → m.total ≠ 0) ∧ m.site.chip = s.chip ∧
        (∀ b ∈ (s.part 0).brk.toList, b.kind ≠ .cmd)) ∧
    (∀ e ∈ ([(true, []), (false, []), (false, [(spad / 64, List.replicate 64 (7, false))])] : List (Bool × List (Nat × List PByte))),
      let g : CopyImg := if e.1 then ⟨0, spad + 64, 3, 1, [1], [0], [1]⟩ else ⟨spad, spad + 64, 6, 1, [2], [1], [1]⟩
      let p := { aPend (if e.1 then .cfill else .cpy) (if e.1 then cpyImg true 0 (spad + 64) 3 1 else cpyImg false spad (spad + 64) 6 2) .run with blocks := e.2 }
      let s := on.modCore 0 fun c => { c with copyQ := [p] }
      findPend s 0 4 = some p ∧ clocked s 0 = true ∧ s.memOk = true ∧ CopyImg.parse e.1 p.cmd.img = some g ∧ p.done < g.elems ∧ g.segElems 0 = [0] ∧
        (if e.1 then g.elems ≤ 1 else ¬ g.elems ≤ 1) ∧ goesB s inCore .write (g.dstAt 0) g.size = true ∧ (g.dstAt 0).toNat % g.size = 0 ∧
        (e.1 = false → (g.srcAt 0).toNat % g.size = 0 ∧ takesB s p (g.srcAt 0) g.size = true) ∧
        cmdBlocked s 0 p.cmd p.owner [⟨true, inCore (g.dstAt 0), g.size⟩] = false ∧ touchesLive s (inCore (g.dstAt 0)) g.size = false ∧
        (inCore (g.dstAt 0)).inBlock + g.size ≤ 64) ∧
    (let g : TileImg := ⟨spad, tsBase, ⟨8, 1, 0, 0⟩, 4, 0⟩
     let p := aPend .cpyt (cpytImg spad tsBase) .run
     let s := on.modCore 0 fun c => { c with copyQ := [p] }
     findPend s 0 4 = some p ∧ clocked s 0 = true ∧ s.memOk = true ∧ TileImg.parse p.cmd.img = some g ∧ p.done < g.segs ∧ g.segs ≤ p.done + 1 ∧
      (∀ e ∈ g.reads p.done, takesB s p e.1 e.2 = true) ∧ goesB s inCore .write (g.dstAt p.done) 64 = true ∧ inCore (g.dstAt p.done) = .ts 0 0 ∧
      cmdBlocked s 0 p.cmd p.owner [⟨true, inCore (g.dstAt p.done), 64⟩] = false ∧ touchesLive s (inCore (g.dstAt p.done)) 64 = false) ∧
    (∀ d ∈ [0, 1],
      let g : PutImg := ⟨spad, 63, 128⟩
      let p := { aPend .lzput (putImg spad 63 128) .run with done := d, segs := d, buf := List.replicate (64 * d) 0 }
      let s := on.modCore 0 fun c => { c with units := [p] }
      let ea : W64 := BitVec.ofNat 64 (spad + 64 * d)
      findPend s 0 4 = some p ∧ clocked s 0 = true ∧ s.memOk = true ∧ PutImg.parse p.cmd.img = some g ∧ p.done < g.len / 64 ∧ (p.done + 1 < g.len / 64 ↔ d = 0) ∧
        takesB s p ea 64 = true ∧ p.blocks = [] ∧ (inCore ea).inBlock = 0 ∧ p.cmd.site.chip = s.chip) ∧
    (let p := { aPend .xred (redImg spad 15 63 64 (spad + 64) 1 2) .run with gated := true }
     let s := on.modCore 0 fun c => { c with copyQ := [p], sp := [(64, 2)] }
     findPend s 0 4 = some p ∧ (RedImg.parse p.cmd.img).map (fun g => (g.sig, g.sval)) = some (spad + 64, 2) ∧
      goesB s inSp .read (BitVec.ofNat 64 (spad + 64)) 8 = true ∧ 2 ≤ bytesAt s (inSp (BitVec.ofNat 64 (spad + 64))) 8) ∧
    (let p := aPend .xred (redImg spad 15 63 64 0 0 0) .run
     let s := zoned.modCore 0 fun c => { c with copyQ := [p] }
     let adr : W64 := BitVec.ofNat 64 (spad + 64 * 0)
     findPend s 0 4 = some p ∧ p.gated = false ∧ p.slotAt = none ∧ p.buf = [] ∧ s.memOk = true ∧ p.done = 0 ∧
      (∀ w ∈ ([[⟨false, inSp adr, 64⟩, ⟨false, .sp 0 (aZone.slotOff 63), 64⟩], [⟨true, inSp adr, 64⟩]] : List (List Piece)),
        cmdBlocked s 0 p.cmd p.owner (p.cmd.compared s 0 w) = false) ∧
      (RedImg.parse p.cmd.img).map (fun g => (g.loc, g.len, g.slotIn, g.toLocal, g.toRemote, g.fits (s.core 0))) = some (spad, 64, 63, true, false, true) ∧
      (((s.core 0).zones.getD 15 {}).slots.getD 63 {}).st = .arrived ∧ (goesB s inSp .read adr 64 && goesB s inSp .write adr 64) = true ∧ (inSp adr).inBlock = 0 ∧
      relockHeld s (.sp 0 (aZone.slotOff 63)) = false ∧ touchesLive s (inSp adr) 64 = false ∧ WalkKept s 0 adr (fun a => ∃ j i, j < 1 ∧ i < 64 ∧ (inSp adr).add i = .hbm a)) := by
  and_intros
  all_goals first
    | decide +kernel
    | (refine walkKept ?_ ?_ <;> decide +kernel)

theorem slots_none (t : Thread) (h : t.slots = Vector.replicate 8 none) (j : Nat) : t.slots.getD j none = none := by
  rw [h]; by_cases c : j < 8 <;> simp [Vector.getD, c]

/-- Buffer 0 set FULL that is FULL and set EMPTY; a buffer number past the last; the last queue; the last class, cleared, loaded, and with a reserved bit;
a core that bids, one that is suspect, and an invalid class; `texit` with and without a command left. -/
theorem wit_TaskInstructions :
    let cls (hi : Nat) (s : State) : State := s.modCore 0 fun c => { c with sp := Memory.write c.sp 0 (natLe 8 0 ++ natLe 8 hi) }
    let task (t : Thread) : Thread := { t with task := some aTask }
    let R (s : State) (n : Nat) : Prop := Reaches s x0 .read n false (s.scalar x0 1) (.sp 0 0) ∧ (readLoc s (.sp 0 0) n).2 = false
    (let s := th [(1, 1), (2, 0), (3, 0xFFFF)] task tasked
     (s.thread 0 0).task = some aTask ∧ findInst s 0 3 = some anInst ∧ (∀ r h, (s.thread 0 0).halfPres r h = .pres) ∧ (s.core 0).mire = [] ∧
      (∀ j, (s.thread 0 0).slots.getD j none = none) ∧ (s.thread 0 0).fifo = [] ∧ (∀ e ∈ s.cores, e.2.copyQ ++ e.2.units = []) ∧ anInst.bufs.length = 1 ∧
      aBuf.full = true ∧ aBuf.wr = false ∧ aBuf.rd = 0 ∧
      Can s x0 [1, 2, 3] [.tsusp {}, .texit {}, .tbtest {} 63 2, .tbset {} 5 2 true, .tbset {} 5 2 false, .tbtest {} 5 1, .tbset {} 5 3 true]) ∧
    (let s := th [] (fun t => task { t with fifo := [aCmd .lzres [] 0] }) tasked
     (s.thread 0 0).fifo ≠ [] ∧ (∀ r h, (s.thread 0 0).halfPres r h = .pres) ∧ Can s x0 [] [.texit {}]) ∧
    (let s := th [(1, spad), (2, 63)] task { tasked with parts := [(0, { insts := [anInst], queues := (Vector.replicate 64 {}).set 63 { enabled := true } })] }
     R s 64 ∧ (s.scalar x0 2).toNat < 64 ∧ s.partOf 0 = some 0 ∧ ((s.part 0).queues.getD 63 {}).enabled = true ∧ ((s.part 0).queues.getD 63 {}).recs = [] ∧
      Can s x0 [1, 2] [.glaunch {} 1 2]) ∧
    (∀ hi ∈ [0, 2 ^ 63 + 1024 * 2 ^ 32, 2 ^ 63 + 8 * 2 ^ 32, 2 ^ 63 + 7 * 2 ^ 32, 2 ^ 63 + 2 ^ 43 + 8 * 2 ^ 32],
      let s := th [(1, spad), (2, 15)] task (cls hi tasked)
      reachesB s x0 .read 16 false (s.scalar x0 1) (.sp 0 0) = true ∧ (readLoc s (.sp 0 0) 16).2 = false ∧ (s.scalar x0 2).toNat < 16 ∧
        bytesAt s (.sp 0 0) 8 = 0 ∧ bytesAt s (.sp 0 8) 8 = hi ∧ (hi < 2 ^ 63 ↔ hi = 0) ∧ canB s x0 [1, 2] [.tdclass {} 1 2] = true) ∧
    (∀ bad ∈ [false, true],
      let s := th [(1, 15), (2, 0), (3, 14)] task { tasked with pavs := [(0, { part := some 0, classes := (Vector.replicate 16 {}).set 15 { valid := true, win := 8 } })]
                                                                cores := [(0, { suspect := bad })] }
      let cl := (s.pav 0).classes.getD 15 {}
      (s.scalar x0 1).toNat < 16 ∧ (s.scalar x0 2).toNat < anInst.nodes.length ∧ (s.pav anInst.home).part = some 0 ∧ cl.valid = true ∧
        ((s.pav 0).classes.getD 14 {}).valid = false ∧ (s.core 0).suspect = bad ∧ s.enabled 0 = true ∧ s.partOf 0 = some 0 ∧ (s.pav 0).scrub = none ∧
        (s.thread 0 1).st = .free ∧ reserved s 0 1 = false ∧ (cl.cfeat ||| aNode.feat) &&& ~~~(s.featmask 0) = 0 ∧
        canB s x0 [1, 2, 3] [.tdoffer {} 63 1 2, .tdoffer {} 63 3 2] = true) := by
  and_intros
  all_goals first
    | decide +kernel
    | (refine can ?_; decide +kernel)
    | (refine reaches ?_; decide +kernel)
    | (refine slots_none _ ?_; decide +kernel)
    | (refine clear_half ?_; decide +kernel)

def isReady (l : Launch) (h : Nat) (n : List Node) (b : List Buf) (g : Option Gang) : Bool :=
  match l with
  | .ready h' n' b' g' => h' == h && n' == n && b' == b && g' == g
  | _ => false

theorem launch_ready {l : Launch} {h : Nat} {n : List Node} {b : List Buf} {g : Option Gang} (e : isReady l h n b g = true) : l = .ready h n b g := by
  cases l <;> simp_all [isReady]

theorem launch_refused {l : Launch} (e : (match l with | .refused => true | _ => false) = true) : l = .refused := by cases l <;> simp_all

/-- An image (R288) of one pinned node without buffers at 0x10000, and a list of members 0 and 1 at 0x10100. -/
def imaged (q : List Byte) : State :=
  { paged with
    hbm := Memory.write (Memory.write paged.hbm 0x10000 (natLe 4 0x47415247 ++ natLe 4 1 ++ natLe 8 1 ++ natLe 8 64 ++ natLe 8 64)) 0x10102 (natLe 2 1)
    parts := [(0, { root := 0x1001, queues := (Vector.replicate 64 {}).set 63 { enabled := true, prio := 3, recs := [q] } })] }
def aLaunch (img lfl mlist midx mcnt : Nat) : List Byte :=
  natLe 8 img ++ natLe 8 0x20000 ++ natLe 8 77 ++ natLe 4 (lfl * 256) ++ natLe 4 0 ++ natLe 8 mlist ++ natLe 2 midx ++ natLe 2 mcnt ++ natLe 20 0

/-- A node that may claim: its input is FULL, its output EMPTY. -/
def claimer (st : NodeState) : Inst :=
  { anInst with nodes := [{ aNode with ins := [0], outs := [1], st := st }], bufs := [aBuf, { aBuf with full := false }] }

/-- An enabled queue with room, a full one, and one that is not enabled; a record that becomes an instance, one of a gang, and one without an image;
a fresh node and a saved task at the head of a dispatcher; a node that claims, retires, and with it ends its instance; a completion to HBM. -/
theorem wit_LaunchesAndClaims :
    (let s := imaged (List.replicate 64 1)
     (List.replicate 64 (1 : Byte)).length = 64 ∧ s.reaches 0 = true ∧ ((s.part 0).queues.getD 63 {}).enabled = true ∧
      ((s.part 0).queues.getD 63 {}).recs.length < 256 ∧ ((s.part 0).queues.getD 0 {}).enabled = false ∧ (s.part 0).fq.length < 256 ∧ (s.part 0).fqWait = []) ∧
    (∀ r ∈ [aLaunch 0x10000 0 0 0 0, aLaunch 0x10000 1 0x10100 0 2, aLaunch 0 0 0 0 0],
      let s := imaged r
      let q := (s.part 0).queues.getD 63 {}
      q.enabled = true ∧ q.prio < 4 ∧ q.recs = [r] ∧ (s.part 0).insts.length < 256 ∧ (∀ j, j < 64 → j ≠ 63 → ((s.part 0).queues.getD j {}).enabled = false) ∧ s.memOk = true) ∧
    (checkLaunch (imaged (aLaunch 0x10000 0 0 0 0)) 0 3 (aLaunch 0x10000 0 0 0 0) = .ready 0 [{ aNode with prio := 3, outs := [], st := .pending }] [] none ∧
      checkLaunch (imaged (aLaunch 0x10000 1 0x10100 0 2)) 0 3 (aLaunch 0x10000 1 0x10100 0 2) =
        .ready 0 [{ aNode with prio := 3, outs := [], st := .pending }] [] (some { gid := 0, members := [0, 1], idx := 0 }) ∧
      checkLaunch (imaged (aLaunch 0 0 0 0 0)) 0 3 (aLaunch 0 0 0 0 0) = .refused ∧
      (match locatePart (imaged (aLaunch 0 0 0 0 0)) 0 .write (BitVec.ofNat 64 (leAt (aLaunch 0 0 0 0 0) 8 8)) with | .ok l => l == .hbm 0x20000 | _ => false) = true) ∧
    (let g : Inst := { anInst with nodes := [{ aNode with prio := 3, st := .eligible }] }
     let s : State := { on with pavs := [(0, { part := some 0, disp := (Vector.replicate 4 []).set 3 [.fresh 0 3 0] })], parts := [(0, { insts := [g] })] }
     (s.pav 0).part = some 0 ∧ (s.pav 0).scrub = none ∧ (s.pav 0).disp.getD 3 [] = [.fresh 0 3 0] ∧ (∀ j, j < 3 → (s.pav 0).disp.getD j [] = []) ∧
      (∀ j, j < 4 → (s.pav 0).passed.getD j 0 < 64) ∧ (∀ l ∈ (s.pav 0).disp.toList, ∀ e ∈ l, victimFreed s e = false) ∧ findInst s 0 3 = some g ∧
      takesTasks s 0 0 = true ∧ aNode.feat &&& ~~~(s.featmask 0) = 0 ∧ (s.thread 0 3).st = .free ∧ reserved s 0 3 = false ∧ aNode.pin.core = 0) ∧
    (let x : Saved := { task := aTask, home := 0, wait := .none }
     let s : State := { on with pavs := [(0, { part := some 0, disp := (Vector.replicate 4 []).set 0 [.resume 0 2] })], parts := [(0, { insts := [anInst], saved := [(2, x)] })] }
     (s.pav 0).disp.getD 0 [] = [.resume 0 2] ∧ (∀ l ∈ (s.pav 0).disp.toList, ∀ e ∈ l, victimFreed s e = false) ∧ mapGet (s.part 0).saved 2 = some x ∧
      findInst s 0 3 = some anInst ∧ x.task.prio = 0 ∧ takesTasks s 0 0 = true ∧ (s.thread 0 0).st = .free ∧ reserved s 0 0 = false) ∧
    (let s : State := { on with parts := [(0, { insts := [claimer .pending] })] }
     findInst s 0 3 = some (claimer .pending) ∧ nodeReady (claimer .pending).bufs ((claimer .pending).nodes.getD 0 default) = true ∧
      (([0] ++ [1] : List Nat)).Nodup ∧ (claimer .pending).gang = none ∧ (claimer .pending).aborted = false) ∧
    (let s : State := { on with parts := [(0, { insts := [{ claimer .pending with gang := some { gid := 1, members := [0, 1], idx := 0 } }] })] }
     (findInst s 0 3).map (fun i => i.gang.map (·.committed)) = some (some false)) ∧
    (let s : State := { paged with parts := [(0, { root := 0x1001, insts := [{ claimer .placed with caddr := 0x20000 }] })] }
     findInst s 0 3 = some { claimer .placed with caddr := 0x20000 } ∧ (∀ i ∈ (s.part 0).insts, i.id = 3 → i = { claimer .placed with caddr := 0x20000 }) ∧ s.memOk = true ∧
      (∀ e ∈ s.cores, ∀ j, j < 4 → (s.thread e.1 j).task = none) ∧ (s.part 0).saved = [] ∧
      (match locatePart s 0 .write 0x20000 with | .ok l => l == .hbm 0x20000 | _ => false) = true) := by
  and_intros
  all_goals first
    | decide +kernel
    | (refine launch_ready ?_; decide +kernel)
    | (refine launch_refused ?_; decide +kernel)

/-- A tendered node of an instance, with `n` announcements behind it. -/
def tendInst (n : Nat) : Inst := { anInst with nodes := [{ aNode with tend := true, st := .eligible, announced := n }] }
def aClass : ClassRec := { valid := true, win := 8 }
def tendered (n : Nat) (e : Option Tender) : State :=
  { on with
    reft := 100, parts := [(0, { insts := [tendInst n] })]
    pavs := [(0, { part := some 0, classes := (Vector.replicate 16 {}).set 0 aClass, disp := (Vector.replicate 4 []).set 0 [.fresh 0 3 0], tender := e, serial := 7 })] }
def aTender (bids : List Bid) (ph : TenderPhase) : Tender := ⟨6, 0, 3, 0, aClass, bids, ph⟩

/-- The first, the eighth and the ninth announcement, and the ninth with a frozen context; a bid in time and one too late; a window that closes without bids and with two; an award to a core
with a free context, and to one without; the timer. -/
theorem wit_Tenders :
    (∀ n ∈ [0, 7, 8], let s := tendered n none
      findInst s 0 3 = some (tendInst n) ∧ nextTender s 0 = some (0, 3, 0) ∧ hasFrozen s 0 3 = false ∧ ((classesAt s 0 0).getD 0 {}).valid = true ∧ (n < 8 ↔ n ≠ 8)) ∧
    (let s := th [] (fun t => { t with st := .frozen, task := some aTask }) (tendered 8 none)
     findInst s 0 3 = some (tendInst 8) ∧ nextTender s 0 = some (0, 3, 0) ∧ hasFrozen s 0 3 = true) ∧
    (∀ c ∈ [99, 100], let s := tendered 1 (some (aTender [] (.bidding c)))
      (s.pav 0).tender = some (aTender [] (.bidding c)) ∧ (aTender [] (.bidding c)).serial = 6 ∧ (s.reft.toNat ≤ c ↔ c = 100) ∧ c ≤ s.reft.toNat) ∧
    (let s := tendered 8 (some (aTender [] (.bidding 100))); (s.pav 0).tender = some (aTender [] (.bidding 100)) ∧ hasFrozen s 0 3 = false ∧ findInst s 0 3 = some (tendInst 8)) ∧
    (let a : Bid := ⟨0, 6, 0, 5⟩
     let b : Bid := ⟨0, 6, 1, 5⟩
     let s := tendered 1 (some (aTender [a, b] (.bidding 100)))
     (s.pav 0).tender = some (aTender [a, b] (.bidding 100)) ∧ a.cost = b.cost ∧
      (logicalSite s a.core + 128 - (s.pav 0).rot % 128) % 128 < (logicalSite s b.core + 128 - (s.pav 0).rot % 128) % 128) ∧
    (let s := tendered 1 (some (aTender [] (.awarded 0)))
     (s.pav 0).tender = some (aTender [] (.awarded 0)) ∧ 0 ∈ freeCtxs s 0 ∧ takesTasks s 0 0 = true) ∧
    (let s : State := { tendered 1 (some (aTender [] (.awarded 0))) with cores := [(0, { threads := Vector.replicate 4 { st := .running } })] }
     freeCtxs s 0 = [] ∧ (s.part 0).fq.length < 256 ∧ (s.part 0).fqWait = []) ∧
    (let s := tendered 1 (some (aTender [] (.again 100))); (s.pav 0).tender = some (aTender [] (.again 100)) ∧ 100 ≤ s.reft.toNat) := by decide +kernel

/-- Chips 0 and 1 with a link between them; the leader, and a member, before and after the commit; an acknowledgement that is the last, and one that is not. -/
theorem wit_Gangs :
    let s (g : Gang) : State :=
      { on with reft := 5, links := (Vector.replicate 18 .down).set 17 .up, routes := [(1, 1#18 <<< 17), (2, 1#18 <<< 17)], parts := [(0, { insts := [{ anInst with gang := some g }] })] }
    let lead : Gang := { gid := 9, members := [0, 1], idx := 0 }
    let mem : Gang := { gid := 9, members := [1, 0], idx := 1 }
    (∀ g ∈ [lead, mem, { lead with committed := true }, { mem with committed := true }, { lead with deadline := some 5 }, { mem with deadline := some 5 }, { lead with members := [0, 1, 2] }],
      findInst (s g) 0 3 = some { anInst with gang := some g } ∧ (∀ j ∈ ((s g).part 0).insts, j.id = 3 → j = { anInst with gang := some g }) ∧
        (∀ k, k < g.members.length → routeOk (s g) (g.members.getD k 0) = true) ∧ hasFrozen (s g) 0 3 = false ∧
        ∀ b : Bool, gangInst (s g) ⟨9, 0, g.idx, 1, b⟩ = some (0, { anInst with gang := some g }, g)) ∧
      (setIns lead.acks 1).length + 1 = lead.members.length ∧ (setIns lead.acks 1).length + 1 < [0, 1, 2].length ∧ 1 ∉ lead.acks := by decide +kernel
/-! ## Witnesses: cores, saves, the host, the package -/

/-- Threads 1 and 3 of core 0 run at the start of the scratchpad, where zeros stand, which are an `add`. -/
def ran (off : Nat) : Thread := { st := .running, task := some aTask, pc := BitVec.ofNat 56 (spad + off) }
def two (f : Core → Core) : State := on.modCore 0 fun c => f { c with threads := (c.threads.set 1 (ran 0)).set 3 (ran 0) }

/-- The core as its cycle counts it, its breakpoints looked at. -/
def ticked (s : State) (d : Nat) : State :=
  meetBreakpoints (s.setCore 0 { s.core 0 with cyc := (s.core 0).cyc + 1, frame := ((s.core 0).frame + 1) % 64, frameDuty := d }) 0

/-- A throttled cycle; no context ready; a helper due; round robin; a grant of 255 cycles that is kept, one of 256 that ends, and with no other context; the
heads of queues; a `barwait` that ends and one that does not; scalar results; a core that finishes its cycle in a relock window; a chosen instruction that has
issued before, one that stays where it was, and one that issues, in a thread and in a helper. -/
theorem wit_IssueAndPipes :
    (let s := two fun c => { c with frame := 1, frameDuty := 1 }
     clocked s 0 = true ∧ (s.core 0).frame ≠ 0 ∧ (1 + 1) * 1 / 64 = 1 * 1 / 64) ∧
    (let s := on
     clocked s 0 = true ∧ (s.core 0).frame = 0 ∧ 0 * 64 / 64 < (0 + 1) * 64 / 64 ∧ (s.part 0).duty = 64 ∧ ∀ j, j < 6 → ctxReady (ticked s 64) ⟨0, j⟩ = false) ∧
    (let s := two fun c => { c with mire := [aRec 7 8 6 2], sinceHelper := 7 }
     (oldestReady (s.core 0)).isSome = true ∧ ctxReady (ticked s 64) ⟨0, 4⟩ = true ∧ 7 ≤ (s.core 0).sinceHelper ∧ (∀ j, j < 6 → (s.core 0).wait.getD j 0 = 0)) ∧
    (let s := two fun c => { c with corecfg := 1 }
     oldestReady (s.core 0) = none ∧ (s.core 0).corecfg.getLsbD 0 = true ∧ (s.core 0).glast = 5 ∧ (5 + 2) % 6 = 1 ∧ ctxReady (ticked s 64) ⟨0, 1⟩ = true ∧
      ctxReady (ticked s 64) ⟨0, 0⟩ = false) ∧
    (∀ n ∈ [255, 256],
      let s := two fun c => { c with gcur := some 1, grun := n }
      (s.core 0).corecfg.getLsbD 0 = false ∧ (s.core 0).gcur = some 1 ∧ ctxReady (ticked s 64) ⟨0, 1⟩ = true ∧ ctxReady (ticked s 64) ⟨0, 3⟩ = true ∧
        yldOf (s.core 0) 1 = false ∧ ((s.core 0).grun < 256 ↔ n = 255) ∧ (∀ j ∈ [0, 2, 4, 5], ctxReady (ticked s 64) ⟨0, j⟩ = false)) ∧
    (let s := (two fun c => { c with gcur := some 1, grun := 256 }).modThread 0 3 fun _ => {}
     ctxReady (ticked s 64) ⟨0, 1⟩ = true ∧ ∀ j ∈ [0, 2, 3, 4, 5], ctxReady (ticked s 64) ⟨0, j⟩ = false) ∧
    (∀ w ∈ ([.queued, .presence, .range, .host, .mireRoom, .plane, .elder] : List LaneWait),
      let e : PipeEntry := { queued (.vadd {} none 4 8 12 2) with why := w }
      let s := on.modCore 0 fun c => { c with pipeA := [e] }
      s.pipe 0 .a = [e] ∧ s.hasElder 0 e.thr e.num = false ∧ dispatchable s 0 e = true) ∧
    (let s := two fun c => { c with pipeA := [queued (.vadd {} none 4 8 12 2)], pipeM := [{ queued (.vadd {} none 4 8 12 2) with why := .range }], verify := true }
     ¬ ∀ e ∈ (s.core 0).pipeA ++ (s.core 0).pipeM ++ (s.core 0).pipeX, e.why = .queued) ∧
    (∀ e ∈ ([(2, [1], none), (2 + 2 ^ 32, [1], none), (2, [], none), (2, [1], some true)] : List (Nat × List Nat × Option Bool)),
      let s := (th [] fun t => { t with st := .waiting (.barwait (BitVec.ofNat 64 (spad + 8)) 0), barEnd := e.2.2 }).modCore 0 fun c =>
        { c with live := e.2.1, sp := Memory.write [] 8 (natLe 8 e.1) }
      (s.thread 0 0).st = .waiting (.barwait (BitVec.ofNat 64 (spad + 8)) 0) ∧ window s 0 (BitVec.ofNat 64 (spad + 8)) = .sp 0 8 ∧
        ((s.thread 0 0).barEnd ≠ none ∨ 8 / 8 ∉ (s.core 0).live ∨ BitVec.ofNat 32 (barPhase (bytesAt s (.sp 0 8) 8)) ≠ 0 ↔ e ≠ (2, [1], none))) ∧
    ((th [] fun t => { t with busyS := 1#64 <<< 63 }).thread 0 0).busyS.getLsbD (63 : Reg).toNat = true ∧
    ((th [] fun t => { t with busyS := 1 }).thread 0 0).busyS ≠ 0 ∧ ((th [] fun t => { t with busyP := 2 }).thread 0 0).busyP ≠ 0 ∧
    (let s : State := { on with cores := [(0, {}), (1, { cyc := 1 })], isles := [(0, { relock := some 10 })] }
     finishes s 0 = true ∧ clocked s 0 = false ∧ (mapGet s.cores 0).isSome = true) ∧
    (let s := th [] fun t => { t with st := .waiting (.barwait 0 0) }
     hasIssued s x0 = true) ∧
    (let s := th []
     hasIssued s x0 = false ∧ stayed s s x0 = true ∧ stayed s (after (.nop {}) s) x0 = false) ∧
    (let s := hp []
     hasIssued s x4 = false ∧ stayed s s x4 = false ∧ x4.isHelper = true) := by
  and_intros
  all_goals decide +kernel

def aSaved (w : SavedWait) : Saved := { task := aTask, home := 0, wait := w }

/-- A thread with an output, a slot, a rectangle of two registers by nine bytes and a frozen copy, and the slot that holds such a context: bit 47 (nest), slot 0, one record,
one output; HWM there covers one register by eight bytes. -/
def kept (t : Thread) : Thread := { t with hwm := 0x20000 + 64 * 9 + 1, slots := Vector.replicate 8 none |>.set 7 (some ⟨1, 2, 3, 4, 5, 6, 8, 0, []⟩), outs := [(1, 2)] }
def slotted : List Host.Cell := Memory.write (Memory.write [] 0 (natLe 8 (2 ^ 48 + 2 ^ 47 + 2 ^ 32 + 2 ^ 16))) 0x38 (natLe 8 (0x20000 + 64 * 8))
def aFrozen (o : ThreadName) (id : Nat) : Pend := { aPend .cpy (cpyImg false spad (spad + 64) 6 2) .frozen with owner := o, id := id }

/-- Each cause and status of a save, into the first slot and the second; the layout of a context; a slot read back, with and without a poisoned line of a register, and one
with a poisoned header, with room for its record, without, and with the dump engine armed; a dump armed, asked for, and ended; a host's request that comes first, after another, and in a
stop for a page; dump requests for a context that is in the dump, for saved tasks, for a context that has drained, and one with records. -/
theorem wit_SavesAndDumps :
    (∀ c ∈ ([none, some 1] : List (Option Nat)), let s := th [] (fun t => { t with task := some aTask, stop := c }) tasked
      (s.thread 0 0).task = some aTask ∧ (s.thread 0 0).st = .running ∧ (s.thread 0 0).stop = c ∧ (s.thread 0 0).drained = false ∧ s.inPipe 0 0 = false ∧
        (s.core 0).mire = [] ∧ (s.thread 0 0).fifo = [] ∧ (s.thread 0 0).hostAcc = none ∧ s.reaches 0 = true) ∧
    (∀ e ∈ ([(.running, some 1), (.running, some 2), (.running, some 4), (.stopped, some 1), (.stoppedAfter true, some 1)] : List (Status × Option Nat)),
      let s := th [] (fun t => { t with task := some aTask, stop := e.2, drained := true, st := e.1 })
        { tasked with parts := [(0, { insts := [anInst], saveCnt := 2, saved := [(0, aSaved .host)] })] }
      (s.thread 0 0).task = some aTask ∧ (s.thread 0 0).st = e.1 ∧ (s.thread 0 0).stop = e.2 ∧ (s.thread 0 0).drained = true ∧ (s.part 0).fqWait = [] ∧
        1 < (s.part 0).saveCnt.toNat ∧ mapGet (s.part 0).saved 1 = none ∧ mapGet (s.part 0).saved 0 ≠ none ∧ 1 ≤ (s.part 0).saved.length ∧ s.memOk = true) ∧
    (let s := (th [] kept).modCore 0 fun c => { c with copyQ := [aFrozen (.live 0 0) 4] }
     let t := s.thread 0 0
     t.slots.getD 0 none = none ∧ (t.slots.getD 7 none).isSome = true ∧ 0 < t.outs.length ∧ t.hwm.getLsbD 17 = true ∧ 1 < t.hwm.toNat % 64 + 1 ∧ 8 < t.hwm.toNat / 64 % 2 ^ 11 ∧
      ∀ e ∈ (s.core 0).copyQ.filter (fun e => e.owner == .live 0 0 && e.phase == .frozen), e.cmd.img.length = 64) ∧
    (∀ l ∈ ([[], [66], [0]] : List (List Nat)),
      let y : Saved := { aSaved .none with copies := [4, 5] }
      let s := th [] (fun t => { t with st := .restoring 0 })
        { tasked with parts := [(0, { insts := [anInst], saveCnt := 1, saved := [(0, y)] })], hbm := slotted, hbmPois := l }
      let s := s.modCore 0 fun c => { c with copyQ := [aFrozen (.saved 0 0) 4, aFrozen (.saved 0 0) 5] }
      let bits : Nat := leNat ((List.range 8).map fun j => byteAt s (.hbm j))
      (s.thread 0 0).st = .restoring 0 ∧ s.partOf 0 = some 0 ∧ mapGet (s.part 0).saved 0 = some y ∧ y.copies.Nodup ∧ y.copies[0]? = some 4 ∧ badField s 0 0 = (if l = [0] then some 0 else none) ∧
        hasFrozen s 0 3 = false ∧ (s.part 0).fq.length < 256 ∧ (s.part 0).fqWait = [] ∧ (s.part 0).dump.armed = false ∧
        (bytesAt s (.hbm 0x38) 8 / 2 ^ 17 % 2 = 1 ∧ bytesAt s (.hbm 0x38) 8 / 64 % 2 ^ 11 = 8) ∧ linePoisoned s 0x1080 = decide (l = [66]) ∧
        bits.testBit 48 = true ∧ bits.testBit 49 = false ∧ bits.testBit 47 = true ∧ 0 < bits / 2 ^ 32 % 2 ^ 9 ∧
        ((s.core 0).copyQ.filter fun e => e.owner == .saved 0 0 && e.phase == .frozen).map (·.id) = [4, 5]) ∧
    (∀ d ∈ ([{}, { len := 2 ^ 20, armed := true }] : List Dump),
      let s := th [] (fun t => { t with st := .restoring 0 })
        { tasked with parts := [(0, { insts := [anInst], saveCnt := 1, saved := [(0, aSaved .none)], dump := d, fq := List.replicate 256 {} })], hbmPois := [0] }
      (s.thread 0 0).st = .restoring 0 ∧ s.partOf 0 = some 0 ∧ mapGet (s.part 0).saved 0 = some (aSaved .none) ∧ badField s 0 0 = some 0 ∧ (s.part 0).dump = d ∧
        256 ≤ (s.part 0).fq.length) ∧
    (on.reaches 0 = true ∧ (0x1000 : Nat) % 4096 = 0 ∧ (on.part 0).dump.frozen = []) ∧
    (∀ st ∈ ([.stopped, .stoppedAfter true, .stoppedAfter false] : List Status),
      let s := th [] (fun t => { t with st := st, task := some aTask }) { tasked with parts := [(0, { insts := [anInst], dump := { len := 2 ^ 20, armed := true } })] }
      (s.thread 0 0).st = st ∧ (s.thread 0 0).task = some aTask ∧ aTask.part = 0 ∧ (s.part 0).dump.armed = true ∧ s.reaches 0 = true ∧ s.memOk = true ∧
        (s.part 0).dump.frozen = [] ∧ 256 ≤ (s.part 0).dump.len) ∧
    (let s := th [] (fun t => { t with st := .frozen, task := some aTask })
       { tasked with parts := [(0, { insts := [anInst], dump := { base := 0x100000, len := 2 ^ 20, armed := true, frozen := [(.live 0 0, none)] } })] }
     (s.part 0).dump.frozen = [(.live 0 0, none)] ∧ (s.part 0).dump.frozen ≠ [] ∧ (∀ i ∈ (s.part 0).insts, i.aborted = true → i.id = 3) ∧ (s.core 0).mire = [] ∧
      (s.thread 0 0).st = .frozen ∧ (s.thread 0 0).task = some aTask ∧ s.memOk = true ∧ (s.part 0).fq.length < 256 ∧
      (s.part 0).fqWait = [] ∧ 256 + (64 + 8 + (contextImage s 0 0 5 false).length) ≤ (s.part 0).dump.len ∧
      ∀ n ∈ [256, 255 + (64 + 8 + (contextImage s 0 0 5 false).length)], 256 ≤ n ∧ n < 256 + (64 + 8 + (contextImage s 0 0 5 false).length)) ∧
    (∀ c ∈ ([none, some 1, some 2] : List (Option Nat)), let s := th [] (fun t => { t with task := some aTask, stop := c }) tasked
      (s.thread 0 0).task = some aTask ∧ (s.thread 0 0).st = .running ∧ (s.thread 0 0).stop = c ∧ s.reaches 0 = true) ∧
    (let s (st : Status) (dr : Bool) (l : List (ThreadName × Option FRec)) : State := th [] (fun t => { t with st := st, drained := dr, task := some aTask })
       { tasked with parts := [(0, { insts := [anInst], saved := [(0, aSaved .host), (1, aSaved .svc), (2, aSaved .release)], dump := { len := 2 ^ 20, armed := true, frozen := l } })] }
     stoppedFor (s .stopped false [(.live 0 0, none)]) (.live 0 0) = some 0 ∧ inDump (s .stopped false [(.live 0 0, none)]) 0 (.live 0 0) = true ∧
      ((s .running true []).thread 0 0).drained = true ∧ inDump (s .running true []) 0 (.live 0 0) = false ∧ (s .running true []).memOk = true ∧
      (∀ sl ∈ [0, 1, 2], inDump (s .stopped false [(.live 0 0, none)]) 0 (.saved 0 sl) = false ∧ (mapGet ((s .stopped false []).part 0).saved sl).isSome = true) ∧
      (∀ r ∈ (((s .stopped false []).modCore 0 fun c => { c with mire := [aRec 7 8 6 2] }).core 0).mire, r.thr = 0 ∧ r.dead = false)) := by
  and_intros
  all_goals decide +kernel

/-- A stopped thread of each kind; a saved task for each answer; a page asked for by a thread, a saved task, and a command; records that wait behind
a full queue, one of them of a thread that then ends. -/
theorem wit_HostAnswers :
    (∀ st ∈ ([.stopped, .stoppedAfter true, .stoppedAfter false] : List Status),
      let s := th [] (fun t => { t with st := st, task := some aTask }) tasked
      (s.thread 0 0).st = st ∧ (s.thread 0 0).task = some aTask ∧ s.reaches aTask.part = true ∧ hasFrozen s 0 3 = false) ∧
    (∀ w ∈ ([.release, .host, .svc, .page 16 0x10000] : List SavedWait),
      let s : State := { tasked with parts := [(0, { insts := [anInst], saved := [(2, aSaved w)], pageReqs := [⟨16, [.thread (.saved 0 2)]⟩] })] }
      mapGet (s.part 0).saved 2 = some (aSaved w) ∧ s.reaches 0 = true ∧ hasFrozen s 0 3 = false ∧ (s.part 0).dump.armed = false ∧
        (s.part 0).pageReqs.find? (fun r => r.page == 16) = some ⟨16, [.thread (.saved 0 2)]⟩ ∧ (s.part 0).fq.length < 256 ∧ (s.part 0).fqWait = []) ∧
    (let s := th [] (fun t => { t with st := .waiting (.page 16 0x10000), task := some aTask })
       { tasked with parts := [(0, { insts := [anInst], pageReqs := [⟨16, [.thread (.live 0 0)]⟩] })] }
     (s.thread 0 0).st = .waiting (.page 16 0x10000) ∧ (s.thread 0 0).task = some aTask ∧ s.reaches aTask.part = true ∧ s.partOf 0 = some 0 ∧
      reserved s 0 0 = false ∧ (s.part 0).fq.length < 256 ∧ (s.part 0).fqWait = [] ∧ (s.part 0).dump.armed = false ∧ hasFrozen s 0 3 = false ∧ (s.part 0).pageReqs.find? (fun r => r.page == 16) = some ⟨16, [.thread (.live 0 0)]⟩) ∧
    (let p := aPend .cpy (cpyImg false spad (spad + 64) 6 2) (.page 16)
     let s : State := { on with parts := [(0, { pageReqs := [⟨16, [.cmd 0 4]⟩] })], cores := [(0, { copyQ := [p] })] }
     findPend s 0 4 = some p ∧ s.reaches 0 = true ∧ p.phase = .page 16 ∧ (s.part 0).pageReqs.find? (fun r => r.page == 16) = some ⟨16, [.cmd 0 4]⟩) ∧
    (let s : State := { on with parts := [(0, { fq := List.replicate 256 {}, fqWait := [{}] })] }
     s.reaches 0 = true ∧ (s.part 0).fqWait ≠ [] ∧ (s.part 0).saved = [] ∧ ∀ e ∈ s.cores, ∀ j, j < 4 → (s.thread e.1 j).st = .free) ∧
    (let s := th [] (fun t => { t with st := .ending 5, task := some aTask }) { tasked with parts := [(0, { insts := [anInst], fq := List.replicate 256 {}, fqWait := [{}] })] }
     (s.thread 0 0).st = .ending 5 ∧ (s.thread 0 0).task = some aTask ∧ s.reaches 0 = true ∧ (s.part 0).fq.length - 1 + (s.part 0).fqWait.length ≤ 256 ∧
      hasFrozen s 0 3 = false) := by decide +kernel

/-- A free pavilion for a new partition, one of another, one withdrawn, with a thread of each kind, one that scrubs for none and for a partition; the last line of patrol scrub and another;
deadlines of 1, 72, 0 and 73 hours. -/
theorem wit_Pavilions :
    (let s : State := { on with pavs := [(0, { part := some 0 })] }
     s.lodge.ready = true ∧ s.lodge.min = false ∧ (s.pav 31).queued = [] ∧ (s.pav 31).scrub = none ∧ (s.pav 31).part = none ∧ homePavs s 31 = [] ∧
      (∀ e ∈ s.pavs, pavGoal e.2 ≠ some 31) ∧ pavGoal (s.pav 0) = some 0 ∧ (s.pav 0).queued = [] ∧ (s.pav 0).scrub = none ∧ (s.pav 0).part = some 0 ∧
      (s.part 0).dump.armed = false) ∧
    (∀ st ∈ ([.running, .frozen, .ending 5] : List Status), let s := th [] (fun t => { t with st := st, task := some aTask }) tasked
      (s.pav 0).queued = [] ∧ (s.pav 0).scrub = none ∧ (s.pav 0).part = some 0 ∧ (s.thread 0 0).task = some aTask ∧ (s.thread 0 0).st = st ∧
        ((s.thread 0 0).st.lingers = false ↔ st = .running)) ∧
    (∀ dest ∈ ([none, some 5] : List (Option Nat)), let s : State := { on with pavs := [(0, { scrub := some dest })] }
      (s.pav 0).scrub = some dest ∧ (s.pav 0).queued = [] ∧ (s.pavs.filter fun e => pavGoal e.2 == some 5).length < 32 ∧
        (∀ e ∈ s.cores, ∀ t, t < 4 → (e.2.threads.getD t {}).st.lingers = false) ∧ ∀ e ∈ s.parts, e.2.saved = []) ∧
    (∀ n ∈ [0, 0x9000000000 / 64 - 2, 0x9000000000 / 64 - 1], let s : State := { on with patrolPos := n }
      s.lodge.ready = true ∧ s.lodge.min = false ∧ (mapGet s.parts 0).isSome = true ∧ s.patrolPos = n ∧ (0x9000000000 / 64 ≤ n + 1 ↔ n = 0x9000000000 / 64 - 1)) ∧
    (∀ h ∈ [1, 72], 1 ≤ h ∧ h ≤ 72) ∧ (∀ h ∈ [0, 73], h = 0 ∨ 72 < h) ∧ on.pipe 0 .a = [] ∧ (255 : Nat) < 256 ∧ (0xFFFF : Nat) < 0x10000 := by decide +kernel

/-- An island at its first and last codes, in a window or not; window ends with each held write; caps of 0, 4,000 and above; energy above, below and between; a
record that fits, one that is halted, one that would reach TRRD, and one that wraps; a sample that a core of another die has still to latch, one that is complete then, with
and without room, and one that all have latched. -/
theorem wit_PowerAndTrace :
    (∀ e ∈ ([(none, 6), (none, 15), (none, 18), (some 10, 6)] : List (Option Nat × Nat)),
      let s : State := { on with isles := [(0, { relock := e.1 })] }
      (s.isle 0).relock = e.1 ∧ (s.isle 0).freq = 15 ∧ 6 ≤ e.2 ∧ e.2 ≤ 18 ∧ s.lodge.ready = true) ∧
    (∀ h ∈ ([none, some 15, some 6] : List (Option Nat)), let s : State := { on with isles := [(0, { relock := some 10, held := h })], reft := 10 }
      (s.isle 0).relock = some 10 ∧ (s.isle 0).held = h ∧ 10 ≤ s.reft.toNat ∧ (mapGet s.cores 0).isSome = true ∧ (s.isleAt 0).relock = some 10) ∧
    (∀ e ∈ [(0, 0), (1, 10000 * 2 ^ 16 + 1), (16, 15 * 10000 * 2 ^ 16 - 1), (16, 15 * 10000 * 2 ^ 16), (16, 16 * 10000 * 2 ^ 16)],
      let s : State := { on with parts := [(0, { cap := e.1, windowEnergy := e.2, nextEval := 5 })], reft := 5 }
      (mapGet s.parts 0).isSome = true ∧ s.refOn = true ∧ (s.part 0).nextEval ≤ s.reft.toNat ∧ (s.part 0).windowEnergy = e.2) ∧
    (let q : Trace := { ctl := 160 + 4, base := 0x20000, size := 0x10000, xl := some (2, (List.range 16).map fun k => 0x100000 + 4096 * k) }
     let s : State := { on with parts := [(0, { trace := q })], cores := [(0, { staging := [(0, List.replicate 64 1)] })] }
     q.ctl.getLsbD 0 = false ∧ 0 + 64 < q.size.toNat ∧ ¬ q.size.toNat < q.wr.toNat + 64 ∧ s.memOk = true ∧ 2 = (q.base.toNat + 0) / 65536 ∧ (q.base.toNat + 63) / 65536 = 2 ∧
      ((List.range 16).map fun k => 0x100000 + 4096 * k).Pairwise (fun f g => f + 4096 ≤ g ∨ g + 4096 ≤ f) ∧
      (∀ f ∈ (List.range 16).map fun k => 0x100000 + 4096 * k, f + 4096 ≤ 0x9000000000) ∧ (s.core 0).staging = [(0, List.replicate 64 1)] ∧ q.ctl.getLsbD 2 = true ∧
      q.nextSample ≤ s.reft.toNat ∧ (s.cores.map (·.1)).Pairwise (· < ·) ∧ { q with rd := 64 }.size.toNat ≤ (q.size.toNat - 64 + 0) + 64 ∧ ({ q with ctl := 1 } : Trace).ctl.getLsbD 0 = true) ∧
    (let q : Trace := { base := 0x20000, size := 0x10000, wr := 0x10000 - 32, rd := 1000, xl := some (2, (List.range 16).map fun k => 0x100000 + 4096 * k) }
     q.ctl.getLsbD 0 = false ∧ (q.wr.toNat - q.rd.toNat) + (q.size.toNat - q.wr.toNat + 64) < q.size.toNat ∧ q.size.toNat < q.wr.toNat + 64 ∧ q.base.toNat % 65536 = 0 ∧
      q.base.toNat / 65536 = 2 ∧ on.reaches 0 = true ∧ (mapGet on.parts 0).isSome = true) ∧
    (let q : Trace := { ctl := 160 + 4, nextSample := 5 }
     let s (n c : Nat) (tk : Option (W64 × List Byte)) (l : List (Nat × List Byte)) : State :=
       { on with
         reft := BitVec.ofNat 64 (2 ^ 20 + n), skew := (Vector.replicate 8 0).set 1 2, lodge := { on.lodge with record := some { enabled := [(0, 1), (4, 1)] } }
         pavs := [(0, { part := some 0 }), (4, { part := some 0 })], cores := [(0, {}), (576, { staging := List.replicate c (0, []) })]
         parts := [(0, { trace := { q with taking := tk, latched := l } })] }
     let T : W64 := BitVec.ofNat 64 (2 ^ 20)
     (s 0 0 none []).coresOf 0 = [0, 576] ∧ (s 0 0 none []).refOn = true ∧ 2 ^ 20 / 2 ^ (q.ctl.toNat / 8 % 32) * 2 ^ (q.ctl.toNat / 8 % 32) = 2 ^ 20 ∧
      T.toNat ≤ ((s 0 0 none []).reftAt 0).toNat ∧ ((s 0 0 none []).reftAt 576).toNat < T.toNat ∧ T.toNat ≤ ((s 2 0 none []).reftAt 576).toNat ∧
      (∀ c ∈ [63, 64], let u := s 2 c (some (T, [])) [(0, [1])]
        (u.part 0).trace.taking = some (T, []) ∧ (u.part 0).trace.latched = [(0, [1])] ∧ (u.core 576).staging.length = c ∧ (u.core 0).staging.length < 64) ∧
      ∀ x ∈ (s 2 0 none []).coresOf 0, ∃ e ∈ (((s 2 0 (some (T, [])) [(0, [1]), (576, [])]).part 0).trace.latched), e.1 = x) := by
  and_intros
  all_goals decide +kernel

/-- A record with 128 enabled sites in each of the 32 pavilions. -/
def aRecord : ConfigRecord := { enabled := (List.range 32).map fun v => (v, BitVec.ofNat 144 (2 ^ 128 - 1)) }

/-- A start with and without signed images and with a record that is not accepted; a stage in each mode; the request for a full start; functions enabled; blocks
that are there and block 7 that is not yet. -/
theorem wit_StartAndAttestation :
    (∀ v, v < 32 → ((List.range 144).filter fun k => ((mapGet aRecord.enabled v).getD 0).getLsbD k).length = 128 ∧
      (mapGet aRecord.enabled v).getD 0 &&& (mapGet aRecord.defect v).getD 0 = 0 ∧
      ∀ k, k < 144 → ((mapGet aRecord.feat (144 * v + k)).getD 0xFFFF) &&& 0x4109 = 0x4109) ∧
    (¬ ((List.range 144).filter fun k => ((mapGet ({} : ConfigRecord).enabled 0).getD 0).getLsbD k).length = 128) ∧
    (∀ e ∈ [(false, 2), (false, 6), (true, 2)], let s : State := { State.reset with lodge := { starting := true, stage := e.2, min := e.1 } }
      s.lodge.starting = true ∧ (if s.lodge.min = true ∧ s.lodge.stage = 2 then 7 else s.lodge.stage + 1) = (if e = (false, 2) then 3 else 7)) ∧
    (let s : State := { State.reset with lodge := { min := true, ready := true, installed := true, signed := true, recordNew := some aRecord, recordSigned := true, meas := [(1, [0]), (7, [1])] } }
     s.lodge.min = true ∧ s.lodge.ready = true ∧ s.lodge.installed = true ∧ s.lodge.signed = true ∧ s.lodge.recordSigned = true ∧ s.lodge.recordNew = some aRecord ∧
      (∀ b ∈ [1, 7], 1 ≤ b ∧ b ≤ 7 ∧ mapGet s.lodge.meas b ≠ none)) ∧ mapGet State.reset.lodge.meas 7 = none ∧ State.reset.lodge.ready = false ∧ State.reset.lodge.installed = false ∧
    0 ≤ State.reset.vfs := by decide +kernel

/-- Aligned and page-end values, an aperture that translates and one that does not, a zeroing command up to the end of HBM. -/
theorem wit_Management :
    (let s := paged
     s.reaches 0 = true ∧ usesPages s 0 (hostPages none) = false ∧ usesPages s 0 (hostPages (some (0x10000, 8))) = false ∧ (0x40000 : W64).toNat % 131072 = 0 ∧ (0x30000 : W64).toNat % 65536 = 0 ∧ (160 : W64).getLsbD 8 = false ∧ s.partOf 0 = some 0 ∧
      s.enabled 0 = true ∧ (mapGet s.cores 0).isSome = true ∧ s.lodge.min = false ∧ (0x9000000000 - 0x10000) % 65536 = 0 ∧ (0x9000000000 - 0x10000) + 0x10000 ≤ 0x9000000000 ∧
      (s.part 0).fq.length < 256 ∧ (s.part 0).fqWait = [] ∧ s.memOk = true ∧
      (∀ off ∈ [0x10FF8, 0x80000000], ((s.fn 0).apbase + BitVec.ofNat 64 off).toNat % 4096 + 8 ≤ 4096 ∧ off + 8 ≤ 2 ^ 40 ∧ off % 8 = 0) ∧
      (∀ k ∈ [Access.read, .write, .amo], (match locatePart s 0 k ((s.fn 0).apbase + BitVec.ofNat 64 0x10FF8) with | .ok l => l == .hbm 0x10FF8 | _ => false) = true ∧
        (match locatePart s 0 k ((s.fn 0).apbase + BitVec.ofNat 64 0x80000000) with | .error _ => true | _ => false) = true) ∧ (readLoc s (.hbm 0x10FF8) 8).2 = false) ∧
    (let s := th [] (fun t => { t with hostAcc := some ⟨8, 8, some (0x40000, ⟨2 ^ 51, true, true, true, 1⟩), none, []⟩ }) paged
     usesPages s 0 (hostPages (some (0x40000008, 8))) = true) ∧
    (let s : State := { on with vfs := 2 }; s.fnOn 1 = true ∧ mapGet s.parts 1 = none ∧ s.fnOn 2 = false) := by decide +kernel

/-- An access to the host window before it issues, with an answer, and with an error; the access of a command; links up, down and the last of a route. -/
theorem wit_LinksAndHostWindow :
    (∀ h ∈ ([none, some ⟨8, 8, none, none, []⟩, some ⟨8, 8, none, some (.data (List.replicate 8 1)), []⟩, some ⟨8, 8, none, some (.error 2), []⟩] : List (Option HostAcc)),
      let s := th [(1, 0x40000008)] (fun t => { t with hostAcc := h }) paged
      (s.thread 0 0).hostAcc = h ∧ s.memOk = true ∧ (s.scalar x0 1).toNat % 8 = 0 ∧ (match locate s 0 .read (s.scalar x0 1) with | .ok (l, _) => l == .host 8 | _ => false) = true ∧
        heldBack s 0 (.host 8) 8 false = false ∧ (([1] : List Reg).all (fun r => s.scalarPres x0 r == .pres) && [Instr.ld {} 2 1 .d false 0].all (runsB s x0)) = true) ∧
    (let s := hp [] fun h => { h with hostAcc := some ⟨8, 1, none, none, []⟩ }
     (s.helper 0 0).hostAcc = some ⟨8, 1, none, none, []⟩ ∧ s.memOk = true) ∧
    (let w : Posted := ⟨0, 1, 2, 3⟩
     let s := on.modCore 0 fun c => { c with posted := [w, w] }
     (s.core 0).posted = w :: [w] ∧ s.partOf 0 = some 0 ∧ (s.part 0).fq.length < 256 ∧ (s.part 0).fqWait = []) ∧
    (let p := aPend .cpy (cpyImg false 0x40000000 spad 0 1) (.host none)
     findPend (on.modCore 0 fun c => { c with copyQ := [p] }) 0 4 = some p ∧ p.phase = .host none) ∧
    (let s : State := { on with links := (Vector.replicate 18 .down).set 17 .up, routes := [(1023, 1#18 <<< 17)] }
     s.lodge.min = false ∧ 5 ≤ s.lodge.stage ∧ s.links.getD 17 .down = .up ∧ s.routes = [(1023, 1#18 <<< 17)] ∧ 1023 ∉ s.deadRoutes ∧ 1023 ≠ s.chip.toNat ∧ fabricBusy s = false ∧
      (∀ j, j < 18 → (1#18 <<< 17).getLsbD j = true → (s.links.setIfInBounds 17 .failed).getD j .down ≠ .up)) ∧
    (let s : State := { on with links := ((Vector.replicate 18 .down).set 17 .up).set 0 .up, routes := [(1, 1#18 <<< 17 ||| 1)] }
     (s.links.setIfInBounds 17 .failed).getD 0 .down = .up ∧ (1#18 <<< 17 ||| 1).getLsbD 0 = true ∧ s.links.getD 17 .down = .up ∧
      mapSet s.routes 1 (1#18) = [(1, 1#18)] ∧ s.links.getD 0 .down = .up) := by decide +kernel

/-- Terms of each form with fields at their ends, well-formed. -/
theorem wit_RoundTrip :
    ([.add { g := 7, gn := true, yld := true, hold := true, stall := 7 } 63 63 63, .movi {} 63 (BitVec.allOnes 56), .ld {} 63 63 .w true (BitVec.allOnes 48), .br {} (BitVec.allOnes 56 - 3),
      .vfma {} (some { rm := .sr, msk := 7, zp := true, e := 0, ev := false }) 63 63 63 63 63, .mmul {} (some { e := 63, ev := true }) 63 63 63 true,
      .xred {} 63 ⟨1023, 7, 3, 11, 11⟩ 15 63, .tbset {} 63 63 true, .barfree {} 63 (BitVec.allOnes 48), .vsettle {} 0 .all] : List Instr).all
      (fun i => i.op.isSome && i.wf) = true := by decide +kernel

/-- Thread 1, alone on its core at an offset from the scratchpad's start, about to issue. -/
def about (off : Nat) (c : Core → Core := id) (f : State → State := id) : State :=
  { f (two fun k => c { k with threads := (k.threads.set 3 {}).set 1 (ran off) }) with cur := none, agenda := [.issueCycle 0], parts := [(0, { nextEval := 5 })] }

/-- The cycle of core 0 is picked, and thread 1 issues at that offset. -/
def issuesB (s : State) (off : Nat) : Bool :=
  let v : State := { tick s with agenda := [] }
  let w := coreCycle v 0
  pick (tick s) == some (.issueCycle 0, v) && clocked v 0 && w.cur == some ⟨0, 1⟩ && w.pcAt ⟨0, 1⟩ == 0xFF000000000000 + BitVec.ofNat 56 off

/-- The words at the scratchpad's start after the cycle of core 0, and what the operation's part of the decoder makes of them. -/
def opAt (s : State) : Except Reject Raw :=
  let w := coreCycle { tick s with agenda := [] } 0
  let word (j : Nat) : BitVec 32 := BitVec.ofNat 32 (bytesAt w (.sp 0 (4 * j)) 4)
  decodeOp (word 0) (word 1) (word 2) (word 3)

/-- A thread at the last instruction of the scratchpad, alone on its core: its cycle is picked and lets it issue; a state with an input; a step of the lanes; a step that is due; an
input that is held, with another behind it and with only possible steps. A PC in the tile store, one of which no partition has a translation, a poisoned word, an unassigned opcode,
an instruction of a feature that the core lacks, and a reserved bit. -/
theorem wit_StepRuns :
    (issuesB (about 0x20000000000) 0x20000000000 = true ∧
      (match window (about 0) 0 ((0xFF000000000000 + BitVec.ofNat 56 0x20000000000 : PC).setWidth 64) with | .ts _ => true | _ => false) = true) ∧
    (let off := 2 ^ 48 + 0x1000
     let s := about off
     issuesB s off = true ∧ (match window s 0 ((0xFF000000000000 + BitVec.ofNat 56 off : PC).setWidth 64) with | .ts _ => false | _ => true) = true ∧
       (match locate s 0 .fetch ((0xFF000000000000 + BitVec.ofNat 56 off : PC).setWidth 64) with | .error _ => true | _ => false) = true) ∧
    (∀ k ∈ ([0, 1] : List Nat), let off := 4 * k
      issuesB (about off fun c => { c with pois := [0] }) off = true ∧ off / 8 = 0) ∧
    (let s := about 0 fun c => { c with sp := [(2, 0x80), (3, 0xFF)] }
     issuesB s 0 = true ∧ (match opAt s with | .error _ => true | _ => false) = true ∧ (s.core 0).pois = [] ∧ (s.core 0).icache = []) ∧
    (let s := about 0 id fun s => { s with lodge := { s.lodge with record := some { enabled := [(0, BitVec.allOnes 144)], feat := [(0, 0)] } } }
     issuesB s 0 = true ∧ (match opAt s with | .ok d => !((s.featmask 0).getLsbD d.op.feature) | _ => false) = true) ∧
    (let s := about 0 fun c => { c with sp := [(4, 1)] }
     issuesB s 0 = true ∧ (match opAt s with | .ok d => (s.featmask 0).getLsbD d.op.feature && (match d.finish with | .error _ => true | _ => false) | _ => false) = true) ∧
    (let s : State := { (two fun c => { c with threads := (c.threads.set 3 {}).set 1 (ran 0x7FFF0) }) with
       cur := none, agenda := [.issueCycle 0], parts := [(0, { nextEval := 5 })] }
     let v : State := { tick s with agenda := [] }
     let w := coreCycle v 0
     pick (tick s) = some (.issueCycle 0, v) ∧ clocked v 0 = true ∧ w.cur = some ⟨0, 1⟩ ∧ w.pcAt ⟨0, 1⟩ = 0xFF000000000000 + BitVec.ofNat 56 0x7FFF0 ∧
      0x7FFF0 + 16 ≤ 0x80000 ∧ (match decode ((List.range 16).map fun j => byteAt w (.sp 0 (0x7FFF0 + j))) with | .ok (i, _) => i == .add {} 0 0 0 | _ => false) = true ∧
      (w.featmask 0).getLsbD Op.add.feature = true ∧ (w.core 0).pois = [] ∧ (w.core 0).icache = []) ∧
    (let s : State := { on with cur := none, agenda := [.linkUp 0], parts := [(0, { nextEval := 5 })] }
     s.agenda = [.linkUp 0] ∧ dueSteps s = [] ∧ held s (.linkUp 0) = false ∧ pick (tick s) = some (.linkUp 0, { tick s with agenda := [] }) ∧ (Instr.linkUp 0).op = none) ∧
    (let e := queued (.vadd {} none 4 8 12 2)
     let s : State := { (on.modCore 0 fun c => { c with pipeA := [e] }) with cur := none, agenda := [.pipeDispatch 0 .a none], parts := [(0, { nextEval := 5 })] }
     (match pick (tick s) with
      | some (i, v) => i == .pipeDispatch 0 .a none && (match exec i v with | .next w => w.lane == some e && w.cur == some ⟨0, e.thr⟩ | _ => false)
      | none => false) = true) ∧
    (let s : State := { on with reft := 5, parts := [(0, { nextEval := 5 })] }
     dueSteps s = [.governorEvaluation 0]) ∧
    (let s : State := { th [] (fun t => { t with hostAcc := some ⟨8, 8, some (0x40000, ⟨2 ^ 51, true, true, true, 1⟩), none, []⟩ }) paged with
       agenda := [.hostInvalidate 0 none], parts := [(0, { root := 0x1001, nextEval := 5 })] }
     dueSteps s = [] ∧ (∀ k ∈ s.agenda, held s k = true) ∧ possible s ≠ []) := by
  and_intros
  all_goals decide +kernel

/-- A possible step that has been passed over as often as the package allows. -/
theorem wit_overdue :
    let s : State := { on with parts := [(0, { nextEval := 5 })], passedOver := [(.issueCycle 0, Config.patience)] }
    (dueSteps s = [] ∧ s.agenda = [] ∧ .issueCycle 0 ∈ possible s) ∧ Config.patience ≤ ageOf s (.issueCycle 0) := by
  refine ⟨?_, ?_⟩
  · decide +kernel
  · simp [ageOf]

/-- The canonical form with a byte in each memory, and a step from there. -/
theorem wit_MemoryStep :
    let s : State := { zoned with hbm := [(0, 1)], host := [(5, 2)], agenda := [.linkUp 0] }
    s.memOk = true ∧ (match step s with | .next _ => true | _ => false) = true := by decide +kernel

end Sys2Proof.Tests
end

section
/-! PROOF. Facts about folds, cores and charges that several proofs use. -/

namespace Sys2Proof.Proofs
open Sys2Proof Sys2Proof.Machine Sys2Proof.Laws

theorem foldl_keeps {α β σ : Type} (p : σ → β) (f : σ → α → σ) (h : ∀ s a, p (f s a) = p s) (l : List α) (s : σ) :
    p (l.foldl f s) = p s := by
  induction l generalizing s with
  | nil => rfl
  | cons a l ih => exact (ih (f s a)).trans (h s a)

/-- A fold that keeps the larger ends at a greatest element. -/
theorem foldl_argmax {α : Type} (f : α → Nat) (l : List α) (b : α) :
    l.foldl (fun b k => if f b < f k then k else b) b ∈ b :: l ∧ ∀ k ∈ b :: l, f k ≤ f (l.foldl (fun b k => if f b < f k then k else b) b) := by
  induction l generalizing b with
  | nil => simp
  | cons a l ih =>
    obtain ⟨hm, hle⟩ := ih (if f b < f a then a else b)
    rw [List.foldl_cons]
    have hfirst := hle _ List.mem_cons_self
    have hba : f b ≤ f (if f b < f a then a else b) ∧ f a ≤ f (if f b < f a then a else b) := by split <;> omega
    refine ⟨?_, fun k hk => ?_⟩
    · rcases List.mem_cons.1 hm with h | h
      · rw [h]; split <;> simp
      · simp [h]
    · rcases List.mem_cons.1 hk with rfl | hk
      · exact Nat.le_trans hba.1 hfirst
      · rcases List.mem_cons.1 hk with rfl | hk
        · exact Nat.le_trans hba.2 hfirst
        · exact hle k (List.mem_cons_of_mem _ hk)

@[simp] theorem core_modCore_same (s : State) (k : Nat) (f : Core → Core) : (s.modCore k f).core k = f (s.core k) := core_setCore_same ..
@[simp] theorem core_modCore_other (s : State) (j k : Nat) (f : Core → Core) (h : k ≠ j) : (s.modCore k f).core j = s.core j :=
  core_setCore_other _ _ _ _ h

@[simp] theorem charge_core (s : State) (p : Nat) (q : Option Nat) (n k : Nat) : (charge s p q n).core k = s.core k := by
  unfold charge; split <;> rfl
@[simp] theorem chargeCtx_core (s : State) (x : Ctx) (n k : Nat) : (chargeCtx s x n).core k = s.core k := by
  unfold chargeCtx; split <;> simp
@[simp] theorem fetchCharge_core (s : State) (x : Ctx) (l : Loc) (pc : PC) (k : Nat) : (fetchCharge s x l pc).core k = s.core k := by
  unfold fetchCharge; split <;> simp

end Sys2Proof.Proofs
end

section
/-! PROOF. The decoder: an instruction that it gives has the opcode of its words, and what the words of a scratchpad decode to (R25, R33). -/

namespace Sys2Proof.Proofs
open Sys2Proof Sys2Proof.Machine Sys2Proof.Laws

theorem wordOfBytes_eq (b0 b1 b2 b3 : Byte) : BitVec.ofNat 32 (leNat [b0, b1, b2, b3]) = wordOfBytes b0 b1 b2 b3 := by
  apply BitVec.eq_of_toNat_eq
  have h0 := b0.isLt
  have h1 := b1.isLt
  have h2 := b2.isLt
  have h3 := b3.isLt
  simp only [wordOfBytes, leNat, BitVec.toNat_append, BitVec.toNat_ofNat]
  rw [← Nat.shiftLeft_add_eq_or_of_lt (by omega), ← Nat.shiftLeft_add_eq_or_of_lt (by omega),
    ← Nat.shiftLeft_add_eq_or_of_lt (by omega)]
  simp only [Nat.shiftLeft_eq]
  omega

theorem build_op {o : Op} {x : Option Pfx} {f : Fields} {i : Instr} (h : build o x f = some i) : i.op = some o := by
  have all : ∀ o, (build o x f).map Instr.op = (build o x f).map fun _ => some o := by
    intro o
    cases o <;> simp only [build, Option.map_some, Option.map_map] <;> rfl
  have := all o
  simpa [h] using this

theorem finish_op {d : Raw} {i : Instr} (h : d.finish = .ok i) : i.op = some d.op := by
  unfold Raw.finish at h
  split at h
  · contradiction
  · split at h
    · split at h
      · contradiction
      · next i' hb => 
        split at h
        · cases h; exact build_op hb
        · contradiction
    · split at h
      · contradiction
      · split at h
        · contradiction
        · next hb =>
          split at h
          · cases h; exact build_op hb
          · contradiction

theorem decodeOp_ignores_fourth {w0 : BitVec 32} (h : isPrefixWord w0 = false) (w1 w2 w3 w : BitVec 32) :
    decodeOp w0 w1 w2 w3 = decodeOp w0 w1 w2 w := by
  simp [decodeOp, h]

end Sys2Proof.Proofs
end

section
/-! PROOF. Which context a cycle of a core lets issue, and that no lane runs in it (R271). -/

namespace Sys2Proof.Proofs
open Sys2Proof Sys2Proof.Machine Sys2Proof.Laws

@[simp] theorem charge_lane (s : State) (p : Nat) (q : Option Nat) (w : Nat) : (charge s p q w).lane = s.lane := by
  unfold charge; split <;> rfl

@[simp] theorem walkAhead_lane (s : State) : (walkAhead s).lane = s.lane := by
  unfold walkAhead
  repeat' split
  all_goals rfl

@[simp] theorem staticEnergy_lane (s : State) : (staticEnergy s).lane = s.lane := by
  unfold staticEnergy
  extract_lets w
  split
  · rfl
  · exact foldl_keeps State.lane _ (fun _ _ => charge_lane ..) _ _

@[simp] theorem relockTicks_lane (s : State) : (relockTicks s).lane = s.lane := by
  unfold relockTicks; split <;> rfl

@[simp] theorem tick_lane (s : State) : (tick s).lane = none := by
  unfold tick
  extract_lets u
  split <;> simp [u, advanceRef]

theorem pick_lane {s v : State} {i : Instr} (h : pick s = some (i, v)) : v.lane = s.lane := by
  unfold pick at h
  split at h
  · cases h; rfl
  · split at h
    · cases h; rfl
    · obtain ⟨j, -, hj⟩ := Option.map_eq_some_iff.1 h
      cases hj; rfl

theorem brkPc_eq {s u : State} {x : Ctx} (h : brkPc s x = some u) :
    ∃ p hit, u = (askStop (brkNote s p hit) x.core x.ctx).modThread x.core x.ctx fun t => { t with brkSkip := true } := by
  unfold brkPc at h
  extract_lets t at h
  split at h
  · contradiction
  · split at h
    · contradiction
    · extract_lets _ at h
      split at h
      · contradiction
      · cases h; exact ⟨_, _, rfl⟩

@[simp] theorem meetBreakpoints_lane (s : State) (core : Nat) : (meetBreakpoints s core).lane = s.lane := by
  refine foldl_keeps State.lane _ (fun s t => ?_) _ _
  split
  · rfl
  · next u hu =>
    obtain ⟨p, hit, rfl⟩ := brkPc_eq hu
    split <;> rfl

@[simp] theorem resultsCome_lane (s : State) (core : Nat) : (resultsCome s core).lane = s.lane := by
  refine foldl_keeps State.lane _ (fun s t => ?_) _ _
  extract_lets th d
  split
  · rfl
  · exact modThread_lane ..

theorem coreCycle_cases (s : State) (core : Nat) :
    (∃ c, coreCycle s core = { (resultsCome s core).setCore core c with cur := none }) ∨
    (∃ c d k, coreCycle s core = { (meetBreakpoints ((resultsCome s core).setCore core c) core).setCore core d with cur := k } ∧
      ∀ x, k = some x → x.core = core) := by
  unfold coreCycle
  extract_lets r f part duty c d n c' c1 c2 v
  split
  · exact .inl ⟨_, rfl⟩
  · refine .inr ?_
    split
    · exact ⟨_, _, _, rfl, by simp⟩
    · exact ⟨_, _, _, rfl, by rintro x ⟨⟩; rfl⟩

theorem coreCycle_lane (s : State) (core : Nat) : (coreCycle s core).lane = s.lane := by
  obtain ⟨c, h⟩ | ⟨c, d, k, h, -⟩ := coreCycle_cases s core <;> simp [h]

theorem coreCycle_cur {s : State} {core : Nat} {x : Ctx} (hx : (coreCycle s core).cur = some x) : x.core = core := by
  obtain ⟨c, h⟩ | ⟨c, d, k, h, hk⟩ := coreCycle_cases s core
  · simp [h] at hx
  · exact hk x (by simpa [h] using hx)

end Sys2Proof.Proofs
end

section
/-! PROOF. The fetch at a PC of the core's own scratchpad, and the ways in which a fetch fails (R33, R34, R208). -/

namespace Sys2Proof.Proofs
open Sys2Proof Sys2Proof.Machine Sys2Proof.Laws

/-! ## What a fetch changes -/

/-- Between `w` and `w'` the instruction cache of a core has been filled, and the energy of the accesses charged (R362). -/
structure Fetched (core : Nat) (w w' : State) : Prop where
  rest : { w' with cores := w.cores, parts := w.parts } = w
  others : ∀ k, k ≠ core → w'.core k = w.core k
  core : { w'.core core with icache := (w.core core).icache } = w.core core
  parts : ∀ p, { w'.part p with energy := (w.part p).energy, windowEnergy := (w.part p).windowEnergy, queues := (w.part p).queues } = w.part p
  queues : ∀ p q, { (w'.part p).queues.getD q {} with energy := ((w.part p).queues.getD q {}).energy } = (w.part p).queues.getD q {}

theorem Fetched.refl (core : Nat) (w : State) : Fetched core w w := ⟨rfl, fun _ _ => rfl, rfl, fun _ => rfl, fun _ _ => rfl⟩

theorem Fetched.trans {core : Nat} {a b c : State} (h : Fetched core a b) (g : Fetched core b c) : Fetched core a c where
  rest := by rw [← h.rest, ← g.rest]
  others k hk := (g.others k hk).trans (h.others k hk)
  core := by rw [← h.core, ← g.core]
  parts p := by rw [← h.parts p, ← g.parts p]
  queues p q := by rw [← h.queues p q, ← g.queues p q]

theorem Fetched.charge (core : Nat) (s : State) (p : Nat) (q : Option Nat) (n : Nat) : Fetched core s (charge s p q n) := by
  unfold Machine.charge
  split
  · exact .refl ..
  · refine ⟨rfl, fun _ _ => rfl, rfl, fun j => ?_, fun j k => ?_⟩
    · by_cases hj : p = j
      · subst hj; simp [State.modPart]
      · simp [State.modPart, hj]
    · by_cases hj : p = j
      · subst hj
        cases q with
        | none => simp [State.modPart]
        | some q =>
          by_cases hk : k < 64 ∧ q = k
          · obtain ⟨h1, rfl⟩ := hk
            simp [State.modPart, Vector.getD, h1]
          · by_cases h1 : k < 64
            · simp [State.modPart, Vector.getD, h1, show q ≠ k from fun h => hk ⟨h1, h⟩]
            · simp [State.modPart, Vector.getD, h1]
      · simp [State.modPart, hj]

theorem Fetched.chargeCtx (core : Nat) (s : State) (x : Ctx) (n : Nat) : Fetched core s (chargeCtx s x n) := by
  unfold Machine.chargeCtx
  split
  · exact .refl ..
  · exact .charge ..

theorem Fetched.fetchCharge (core : Nat) (s : State) (x : Ctx) (l : Loc) (pc : PC) : Fetched core s (fetchCharge s x l pc) := by
  unfold Machine.fetchCharge
  split
  · exact .refl ..
  · exact .chargeCtx ..

theorem Fetched.fill (s : State) (core : Nat) (m : NMap (BitVec 32)) :
    Fetched core s (s.modCore core fun c => { c with icache := m }) where
  rest := rfl
  others k hk := by simp [State.modCore, Ne.symm hk]
  core := by simp [State.modCore]
  parts _ := rfl
  queues _ _ := rfl

/-- The PC of an offset in the core's own scratchpad (R205). -/
def spPc (off : Nat) : PC := 0xFF000000000000 + BitVec.ofNat 56 off

/-- The word at an offset of a scratchpad. -/
def spWord (s : State) (core off : Nat) : BitVec 32 := BitVec.ofNat 32 (bytesAt s (.sp core off) 4)

theorem spPc_add (off n : Nat) : spPc off + BitVec.ofNat 56 n = spPc (off + n) := by
  simp [spPc, BitVec.add_assoc, BitVec.ofNat_add]

theorem spPc_toNat {off : Nat} (h : off < 0x80000) : (spPc off).toNat = 0xFF000000000000 + off := by
  have hb : (0xFF000000000000 : PC).toNat = 0xFF000000000000 := rfl
  simp only [spPc, BitVec.toNat_add, BitVec.toNat_ofNat, hb]
  omega

theorem window_spPc (s : State) (core : Nat) {off : Nat} (h : off < 0x80000) :
    window s core ((spPc off).setWidth 64) = .sp core off := by
  have hn : ((spPc off).setWidth 64 : W64).toNat = 0xFF000000000000 + off := by
    rw [BitVec.toNat_setWidth, spPc_toNat h]; omega
  unfold window spSize
  extract_lets a
  have ha : a = 0xFF000000000000 + off := hn
  rw [if_neg (by omega), if_pos (by omega), ha, Nat.add_sub_cancel_left]

theorem locate_spPc (s : State) (core : Nat) (kind : Access) {off : Nat} (h : off < 0x80000) :
    locate s core kind ((spPc off).setWidth 64) = .ok (.sp core off, none) := by
  simp only [locate, window_spPc s core h]

theorem readLoc_sp_word (s : State) (core off : Nat) : BitVec.ofNat 32 (leNat (readLoc s (.sp core off) 4).1) = spWord s core off := rfl

/-- A granule of the word at an offset is poisoned (R208). -/
theorem readLoc_sp_poison (s : State) (core off : Nat) :
    (readLoc s (.sp core off) 4).2 = true ↔ ∃ j, j < 4 ∧ (off + j) / 8 ∈ (s.core core).pois := by
  simp [readLoc]

/-- The word at an offset of the scratchpad can be fetched: no granule of it is poisoned, and the instruction cache lists nothing
older for it. -/
structure CodeAt (s : State) (core off : Nat) : Prop where
  inside : off + 4 ≤ 0x80000
  clean : ∀ j, j < 4 → (off + j) / 8 ∉ (s.core core).pois
  fresh : mapGet (s.core core).icache (spPc off).toNat = none ∨ mapGet (s.core core).icache (spPc off).toNat = some (spWord s core off)

theorem Fetched.sp {core : Nat} {w w' : State} (h : Fetched core w w') : (w'.core core).sp = (w.core core).sp := by rw [← h.core]
theorem Fetched.pois {core : Nat} {w w' : State} (h : Fetched core w w') : (w'.core core).pois = (w.core core).pois := by rw [← h.core]
theorem Fetched.lodge {core : Nat} {w w' : State} (h : Fetched core w w') : w'.lodge = w.lodge := by rw [← h.rest]

theorem Fetched.word {core : Nat} {w w' : State} (h : Fetched core w w') (off : Nat) : spWord w' core off = spWord w core off := by
  simp only [spWord, bytesAt, byteAt, Loc.add, h.sp]

theorem Fetched.featmask {core : Nat} {w w' : State} (h : Fetched core w w') (k : Nat) : w'.featmask k = w.featmask k := by
  simp only [State.featmask, h.lodge]

/-- A fetch that leaves the cache as it was at every other word keeps what can be fetched there. -/
theorem CodeAt.of_fetched {core off n : Nat} {w w' : State} (hc : CodeAt w core off) (h : Fetched core w w')
    (hi : ∀ a, a ≠ (spPc n).toNat → mapGet (w'.core core).icache a = mapGet (w.core core).icache a) (hn : off ≠ n) (hin : n + 4 ≤ 0x80000) :
    CodeAt w' core off where
  inside := hc.inside
  clean := by rw [h.pois]; exact hc.clean
  fresh := by
    have hin' := hc.inside
    have ha : (spPc off).toNat ≠ (spPc n).toNat := by
      rw [spPc_toNat (by omega), spPc_toNat (by omega)]; omega
    rw [hi _ ha, h.word]
    exact hc.fresh

theorem fetchWord_scratchpad {w : State} {x : Ctx} {off : Nat} (hc : CodeAt w x.core off) :
    ∃ w', fetchWord w x (spPc off) = .ok (spWord w x.core off, w') ∧ Fetched x.core w w' ∧
      ∀ a, a ≠ (spPc off).toNat → mapGet (w'.core x.core).icache a = mapGet (w.core x.core).icache a := by
  obtain ⟨hin, hclean, hfresh⟩ := hc
  have hp : (readLoc w (.sp x.core off) 4).2 = false := by
    rw [Bool.eq_false_iff, Ne, readLoc_sp_poison]
    rintro ⟨j, hj, hm⟩
    exact hclean j hj hm
  unfold fetchWord
  extract_lets ea
  simp only [ea, window_spPc w x.core (show off < 0x80000 by omega), locate_spPc w x.core .fetch (show off < 0x80000 by omega), noteLocated,
    hp, readLoc_sp_word, Bool.false_eq_true, if_false]
  obtain hf | hf := hfresh
  · rw [hf]
    refine ⟨_, rfl, (Fetched.fetchCharge ..).trans (Fetched.fill ..), fun a ha => ?_⟩
    simp [Ne.symm ha]
  · rw [hf]
    simp only [if_true]
    exact ⟨_, rfl, .refl .., fun _ _ => rfl⟩

theorem fetchWords_scratchpad {w : State} {x : Ctx} {off : Nat} (hpc : w.pcAt x = spPc off)
    (h0 : CodeAt w x.core off) (h1 : CodeAt w x.core (off + 4)) (h2 : CodeAt w x.core (off + 8)) (h3 : CodeAt w x.core (off + 12)) :
    ∃ w' z, Fetched x.core w w' ∧ (isPrefixWord (spWord w x.core off) = true → z = spWord w x.core (off + 12)) ∧
      fetchWords w x = .ok ((spWord w x.core off, spWord w x.core (off + 4), spWord w x.core (off + 8), z), w') := by
  have hin := h3.inside
  obtain ⟨a, ha, fa, ia⟩ := fetchWord_scratchpad h0
  have h1a : CodeAt a x.core (off + 4) := h1.of_fetched fa ia (by omega) (by omega)
  have h2a : CodeAt a x.core (off + 8) := h2.of_fetched fa ia (by omega) (by omega)
  have h3a : CodeAt a x.core (off + 12) := h3.of_fetched fa ia (by omega) (by omega)
  obtain ⟨b, hb, fb, ib⟩ := fetchWord_scratchpad h1a
  have h2b : CodeAt b x.core (off + 8) := h2a.of_fetched fb ib (by omega) (by omega)
  have h3b : CodeAt b x.core (off + 12) := h3a.of_fetched fb ib (by omega) (by omega)
  obtain ⟨c, hc, fc, ic⟩ := fetchWord_scratchpad h2b
  have h3c : CodeAt c x.core (off + 12) := h3b.of_fetched fc ic (by omega) (by omega)
  obtain ⟨d, hd, fd, -⟩ := fetchWord_scratchpad h3c
  have fab := fa.trans fb
  have fac := fab.trans fc
  rw [fa.word] at hb
  rw [fab.word] at hc
  rw [fac.word] at hd
  have e1 : spPc off + 4 = spPc (off + 4) := spPc_add off 4
  have e2 : spPc off + 8 = spPc (off + 8) := spPc_add off 8
  have e3 : spPc off + 12 = spPc (off + 12) := spPc_add off 12
  unfold fetchWords
  simp only [hpc, ha, e1, hb, e2, hc, e3]
  cases hp : isPrefixWord (spWord w x.core off) with
  | true => exact ⟨d, _, fac.trans fd, fun _ => rfl, by simp [hd]⟩
  | false => exact ⟨c, 0, fac, by simp, by simp⟩

theorem decodeAt_congr {s : State} {x : Ctx} {w0 w1 w2 w3 w : BitVec 32} (h : decodeOp w0 w1 w2 w = decodeOp w0 w1 w2 w3) :
    decodeAt s x (w0, w1, w2, w) = decodeAt s x (w0, w1, w2, w3) := by
  simp only [decodeAt, h]

/-- What the decoder makes of the words at the PC does not depend on the state that the fetch leaves, but for the records. -/
theorem fetchInstr_scratchpad {w : State} {x : Ctx} {off : Nat} (hpc : w.pcAt x = spPc off)
    (hc : ∀ j, j < 4 → CodeAt w x.core (off + 4 * j)) :
    ∃ w', Fetched x.core w w' ∧ fetchInstr w x =
      (decodeAt w' x (spWord w x.core off, spWord w x.core (off + 4), spWord w x.core (off + 8), spWord w x.core (off + 12))).map fun i => (i, w') := by
  obtain ⟨w', z, hf, hz, hw⟩ := fetchWords_scratchpad hpc (hc 0 (by omega)) (hc 1 (by omega)) (hc 2 (by omega)) (hc 3 (by omega))
  have hd : decodeOp (spWord w x.core off) (spWord w x.core (off + 4)) (spWord w x.core (off + 8)) z =
      decodeOp (spWord w x.core off) (spWord w x.core (off + 4)) (spWord w x.core (off + 8)) (spWord w x.core (off + 12)) := by
    cases hp : isPrefixWord (spWord w x.core off) with
    | true => rw [hz hp]
    | false => exact decodeOp_ignores_fourth hp ..
  refine ⟨w', hf, ?_⟩
  simp only [fetchInstr, hw, decodeAt_congr hd]
  cases decodeAt w' x _ <;> rfl

/-! ## The decoder at the PC: its refusals and its success -/

theorem decodeAt_error {s : State} {x : Ctx} {w0 w1 w2 w3 : BitVec 32} {e : Reject} (h : decodeOp w0 w1 w2 w3 = .error e) :
    decodeAt s x (w0, w1, w2, w3) = .error (takeFault s x .precise { cls := 1, code := 1, aux := faultOpc w0 w1 }) := by
  simp only [decodeAt, h]

theorem decodeAt_feature {s : State} {x : Ctx} {w0 w1 w2 w3 : BitVec 32} {d : Raw} (h : decodeOp w0 w1 w2 w3 = .ok d)
    (hf : (s.featmask x.core).getLsbD d.op.feature = false) :
    decodeAt s x (w0, w1, w2, w3) = .error (takeFault s x .precise { cls := 1, code := 2, aux := faultOpc w0 w1 }) := by
  simp [decodeAt, h, hf]

theorem decodeAt_reserved {s : State} {x : Ctx} {w0 w1 w2 w3 : BitVec 32} {d : Raw} {e : Reject} (h : decodeOp w0 w1 w2 w3 = .ok d)
    (hf : (s.featmask x.core).getLsbD d.op.feature = true) (he : d.finish = .error e) :
    decodeAt s x (w0, w1, w2, w3) = .error (takeFault s x .precise { cls := 1, code := 1, aux := faultOpc w0 w1 }) := by
  simp [decodeAt, h, hf, he]

theorem decodeAt_ok {s : State} {x : Ctx} {w0 w1 w2 w3 : BitVec 32} {i : Instr} {o : Op} (h : decodeWords w0 w1 w2 w3 = .ok i)
    (ho : i.op = some o) (hf : (s.featmask x.core).getLsbD o.feature = true) : decodeAt s x (w0, w1, w2, w3) = .ok i := by
  unfold decodeWords at h
  split at h
  · contradiction
  · next d hd =>
    have : d.op = o := Option.some.inj ((finish_op h).symm.trans ho)
    simp [decodeAt, hd, this, hf, h]

/-- The words of a list of bytes read from a scratchpad. -/
theorem wordsOfBytes_scratchpad (s : State) (core off : Nat) :
    wordsOfBytes ((List.range 16).map fun j => byteAt s (.sp core (off + j))) =
      [spWord s core off, spWord s core (off + 4), spWord s core (off + 8), spWord s core (off + 12)] := by
  simp only [spWord, bytesAt, List.range, List.range.loop, List.map, wordOfBytes_eq, wordsOfBytes, Loc.add, Nat.add_assoc, Nat.reduceAdd, Nat.add_zero]

theorem decodeWords_of_decode {s : State} {core off : Nat} {i : Instr} {r : List Byte}
    (h : decode ((List.range 16).map fun j => byteAt s (.sp core (off + j))) = .ok (i, r)) :
    decodeWords (spWord s core off) (spWord s core (off + 4)) (spWord s core (off + 8)) (spWord s core (off + 12)) = .ok i := by
  unfold decode at h
  rw [List.take_of_length_le (by simp), wordsOfBytes_scratchpad] at h
  simp only [List.isEmpty_cons, Bool.and_false, Bool.false_eq_true, if_false, List.headD_cons] at h
  split at h
  · contradiction
  · next hd => cases h; exact hd

/-! ## A fetch that fails -/

theorem fetchInstr_of_first_word {w u : State} {x : Ctx} (h : fetchWord w x (w.pcAt x) = .error u) : fetchInstr w x = .error u := by
  simp only [fetchInstr, fetchWords, h]

theorem fetchWord_tileStore {w : State} {x : Ctx} {pc : PC} {k : Nat} (h : window w x.core (pc.setWidth 64) = .ts k) :
    fetchWord w x pc = .error (accessFault w x .address .fetch (pc.setWidth 64) 0xFFFF) := by
  simp [fetchWord, h]

theorem fetchWord_unlocated {w : State} {x : Ctx} {pc : PC} {e : AccErr} (h : ∀ k, window w x.core (pc.setWidth 64) ≠ .ts k)
    (he : locate w x.core .fetch (pc.setWidth 64) = .error e) :
    fetchWord w x pc = .error (accessFault w x e .fetch (pc.setWidth 64) 0xFFFF) := by
  cases hw : window w x.core (pc.setWidth 64) with
  | ts k => exact absurd hw (h k)
  | global va => simp [fetchWord, hw, he]
  | sp c o => simp [fetchWord, hw, he]
  | none => simp [fetchWord, hw, he]

theorem fetchWord_poisoned {w : State} {x : Ctx} {off : Nat} (hin : off < 0x80000) (h : ∃ j, j < 4 ∧ (off + j) / 8 ∈ (w.core x.core).pois) :
    fetchWord w x (spPc off) = .error (takeFault w x .fatal { cls := 5, code := 1, addr := (spPc off).setWidth 64 }) := by
  have hp : (readLoc w (.sp x.core off) 4).2 = true := (readLoc_sp_poison ..).2 h
  unfold fetchWord
  extract_lets ea
  simp [ea, window_spPc w x.core hin, locate_spPc w x.core .fetch hin, noteLocated, hp]

end Sys2Proof.Proofs
end

section
/-! PROOF. A step of the machine: its choice, and the instruction that issues in it (R21, R271). Settles O59. -/

namespace Sys2Proof.Proofs
open Sys2Proof Sys2Proof.Machine Sys2Proof.Laws

/-! ## What follows a step of the table -/

theorem step_of_pick {s v : State} {i : Instr} (h : pick (tick s) = some (i, v)) (hi : i.op = none) : step s = follow (exec i v) := by
  simp [step, h, hi]

theorem follow_of_fetch_ok {w w' : State} {x : Ctx} {i : Instr} (hl : w.lane = none) (hc : w.cur = some x)
    (hh : x.isHelper = true → (w.helper x.core (x.ctx - 4)).idle = false) (hf : fetchInstr w x = .ok (i, w')) :
    follow (.next w) = settleOut (issueOut w' x i (exec i w')) := by
  have hidle : (x.isHelper && (w.helper x.core (x.ctx - 4)).idle) = false := by
    cases hx : x.isHelper <;> simp [hh, hx]
  simp [follow, following, hl, hc, hidle, hf]

theorem follow_of_fetch_error {w u : State} {x : Ctx} (hl : w.lane = none) (hc : w.cur = some x)
    (hh : x.isHelper = true → (w.helper x.core (x.ctx - 4)).idle = false) (hf : fetchInstr w x = .error u) :
    follow (.next w) = settleOut (.next (noIssue x u)) := by
  have hidle : (x.isHelper && (w.helper x.core (x.ctx - 4)).idle) = false := by
    cases hx : x.isHelper <;> simp [hh, hx]
  simp [follow, following, hl, hc, hidle, hf, settleOut]

theorem follow_done {w : State} (hl : w.lane = none) (hc : w.cur = none) : follow (.next w) = .next w := by
  have : settleStep w = w := by unfold settleStep; rw [← hl, ← hc]
  simp [follow, following, hl, hc, this]

theorem follow_lane {w : State} {e : PipeEntry} {x : Ctx} (hl : w.lane = some e) (hc : w.cur = some x) :
    follow (.next w) = settleOut (exec e.instr w) := by
  simp [follow, following, hl, hc]

/-! ## The choice of the next step -/
theorem chooseStep_mem (s : State) {l : List Instr} (hl : l ≠ []) :
    ∃ j ∈ l, chooseStep s l = some j ∧ ((∃ k ∈ l, Config.patience ≤ ageOf s k) → ∀ k ∈ l, ageOf s k ≤ ageOf s j) := by
  match l, hl with
  | [i], _ => exact ⟨i, by simp, rfl, by simp⟩
  | i :: a :: r, _ =>
    obtain ⟨hm, hle⟩ := foldl_argmax (ageOf s) (a :: r) i
    simp only [chooseStep]
    split
    · exact ⟨_, hm, rfl, fun _ => hle⟩
    · next hp =>
      have hlt : Config.choice s.clock % (i :: a :: r).length < (i :: a :: r).length := Nat.mod_lt _ (by simp)
      refine ⟨_, List.getElem_mem hlt, List.getElem?_eq_getElem hlt, ?_⟩
      rintro ⟨k, hk, hpk⟩
      exact absurd (Nat.le_trans hpk (hle k hk)) hp

theorem pick_due {s : State} {i : Instr} {r : List Instr} (h : dueSteps s = i :: r) : pick s = some (i, s) := by
  simp only [pick, h]

theorem pick_input {s : State} {i : Instr} {r : List Instr} (hd : dueSteps s = []) (ha : s.agenda = i :: r) (hh : held s i = false) :
    pick s = some (i, { s with agenda := r }) := by
  simp [pick, hd, ha, hh]

theorem pick_possible {s : State} (hd : dueSteps s = []) (ha : ∀ k ∈ s.agenda, held s k = true) (hp : possible s ≠ []) :
    ∃ j ∈ possible s, pick s = some (j, taken s (possible s) j) ∧
      ((∃ k ∈ possible s, Config.patience ≤ ageOf s k) → ∀ k ∈ possible s, ageOf s k ≤ ageOf s j) := by
  obtain ⟨j, hj, hc, hage⟩ := chooseStep_mem s hp
  have hn : s.agenda.find? (fun i => !held s i) = none := by simpa using ha
  exact ⟨j, hj, by simp [pick, hd, hn, hc], hage⟩

/-! ## The issue cycle -/

theorem exec_issueCycle {s : State} {core : Nat} (h : clocked s core = true ∨ finishes s core = true) :
    exec (.issueCycle core) s = .next (coreCycle s core) := by
  have : exec (.issueCycle core) s = execIssueCycle core s := rfl
  rw [this, execIssueCycle, if_pos (by simpa using h)]

/-- The step of `s` is the cycle of a core whose clock runs, and the context `x` that it chooses, no idle helper, is at an offset of the
scratchpad's window. -/
structure Chosen (s v : State) (core off : Nat) (x : Ctx) : Prop where
  picked : pick (tick s) = some (.issueCycle core, v)
  clocked : clocked v core = true
  cur : (coreCycle v core).cur = some x
  busy : x.isHelper = true → ((coreCycle v core).helper core (x.ctx - 4)).idle = false
  pc : (coreCycle v core).pcAt x = spPc off

section
variable {s v w' u : State} {core off : Nat} {x : Ctx} {i : Instr} {o : Op}

theorem Chosen.core_eq (h : Chosen s v core off x) : x.core = core := coreCycle_cur h.cur

theorem Chosen.lane (h : Chosen s v core off x) : (coreCycle v core).lane = none :=
  (coreCycle_lane v core).trans ((pick_lane h.picked).trans (tick_lane s))

theorem Chosen.step_eq (h : Chosen s v core off x) : step s = follow (.next (coreCycle v core)) := by
  rw [step_of_pick h.picked rfl, exec_issueCycle (.inl h.clocked)]

theorem Chosen.step_of_fetch_ok (h : Chosen s v core off x) (hf : fetchInstr (coreCycle v core) x = .ok (i, w')) :
    step s = settleOut (issueOut w' x i (exec i w')) := by
  obtain rfl := h.core_eq
  exact h.step_eq.trans (follow_of_fetch_ok h.lane h.cur h.busy hf)

theorem Chosen.step_of_fetch_error (h : Chosen s v core off x) (hf : fetchInstr (coreCycle v core) x = .error u) :
    step s = settleOut (.next (noIssue x u)) := by
  obtain rfl := h.core_eq
  exact h.step_eq.trans (follow_of_fetch_error h.lane h.cur h.busy hf)

theorem Chosen.fetchInstr_of_error (h : Chosen s v core off x) (hf : fetchWord (coreCycle v core) x (spPc off) = .error u) :
    fetchInstr (coreCycle v core) x = .error u :=
  fetchInstr_of_first_word (by rw [h.pc]; exact hf)

theorem Chosen.fetchInstr_eq (h : Chosen s v core off x) (hc : ∀ j, j < 4 → CodeAt (coreCycle v core) core (off + 4 * j)) :
    ∃ w', Fetched core (coreCycle v core) w' ∧ fetchInstr (coreCycle v core) x =
      (decodeAt w' x (spWord (coreCycle v core) core off, spWord (coreCycle v core) core (off + 4), spWord (coreCycle v core) core (off + 8),
        spWord (coreCycle v core) core (off + 12))).map fun i => (i, w') := by
  obtain rfl := h.core_eq
  exact fetchInstr_scratchpad h.pc hc
end

theorem codeAt_of_words {w : State} {core off : Nat} (hin : off + 16 ≤ 0x80000) (hcl : ∀ j, j < 16 → (off + j) / 8 ∉ (w.core core).pois)
    (hic : ∀ j, j < 4 → mapGet (w.core core).icache ((spPc off).toNat + 4 * j) = none ∨
      mapGet (w.core core).icache ((spPc off).toNat + 4 * j) = some (spWord w core (off + 4 * j))) :
    ∀ j, j < 4 → CodeAt w core (off + 4 * j) := fun j hj => by
  have hpc : (spPc off).toNat + 4 * j = (spPc (off + 4 * j)).toNat := by
    rw [spPc_toNat (by omega), spPc_toNat (by omega), Nat.add_assoc]
  refine ⟨by omega, fun i hi => ?_, hpc ▸ hic j hj⟩
  rw [Nat.add_assoc]
  exact hcl _ (by omega)

/-- `Fetched` field by field. -/
theorem Fetched.fields {core : Nat} {w w' : State} (h : Fetched core w w') :
    { w' with cores := w.cores, parts := w.parts } = w ∧ (∀ k, k ≠ core → w'.core k = w.core k) ∧
      { w'.core core with icache := (w.core core).icache } = w.core core ∧
      ∀ p, let a := w.part p; let b := w'.part p
        { b with energy := a.energy, windowEnergy := a.windowEnergy, queues := a.queues } = a ∧
        ∀ q, { b.queues.getD q {} with energy := (a.queues.getD q {}).energy } = a.queues.getD q {} :=
  ⟨h.rest, h.others, h.core, fun p => ⟨h.parts p, h.queues p⟩⟩

/-- Settles O59: the cycle of a core that is picked gives a running context and no lane, so what follows is the fetch at its PC, whose words
decode as `decode` says; the choice among possible steps keeps one that has been passed over most. -/
theorem stepRuns : Obligations.StepRuns := by
  unfold Obligations.StepRuns
  refine ⟨fun s v core off x i o r => ?_, fun s v w i hp hi he => ⟨fun hl hc => ?_, fun e x hl hc => ?_⟩,
    fun s i r => ⟨pick_due, pick_input, pick_possible⟩⟩
  · extract_lets w pc word chosen fetched refuses
    have hch (hc : chosen) : Chosen s v core off x := by
      obtain ⟨hp, hk, hx, hh, hpc⟩ := hc
      exact ⟨hp, hk, hx, hh, hpc⟩
    have hfet {w' : State} (h : Fetched core w w') : fetched w w' := h.fields
    refine ⟨fun hc e he => ?_, fun hc hin hp => ?_, fun hc hin hcl hic => ?_, fun hc hin hd ho hfe hcl hic => ?_⟩ <;>
      have hc := hch hc <;> obtain rfl := hc.core_eq
    · refine hc.step_of_fetch_error (hc.fetchInstr_of_error ?_)
      obtain ⟨rfl, k, hw⟩ | ⟨hw, hl⟩ := he
      · exact fetchWord_tileStore hw
      · exact fetchWord_unlocated hw hl
    · refine hc.step_of_fetch_error (hc.fetchInstr_of_error (fetchWord_poisoned (by omega) ?_))
      obtain hp | hp := hp
      · exact ⟨0, by omega, hp⟩
      · exact ⟨3, by omega, hp⟩
    · obtain ⟨w', hf, hi⟩ := hc.fetchInstr_eq (codeAt_of_words hin hcl hic)
      have hrefuse {code : Nat} (hd : decodeAt w' x (word 0, word 1, word 2, word 3) =
          .error (takeFault w' x .precise { cls := 1, code := code, aux := faultOpc (word 0) (word 1) })) : refuses code :=
        ⟨w', hfet hf, hc.step_of_fetch_error (hi.trans (congrArg _ hd))⟩
      refine ⟨fun e he => hrefuse (decodeAt_error he), fun d hd => ⟨fun hfe => hrefuse (decodeAt_feature hd ?_),
        fun e hfe he => hrefuse (decodeAt_reserved hd ?_ he)⟩⟩
      all_goals rw [hf.featmask]; exact hfe
    · obtain ⟨w', hf, hi⟩ := hc.fetchInstr_eq (codeAt_of_words hin hcl hic)
      exact ⟨w', hfet hf, hc.step_of_fetch_ok (hi.trans (congrArg _ (decodeAt_ok (decodeWords_of_decode hd) ho
        (by rw [hf.featmask]; exact hfe))))⟩
  · rw [step_of_pick hp hi, he, follow_done hl hc]
  · rw [step_of_pick hp hi, he, follow_lane hl hc]

end Sys2Proof.Proofs
end

section
/-! PROOF. Accessors of parts of the state, and the bytes that a write leaves in memory. -/

namespace Sys2Proof.Proofs
open Sys2Proof Sys2Proof.Machine Sys2Proof.Laws

/-! ## Accessors -/
@[simp] theorem part_modPart_same (s : State) (k : Nat) (f : Part → Part) : (s.modPart k f).part k = f (s.part k) := part_setPart_same ..
@[simp] theorem part_modPart_other (s : State) (j k : Nat) (f : Part → Part) (h : k ≠ j) : (s.modPart k f).part j = s.part j :=
  part_setPart_other _ _ _ _ h
@[simp] theorem pav_modPav_same (s : State) (k : Nat) (f : Pav → Pav) : (s.modPav k f).pav k = f (s.pav k) := pav_setPav_same ..
@[simp] theorem thread_modThread_same (s : State) (k t : Nat) (f : Thread → Thread) (h : t < 4) :
    (s.modThread k t f).thread k t = f (s.thread k t) := thread_setThread_same _ _ _ _ h

/-! ## Bytes of memory -/

theorem memOk_hbm {s : State} (h : s.memOk = true) : Memory.wf s.hbm = true := by
  simp only [State.memOk, Bool.and_eq_true] at h; exact h.1.1
theorem memOk_host {s : State} (h : s.memOk = true) : Memory.wf s.host = true := by
  simp only [State.memOk, Bool.and_eq_true] at h; exact h.1.2

theorem leNat_natLe (n v : Nat) : leNat (natLe n v) = v % 256 ^ n := by
  induction n generalizing v with
  | zero => simp [natLe, leNat, Nat.mod_one]
  | succ n ih =>
    rw [natLe, leNat, ih, Nat.pow_succ, Nat.mul_comm (256 ^ n), Nat.mod_mul]
    simp

@[simp] theorem natLe_length (n v : Nat) : (natLe n v).length = n := by
  induction n generalizing v with
  | zero => rfl
  | succ n ih => simp [natLe, ih]

theorem leAt_lt (bs : List Byte) (lo n : Nat) : leAt bs lo n < 256 ^ n := by
  have h : ∀ l : List Byte, leNat l < 256 ^ l.length := by
    intro l
    induction l with
    | nil => simp [leNat]
    | cons b r ih =>
      have hb := b.isLt
      simp only [leNat, List.length_cons, Nat.pow_succ]
      omega
  exact Nat.lt_of_lt_of_le (h _) (Nat.pow_le_pow_right (by omega) (List.length_take_le ..))

/-- A location outside the cores: where the front end's accesses lie. -/
def Loc.outside : Loc → Prop
  | .hbm _ | .host _ => True
  | _ => False

theorem locatePart_outside {s : State} {part : Nat} {k : Access} {va : W64} {l : Loc} (h : locatePart s part k va = .ok l) : Loc.outside l := by
  unfold locatePart at h
  split at h
  · contradiction
  · split at h
    · contradiction
    · contradiction
    · split at h
      · extract_lets pa at h
        split at h <;> cases h <;> trivial
      · contradiction

theorem Loc.add_add (l : Loc) (i j : Nat) : (l.add i).add j = l.add (i + j) := by
  cases l <;> simp [Loc.add, Nat.add_assoc]

theorem Loc.add_inj {l : Loc} {i j : Nat} (h : l.add i = l.add j) : i = j := by
  cases l <;> simp [Loc.add] at h <;> omega

section
variable {s : State} {l : Loc} {bs : List Byte}

theorem writeLoc_memOk (h : s.memOk = true) (hl : Loc.outside l) : (writeLoc s l bs false).memOk = true := by
  cases l with
  | hbm p =>
    have := Memory.wf_write s.hbm p bs (memOk_hbm h)
    simp only [State.memOk, Bool.and_eq_true] at h ⊢
    exact ⟨⟨this, h.1.2⟩, h.2⟩
  | host p =>
    have := Memory.wf_write s.host p bs (memOk_host h)
    simp only [State.memOk, Bool.and_eq_true] at h ⊢
    exact ⟨⟨h.1.1, this⟩, h.2⟩
  | sp k o => exact hl.elim
  | ts k o => exact hl.elim

theorem byteAt_writeLoc_inside (h : s.memOk = true) (hl : Loc.outside l) {j : Nat} (hj : j < bs.length) :
    byteAt (writeLoc s l bs false) (l.add j) = bs[j] := by
  cases l with
  | hbm p => exact Memory.get_write_inside _ _ _ _ (memOk_hbm h) hj
  | host p => exact Memory.get_write_inside _ _ _ _ (memOk_host h) hj
  | sp k o => exact hl.elim
  | ts k o => exact hl.elim

theorem byteAt_writeLoc_outside (h : s.memOk = true) (hl : Loc.outside l) {m : Loc} (hm : ∀ j, j < bs.length → m ≠ l.add j) :
    byteAt (writeLoc s l bs false) m = byteAt s m := by
  have far (p a : Nat) (hp : ∀ j, j < bs.length → a ≠ p + j) : a < p ∨ p + bs.length ≤ a := by
    by_cases hlt : a < p
    · exact .inl hlt
    · exact .inr (Nat.le_of_not_lt fun h => hp (a - p) (by omega) (by omega))
  cases l with
  | hbm p =>
    cases m with
    | hbm a => exact Memory.get_write_outside _ _ _ _ (memOk_hbm h) (far p a fun j hj e => hm j hj (congrArg Loc.hbm e))
    | _ => rfl
  | host p =>
    cases m with
    | host a => exact Memory.get_write_outside _ _ _ _ (memOk_host h) (far p a fun j hj e => hm j hj (congrArg Loc.host e))
    | _ => rfl
  | sp k o => exact hl.elim
  | ts k o => exact hl.elim

theorem bytesAt_writeLoc (h : s.memOk = true) (hl : Loc.outside l) : bytesAt (writeLoc s l bs false) l bs.length = leNat bs := by
  unfold bytesAt
  congr 1
  refine List.ext_getElem (by simp) fun j h1 h2 => ?_
  simp [byteAt_writeLoc_inside h hl h2]

theorem bytesAt_writeLoc_apart (h : s.memOk = true) (hl : Loc.outside l) {m : Loc} {n : Nat}
    (hm : ∀ i, i < n → ∀ j, j < bs.length → m.add i ≠ l.add j) : bytesAt (writeLoc s l bs false) m n = bytesAt s m n := by
  unfold bytesAt
  congr 1
  refine List.map_congr_left fun i hi => byteAt_writeLoc_outside h hl (hm i (List.mem_range.1 hi))

end

@[simp] theorem writeLoc_part (s : State) (l : Loc) (bs : List Byte) (b : Bool) (j : Nat) : (writeLoc s l bs b).part j = s.part j := by
  cases l with
  | host p => cases b <;> rfl
  | _ => rfl

/-! ## The completion write (R294) -/

theorem completionWrite_bytes {s : State} {part : Nat} {caddr cval : W64} {status : Nat} {l : Loc}
    (hl : locatePart s part .write caddr = .ok l) (h : s.memOk = true) :
    let u := completionWrite s part caddr cval status
    (∀ j, u.part j = s.part j) ∧ bytesAt u l 8 = status % 2 ^ 64 ∧ bytesAt u (l.add 8) 8 = cval.toNat ∧
      ∀ m, (∀ j, j < 16 → m ≠ l.add j) → byteAt u m = byteAt s m := by
  have ho := locatePart_outside hl
  have ho8 : Loc.outside (l.add 8) := by cases l <;> exact ho
  have h1 := writeLoc_memOk (bs := natLe 8 status) h ho
  have apart : ∀ i, i < 8 → ∀ j, j < 8 → l.add i ≠ (l.add 8).add j := by
    intro i hi j hj e
    rw [Loc.add_add] at e
    have := Loc.add_inj e
    omega
  have hfirst := bytesAt_writeLoc (bs := natLe 8 status) h ho
  have hsecond := bytesAt_writeLoc (bs := natLe 8 cval.toNat) h1 ho8
  rw [natLe_length, leNat_natLe] at hfirst hsecond
  simp only [completionWrite, hl]
  refine ⟨fun j => by simp, ?_, ?_, fun m hm => ?_⟩
  · rw [bytesAt_writeLoc_apart h1 ho8 (by simpa using apart)]
    exact hfirst
  · rw [hsecond]
    exact Nat.mod_eq_of_lt cval.isLt
  · rw [byteAt_writeLoc_outside h1 ho8, byteAt_writeLoc_outside h ho]
    · intro j hj; exact hm j (by simp at hj; omega)
    · intro j hj
      rw [Loc.add_add]
      exact hm _ (by simp at hj; omega)

end Sys2Proof.Proofs
end

section
/-! PROOF. The fault queue, the launch queues and the front end (R20, R267, R291). -/

namespace Sys2Proof.Proofs
open Sys2Proof Sys2Proof.Machine Sys2Proof.Laws

/-! ## The fault queue -/

@[simp] theorem post_queues (s : State) (p : Nat) (w : Bool) (r : FRec) : ((post s p w r).part p).queues = (s.part p).queues := by
  simp only [post, part_modPart_same]
  split
  · rfl
  · split <;> rfl

theorem post_fq_of_room {s : State} {p : Nat} (w : Bool) (r : FRec) (h : (s.part p).fq.length < 256) (hw : (s.part p).fqWait = []) :
    ((post s p w r).part p).fq = (s.part p).fq ++ [r] := by
  simp [post, h, hw]

/-! ## Launch queues -/

/-- A launch queue of a partition has the value `v`. -/
def setQueue (s : State) (part queue : Nat) (v : LQueue) : State := s.modPart part fun p => { p with queues := p.queues.setIfInBounds queue v }

@[simp] theorem setQueue_queue (s : State) (part : Nat) {queue : Nat} (v : LQueue) (h : queue < 64) :
    ((setQueue s part queue v).part part).queues.getD queue {} = v := by
  simp [setQueue, Vector.getD, h]

theorem exec_launchRecordWrite {s : State} {part queue : Nat} {rec : List Byte} (hl : rec.length = 64) (hq : queue < 64) (hr : s.reaches part = true) :
    exec (.launchRecordWrite part queue rec) s = .next (enqueueLaunch s part queue rec) := by
  have : exec (.launchRecordWrite part queue rec) s = execLaunchRecordWrite part queue rec s := rfl
  rw [this, execLaunchRecordWrite, if_pos ⟨hl, hq, hr⟩]

theorem enqueueLaunch_of_room {s : State} {part queue : Nat} (rec : List Byte) (he : ((s.part part).queues.getD queue {}).enabled = true)
    (hn : ((s.part part).queues.getD queue {}).recs.length < 256) :
    enqueueLaunch s part queue rec = setQueue s part queue
      { (s.part part).queues.getD queue {} with recs := ((s.part part).queues.getD queue {}).recs ++ [rec] } := by
  simp only [enqueueLaunch, he, Bool.not_true, Bool.false_or, decide_eq_true_eq]
  rw [if_neg (by omega)]
  rfl

/-- The record of a launch record that is lost (R267). -/
def lostLaunch (s : State) (part queue : Nat) : FRec := Cause.record { cls := 6, code := 9, aux := queue } s (partIdent part) 0 .async false

theorem enqueueLaunch_lost {s : State} {part queue : Nat} (rec : List Byte)
    (h : ((s.part part).queues.getD queue {}).enabled = false ∨ 256 ≤ ((s.part part).queues.getD queue {}).recs.length) :
    enqueueLaunch s part queue rec = post (setQueue s part queue
        { (s.part part).queues.getD queue {} with overflow := ((s.part part).queues.getD queue {}).overflow + 1 }) part false (lostLaunch s part queue) := by
  simp only [enqueueLaunch]
  rw [if_pos (by simpa using h)]
  rfl

/-! ## The front end (R293) -/

theorem findSome?_of_least {α β : Type} {R : α → α → Prop} {f : α → Option β} {l : List α} {a : α} {b : β} (hl : l.Pairwise R) (ha : a ∈ l)
    (hb : f a = some b) (hn : ∀ c ∈ l, R c a → f c = none) : l.findSome? f = some b := by
  induction l with
  | nil => simp at ha
  | cons c l ih =>
    obtain ⟨hc, hl⟩ := List.pairwise_cons.1 hl
    rcases List.mem_cons.1 ha with rfl | ha
    · simp [hb]
    · rw [List.findSome?_cons, hn c List.mem_cons_self (hc a ha)]
      exact ih hl ha fun d hd => hn d (List.mem_cons_of_mem _ hd)

/-- The order of R293: by priority, then by number. -/
def queueBefore (p : Part) (i j : Nat) : Prop :=
  (p.queues.getD i {}).prio < (p.queues.getD j {}).prio ∨ ((p.queues.getD i {}).prio = (p.queues.getD j {}).prio ∧ i < j)

theorem mem_queueOrder {p : Part} {q : Nat} :
    q ∈ queueOrder p ↔ q < 64 ∧ (p.queues.getD q {}).enabled = true ∧ (p.queues.getD q {}).prio < 4 := by
  simp only [queueOrder, List.mem_flatMap, List.mem_filter, List.mem_range, Bool.and_eq_true, beq_iff_eq]
  constructor
  · rintro ⟨k, hk, hq, he, rfl⟩
    exact ⟨hq, he, hk⟩
  · rintro ⟨hq, he, hk⟩
    exact ⟨_, hk, hq, he, rfl⟩

theorem queueOrder_pairwise (p : Part) : (queueOrder p).Pairwise (queueBefore p) := by
  have hprio {k q : Nat} (h : q ∈ (List.range 64).filter fun q => (p.queues.getD q {}).enabled && (p.queues.getD q {}).prio == k) :
      (p.queues.getD q {}).prio = k := by
    simp only [List.mem_filter, Bool.and_eq_true, beq_iff_eq] at h
    exact h.2.2
  refine List.pairwise_flatMap.2 ⟨fun k _ => ?_, List.pairwise_lt_range.imp fun hlt i hi j hj => .inl ?_⟩
  · refine (List.pairwise_lt_range.filter _).imp_of_mem fun hi hj hlt => .inr ⟨?_, hlt⟩
    rw [hprio hi, hprio hj]
  · rw [hprio hi, hprio hj]; exact hlt

theorem nextLaunch_of_first {s : State} {part queue : Nat} {r : List Byte} {rest : List (List Byte)} {l : Launch}
    (he : ((s.part part).queues.getD queue {}).enabled = true) (hp : ((s.part part).queues.getD queue {}).prio < 4) (hq : queue < 64)
    (hr : ((s.part part).queues.getD queue {}).recs = r :: rest) (hi : (s.part part).insts.length < 256)
    (hfirst : ∀ j, j < 64 → j ≠ queue → ((s.part part).queues.getD j {}).enabled = true → ((s.part part).queues.getD j {}).recs ≠ [] →
      queueBefore (s.part part) queue j)
    (hl : checkLaunch s part ((s.part part).queues.getD queue {}).prio r = l) (hh : l ≠ .held) :
    nextLaunch s part = some (queue, r, l) := by
  simp only [nextLaunch, if_neg (show ¬ 256 ≤ (s.part part).insts.length by omega)]
  refine findSome?_of_least (queueOrder_pairwise _) (mem_queueOrder.2 ⟨hq, he, hp⟩) ?_ fun j hj hb => ?_
  · simp only [hr, hl]
  · obtain ⟨hj64, hje, -⟩ := mem_queueOrder.1 hj
    have hempty : ((s.part part).queues.getD j {}).recs = [] := by
      refine Decidable.byContradiction fun hne => ?_
      have hjq : j ≠ queue := by rintro rfl; rcases hb with h | ⟨-, h⟩ <;> omega
      have := hfirst j hj64 hjq hje hne
      simp only [queueBefore] at hb this
      omega
    simp only [hempty]

/-! ## LAUNCH_INSTANTIATE -/

@[simp] theorem freshCode_nextInst (s : State) (part : Nat) : ((freshCode s part).part part).nextInst = (s.part part).nextInst := by
  unfold freshCode
  extract_lets w stale fresh
  split
  · rfl
  · rw [part_modPart_same]; rfl

@[simp] theorem freshCode_queues (s : State) (part : Nat) : ((freshCode s part).part part).queues = (s.part part).queues := by
  unfold freshCode
  extract_lets w stale fresh
  split
  · rfl
  · rw [part_modPart_same]; rfl

theorem exec_launchInstantiate (s : State) (part : Nat) : exec (.launchInstantiate part) s = execLaunchInstantiate part s := rfl

/-- The instance that record `r` of queue `q`, whose number is `queue`, makes in a partition that has given `id` instances a number. -/
def launchedInst (id queue : Nat) (q : LQueue) (r : List Byte) (home : Nat) (nodes : List Node) (bufs : List Buf) (gang : Option Gang) : Inst :=
  { id := id, queue := queue, qprio := q.prio, home := home, caddr := BitVec.ofNat 64 (leAt r 8 8), cval := BitVec.ofNat 64 (leAt r 16 8),
    nodes := nodes, bufs := bufs, gang := gang }

/-- The partition gets an instance, with code fetched before dropped (R34). -/
def withInst (s : State) (part : Nat) (i : Inst) : State :=
  (freshCode s part).modPart part fun p => { p with insts := p.insts ++ [i], nextInst := p.nextInst + 1 }

section
variable {s : State} {part queue : Nat} {r : List Byte} {rest : List (List Byte)}

theorem dropOldest (hr : ((s.part part).queues.getD queue {}).recs = r :: rest) :
    (s.modPart part fun p => { p with queues := p.queues.setIfInBounds queue { p.queues.getD queue {} with recs := (p.queues.getD queue {}).recs.drop 1 } }) =
      setQueue s part queue { (s.part part).queues.getD queue {} with recs := rest } := by
  simp only [setQueue, State.modPart, hr, List.drop_succ_cons, List.drop_zero]

theorem withInst_eq {id : Nat} {i : Inst} (h : (s.part part).nextInst = id) :
    ((freshCode s part).modPart part fun p => { p with insts := p.insts ++ [i], nextInst := id + 1 }) = withInst s part i := by
  subst h
  simp only [withInst, State.modPart, freshCode_nextInst]

theorem launchInstantiate_single {home : Nat} {nodes : List Node} {bufs : List Buf} (hq : queue < 64)
    (hr : ((s.part part).queues.getD queue {}).recs = r :: rest) (h : nextLaunch s part = some (queue, r, .ready home nodes bufs none)) :
    exec (.launchInstantiate part) s = .next (claimNodes
      (withInst (setQueue s part queue { (s.part part).queues.getD queue {} with recs := rest }) part
        (launchedInst (s.part part).nextInst queue ((s.part part).queues.getD queue {}) r home nodes bufs none)) part (s.part part).nextInst) := by
  have hn (v : LQueue) : ((setQueue s part queue v).part part).nextInst = (s.part part).nextInst := by simp [setQueue]
  rw [exec_launchInstantiate, execLaunchInstantiate]
  simp only [h, dropOldest hr, freshCode_nextInst, freshCode_queues, setQueue_queue _ _ _ hq, hn]
  rw [withInst_eq (hn _)]
  rfl

theorem launchInstantiate_gang {home : Nat} {nodes : List Node} {bufs : List Buf} {g : Gang} (hq : queue < 64)
    (hr : ((s.part part).queues.getD queue {}).recs = r :: rest) (h : nextLaunch s part = some (queue, r, .ready home nodes bufs (some g))) :
    exec (.launchInstantiate part) s = .next (gangPrepared
      (withInst (setQueue s part queue { (s.part part).queues.getD queue {} with recs := rest }) part
        (launchedInst (s.part part).nextInst queue ((s.part part).queues.getD queue {}) r home nodes bufs (some g))) part (s.part part).nextInst g) := by
  have hn (v : LQueue) : ((setQueue s part queue v).part part).nextInst = (s.part part).nextInst := by simp [setQueue]
  rw [exec_launchInstantiate, execLaunchInstantiate]
  simp only [h, dropOldest hr, freshCode_nextInst, freshCode_queues, setQueue_queue _ _ _ hq, hn]
  rw [withInst_eq (hn _)]
  rfl

theorem launchInstantiate_refused (hr : ((s.part part).queues.getD queue {}).recs = r :: rest) (h : nextLaunch s part = some (queue, r, .refused)) :
    exec (.launchInstantiate part) s = .next (completionWrite
      (setQueue s part queue { (s.part part).queues.getD queue {} with recs := rest }) part (BitVec.ofNat 64 (leAt r 8 8)) (BitVec.ofNat 64 (leAt r 16 8)) 2) := by
  rw [exec_launchInstantiate, execLaunchInstantiate]
  simp only [h, dropOldest hr]

end

/-! ## What a walk of a partition's tables reads -/

theorem walk_congr {s u : State} {part : Nat} (hh : u.hbm = s.hbm) (hp : u.hbmPois = s.hbmPois) (hl : u.lodge = s.lodge)
    (hr : (u.part part).root = (s.part part).root) (va : Nat) : walk u part va = walk s part va := by
  have hentry (pa : Nat) : readEntry u pa = readEntry s pa := by unfold readEntry linePoisoned; rw [hh, hp]
  have hexists (pa : Nat) : paExists u pa = paExists s pa := by simp only [paExists, hl]
  have hcont (t va e : Nat) : contOk u t va e = contOk s t va e := by simp only [contOk, hentry]
  have hfrom (l t : Nat) : walkFrom u va l t = walkFrom s va l t := by
    induction l generalizing t with
    | zero => simp only [walkFrom, hentry, hexists, hcont]
    | succ l ih => simp only [walkFrom, hentry, hexists, ih]
  simp only [walk, hr, hfrom]

theorem locatePart_congr {s u : State} {part : Nat} (hh : u.hbm = s.hbm) (hp : u.hbmPois = s.hbmPois) (hl : u.lodge = s.lodge)
    (hr : (u.part part).root = (s.part part).root) (k : Access) (va : W64) : locatePart u part k va = locatePart s part k va := by
  simp only [locatePart, walk_congr hh hp hl hr]

end Sys2Proof.Proofs
end

section
/-! PROOF. The dispatcher's entries and where a task starts (R54, R297, R299). -/

namespace Sys2Proof.Proofs
open Sys2Proof Sys2Proof.Machine Sys2Proof.Laws

theorem findInst_modInst {s : State} {part inst : Nat} {f : Inst → Inst} {g : Inst} (h : findInst s part inst = some g) (hf : ∀ i, (f i).id = i.id) :
    findInst (modInst s part inst f) part inst = some (f g) := by
  have hid : g.id = inst := by simpa using List.find?_some h
  have hmap : ((fun i : Inst => i.id == inst) ∘ fun i => if i.id = inst then f i else i) = fun i => i.id == inst := by
    funext i
    simp only [Function.comp]
    split <;> simp [hf]
  simp only [findInst, modInst, part_modPart_same] at h ⊢
  rw [List.find?_map, hmap, h]
  simp [hid]

/-! ## The choice of a context -/

theorem mem_freeCtxs {s : State} {core t : Nat} :
    t ∈ freeCtxs s core ↔ t < 4 ∧ (s.thread core t).st = .free ∧ reserved s core t = false := by
  simp [freeCtxs]

theorem chooseOne_mem (s : State) {l : List Nat} {a : Nat} (h : a ∈ l) : ∃ b ∈ l, ∃ n, chooseOne s l = some (b, { s with free := n }) := by
  match l, h with
  | [b], _ => exact ⟨b, by simp, s.free, rfl⟩
  | b :: c :: r, _ =>
    have hlt : (s.drawFree 16).1.toNat % ((c :: r).length + 1) < (b :: c :: r).length := Nat.mod_lt _ (by simp)
    refine ⟨_, List.getElem_mem hlt, s.free + 1, ?_⟩
    simp only [chooseOne, List.getD, List.getElem?_eq_getElem hlt, Option.getD_some]
    rfl

/-! ## The choice of an entry -/

theorem prioOrder_of_recent {p : Pav} (h : ∀ j, j < 4 → p.passed.getD j 0 < 64) : prioOrder p = List.range 4 := by
  have haged : ((List.range 4).filter fun q => !(p.disp.getD q []).isEmpty && decide (64 ≤ p.passed.getD q 0)) = [] := by
    refine List.filter_eq_nil_iff.2 fun j hj => ?_
    have := h j (List.mem_range.1 hj)
    simp; omega
  simp [prioOrder, haged]

/-- The dispatcher of a pavilion comes to the entry `e` first: it is the oldest of the first priority that has any (R20), no priority has
been passed over too often, and no pre-empted context waits for its node (R298). -/
structure FirstEntry (s : State) (pav part prio : Nat) (e : DEntry) : Prop where
  owned : (s.pav pav).part = some part
  scrubbed : (s.pav pav).scrub = none
  level : prio < 4
  head : ∃ es, (s.pav pav).disp.getD prio [] = e :: es
  above : ∀ j, j < prio → (s.pav pav).disp.getD j [] = []
  recent : ∀ j, j < 4 → (s.pav pav).passed.getD j 0 < 64
  unfreed : ∀ l ∈ (s.pav pav).disp.toList, ∀ e ∈ l, victimFreed s e = false

theorem FirstEntry.dispatchTry {s u : State} {pav part prio : Nat} {e : DEntry} (h : FirstEntry s pav part prio e) (hu : tryEntry s pav e = some u) :
    Machine.dispatchTry s pav = some u := by
  obtain ⟨es, he⟩ := h.head
  have hnone : (s.pav pav).disp.toList.flatten.filter (victimFreed s) = [] := by
    refine List.filter_eq_nil_iff.2 fun e he => ?_
    obtain ⟨l, hl, hel⟩ := List.mem_flatten.1 he
    simp [h.unfreed l hl e hel]
  have hfirst : ((List.range 4).findSome? fun q => ((s.pav pav).disp.getD q []).findSome? (tryEntry s pav)) = some u := by
    refine findSome?_of_least List.pairwise_lt_range (List.mem_range.2 h.level) ?_ fun j _ hlt => ?_
    · simp [he, hu]
    · simp [h.above j hlt]
  simp [Machine.dispatchTry, h.owned, h.scrubbed, hnone, prioOrder_of_recent h.recent, hfirst]

theorem FirstEntry.exec_dispatch {s u : State} {pav part prio : Nat} {e : DEntry} (h : FirstEntry s pav part prio e) (hu : tryEntry s pav e = some u) :
    exec (.dispatch pav) s = .next u := by
  have : exec (.dispatch pav) s = execDispatch pav s := rfl
  rw [this, execDispatch, h.dispatchTry hu]
  rfl

/-- The pavilion after its dispatcher has sent the entry `e` of a priority: the entry is gone, and the dispatch counts (R20). -/
def sentPav (v : Pav) (prio : Nat) (e : DEntry) : Pav :=
  { v with disp := v.disp.map fun l => l.erase e, passed := v.passed.mapIdx fun j n => if j = prio then 0 else if prio < j then n + 1 else n }

theorem pav_countDispatch_dequeueD (s : State) (pav prio : Nat) (e : DEntry) :
    (countDispatch (dequeueD s pav e) pav prio).pav pav = sentPav (s.pav pav) prio e := by
  simp [countDispatch, dequeueD, sentPav]

/-! ## A fresh node -/

theorem coversFeat_iff {s : State} {core : Nat} {f : BitVec 16} : coversFeat s core f = true ↔ f &&& ~~~(s.featmask core) = 0 := by
  simp [coversFeat]

theorem tryEntry_fresh {s : State} {pav part i k : Nat} {g : Inst} (h : findInst s part i = some g) (ht : (g.nodes.getD k default).tend = false) :
    tryEntry s pav (.fresh part i k) = tryPinned s pav part i k (g.nodes.getD k default) := by
  simp only [tryEntry, entryNode, h, Option.map_some, ht, Bool.false_eq_true, if_false]

theorem tryPinned_free {s : State} {pav part i k t : Nat} {n : Node} (hf : coversFeat s n.pin.core n.feat = true) (ht : takesTasks s part n.pin.core = true)
    (hv : n.victim = none) (hc : t ∈ freeCtxs s n.pin.core) :
    ∃ c ∈ freeCtxs s n.pin.core, ∃ m, tryPinned s pav part i k n =
      some (startTask (countDispatch (dequeueD { s with free := m } pav (.fresh part i k)) pav n.prio) part i k n.pin.core c) := by
  obtain ⟨c, hcm, m, hch⟩ := chooseOne_mem s hc
  refine ⟨c, hcm, m, ?_⟩
  simp only [tryPinned, hf, ht, hv, Bool.not_true, Bool.false_eq_true, if_false, Option.toList_none, List.filter_nil, List.isEmpty_nil, if_true, hch]

/-- What a start does (R54, R75, R297). -/
theorem startTask_effect {s : State} {part i k core t : Nat} {g : Inst} (h : findInst s part i = some g) (ht : t < 4) :
    let u := startTask s part i k core t
    let n := g.nodes.getD k default
    u.pavs = s.pavs ∧ findInst u part i = some { g with nodes := g.nodes.modify k fun n => { n with st := .placed, victim := none } } ∧
      (u.core core).wait.getD t 0 = 0 ∧
      u.thread core t = startedThread (s.thread core t) n ⟨part, i, k, g.queue, n.prio, (s.part part).order⟩ := by
  have hwait (v : State) : ((v.resetWait core t).core core).wait.getD t 0 = 0 := by
    simp [State.resetWait, Vector.getD, show t < 6 by omega]
  have hthread (v : State) : (v.resetWait core t).thread core t = v.thread core t := by
    simp [State.resetWait, State.thread]
  have horder : findInst (nextOrder s part).2 part i = some g := by
    simp only [findInst, nextOrder, part_modPart_same] at h ⊢
    exact h
  simp only [startTask, h]
  refine ⟨?_, ?_, hwait _, ?_⟩
  · simp only [State.resetWait, modCore_pavs, modThread_pavs, modInst, nextOrder, modPart_pavs]
  · exact findInst_modInst horder fun _ => rfl
  · rw [hthread, thread_modThread_same _ _ _ _ ht]
    rfl

/-! ## A saved task -/

theorem tryEntry_resume {s : State} {pav part sl : Nat} {x : Saved} {g : Inst} (hx : mapGet (s.part part).saved sl = some x)
    (hg : findInst s part x.task.inst = some g) :
    tryEntry s pav (.resume part sl) = tryResume s pav part sl x (g.nodes.getD x.task.node default) := by
  simp [tryEntry, entryNode, hx, hg]

theorem home_mem_resumeCores (s : State) (part sl : Nat) (x : Saved) (n : Node) : x.home ∈ resumeCores s part sl x n := by
  unfold resumeCores; split <;> simp

theorem takesTasks_trusted {s : State} {part core : Nat} (h : takesTasks s part core = true) : (s.core core).suspect = false := by
  simp only [takesTasks, Bool.and_eq_true, Bool.not_eq_true'] at h
  exact h.2

theorem tryResume_home {s : State} {pav part sl t : Nat} {x : Saved} {n : Node} (hw : x.wait = .none) (hf : coversFeat s x.home n.feat = true)
    (ht : takesTasks s part x.home = true) (hc : t ∈ freeCtxs s x.home) :
    ∃ c ∈ freeCtxs s x.home, ∃ m, tryResume s pav part sl x n =
      some ((countDispatch (dequeueD { s with free := m } pav (.resume part sl)) pav x.task.prio).modThread x.home c fun th =>
        { th.emptied with st := .restoring sl }) := by
  obtain ⟨c, hcm, m, hch⟩ := chooseOne_mem s hc
  refine ⟨c, hcm, m, ?_⟩
  have hok : x.home ∈ (resumeCores s part sl x n).filter fun c => coversFeat s c n.feat :=
    List.mem_filter.2 ⟨home_mem_resumeCores .., hf⟩
  have hopen : x.home ∈ ((resumeCores s part sl x n).filter fun c => coversFeat s c n.feat).filter fun c =>
      takesTasks s part c && !(freeCtxs s c).isEmpty := by
    refine List.mem_filter.2 ⟨hok, ?_⟩
    simp [ht, List.ne_nil_of_mem hc]
  have hsome : ((resumeCores s part sl x n).filter fun c => coversFeat s c n.feat).isEmpty = false := by
    simpa using List.ne_nil_of_mem hok
  simp only [tryResume, hw, ne_eq, not_true_eq_false, if_false, hsome, takesTasks_trusted ht, Bool.and_false, Bool.or_false, Bool.false_eq_true,
    List.contains_iff_mem.2 hopen, if_true, hch]

end Sys2Proof.Proofs
end

section
/-! PROOF. Buffers, claims, retirement and the end of an instance (R292 to R296). -/

namespace Sys2Proof.Proofs
open Sys2Proof Sys2Proof.Machine Sys2Proof.Laws

/-! ## Buffers -/

theorem getD_of_length_le {α : Type} {l : List α} {b : Nat} (d : α) (hb : l.length ≤ b) : l.getD b d = d := by
  rw [List.getD, List.getElem?_eq_none hb, Option.getD_none]

theorem getD_modify {α : Type} (l : List α) (k b : Nat) (f : α → α) (d : α) (hb : b < l.length) :
    (l.modify k f).getD b d = if k = b then f (l.getD b d) else l.getD b d := by
  simp only [List.getD, List.getElem?_modify, List.getElem?_eq_getElem hb, Option.getD_some]
  split <;> rfl

theorem foldl_modify_length {α : Type} (f : α → α) (ks : List Nat) (l : List α) : (ks.foldl (fun l k => l.modify k f) l).length = l.length :=
  foldl_keeps List.length _ (fun _ _ => List.length_modify ..) ks l

/-- Modifying distinct places, one after another, modifies each once. -/
theorem foldl_modify_getD {α : Type} (f : α → α) (d : α) {ks : List Nat} (hk : ks.Nodup) (l : List α) {b : Nat} (hb : b < l.length) :
    (ks.foldl (fun l k => l.modify k f) l).getD b d = if b ∈ ks then f (l.getD b d) else l.getD b d := by
  induction ks generalizing l with
  | nil => simp
  | cons k ks ih =>
    obtain ⟨hnot, hks⟩ := List.nodup_cons.1 hk
    rw [List.foldl_cons, ih hks _ (by simpa using hb), getD_modify _ _ _ _ _ hb]
    by_cases hkb : k = b
    · subst hkb; simp [hnot]
    · simp [hkb, Ne.symm hkb]

/-- Two rounds of it, over places of which none is in both. -/
theorem foldl_modify_two {α : Type} (f g : α → α) (d : α) {is os : List Nat} (h : (is ++ os).Nodup) (l : List α) {b : Nat} (hb : b < l.length) :
    (os.foldl (fun l k => l.modify k g) (is.foldl (fun l k => l.modify k f) l)).getD b d =
      if b ∈ is then f (l.getD b d) else if b ∈ os then g (l.getD b d) else l.getD b d := by
  obtain ⟨hi, ho, hd⟩ := List.nodup_append.1 h
  rw [foldl_modify_getD g d ho _ (by rwa [foldl_modify_length]), foldl_modify_getD f d hi _ hb]
  by_cases hbi : b ∈ is
  · have : b ∉ os := fun hbo => hd b hbi b hbo rfl
    simp [hbi, this]
  · simp [hbi]

@[simp] theorem claim_length (bufs : List Buf) (n : Node) : (claim bufs n).length = bufs.length := by
  simp only [claim, foldl_modify_length]
@[simp] theorem retireBufs_length (bufs : List Buf) (n : Node) : (retireBufs bufs n).length = bufs.length := by
  simp only [retireBufs, foldl_modify_length]

theorem claim_getD {bufs : List Buf} {n : Node} (h : (n.ins ++ n.outs).Nodup) {b : Nat} (hb : b < bufs.length) :
    (claim bufs n).getD b default = if b ∈ n.ins then { bufs.getD b default with rd := (bufs.getD b default).rd + 1 }
      else if b ∈ n.outs then { bufs.getD b default with wr := true } else bufs.getD b default :=
  foldl_modify_two _ _ default h bufs hb

theorem retireBufs_getD {bufs : List Buf} {n : Node} (h : (n.ins ++ n.outs).Nodup) {b : Nat} (hb : b < bufs.length) :
    (retireBufs bufs n).getD b default = if b ∈ n.ins then { bufs.getD b default with rd := (bufs.getD b default).rd - 1, full := false }
      else if b ∈ n.outs then { bufs.getD b default with
        wr := false, full := true, gen := if (bufs.getD b default).full then (bufs.getD b default).gen else (bufs.getD b default).gen + 1 }
      else bufs.getD b default :=
  foldl_modify_two _ _ default h bufs hb

/-! ## Which nodes may claim (R295) -/

theorem nodeReady_iff {bufs : List Buf} {n : Node} : nodeReady bufs n = true ↔ n.st = .pending ∧
    (∀ b ∈ n.ins, (bufs.getD b default).full = true ∧ (bufs.getD b default).wr = false) ∧
      ∀ b ∈ n.outs, (bufs.getD b default).full = false ∧ (bufs.getD b default).wr = false ∧ (bufs.getD b default).rd = 0 := by
  simp [nodeReady, and_assoc]

/-- A claim lets no other node claim: it only takes buffers away. -/
theorem nodeReady_of_claim {bufs : List Buf} {n m : Node} (h : (n.ins ++ n.outs).Nodup) (hr : nodeReady (claim bufs n) m = true) :
    nodeReady bufs m = true := by
  have hbuf (b : Nat) : ((claim bufs n).getD b default).full = (bufs.getD b default).full ∧
      (((claim bufs n).getD b default).wr = false → (bufs.getD b default).wr = false) ∧
      (((claim bufs n).getD b default).rd = 0 → (bufs.getD b default).rd = 0) := by
    by_cases hb : b < bufs.length
    · rw [claim_getD h hb]
      split
      · simp
      · split <;> simp
    · have hle : bufs.length ≤ b := Nat.le_of_not_lt hb
      rw [getD_of_length_le _ hle, getD_of_length_le _ (by rwa [claim_length])]
      exact ⟨rfl, id, id⟩
  obtain ⟨hp, hi, ho⟩ := nodeReady_iff.1 hr
  refine nodeReady_iff.2 ⟨hp, fun b hb => ?_, fun b hb => ?_⟩
  · obtain ⟨hf, hw, -⟩ := hbuf b
    exact ⟨hf ▸ (hi b hb).1, hw (hi b hb).2⟩
  · obtain ⟨hf, hw, hrd⟩ := hbuf b
    obtain ⟨h1, h2, h3⟩ := ho b hb
    exact ⟨hf ▸ h1, hw h2, hrd h3⟩

/-! ## The claims of an instance -/

/-- A gang member that is not committed has no eligible node (R304), nor has an instance that is to be aborted (R294). -/
def Begun (g : Inst) : Prop := g.aborted = false ∧ ∀ m, g.gang = some m → m.committed = true

/-- One node of an instance claims its buffers and enters its dispatcher. -/
def claimed (s : State) (part inst k : Nat) (g : Inst) : State :=
  enqueueD (modInst s part inst fun i => { i with
    bufs := claim i.bufs (g.nodes.getD k default), nodes := i.nodes.modify k fun n => { n with st := .eligible } })
    (nodePav g (g.nodes.getD k default)) (g.nodes.getD k default).prio false (.fresh part inst k)

/-- One node of an instance is tested. -/
def claimAt (part inst : Nat) (s : State) (k : Nat) : State :=
  match findInst s part inst with
  | none => s
  | some g => if nodeReady g.bufs (g.nodes.getD k default) then claimed s part inst k g else s

section
variable {s : State} {part inst k : Nat} {g : Inst}

theorem claimNodes_of_begun (hg : findInst s part inst = some g) (h : Begun g) :
    claimNodes s part inst = (List.range g.nodes.length).foldl (claimAt part inst) s := by
  obtain ⟨ha, hc⟩ := h
  unfold claimNodes
  simp only [hg]
  rw [if_neg]
  · rfl
  · cases hm : g.gang with
    | none => simp [ha]
    | some m => simp [ha, hc m hm]

theorem claimNodes_of_not_begun (hg : findInst s part inst = some g) (h : ¬ Begun g) : claimNodes s part inst = s := by
  unfold claimNodes
  simp only [hg]
  rw [if_pos]
  cases ha : g.aborted with
  | true => rfl
  | false =>
    cases hm : g.gang with
    | none => exact absurd ⟨ha, by simp [hm]⟩ h
    | some m =>
      cases hc : m.committed with
      | false => simp [hc]
      | true => exact absurd ⟨ha, by simp [hm, hc]⟩ h

theorem claimAt_of_ready (hg : findInst s part inst = some g) (h : nodeReady g.bufs (g.nodes.getD k default) = true) :
    claimAt part inst s k = claimed s part inst k g := by
  simp only [claimAt, hg, h, if_true]

theorem claimAt_of_not_ready (hg : findInst s part inst = some g) (h : nodeReady g.bufs (g.nodes.getD k default) ≠ true) :
    claimAt part inst s k = s := by
  simp only [claimAt, hg]
  exact if_neg h

theorem foldl_claimAt_of_not_ready {l : List Nat} (hg : findInst s part inst = some g)
    (h : ∀ j ∈ l, nodeReady g.bufs (g.nodes.getD j default) ≠ true) : l.foldl (claimAt part inst) s = s := by
  induction l with
  | nil => rfl
  | cons j l ih =>
    rw [List.foldl_cons, claimAt_of_not_ready hg (h j List.mem_cons_self)]
    exact ih fun i hi => h i (List.mem_cons_of_mem _ hi)

theorem findInst_claimed (hg : findInst s part inst = some g) : findInst (claimed s part inst k g) part inst =
    some { g with bufs := claim g.bufs (g.nodes.getD k default), nodes := g.nodes.modify k fun n => { n with st := .eligible } } :=
  findInst_modInst (f := fun i => { i with
    bufs := claim i.bufs (g.nodes.getD k default), nodes := i.nodes.modify k fun n => { n with st := .eligible } }) hg fun _ => rfl

/-- The first node that may claim claims, and the claims of the others follow. -/
theorem claimNodes_first (hg : findInst s part inst = some g) (hb : Begun g) (hk : k < g.nodes.length)
    (hr : nodeReady g.bufs (g.nodes.getD k default) = true) (hfirst : ∀ j, j < k → nodeReady g.bufs (g.nodes.getD j default) ≠ true)
    (hn : ((g.nodes.getD k default).ins ++ (g.nodes.getD k default).outs).Nodup) :
    claimNodes s part inst = claimNodes (claimed s part inst k g) part inst := by
  obtain ⟨l, r, hl⟩ := List.append_of_mem (List.mem_range.2 hk)
  have hlt : ∀ j ∈ l, j < k := by
    have hp : (List.range g.nodes.length).Pairwise (· < ·) := List.pairwise_lt_range
    rw [hl] at hp
    exact fun j hj => (List.pairwise_append.1 hp).2.2 j hj k List.mem_cons_self
  have hg' := findInst_claimed (k := k) hg
  have hrest : ∀ j ∈ l ++ [k], nodeReady (claim g.bufs (g.nodes.getD k default))
      ((g.nodes.modify k fun n => { n with st := .eligible }).getD j default) ≠ true := by
    intro j hj hready
    rcases List.mem_append.1 hj with hj | hj
    · have hjk := hlt j hj
      rw [getD_modify _ _ _ _ _ (by omega), if_neg (by omega)] at hready
      exact hfirst j hjk (nodeReady_of_claim hn hready)
    · obtain rfl := List.mem_singleton.1 hj
      rw [getD_modify _ _ _ _ _ hk, if_pos rfl] at hready
      obtain ⟨hst, -⟩ := nodeReady_iff.1 hready
      contradiction
  rw [claimNodes_of_begun hg hb, claimNodes_of_begun hg' hb]
  simp only [List.length_modify, hl]
  calc (l ++ k :: r).foldl (claimAt part inst) s
      = r.foldl (claimAt part inst) (claimed s part inst k g) := by
        rw [List.foldl_append, foldl_claimAt_of_not_ready hg fun j hj => hfirst j (hlt j hj), List.foldl_cons, claimAt_of_ready hg hr]
    _ = (l ++ k :: r).foldl (claimAt part inst) (claimed s part inst k g) := by
        rw [show l ++ k :: r = (l ++ [k]) ++ r by simp, List.foldl_append, foldl_claimAt_of_not_ready hg' hrest]

/-! ## Retirement (R296) -/

/-- The state in which a node has retired and freed and filled its buffers. -/
def retiredInst (s : State) (part inst k : Nat) (n : Node) : State :=
  modInst s part inst fun i => { i with bufs := retireBufs i.bufs n, nodes := i.nodes.modify k fun n => { n with st := .retired } }

theorem retireNode_goes_on {i : Inst} {n : Node} (hg : findInst s part inst = some g)
    (hi : findInst (claimNodes (retiredInst s part inst k (g.nodes.getD k default)) part inst) part inst = some i)
    (hn : n ∈ i.nodes) (h : n.st ≠ .retired) :
    retireNode s part inst k = claimNodes (retiredInst s part inst k (g.nodes.getD k default)) part inst := by
  have hall : (i.nodes.all fun n => n.st == .retired) = false := List.all_eq_false.2 ⟨n, hn, by simpa using h⟩
  unfold retiredInst at hi ⊢
  simp only [retireNode, hg, hi, hall, Bool.false_eq_true, if_false]

theorem retireNode_last {i : Inst} (hg : findInst s part inst = some g)
    (hi : findInst (claimNodes (retiredInst s part inst k (g.nodes.getD k default)) part inst) part inst = some i)
    (h : ∀ n ∈ i.nodes, n.st = .retired) :
    retireNode s part inst k = endInstance (claimNodes (retiredInst s part inst k (g.nodes.getD k default)) part inst) part inst 0 := by
  have hall : (i.nodes.all fun n => n.st == .retired) = true := by simpa using h
  unfold retiredInst at hi ⊢
  simp only [retireNode, hg, hi, hall, if_true]

theorem modInst_congr {f h : Inst → Inst} (hf : ∀ i ∈ (s.part part).insts, i.id = inst → f i = h i) :
    modInst s part inst f = modInst s part inst h := by
  have : ((s.part part).insts.map fun i => if i.id = inst then f i else i) = (s.part part).insts.map fun i => if i.id = inst then h i else i := by
    refine List.map_congr_left fun i hi => ?_
    split
    · next e => exact hf i hi e
    · rfl
  simp only [modInst, State.modPart, this]

/-! ## The end of an instance (R294) -/

/-- No task of the instance is in a context or in a save slot. -/
structure Taskless (s : State) (part inst : Nat) : Prop where
  live : ∀ e ∈ s.cores, ∀ j, j < 4 → ∀ x, (s.thread e.1 j).task = some x → x.part = part → x.inst ≠ inst
  saved : ∀ e ∈ (s.part part).saved, e.2.task.inst ≠ inst

theorem foldl_fixed {α σ : Type} {f : σ → α → σ} {l : List α} {s : σ} (h : ∀ a ∈ l, f s a = s) : l.foldl f s = s := by
  induction l with
  | nil => rfl
  | cons a l ih =>
    rw [List.foldl_cons, h a List.mem_cons_self]
    exact ih fun b hb => h b (List.mem_cons_of_mem _ hb)

/-- The end of an instance without tasks: it leaves its partition, and its completion is written. -/
theorem endInstance_taskless (hg : findInst s part inst = some g) (h : Taskless s part inst) (status : Nat) :
    ∃ pavs, endInstance s part inst status = completionWrite
      { s.modPart part fun p => { p with insts := p.insts.filter fun i => i.id != inst } with pavs := pavs } part g.caddr g.cval status := by
  unfold endInstance
  split
  · next hn => exact absurd (hn.symm.trans hg) (by simp)
  · next g' hg' =>
    obtain rfl := Option.some.inj (hg'.symm.trans hg)
    extract_lets s1 mine s2 gone s3 s4
    have h1 : s1 = s := by
      refine foldl_fixed fun e he => foldl_fixed fun t ht => ?_
      split
      · rfl
      · next x hx =>
        rw [if_neg]
        rintro ⟨hp, hi, -⟩
        exact h.live e he t (List.mem_range.1 ht) x hx hp hi
    have h2 : s2 = s := by
      have hmine : mine = [] := by
        refine List.filter_eq_nil_iff.2 fun e he => ?_
        rw [h1] at he
        simpa using h.saved e he
      simp only [s2, hmine, List.foldl_nil, h1]
    exact ⟨s3.pavs, by simp only [s4, s3, h2]; rfl⟩
end

end Sys2Proof.Proofs
end

section
/-! PROOF. What the steps of a launch give, and O44. -/

namespace Sys2Proof.Proofs
open Sys2Proof Sys2Proof.Machine Sys2Proof.Laws

/-! ## What each step gives -/

section
variable {s : State} {part queue : Nat} {r rec : List Byte} {rest : List (List Byte)} {l : Loc}

/-- A record that finds no place is counted and reported (R267). -/
theorem launchRecordWrite_lost (hlen : rec.length = 64) (hq : queue < 64) (hreach : s.reaches part = true)
    (h : ((s.part part).queues.getD queue {}).enabled = false ∨ 256 ≤ ((s.part part).queues.getD queue {}).recs.length) :
    ∃ u, exec (.launchRecordWrite part queue rec) s = .next u ∧
      (u.part part).queues.getD queue {} =
        { (s.part part).queues.getD queue {} with overflow := ((s.part part).queues.getD queue {}).overflow + 1 } ∧
      ((s.part part).fq.length < 256 → (s.part part).fqWait = [] →
        ∃ f, (u.part part).fq = (s.part part).fq ++ [f] ∧ f.cls = 6 ∧ f.code = 9 ∧ f.flags = 4 ∧ f.aux = BitVec.ofNat 32 queue) := by
  have hfq (v : LQueue) : ((setQueue s part queue v).part part).fq = (s.part part).fq := by simp [setQueue]
  have hwait (v : LQueue) : ((setQueue s part queue v).part part).fqWait = (s.part part).fqWait := by simp [setQueue]
  refine ⟨_, (exec_launchRecordWrite hlen hq hreach).trans (congrArg _ (enqueueLaunch_lost rec h)), ?_, fun hroom hempty =>
    ⟨lostLaunch s part queue, ?_, rfl, rfl, rfl, rfl⟩⟩
  · rw [post_queues, setQueue_queue _ _ _ hq]
  · rw [post_fq_of_room _ _ (by rwa [hfq]) (by rwa [hwait]), hfq]

/-- A refused launch has the completion status 2 (R291, R294). -/
theorem launchInstantiate_refused_effect (hr : ((s.part part).queues.getD queue {}).recs = r :: rest)
    (h : nextLaunch s part = some (queue, r, .refused)) (hl : locatePart s part .write (BitVec.ofNat 64 (leAt r 8 8)) = .ok l) (hm : s.memOk = true) :
    ∃ u, exec (.launchInstantiate part) s = .next u ∧
      u.part part = (setQueue s part queue { (s.part part).queues.getD queue {} with recs := rest }).part part ∧
      bytesAt u l 8 = 2 ∧ bytesAt u (l.add 8) 8 = leAt r 16 8 ∧ ∀ m, (∀ j, j < 16 → m ≠ l.add j) → byteAt u m = byteAt s m := by
  have hroot (v : LQueue) : ((setQueue s part queue v).part part).root = (s.part part).root := by simp [setQueue]
  have hl' (v : LQueue) := (locatePart_congr (s := s) (u := setQueue s part queue v) rfl rfl rfl (hroot v) .write (BitVec.ofNat 64 (leAt r 8 8))).trans hl
  obtain ⟨hpart, hstatus, hcval, hframe⟩ := completionWrite_bytes (cval := BitVec.ofNat 64 (leAt r 16 8)) (status := 2) (hl' _) hm
  refine ⟨_, launchInstantiate_refused hr h, hpart part, hstatus, hcval.trans ?_, hframe⟩
  exact Nat.mod_eq_of_lt (leAt_lt r 16 8)
end

section
variable {s : State} {pav part prio t : Nat} {g : Inst}

/-- A pinned node starts in a free context of its core (R54, R297). -/
theorem dispatch_fresh {i k : Nat} (he : FirstEntry s pav part prio (.fresh part i k)) (hg : findInst s part i = some g)
    (htend : (g.nodes.getD k default).tend = false) (hprio : (g.nodes.getD k default).prio = prio) (hv : (g.nodes.getD k default).victim = none)
    (htakes : takesTasks s part (g.nodes.getD k default).pin.core = true)
    (hfeat : coversFeat s (g.nodes.getD k default).pin.core (g.nodes.getD k default).feat = true)
    (ht : t ∈ freeCtxs s (g.nodes.getD k default).pin.core) :
    ∃ u c, c ∈ freeCtxs s (g.nodes.getD k default).pin.core ∧ exec (.dispatch pav) s = .next u ∧
      u.pav pav = sentPav (s.pav pav) prio (.fresh part i k) ∧
      findInst u part i = some { g with nodes := g.nodes.modify k fun n => { n with st := .placed, victim := none } } ∧
      (u.core (g.nodes.getD k default).pin.core).wait.getD c 0 = 0 ∧
      u.thread (g.nodes.getD k default).pin.core c = startedThread (s.thread (g.nodes.getD k default).pin.core c) (g.nodes.getD k default)
        ⟨part, i, k, g.queue, (g.nodes.getD k default).prio, (s.part part).order⟩ := by
  obtain ⟨c, hc, m, hu⟩ := tryPinned_free (pav := pav) (i := i) (k := k) hfeat htakes hv ht
  obtain ⟨hc4, -, -⟩ := mem_freeCtxs.1 hc
  obtain ⟨hpavs, hinst, hwait, hthread⟩ :=
    startTask_effect (s := countDispatch (dequeueD { s with free := m } pav (.fresh part i k)) pav (g.nodes.getD k default).prio)
      (k := k) (core := (g.nodes.getD k default).pin.core) hg hc4
  refine ⟨_, c, hc, he.exec_dispatch ((tryEntry_fresh hg htend).trans hu), ?_, hinst, hwait, hthread⟩
  simp only [State.pav, hpavs]
  rw [← hprio]
  exact pav_countDispatch_dequeueD ..

/-- A saved task gets a context of its home core (R299). -/
theorem dispatch_resume {sl : Nat} {x : Saved} (he : FirstEntry s pav part prio (.resume part sl)) (hx : mapGet (s.part part).saved sl = some x)
    (hg : findInst s part x.task.inst = some g) (hw : x.wait = .none) (hprio : x.task.prio = prio) (htakes : takesTasks s part x.home = true)
    (hfeat : coversFeat s x.home (g.nodes.getD x.task.node default).feat = true) (ht : t ∈ freeCtxs s x.home) :
    ∃ u c, c ∈ freeCtxs s x.home ∧ exec (.dispatch pav) s = .next u ∧ u.pav pav = sentPav (s.pav pav) prio (.resume part sl) ∧
      (u.thread x.home c).st = .restoring sl := by
  obtain ⟨c, hc, m, hu⟩ := tryResume_home (pav := pav) (sl := sl) hw hfeat htakes ht
  obtain ⟨hc4, -, -⟩ := mem_freeCtxs.1 hc
  refine ⟨_, c, hc, he.exec_dispatch ((tryEntry_resume hx hg).trans hu), ?_, ?_⟩
  · rw [pav_modThread, pav_countDispatch_dequeueD, hprio]
    rfl
  · rw [thread_modThread_same _ _ _ _ hc4]
end

/-- The end of an instance whose tasks are gone: it is taken away and its completion written (R294). -/
theorem endInstance_effect {s : State} {part inst : Nat} {g : Inst} {l : Loc} (hg : findInst s part inst = some g) (ht : Taskless s part inst)
    (hl : locatePart s part .write g.caddr = .ok l) (hm : s.memOk = true) (status : Nat) :
    ((endInstance s part inst status).part part).insts = (s.part part).insts.filter (fun i => i.id != inst) ∧
      bytesAt (endInstance s part inst status) l 8 = status % 2 ^ 64 ∧ bytesAt (endInstance s part inst status) (l.add 8) 8 = g.cval.toNat ∧
      ∀ m, (∀ j, j < 16 → m ≠ l.add j) → byteAt (endInstance s part inst status) m = byteAt s m := by
  obtain ⟨pavs, he⟩ := endInstance_taskless hg ht status
  have hpart (p : NMap Pav) (f : Part → Part) : State.part { s.modPart part f with pavs := p } part = f (s.part part) := part_modPart_same s part f
  have hl' := (locatePart_congr (s := s) (u := { s.modPart part fun p => { p with insts := p.insts.filter fun i => i.id != inst } with pavs := pavs })
    (part := part) rfl rfl rfl (by rw [hpart]) .write g.caddr).trans hl
  obtain ⟨hsame, hstatus, hcval, hframe⟩ := completionWrite_bytes (cval := g.cval) (status := status) hl' hm
  rw [he]
  exact ⟨by rw [hsame, hpart], hstatus, hcval, hframe⟩

/-- Settles O44: a clause is one of the laws above about its step, once its hypotheses are read as the
front end's choice (`nextLaunch`), the dispatcher's choice (`FirstEntry`) or a node's readiness
(`nodeReady`). -/
theorem launchesAndClaims : Obligations.LaunchesAndClaims := by
  unfold Obligations.LaunchesAndClaims
  refine ⟨fun s part queue rec r rest pav prio es l => ?_, fun s part inst k status g l => ?_⟩
  · extract_lets p q setQ taken next inst made v first left
    have hentry {e : DEntry} (h : first e) : FirstEntry s pav part prio e := by
      obtain ⟨hpart, hscrub, hprio, hhead, habove, hrecent, hfreed⟩ := h
      exact ⟨hpart, hscrub, hprio, ⟨es, hhead⟩, habove, hrecent, hfreed⟩
    have hnext (h : next) {c : Launch} (hc : checkLaunch s part q.prio r = c) (hh : c ≠ .held) :
        queue < 64 ∧ q.recs = r :: rest ∧ nextLaunch s part = some (queue, r, c) := by
      obtain ⟨he, hp, hq, hr, hi, hfirst⟩ := h
      exact ⟨hq, hr, nextLaunch_of_first he hp hq hr hi hfirst hc hh⟩
    refine ⟨fun hlen hq hreach => ⟨fun he hn => ?_, launchRecordWrite_lost hlen hq hreach⟩,
      fun h => ⟨fun home nodes bufs hc => ?_, fun home nodes bufs g hc => ?_, fun hc hl hm => ?_⟩, fun i k g t => ?_, fun sl x g t => ?_⟩
    · exact (exec_launchRecordWrite hlen hq hreach).trans (congrArg _ (enqueueLaunch_of_room rec he hn))
    · obtain ⟨hq, hr, hl⟩ := hnext h hc (by simp)
      exact launchInstantiate_single hq hr hl
    · obtain ⟨hq, hr, hl⟩ := hnext h hc (by simp)
      exact launchInstantiate_gang hq hr hl
    · obtain ⟨-, hr, hn⟩ := hnext h hc (by simp)
      exact launchInstantiate_refused_effect hr hn hl hm
    · extract_lets n core
      intro he hg _ htend hprio hv htakes hfeat ht hfree hres
      obtain ⟨u, c, hc, hu, hpav, hinst, hwait, hthread⟩ :=
        dispatch_fresh (hentry he) hg htend hprio hv htakes (coversFeat_iff.2 hfeat) (mem_freeCtxs.2 ⟨ht, hfree, hres⟩)
      obtain ⟨hc4, hcfree, hcres⟩ := mem_freeCtxs.1 hc
      exact ⟨u, c, hc4, hu, hcfree, hcres, hpav, hinst, hwait, hthread⟩
    · extract_lets n
      intro he hx hg hw hprio htakes hfeat ht hfree hres
      obtain ⟨u, c, hc, hu, hpav, hst⟩ :=
        dispatch_resume (hentry he) hx hg hw hprio htakes (coversFeat_iff.2 hfeat) (mem_freeCtxs.2 ⟨ht, hfree, hres⟩)
      obtain ⟨hc4, hcfree, -⟩ := mem_freeCtxs.1 hc
      exact ⟨u, c, hc4, hu, hpav, hst, hcfree⟩
  · extract_lets n buf begun ready pointwise pav
    intro hg
    have hready (j : Nat) : ready j ↔ nodeReady g.bufs (g.nodes.getD j default) = true := nodeReady_iff.symm
    refine ⟨fun h => ?_, fun hb hk hr hfirst hn => ?_, fun hk hn hone => ?_, fun hlive hsaved hl hm =>
      endInstance_effect hg ⟨hlive, hsaved⟩ hl hm status⟩
    · by_cases hb : Begun g
      · have hnone := h.resolve_left fun hnb => hnb hb
        rw [claimNodes_of_begun hg hb]
        exact foldl_claimAt_of_not_ready hg fun j hj hr => hnone j (List.mem_range.1 hj) ((hready j).2 hr)
      · exact claimNodes_of_not_begun hg hb
    · refine ⟨claim g.bufs n, ⟨claim_length .., fun b hb => claim_getD hn hb⟩, ?_⟩
      rw [claimNodes_first hg hb hk ((hready k).1 hr) (fun j hj hr => hfirst j hj ((hready j).2 hr)) hn]
      have hclaim (i : Inst) : (if i = g then claim g.bufs n else claim i.bufs n) = claim i.bufs n := by
        split
        · next e => rw [e]
        · rfl
      simp only [hclaim]
      rfl
    · refine ⟨retireBufs g.bufs n, ⟨retireBufs_length .., fun b hb => retireBufs_getD hn hb⟩, ?_⟩
      have hw : (modInst s part inst fun i => { i with bufs := retireBufs g.bufs n, nodes := i.nodes.modify k fun n => { n with st := .retired } }) =
          retiredInst s part inst k n := modInst_congr fun i hi hid => by rw [hone i hi hid]
      simp only [hw]
      refine ⟨?_, fun i hi h => retireNode_last hg hi h⟩
      rintro ⟨i, hi, m, hmi, hst⟩
      exact retireNode_goes_on hg hi hmi hst

end Sys2Proof.Proofs
end

section
/-! PROOF. O47. -/

namespace Sys2Proof.Proofs
open Sys2Proof Sys2Proof.Machine Sys2Proof.Laws

/-- One partition, which has pavilion 0, no record in force: an issue weighs nothing. -/
def weightless : State := { pavs := [(0, { part := some 0 })], parts := [(0, {})] }

/-- The same under a record by which an issue weighs one unit of the counters. -/
def weighted : State := { weightless with lodge := { record := some { weights := { issue := 256 } } } }

/-- Refutes O47: the clause on `countIssue s x u` puts the energy charged at the weights in force in `u`,
and the model charges those in force in `s` (R356). No instruction changes the record in force, but the
clause is over any two states: with `weightless` for `s` and `weighted` for `u` an issue charges 0, where
the clause says 1. -/
theorem not_issueAndPipes : ¬ Obligations.IssueAndPipes := by
  unfold Obligations.IssueAndPipes
  intro h
  obtain ⟨-, -, hcount, -⟩ := h
  obtain ⟨-, -, -, -, -, hissue⟩ := hcount weightless weighted ⟨0, 4⟩ 0 0
  obtain ⟨-, -, -, henergy⟩ := hissue (by decide) (by decide)
  exact absurd (henergy 0 rfl) (by decide)

end Sys2Proof.Proofs
end
